-- ==== Sys2Proof/Word.lean ====
section
/-! DEFINITION. The words of the KM840 and the numbers that name its blocks.
Only what the manual treats as bits is a bit vector: register contents, host addresses, characters, record
bytes and timebase values. Lines, contexts, queues and table entries are numbered by `Fin`; counts are `Nat`. -/

namespace Sys2Proof

/-- A byte of host memory, or the eight data bits of a character. -/
abbrev Byte := BitVec 8

/-- A 16-bit field of a record, or a CRC-16. -/
abbrev Half := BitVec 16

/-- A 32-bit register, host address or timebase value. -/
abbrev Word := BitVec 32

/-- Lines 0..7. -/
abbrev LineId := Fin 8

/-- Contexts 0..15 of a line's exchange table (R42). -/
abbrev CtxId := Fin 16

/-- Poll entries 0..31 of a line's poll table (R91). -/
abbrev PollId := Fin 32

/-- Station entries 0..63 of a line's station table (R74). -/
abbrev StationIdx := Fin 64

/-- Submission queues: 0 is the admin SQ, 1..16 the I/O SQs (R142). -/
abbrev SqId := Fin 17

/-- Completion queues: 0 is the admin CQ, 1..8 the I/O CQs (R142). -/
abbrev CqId := Fin 9

/-- Requesters of the memory port: 0 the queue engine, 1 the admin unit, 2..9 the line engines (R200). -/
abbrev ReqId := Fin 10

end Sys2Proof
end

