-- ==== Sys2Proof/Syntax.lean ====
section
/-! DEFINITION. The commands of the KM840: one constructor per row of spec/opcode_table.json.
A row is a register access of the host, a step of the part's own blocks, the expiry of a timer, or a happening on a
line. The table gives the rows no bits; an operand is what the outside world supplies with the step (the number in a
register write, the line concerned, the levels sampled, what the host bus answers). -/

namespace Sys2Proof

/-- The admin setup registers of R194. -/
inductive SetupReg where
  | asqBase | acqBase | adminSize
  deriving DecidableEq, Repr

/-- One access of the target port: R192 takes 32-bit accesses with all four byte enables set. -/
structure RegAccess where
  /-- a write access; otherwise a read -/
  write : Bool
  /-- byte offset from the window base; the window is 36 bytes -/
  offset : Nat
  /-- the byte enables set -/
  enables : BitVec 4
  /-- the data of a write -/
  data : Word
  deriving DecidableEq, Repr

/-- How the host bus answers the beats of a transfer (R200). -/
inductive BusAnswer where
  /-- every beat is answered without error -/
  | completes
  /-- the beats before this one complete, this one is answered with an error response -/
  | errorAt (beat : Nat)
  /-- the beats before this one complete, this one is not answered -/
  | silentAt (beat : Nat)
  deriving DecidableEq, Repr

/-- The three samples of one bit, at 7/16, 8/16 and 9/16 of its period; `true` is mark (R20). -/
structure BitSamples where
  s7 : Bool
  s8 : Bool
  s9 : Bool
  deriving DecidableEq, Repr

/-- The samples of a character after its start bit: bits 0..7 the data bits in the order sent, bit 8 the parity bit
(not read where the format has none), bit 9 the first stop bit; a set bit is mark (R21). -/
structure CharSamples where
  s7 : BitVec 10
  s8 : BitVec 10
  s9 : BitVec 10
  deriving DecidableEq, Repr

/-- The commands, in the order of the table. -/
inductive Instr where
  | powerOn
  | softReset (runBit intBit : Bool)
  | run (intBit : Bool)
  | runClear (intBit : Bool)
  | intEnable (runBit intBit : Bool)
  | adminSetupWrite (reg : SetupReg) (value : Word)
  | postSq (number : BitVec 5) (tail : BitVec 9)
  | postBq (number : BitVec 5) (tail : BitVec 9)
  | ack (number : BitVec 4) (head : BitVec 9)
  | statusRead
  | registerWrite (access : RegAccess)
  /-- `hostStores` are the stores the host made to shared memory since the last transfer, oldest first. -/
  | portGrant (hostStores : List (Nat × Byte)) (answer : BusAnswer)
  | beatTimeout
  | adminFetchStart
  | adminFetchComplete
  | badCommand
  | parameterBlockReadDone
  | createCq
  | deleteCq
  | createSq
  | deleteSq
  | configureLine
  | startLine
  | stopLine
  | setPoll
  | pollEnable
  | pollDisable
  | pollClear
  | stationReset
  | stationRead
  | setFilter
  | abortSqAndTag
  | abortLineAndStation
  | abortWholeSq
  /-- `rdy` is the level of RDY on the line named, at that moment. -/
  | readCounters (rdy : Bool)
  | resultWriteDone
  | stopComplete (line : LineId)
  | sqDeletionDone (sq : SqId)
  | fetchGrant (line : LineId)
  | fetchComplete
  | requestDataReadDone
  | descriptorReadComplete
  | bufferPromise (line : LineId)
  | payloadWriteDone
  | monitorDataWriteDone
  | slotGrant (cq : CqId)
  | completionWriteDone
  | delayTimerExpiry (cq : CqId)
  | sendOrder (line : LineId)
  /-- `rdy` is the level of RDY at that instant. -/
  | idleRequirementMet (line : LineId) (rdy : Bool)
  | rdyAsserted (line : LineId)
  | notReady (line : LineId)
  | leadEnd (line : LineId)
  | sendEnd (line : LineId)
  | holdEnd (line : LineId)
  | characterReceived (line : LineId) (samples : CharSamples)
  | noiseStart (line : LineId) (samples : BitSamples)
  | echoMissing (line : LineId)
  | startSeen (line : LineId) (samples : BitSamples)
  | noStart (line : LineId)
  | blockEnd (line : LineId)
  | settleEnd (line : LineId)
  | holdOffExpiry (line : LineId) (ctx : CtxId)
  | pollDue (line : LineId) (entry : PollId)
  | carDeasserted (line : LineId)
  | carReasserted (line : LineId)
  | quiet (line : LineId)
  | qualifiedStartBit (line : LineId) (samples : BitSamples)
  | rxdFallingEdge (line : LineId)
  | rxdReturnToMark (line : LineId)
  | contentionStop (line : LineId)
  | resetNRelease
  deriving DecidableEq, Repr

end Sys2Proof
end

