-- ==== Sys2Proof/Decode.lean ====
section
/-! DEFINITION. The command a word spells. The KM840 is a block and its commands are happenings: spec/opcode_table.json
gives none of its rows any bits, so no word spells a command, whatever its width. -/

namespace Sys2Proof

def decodeTableWord (_nbits _w : Nat) : Option Instr := none

end Sys2Proof
end

