-- ==== Sys2Proof/Machine/Bytes.lean ====
section
/-! DEFINITION. Byte order, the CRC-16, comparisons of times, and ring arithmetic. -/

namespace Sys2Proof.Machine

/-! ## Byte order: least significant byte first (conventions of file 00) -/

def byteAt (b : List Byte) (o : Nat) : Byte := b.getD o 0

def half (b : List Byte) (o : Nat) : Half := byteAt b (o + 1) ++ byteAt b o

def word (b : List Byte) (o : Nat) : Word := half b (o + 2) ++ half b o

def halfBytes (v : Half) : List Byte := [v.extractLsb' 0 8, v.extractLsb' 8 8]

def wordBytes (v : Word) : List Byte :=
  [v.extractLsb' 0 8, v.extractLsb' 8 8, v.extractLsb' 16 8, v.extractLsb' 24 8]

/-! ## The CRC-16 (R11) -/

/-- One bit into the register. -/
def crcBit (reg : Half) (bit : Bool) : Half :=
  let shifted := reg >>> 1
  if bit != reg.getLsbD 0 then shifted ^^^ 0x8408#16 else shifted

/-- Eight data bits, least significant first. -/
def crcChar (reg : Half) (c : Byte) : Half :=
  [0, 1, 2, 3, 4, 5, 6, 7].foldl (fun r i => crcBit r (c.getLsbD i)) reg

/-- R11: the CRC-16 of a sequence of characters. -/
def crc16 (chars : List Byte) : Half := ~~~ (chars.foldl crcChar 0xFFFF#16)

/-! ## Times on the timebase (R97) -/

/-- R97: `t` is reached at `now`. -/
def reached (now t : Word) : Bool := (now - t).toNat < 2 ^ 31

/-- A timebase value and an interval in microseconds, modulo 2^32. -/
def after (t : Word) (us : Nat) : Word := t + BitVec.ofNat 32 us

/-- An interval of milliseconds from a timebase value. -/
def afterMs (t : Word) (ms : Nat) : Word := after t (1000 * ms)

/-- A timer has run out: it runs and its expiry is reached. -/
def expired (now : Word) : Option Word → Bool
  | some t => reached now t
  | none => false

/-! ## Rings (R144, R153) -/

/-- `(a − b) mod size`, for two indices of a ring. -/
def ringDist (size a b : Nat) : Nat := (a + size - b) % size

/-- The index after `i`, wrapping from size − 1 to 0. -/
def ringNext (size i : Nat) : Nat := if i + 1 < size then i + 1 else 0

/-- Saturating count. -/
def bump (max n : Nat) : Nat := if n < max then n + 1 else max

end Sys2Proof.Machine
end

