-- ==== Sys2Proof/Config.lean ====
section
/-! DEFINITION. What is fixed for every KM840: the numbers the manual states once and reads in many places.
The manual leaves no value of an instruction undefined; where it says that either of two happenings may be taken
first, or that a short level may be missed, the choice is the order and presence of commands in the queue, so this
file holds no free value. -/

namespace Sys2Proof.Config

/-- IDENT: vendor 1D7 hex, part 840 hex, revision 01 hex (register map, file 11). -/
def ident : Word := 0x1D784001

/-- Bytes of the register window. -/
def windowBytes : Nat := 36

/-- Places of a requester's queue in the memory port (R200). -/
def portPlaces : Nat := 4

/-- A beat not answered within this many microseconds is a bus fault (R200). -/
def beatTimeout : Nat := 64

/-- Entries of the admin pending list (R176). -/
def pendingPlaces : Nat := 4

/-- Places of the notice holding list (R163). -/
def noticePlaces : Nat := 8

/-- Entries of monitor capture's pending list (R111). -/
def monitorPlaces : Nat := 4

/-- Characters of a block kept in the receive staging area (R6). -/
def stagingChars : Nat := 205

/-- The gap length a gap field of 0 selects (R4). -/
def defaultGap : Nat := 28

/-- What a byte of host memory that nothing has written reads as. DESIGN CHOICE (unsafe): the manual gives host
memory no contents of its own. Log entry 5. -/
def unlistedByte : Byte := 0

/-- Maximum of a 32-bit line counter (R191). -/
def counterMax : Nat := 2 ^ 32 - 1

end Sys2Proof.Config
end

