-- ==== Sys2Proof/Machine/State.lean ====
section
/-! DEFINITION. Everything the KM840 holds, as plain data, and its value right after reset.
Each structure below is the state of one block of the manual's "functional blocks" table; each field names the rule
that gives it. A thing the manual calls absent is `none`; a thing a rule gives two views of is held once. -/

namespace Sys2Proof.Machine

/-! ## Register window (file 11) -/

/-- The part state shown in STATUS (R193). -/
inductive PartState where
  | stopped | running | halted
  deriving DecidableEq, Repr

/-- The halt cause in STATUS (R198). -/
inductive HaltCause where
  | none | adminSq | adminCq
  deriving DecidableEq, Repr

/-- The host error codes (R195). -/
inductive HostError where
  | none | badIndex | badAdminSetup | runClearIgnored | setupLocked
  deriving DecidableEq, Repr

/-- What the target port answered to the last access (R192). -/
inductive TargetAnswer where
  /-- no access answered yet -/
  | idle
  /-- a read, with the value on the bus -/
  | read (value : Word)
  /-- a write taken, or ignored without an error response -/
  | written
  /-- an error response -/
  | error
  deriving DecidableEq, Repr

/-! ## Statuses and health (files 04, 09) -/

/-- The status codes of file 09, in the order of their codes. -/
inductive Status where
  | ok | refused | sent | noReply | badCheck | charError | badLength | wrongStation | badKind | stale | lineBreak
  | contentionLimit | waitLimit | notReady | lineLost | aborted | noBuffer | bufferFault | badRecord | wrongMode
  | stationTableFull | badCommand | badParameter | badQueueId | queueExists | queueInUse | lineBusy | notConfigured
  | entryBusy | busFault | notFound
  deriving DecidableEq, Repr

/-- The health of a station (R74). -/
inductive Health where
  | unknown | online | suspect | silent
  deriving DecidableEq, Repr

/-! ## Line configuration (R127, R18) -/

inductive Mode where
  | master | monitor
  deriving DecidableEq, Repr

inductive Parity where
  | none | even | odd
  deriving DecidableEq, Repr

/-- The stored configuration of a line: the parameters of the last accepted CONFIGURE_LINE (R127). -/
structure LineConfig where
  mode : Mode
  parity : Parity
  /-- two stop bits; otherwise one -/
  twoStops : Bool
  echo : Bool
  /-- REFCLK periods of one bit time (R16) -/
  divider : Nat
  /-- gap length G in bit times, the default already resolved (R4) -/
  gap : Nat
  /-- bit times -/
  lead : Nat
  /-- bit times -/
  hold : Nat
  /-- default retry limit -/
  retryLimit : Nat
  /-- reply window W, units of 100 µs -/
  window : Nat
  /-- bit times -/
  retryDelay : Nat
  contentionLimit : Nat
  waitLimit : Nat
  /-- ms -/
  holdOff : Nat
  /-- probe period, ms -/
  probe : Nat
  /-- ms; 0 = none -/
  readyTimeout : Nat
  /-- settle time, units of 100 µs -/
  settle : Nat
  silentThreshold : Nat
  pollReserve : Nat
  lineCq : CqId
  /-- base and size of the buffer queue, where one is given -/
  bufferQueue : Option (Word × Nat)
  deriving DecidableEq, Repr

/-! ## Records the part writes (file 09) -/

/-- The kinds posted by line engines. -/
inductive LineKind where
  | exchange | poll | monitor | bufferReturn
  deriving DecidableEq, Repr

/-- The flags at offset 13 of a line record. -/
structure RecordFlags where
  abortLate : Bool := false
  truncated : Bool := false
  healthChanged : Bool := false
  crcBad : Bool := false
  charErr : Bool := false
  overlong : Bool := false
  deriving DecidableEq, Repr

/-- The fields of an EXCHANGE, POLL, MONITOR or BUFFER_RETURN record that are fixed when its poster joins the waiter
list (R168); `none` is an absent field (R169). -/
structure LineRecord where
  kind : LineKind
  status : Status
  tag : Half
  source : Byte
  line : LineId
  station : Byte
  replyFunction : Option (BitVec 5)
  replyLength : Nat
  attempts : Nat
  waits : Nat
  health : Option Health
  flags : RecordFlags
  /-- the lost count of a MONITOR record (R116); a POLL record takes its count at the grant (R109) -/
  lost : Nat
  buffer : Option Word
  timestamp : Word
  /-- the source SQ of an EXCHANGE record, whose head is read at the grant (R149) -/
  sq : Option SqId
  deriving DecidableEq, Repr

/-- The fields of an ADMIN record fixed when it joins (R168). -/
structure AdminRecord where
  status : Status
  tag : Half
  opcode : Byte
  lineByte : Byte
  resultA : Nat
  resultB : Nat
  resultC : Nat
  deriving DecidableEq, Repr

/-- The line states (R125). -/
inductive LineState where
  | off | starting | ready | fault | draining
  deriving DecidableEq, Repr

inductive QueueKind where
  | sq | cq | bq
  deriving DecidableEq, Repr

inductive FaultCause where
  | readFault | writeFault | badDescriptor
  deriving DecidableEq, Repr

/-- What a notice reports, with its arguments (R164). -/
inductive NoticeEvent where
  | lineUp (line : LineId)
  | lineDown (line : LineId) (state : LineState)
  | stationSilent (line : LineId) (station : Byte)
  | stationBack (line : LineId) (station : Byte)
  | queueFault (kind : QueueKind) (id : Nat) (cause : FaultCause)
  deriving DecidableEq, Repr

/-- A notice and the timebase value when it was handed over. -/
structure NoticeRecord where
  event : NoticeEvent
  time : Word
  deriving DecidableEq, Repr

/-- A completion record before its slot grant. -/
inductive Completion where
  | line (r : LineRecord)
  | admin (r : AdminRecord)
  | notice (r : NoticeRecord)
  deriving DecidableEq, Repr

/-- What a pending entry of the admin unit waits for (R182). -/
inductive PendingWork where
  | stopLine (line : LineId)
  | deleteSq (sq : SqId)
  deriving DecidableEq, Repr

/-- Who posts a completion record (R153). -/
inductive Poster where
  /-- a context in POSTING -/
  | exchange (line : LineId) (ctx : CtxId)
  /-- the head of monitor capture's pending list -/
  | monitorBlock (line : LineId)
  /-- the staged buffer of a stopping MONITOR line -/
  | bufferReturn (line : LineId)
  /-- the admin unit, for the command in hand -/
  | command
  /-- the admin unit, for a pending entry whose work is done -/
  | pendingEntry (work : PendingWork)
  /-- the admin unit, for the oldest notice not yet written -/
  | notice
  deriving DecidableEq, Repr

/-- A poster in a waiter list, with the record as fixed at its joining (R168). -/
structure Waiter where
  poster : Poster
  record : Completion
  deriving DecidableEq, Repr

/-! ## Memory port (R200, R201) -/

inductive TransferKind where
  | read (length : Nat)
  | write (bytes : List Byte)
  deriving DecidableEq, Repr

/-- What a transfer is for: which rule receives its completion or bus fault. -/
inductive TransferUse where
  /-- an I/O SQ record into a lent context (R149) -/
  | sqFetch (sq : SqId) (line : LineId) (ctx : CtxId)
  /-- the oldest promised descriptor of a line's BQ (R151) -/
  | descriptor (line : LineId)
  /-- a descriptor read whose BQ became FAULTED after it was issued (R152) -/
  | staleDescriptor
  /-- an admin SQ record (R177) -/
  | adminFetch
  /-- a line parameter block or poll entry block (R178) -/
  | blockRead
  /-- a station report or counter block (R178) -/
  | resultWrite
  /-- a completion record in a granted slot (R154) -/
  | completion (cq : CqId) (waiter : Waiter)
  /-- a host record's request data (R47) -/
  | requestData (line : LineId) (ctx : CtxId)
  /-- reply payload (R72) -/
  | payload (line : LineId) (ctx : CtxId)
  /-- the characters of the head monitor block (R118) -/
  | monitorData (line : LineId)
  deriving DecidableEq, Repr

structure Transfer where
  addr : Word
  kind : TransferKind
  use : TransferUse
  deriving DecidableEq, Repr

/-- How far the transfer on the host bus has come. -/
inductive TransferOutcome where
  /-- its last beat has completed; the bytes of a read -/
  | done (data : List Byte)
  /-- a beat was answered with an error response -/
  | fault
  /-- a beat has been waiting for its answer since this timebase value -/
  | unanswered (since : Word)
  deriving DecidableEq, Repr

structure UnderWay where
  requester : ReqId
  transfer : Transfer
  outcome : TransferOutcome
  deriving DecidableEq, Repr

structure Port where
  /-- transfers of each requester in the order issued: the first four stand in the port's queue, any after them wait
  in the requester for a place (R200) -/
  queues : Vector (List Transfer) 10
  /-- the transfer the port carries (R200) -/
  current : Option UnderWay
  /-- the requester last granted (R201) -/
  position : ReqId
  deriving DecidableEq, Repr

/-! ## Queue engine (R142) -/

inductive SqState where
  | active | deleting | faulted
  deriving DecidableEq, Repr

inductive QueueState where
  | active | faulted
  deriving DecidableEq, Repr

inductive Priority where
  | normal | high
  deriving DecidableEq, Repr

/-- Bound line, bound CQ and priority of an I/O SQ. -/
structure SqBinding where
  line : LineId
  cq : CqId
  priority : Priority
  deriving DecidableEq, Repr

structure Sq where
  base : Word
  size : Nat
  head : Nat
  tail : Nat
  state : SqState
  /-- absent for the admin SQ -/
  binding : Option SqBinding
  deriving DecidableEq, Repr

structure Cq where
  base : Word
  size : Nat
  head : Nat
  tail : Nat
  state : QueueState
  phase : Bool
  unacked : Nat
  waiters : List Waiter
  /-- moderation threshold N -/
  threshold : Nat
  /-- moderation delay D in µs -/
  delay : Nat
  intEnable : Bool
  pending : Bool
  /-- expiry of the delay timer; absent while it is stopped -/
  timer : Option Word
  discards : Nat
  deriving DecidableEq, Repr

/-- A taker of buffer descriptors (R151). -/
inductive Taker where
  | ctx (i : CtxId)
  | staged
  deriving DecidableEq, Repr

structure Bq where
  base : Word
  size : Nat
  head : Nat
  tail : Nat
  state : QueueState
  /-- takers promised a descriptor that has not been read yet, oldest first; their number is the promised count -/
  promises : List Taker
  /-- the request list: waiting requests of monitor capture, oldest first -/
  requests : List Taker
  deriving DecidableEq, Repr

/-- The fetch arbiter of a line (R142, R148). -/
structure Arbiter where
  highPointer : Option SqId
  normalPointer : Option SqId
  /-- the SQ a fetch is in flight from -/
  inFlight : Option SqId
  deriving DecidableEq, Repr

/-! ## Admin unit (R176) -/

inductive AdminPhase where
  | idle | fetching
  /-- the model's own: between the completion of a fetch or block read and the step that executes the command -/
  | executing
  | reading | writing | completing
  deriving DecidableEq, Repr

/-- The command in hand. -/
structure Hand where
  /-- the 32 bytes of the administration record -/
  record : List Byte
  /-- the parameter block as read; empty before the read and for commands without one -/
  block : List Byte
  /-- result writes not yet issued: host address and bytes -/
  writes : List (Word × List Byte)
  resultA : Nat
  resultB : Nat
  deriving DecidableEq, Repr

structure PendingEntry where
  work : PendingWork
  opcode : Byte
  tag : Half
  lineByte : Byte
  /-- the owner has reported the work over; the completion waits or is being written -/
  finished : Bool
  deriving DecidableEq, Repr

structure Admin where
  phase : AdminPhase
  hand : Option Hand
  pendingList : List PendingEntry
  notices : List NoticeRecord
  noticeLost : Nat
  deriving DecidableEq, Repr

/-! ## Signalling unit (file 02) -/

inductive TxPhase where
  | idle | gapWait | readyWait | lead | send | hold
  deriving DecidableEq, Repr

/-- A send order (R25). -/
structure Order where
  ctx : CtxId
  block : List Byte
  /-- idle requirement n in bit times -/
  idle : Nat
  broadcast : Bool
  deriving DecidableEq, Repr

structure Transmitter where
  phase : TxPhase
  order : Option Order
  /-- REFCLK periods since LEAD, SEND or HOLD began -/
  age : Nat
  /-- the DE output -/
  de : Bool
  /-- expiry of the ready timer; absent while it is stopped (R28) -/
  readyTimer : Option Word
  /-- a contention was judged in SEND: REFCLK periods from the start of SEND to the end of the current character (R36) -/
  stopAt : Option Nat
  /-- sent characters whose echo's start bit has been qualified (R34) -/
  echoStarts : Nat
  /-- sent characters whose echo has matched (R34) -/
  echoMatched : Nat
  deriving DecidableEq, Repr

inductive RxState where
  | stopped | awaitMark | hunting | qualifying | assembling
  deriving DecidableEq, Repr

/-- The block in progress, or its received-block record at its end (R6). -/
structure RxBlock where
  /-- the first 205 characters -/
  chars : List Byte
  count : Nat
  framing : Bool
  parity : Bool
  brk : Bool
  start : Word
  /-- it began while the receiver was armed (R32) -/
  reply : Bool
  deriving DecidableEq, Repr

structure Receiver where
  state : RxState
  armed : Bool
  /-- end of the reply window; absent while the timer is stopped (R33) -/
  window : Option Word
  /-- timebase value at the falling edge that began the character being qualified or assembled -/
  edge : Word
  /-- REFCLK periods since that edge; absent while no character is being qualified or assembled -/
  age : Option Nat
  /-- REFCLK periods since the time origin of the last character completed; absent once its nominal end has passed
  (R21) -/
  tail : Option Nat
  /-- the character being assembled is the echo of a sent one (R34) -/
  echo : Bool
  /-- the line counts as idle for block delimiting: a qualified start bit may begin a block (R5, R32) -/
  idle : Bool
  block : Option RxBlock
  /-- the record of a reply that ended while the transmitter was still in HOLD, with the timebase value at its end; it is
  handed over when SENT is reported (R32; log entry 17) -/
  early : Option (RxBlock × Word)
  /-- the gap timer, counted in REFCLK periods (R24) -/
  gap : Nat
  /-- the level of RXD as last taken; `true` is mark -/
  mark : Bool
  deriving DecidableEq, Repr

/-! ## Exchange unit (file 03) -/

/-- A buffer descriptor (R171). -/
structure Descriptor where
  addr : Word
  capacity : Nat
  deriving DecidableEq, Repr

inductive Origin where
  | host (sq : SqId) (tag : Half)
  | poll (entry : PollId)
  deriving DecidableEq, Repr

/-- The reply destination. -/
inductive Dest where
  | host (addr : Word) (capacity : Nat)
  | bufferQueue
  deriving DecidableEq, Repr

/-- The states of a context in use (R43); a FREE context is `none` in the table. -/
inductive CtxState where
  /-- still in admission by R47: in no state of R43 -/
  | admission
  | queued | talking | listening | retryWait | settling
  /-- HOLDING, with the hold-off expiry -/
  | holding (expiry : Word)
  | posting
  deriving DecidableEq, Repr

/-- The result of an exchange (R42). -/
structure Result where
  status : Status
  replyFunction : Option (BitVec 5)
  replyLength : Nat
  endTime : Word
  abortLate : Bool
  truncated : Bool
  healthAfter : Option Health
  healthChanged : Bool
  deriving DecidableEq, Repr

/-- A context (R42). -/
structure Ctx where
  origin : Origin
  station : Byte
  function : BitVec 5
  requestLength : Nat
  store : List Byte
  dest : Dest
  retryLimit : Nat
  fullRetries : Bool
  attempts : Nat
  waits : Nat
  contentions : Nat
  state : CtxState
  abortRequested : Bool
  /-- an abort met it in SETTLING: it ends with SENT and ABORT_LATE (R67) -/
  abortLate : Bool
  /-- an immediate stop met it in SETTLING: it ends uncounted by the stop (R135) -/
  stopLate : Bool
  /-- an abort met it in admission: it ends ABORTED when it leaves admission (R67) -/
  abortAtAdmission : Bool
  staleSeen : Bool
  recordedHealth : Option Health
  /-- it has obtained its station entry and pins it (R48, R75) -/
  hasEntry : Bool
  buffer : Option Descriptor
  /-- timebase value at admission (R46) -/
  admitted : Word
  result : Option Result
  deriving DecidableEq, Repr

structure ExchangeUnit where
  contexts : Vector (Option Ctx) 16
  /-- the work list in admission order (R51) -/
  work : List CtxId
  /-- the context lent to the fetch arbiter (R45) -/
  lent : Option CtxId
  /-- expiry of the settle timer (R65) -/
  settle : Option Word
  deriving DecidableEq, Repr

/-! ## Station table (R74) -/

structure StationEntry where
  address : Byte
  health : Health
  failures : Nat
  seq : Bool
  lastUsed : Word
  lastSuccess : Option Word
  exchangesOk : Nat
  exchangesFailed : Nat
  deriving DecidableEq, Repr

/-! ## Poll table (R91) -/

inductive ReportMode where
  | every | onChange
  deriving DecidableEq, Repr

/-- DISABLED, or ENABLED with its next due time; an EMPTY entry is `none` in the table. -/
inductive PollRun where
  | disabled
  | enabled (due : Word)
  deriving DecidableEq, Repr

structure PollEntry where
  station : Byte
  function : BitVec 5
  payload : List Byte
  /-- ms -/
  period : Nat
  /-- phase offset, ms -/
  offset : Nat
  mode : ReportMode
  quiet : Nat
  retryLimit : Nat
  tag : Half
  run : PollRun
  digest : Option Half
  lastStatus : Option Status
  suppressed : Nat
  skips : Nat
  inFlight : Option CtxId
  deriving DecidableEq, Repr

/-! ## Monitor capture (R111) -/

inductive Filter where
  | all
  | list (addresses : List Byte)
  deriving DecidableEq, Repr

/-- A block entry of the pending list, with what its delivery adds to it (R115, R118). -/
structure MonBlock where
  chars : List Byte
  start : Word
  crcBad : Bool
  charErr : Bool
  overlong : Bool
  lost : Nat
  buffer : Option Descriptor
  truncated : Bool
  status : Status
  deriving DecidableEq, Repr

inductive StagedSlot where
  | empty | requested
  | held (d : Descriptor)
  deriving DecidableEq, Repr

inductive DeliveryPhase where
  | idle | bufferWait | writing | slotWait | recording
  deriving DecidableEq, Repr

/-- How far monitor capture has settled a stop (R121, R122). -/
inductive Settlement where
  /-- no stop in progress -/
  | none
  | settling
  /-- the BUFFER_RETURN waits for its slot or is being written -/
  | returning
  /-- reported settled to line control -/
  | settled
  deriving DecidableEq, Repr

structure Monitor where
  filter : Filter
  blockFilter : Option Filter
  list : List MonBlock
  slot : StagedSlot
  phase : DeliveryPhase
  lost : Nat
  settlement : Settlement
  deriving DecidableEq, Repr

/-! ## Line control and counters (R125, R190) -/

inductive StopKind where
  | drain | immediate
  deriving DecidableEq, Repr

/-- The eighteen counters of a line (R190). -/
structure Counters where
  attempts : Nat := 0
  noReply : Nat := 0
  badCheck : Nat := 0
  charError : Nat := 0
  badLength : Nat := 0
  wrongStation : Nat := 0
  badKind : Nat := 0
  stale : Nat := 0
  lineBreak : Nat := 0
  contentions : Nat := 0
  noiseStarts : Nat := 0
  strayBlocks : Nat := 0
  breaks : Nat := 0
  pollSkips : Nat := 0
  repliesSuppressed : Nat := 0
  monitorCaptured : Nat := 0
  monitorLost : Nat := 0
  discarded : Nat := 0
  deriving DecidableEq, Repr

structure Line where
  state : LineState
  /-- the stored configuration; `none` is an unconfigured line -/
  config : Option LineConfig
  stop : Option StopKind
  stopEnded : Nat
  /-- the level of CAR; `true` is asserted (R125) -/
  carrier : Bool
  /-- the level of RDY as last taken; `true` is asserted -/
  rdy : Bool
  tx : Transmitter
  rx : Receiver
  exch : ExchangeUnit
  stations : Vector (Option StationEntry) 64
  polls : Vector (Option PollEntry) 32
  pollLost : Nat
  mon : Monitor
  arbiter : Arbiter
  counters : Counters
  deriving DecidableEq, Repr

/-! ## The part -/

/-- The KM840, the host memory its port reaches, and the commands waiting for it. -/
structure State where
  /-- RESET_N is asserted (R199) -/
  held : Bool
  part : PartState
  haltCause : HaltCause
  hostError : HostError
  intEnable : Bool
  asqBase : Word
  acqBase : Word
  adminSize : Word
  answer : TargetAnswer
  timebase : Word
  /-- the fractional remainder carried from microsecond to microsecond, in thousandths of a REFCLK kHz period (R202) -/
  fraction : Nat
  port : Port
  sqs : Vector (Option Sq) 17
  cqs : Vector (Option Cq) 9
  bqs : Vector (Option Bq) 8
  admin : Admin
  lines : Vector Line 8
  /-- host memory: addresses rising, no entry equal to what an unlisted address reads as -/
  mem : List Host.Cell
  /-- the commands that wait, first in, first out -/
  pending : List Instr
  deriving DecidableEq, Repr

/-! ## Reset values -/

/-- R41: IDLE, no order, DE released. -/
def Transmitter.reset : Transmitter :=
  { phase := .idle, order := none, age := 0, de := false, readyTimer := none, stopAt := none,
    echoStarts := 0, echoMatched := 0 }

/-- R19, R24, R41: STOPPED, no block, gap timer held at 0. The level of RXD is the input's own. -/
def Receiver.reset (mark : Bool) : Receiver :=
  { state := .stopped, armed := false, window := none, edge := 0, age := none, tail := none, echo := false,
    idle := false, block := none, early := none, gap := 0, mark := mark }

/-- R42: every context FREE, the work list empty. -/
def ExchangeUnit.reset : ExchangeUnit :=
  { contexts := Vector.replicate 16 none, work := [], lent := none, settle := none }

/-- R111. -/
def Monitor.reset : Monitor :=
  { filter := .all, blockFilter := none, list := [], slot := .empty, phase := .idle, lost := 0, settlement := .none }

/-- R148: both pointers none, no fetch in flight (R143). -/
def Arbiter.reset : Arbiter := { highPointer := none, normalPointer := none, inFlight := none }

/-- R140: a line after power-on, soft reset or halt. The three inputs keep their levels. -/
def Line.reset (carrier rdy mark : Bool) : Line :=
  { state := .off, config := none, stop := none, stopEnded := 0, carrier := carrier, rdy := rdy,
    tx := .reset, rx := .reset mark, exch := .reset, stations := Vector.replicate 64 none,
    polls := Vector.replicate 32 none, pollLost := 0, mon := .reset, arbiter := .reset, counters := {} }

/-- R176. -/
def Admin.reset : Admin :=
  { phase := .idle, hand := none, pendingList := [], notices := [], noticeLost := 0 }

/-- R200, R201: no transfer waits; the arbiter's position is the queue engine. -/
def Port.reset : Port := { queues := Vector.replicate 10 [], current := none, position := 0 }

/-- The machine at the release of RESET_N (R199): STOPPED, every block at its reset values, the setup registers 0, no
queue in existence (R143). The levels of the inputs are the model's choice (log entry 6), as is host memory (log
entry 5). -/
def State.reset : State :=
  { held := false, part := .stopped, haltCause := .none, hostError := .none, intEnable := false,
    asqBase := 0, acqBase := 0, adminSize := 0, answer := .idle, timebase := 0, fraction := 0,
    port := .reset, sqs := Vector.replicate 17 none, cqs := Vector.replicate 9 none, bqs := Vector.replicate 8 none,
    admin := .reset, lines := Vector.replicate 8 (Line.reset false false true), mem := [], pending := [] }

/-! ## Stops -/

/-- The faults of a step. The KM840 has none: what the manual calls a bus fault, a queue fault or a halt leaves the
part in a stated next state. Nothing raises a fault. -/
inductive Fault
  deriving DecidableEq, Repr

/-- The refusals of a step. -/
inductive Refusal where
  /-- raised by an arm of `exec` whose command has no meaning yet (safe); no arm raises it -/
  | notModelled (mnemonic : String)
  deriving DecidableEq, Repr

end Sys2Proof.Machine
end

