-- ==== Sys2Proof/Machine/Flags.lean ====
section
/-! DEFINITION. The part's flags: the pending flag and delay timer of a completion queue, the INT output, the
registers that show them, and the outputs of a line. -/

namespace Sys2Proof.Machine

/-! ## Interrupt moderation (R157, R158) -/

/-- R157: what a posting does to the pending flag and the delay timer. -/
def Cq.posted (q : Cq) (now : Word) : Cq :=
  if q.threshold ≤ q.unacked then { q with pending := true, timer := none }
  else if q.timer = none ∧ q.pending = false ∧ q.delay ≠ 0 then { q with timer := some (after now q.delay) }
  else q

/-- R157: the expiry of the delay timer. -/
def Cq.timerExpired (q : Cq) : Cq := { q with pending := true, timer := none }

/-- R158: what an ACK does to the flag and the timer, after it has lowered the unacknowledged count. -/
def Cq.acked (q : Cq) (now : Word) : Cq :=
  if q.unacked = 0 then { q with pending := false, timer := none }
  else if q.threshold ≤ q.unacked then q
  else { q with pending := false, timer := if q.delay ≠ 0 then some (after now q.delay) else none }

/-! ## INT and the registers (R159, R193, R195, R196) -/

/-- The pending flag of a CQ; that of a CQ that does not exist reads as clear (R159). -/
def cqPending : Option Cq → Bool
  | some q => q.pending
  | none => false

/-- A CQ asks for INT: it exists, with its interrupt enable and its pending flag set (R159). -/
def cqAsksInt : Option Cq → Bool
  | some q => q.intEnable && q.pending
  | none => false

/-- R159: the INT output. -/
def State.int (s : State) : Bool := s.intEnable && s.cqs.toList.any cqAsksInt

/-- R196: the INT_N pin. -/
def State.intN (s : State) : Bool := s.held || !s.int

/-- R196: INT_PENDING. -/
def State.intPending (s : State) : Word :=
  BitVec.ofNat 32 ((cqPending s.cqs[0]).toNat + 2 * (cqPending s.cqs[1]).toNat + 4 * (cqPending s.cqs[2]).toNat
    + 8 * (cqPending s.cqs[3]).toNat + 16 * (cqPending s.cqs[4]).toNat + 32 * (cqPending s.cqs[5]).toNat
    + 64 * (cqPending s.cqs[6]).toNat + 128 * (cqPending s.cqs[7]).toNat + 256 * (cqPending s.cqs[8]).toNat)

def PartState.code : PartState → Nat
  | .stopped => 0 | .running => 1 | .halted => 2

def HaltCause.code : HaltCause → Nat
  | .none => 0 | .adminSq => 1 | .adminCq => 2

def HostError.code : HostError → Nat
  | .none => 0 | .badIndex => 1 | .badAdminSetup => 2 | .runClearIgnored => 3 | .setupLocked => 4

/-- STATUS: part state, halt cause, host error code (register map, file 11). -/
def State.statusWord (s : State) : Word :=
  BitVec.ofNat 32 (s.part.code + 4 * s.haltCause.code + 256 * s.hostError.code)

/-- CONTROL as read (R193). -/
def State.controlWord (s : State) : Word :=
  BitVec.ofNat 32 ((decide (s.part = PartState.running)).toNat + 4 * s.intEnable.toNat)

/-! ## Line outputs (R1, R2) -/

/-- The character time C in bit times (R3). -/
def LineConfig.charTime (c : LineConfig) : Nat :=
  10 + (if c.parity = Parity.none then 0 else 1) + (if c.twoStops then 1 else 0)

/-- The number of ones among eight data bits is odd. -/
def oddOnes (c : Byte) : Bool := [0, 1, 2, 3, 4, 5, 6, 7].foldl (fun p i => p != c.getLsbD i) false

/-- R2: the parity bit of a character, in a format that has one. -/
def parityBit (p : Parity) (c : Byte) : Bool :=
  match p with
  | .odd => !oddOnes c
  | _ => oddOnes c

/-- R1: the level of bit `i` of a character on the wire: start, data, parity where there is one, stop. -/
def charLevel (cfg : LineConfig) (c : Byte) (i : Nat) : Bool :=
  if i = 0 then false
  else if i ≤ 8 then c.getLsbD (i - 1)
  else if i = 9 ∧ cfg.parity ≠ Parity.none then parityBit cfg.parity c
  else true

/-- R1, R7: TXD. It rests at mark outside SEND; in SEND the characters of the order's block follow one another, and a
contention stop ends them at the current character. -/
def Line.txd (l : Line) : Bool :=
  match l.tx.phase, l.tx.order, l.config with
  | .send, some o, some cfg =>
    let bit := l.tx.age / cfg.divider
    match o.block[bit / cfg.charTime]?, l.tx.stopAt with
    | none, _ => true
    | some c, none => charLevel cfg c (bit % cfg.charTime)
    | some c, some stop => if stop ≤ l.tx.age then true else charLevel cfg c (bit % cfg.charTime)
  | _, _, _ => true

end Sys2Proof.Machine
end

