-- ==== Sys2Proof/Machine/Operands.lean ====
section
/-! DEFINITION. The fields of every record the KM840 reads, and the ranges file 09 gives them. -/

namespace Sys2Proof.Machine

/-! ## I/O submission record (32 bytes) -/

def subKind (r : List Byte) : Byte := byteAt r 0
def subInline (r : List Byte) : Bool := (byteAt r 1).getLsbD 0
def subReplyToBq (r : List Byte) : Bool := (byteAt r 1).getLsbD 1
def subFullRetries (r : List Byte) : Bool := (byteAt r 1).getLsbD 2
def subTag (r : List Byte) : Half := half r 2
def subStation (r : List Byte) : Byte := byteAt r 4
def subFunction (r : List Byte) : Byte := byteAt r 5
def subLength (r : List Byte) : Nat := (byteAt r 6).toNat
def subRetry (r : List Byte) : Nat := (byteAt r 7).toNat
def subReplyAddr (r : List Byte) : Word := word r 8
def subReplyCapacity (r : List Byte) : Nat := (half r 12).toNat
def subPointer (r : List Byte) : Word := word r 16
def subInlineData (r : List Byte) : List Byte := (r.drop 16).take (subLength r)

/-- R46 step 2 with R166: the record of kind EXCHANGE is malformed on a line with or without a buffer queue. -/
def subMalformed (r : List Byte) (hasBq : Bool) : Bool :=
  decide (240 ≤ (subStation r).toNat) || decide (200 < subLength r) || (subInline r && decide (16 < subLength r))
    || decide (8 < subRetry r) || (subReplyToBq r && !hasBq)
    || decide (31 < (subFunction r).toNat) || decide ((byteAt r 1) >>> 3 ≠ 0#8)

/-! ## Administration record (32 bytes) -/

def admOpcode (r : List Byte) : Nat := (byteAt r 0).toNat
def admLine (r : List Byte) : Nat := (byteAt r 1).toNat
def admTag (r : List Byte) : Half := half r 2
def admA (r : List Byte) : Nat := (byteAt r 4).toNat
def admB (r : List Byte) : Nat := (byteAt r 5).toNat
def admC (r : List Byte) : Nat := (byteAt r 6).toNat
def admAddr (r : List Byte) : Word := word r 8
def admSize (r : List Byte) : Nat := (half r 12).toNat
def admD (r : List Byte) : Half := half r 14
def admList (r : List Byte) : List Byte := (r.drop 16).take (admC r)

/-- R167: opcode 0 and 14..255 are of unknown kind. -/
def admUnknown (r : List Byte) : Bool := decide (admOpcode r = 0) || decide (13 < admOpcode r)

/-- The commands with a parameter block (R178 step 2), with the block's length. -/
def admBlockLength (r : List Byte) : Option Nat :=
  if admOpcode r = 5 then some 40 else if admOpcode r = 8 then some 32 else none

/-- The rows of R179 for a command that names a line: every command from CONFIGURE_LINE on, ABORT in mode 1 only. -/
def admNamesLine (r : List Byte) : Bool :=
  decide (5 ≤ admOpcode r ∧ admOpcode r ≤ 11) || decide (admOpcode r = 13) || decide (admOpcode r = 12 ∧ admB r = 1)

/-- R179: the operand check the admin unit makes before the owner block is reached; `true` refuses the command with
BAD_PARAMETER. -/
def admRefused (r : List Byte) : Bool :=
  (admNamesLine r && decide (7 < admLine r))
    || (decide (admOpcode r = 7) && decide (2 ≤ admB r))
    || (decide (admOpcode r = 9) && decide (3 ≤ admB r))
    || (decide (admOpcode r = 10)
        && (decide (2 ≤ admB r) || decide (240 ≤ admA r) || (decide (admB r = 0) && decide (admA r = 0))))
    || (decide (admOpcode r = 11) && decide (2 ≤ admB r))
    || (decide (admOpcode r = 12) && decide (3 ≤ admB r))
    || (decide (admOpcode r = 13) && decide (2 ≤ admB r))

/-- The line a command names; its number has passed R179. -/
def admLineId (r : List Byte) : LineId := Fin.ofNat 8 (admLine r)

/-- A ring of 32-byte entries: base a multiple of 32, size 4..256 (R184, R186). -/
def ringInRange (base : Word) (size : Nat) : Bool :=
  decide (base.toNat % 32 = 0) && decide (4 ≤ size) && decide (size ≤ 256)

/-! ## Line parameter block (40 bytes) -/

def lpbBqGiven (b : List Byte) : Nat := (byteAt b 27).toNat
def lpbLineCq (b : List Byte) : Nat := (byteAt b 26).toNat

/-- Check 3 of R126, by the ranges of R172. -/
def lpbInRange (b : List Byte) : Bool :=
  decide ((byteAt b 0).toNat ≤ 1) && decide ((byteAt b 1).toNat ≤ 2)
    && (decide (byteAt b 2 = 1#8) || decide (byteAt b 2 = 2#8)) && decide ((byteAt b 3).toNat ≤ 1)
    && decide (16 ≤ (half b 4).toNat)
    && (decide (byteAt b 6 = 0#8) || decide (16 ≤ (byteAt b 6).toNat))
    && decide ((byteAt b 7).toNat ≤ 31) && decide ((byteAt b 8).toNat ≤ 31) && decide ((byteAt b 9).toNat ≤ 7)
    && decide (1 ≤ (half b 10).toNat) && decide ((half b 12).toNat ≤ 1023)
    && decide (1 ≤ (byteAt b 14).toNat ∧ (byteAt b 14).toNat ≤ 15)
    && decide (1 ≤ (byteAt b 15).toNat ∧ (byteAt b 15).toNat ≤ 15)
    && decide (1 ≤ (half b 16).toNat) && decide (1 ≤ (half b 18).toNat)
    && decide (1 ≤ (byteAt b 24).toNat ∧ (byteAt b 24).toNat ≤ 15) && decide ((byteAt b 25).toNat ≤ 8)
    && decide (lpbBqGiven b ≤ 1)
    && (decide (lpbBqGiven b = 0)
        || (decide ((word b 28).toNat % 8 = 0) && decide (4 ≤ (half b 32).toNat ∧ (half b 32).toNat ≤ 256)))
    && !(decide (byteAt b 0 = 1#8) && decide (lpbBqGiven b = 0))

/-- The configuration a block in range stands for (R4, R18, R127). -/
def lpbConfig (b : List Byte) : LineConfig :=
  { mode := if byteAt b 0 = 1#8 then .monitor else .master
    parity := if byteAt b 1 = 0#8 then .none else if byteAt b 1 = 1#8 then .even else .odd
    twoStops := decide (byteAt b 2 = 2#8)
    echo := decide (byteAt b 3 = 1#8)
    divider := (half b 4).toNat
    gap := if byteAt b 6 = 0#8 then Config.defaultGap else (byteAt b 6).toNat
    lead := (byteAt b 7).toNat
    hold := (byteAt b 8).toNat
    retryLimit := (byteAt b 9).toNat
    window := (half b 10).toNat
    retryDelay := (half b 12).toNat
    contentionLimit := (byteAt b 14).toNat
    waitLimit := (byteAt b 15).toNat
    holdOff := (half b 16).toNat
    probe := (half b 18).toNat
    readyTimeout := (half b 20).toNat
    settle := (half b 22).toNat
    silentThreshold := (byteAt b 24).toNat
    pollReserve := (byteAt b 25).toNat
    lineCq := Fin.ofNat 9 (lpbLineCq b)
    bufferQueue := if lpbBqGiven b = 1 then some (word b 28, (half b 32).toNat) else none }

/-! ## Poll entry block (32 bytes) -/

/-- The field ranges of check 3 of R93 (R173). -/
def pebInRange (b : List Byte) : Bool :=
  decide (1 ≤ (byteAt b 0).toNat ∧ (byteAt b 0).toNat ≤ 239) && decide ((byteAt b 1).toNat ≤ 31)
    && decide ((byteAt b 2).toNat ≤ 16) && decide ((byteAt b 3).toNat ≤ 1) && decide (1 ≤ (half b 4).toNat)
    && decide ((byteAt b 9).toNat ≤ 7)

/-- The DISABLED entry a block in range gives (R91, R173). -/
def pebEntry (b : List Byte) : PollEntry :=
  { station := byteAt b 0
    function := (byteAt b 1).setWidth 5
    payload := (b.drop 16).take (byteAt b 2).toNat
    period := (half b 4).toNat
    offset := (half b 6).toNat
    mode := if byteAt b 3 = 1#8 then .onChange else .every
    quiet := (byteAt b 8).toNat
    retryLimit := (byteAt b 9).toNat
    tag := half b 10
    run := .disabled, digest := none, lastStatus := none, suppressed := 0, skips := 0, inFlight := none }

/-! ## Buffer descriptor (8 bytes, R171) -/

def descriptorOf (b : List Byte) : Descriptor := { addr := word b 0, capacity := (half b 4).toNat }

/-! ## Received block (file 01) -/

/-- The kinds of the control character (R9). -/
inductive BlockKind where
  | request | data | wait | refuse
  deriving DecidableEq, Repr

def controlKind (c : Byte) : BlockKind :=
  if c.toNat < 64 then .request else if c.toNat < 128 then .data else if c.toNat < 192 then .wait else .refuse

def controlSeq (c : Byte) : Bool := c.getLsbD 5

def controlFunction (c : Byte) : BitVec 5 := c.setWidth 5

/-- R10: consistent in length. -/
def RxBlock.consistent (b : RxBlock) : Bool :=
  decide (5 ≤ b.count) && decide (b.count ≤ 205) && decide (b.count = (byteAt b.chars 2).toNat + 5)

/-- R13: the check passes. -/
def RxBlock.checkPasses (b : RxBlock) : Bool :=
  let n := b.chars.length
  decide (3 ≤ n) && decide (b.count ≤ Config.stagingChars) && decide (crc16 (b.chars.take (n - 2)) = half b.chars (n - 2))

/-- The payload characters of a consistent block. -/
def RxBlock.payload (b : RxBlock) : List Byte := (b.chars.drop 3).take (byteAt b.chars 2).toNat

end Sys2Proof.Machine
end

