-- ==== Sys2Proof/Machine/Records.lean ====
section
/-! DEFINITION. The bytes of every record the KM840 writes: file 09's layouts and codes, and the request block of
file 01. -/

namespace Sys2Proof.Machine

/-- The status codes table of file 09. -/
def Status.code : Status → Byte
  | .ok => 0 | .refused => 1 | .sent => 2 | .noReply => 3 | .badCheck => 4 | .charError => 5 | .badLength => 6
  | .wrongStation => 7 | .badKind => 8 | .stale => 9 | .lineBreak => 10 | .contentionLimit => 11 | .waitLimit => 12
  | .notReady => 13 | .lineLost => 14 | .aborted => 15 | .noBuffer => 16 | .bufferFault => 17 | .badRecord => 18
  | .wrongMode => 19 | .stationTableFull => 20 | .badCommand => 32 | .badParameter => 33 | .badQueueId => 34
  | .queueExists => 35 | .queueInUse => 36 | .lineBusy => 37 | .notConfigured => 38 | .entryBusy => 39
  | .busFault => 40 | .notFound => 41

/-- R168: the health codes. -/
def Health.code : Health → Byte
  | .unknown => 1 | .online => 2 | .suspect => 3 | .silent => 4

def LineKind.code : LineKind → Byte
  | .exchange => 1 | .poll => 2 | .monitor => 3 | .bufferReturn => 4

def LineState.code : LineState → Byte
  | .off => 0 | .starting => 1 | .ready => 2 | .fault => 3 | .draining => 4

def QueueKind.code : QueueKind → Byte
  | .sq => 0 | .cq => 1 | .bq => 2

def FaultCause.code : FaultCause → Byte
  | .readFault => 1 | .writeFault => 2 | .badDescriptor => 3

def NoticeEvent.code : NoticeEvent → Byte
  | .lineUp _ => 1 | .lineDown _ _ => 2 | .stationSilent _ _ => 3 | .stationBack _ _ => 4 | .queueFault _ _ _ => 5

def lineByte (n : LineId) : Byte := BitVec.ofNat 8 n.val

def bitByte (b : Bool) : Byte := if b then 1 else 0

/-- Offset 13 of a line record: bits 0..5 by name, bit 6 BUFFER. -/
def RecordFlags.byte (f : RecordFlags) (buffer : Bool) : Byte :=
  BitVec.ofNat 8 (f.abortLate.toNat + 2 * f.truncated.toNat + 4 * f.healthChanged.toNat + 8 * f.crcBad.toNat
    + 16 * f.charErr.toNat + 32 * f.overlong.toNat + 64 * buffer.toNat)

/-- The last four bytes of every completion record: SQ head, pad, phase (R154). -/
def recordTail (sqHead : Half) (phase : Bool) : List Byte := halfBytes sqHead ++ [0, bitByte phase]

/-- An EXCHANGE, POLL, MONITOR or BUFFER_RETURN record; absent fields by R169. -/
def LineRecord.bytes (r : LineRecord) (lost : Byte) (sqHead : Half) (phase : Bool) : List Byte :=
  [r.kind.code, r.status.code] ++ halfBytes r.tag
    ++ [r.source, lineByte r.line, r.station,
        match r.replyFunction with
        | some f => f.setWidth 8
        | none => 0xFF]
    ++ halfBytes (BitVec.ofNat 16 r.replyLength)
    ++ [BitVec.ofNat 8 r.attempts, BitVec.ofNat 8 r.waits,
        match r.health with
        | some h => h.code
        | none => 0,
        r.flags.byte r.buffer.isSome, lost, 0]
    ++ wordBytes (r.buffer.getD 0) ++ wordBytes r.timestamp ++ [0, 0, 0, 0] ++ recordTail sqHead phase

/-- An ADMIN record, with the timebase value at the slot grant. -/
def AdminRecord.bytes (r : AdminRecord) (now : Word) (sqHead : Half) (phase : Bool) : List Byte :=
  [5, r.status.code] ++ halfBytes r.tag ++ [r.opcode, r.lineByte, 0, 0]
    ++ wordBytes (BitVec.ofNat 32 r.resultA) ++ halfBytes (BitVec.ofNat 16 r.resultB)
    ++ halfBytes (BitVec.ofNat 16 r.resultC) ++ [0, 0, 0, 0] ++ wordBytes now ++ [0, 0, 0, 0]
    ++ recordTail sqHead phase

/-- Offsets 5 to 10 of a NOTICE record: line, station, pad, arguments 1 to 3. -/
def NoticeEvent.fields : NoticeEvent → List Byte
  | .lineUp n => [lineByte n, 0, 0, 0, 0, 0]
  | .lineDown n st => [lineByte n, 0, 0, st.code, 0, 0]
  | .stationSilent n a => [lineByte n, a, 0, 0, 0, 0]
  | .stationBack n a => [lineByte n, a, 0, 0, 0, 0]
  | .queueFault k id c => [0xFF, 0, 0, k.code, BitVec.ofNat 8 id, c.code]

/-- A NOTICE record, with the notice lost count taken at the slot grant (R164). -/
def NoticeRecord.bytes (r : NoticeRecord) (lost : Byte) (phase : Bool) : List Byte :=
  [6, r.event.code, 0, 0, 0] ++ r.event.fields ++ [0, 0, 0, lost, 0, 0, 0, 0, 0] ++ wordBytes r.time
    ++ [0, 0, 0, 0] ++ recordTail 0xFFFF phase

/-- A station report (16 bytes). -/
def stationReport (index : StationIdx) (e : StationEntry) : List Byte :=
  [e.address, BitVec.ofNat 8 index.val, e.health.code,
    BitVec.ofNat 8 (e.failures + 16 * e.seq.toNat + 32 * e.lastSuccess.isSome.toNat)]
    ++ wordBytes e.lastUsed ++ wordBytes (e.lastSuccess.getD 0)
    ++ halfBytes (BitVec.ofNat 16 e.exchangesOk) ++ halfBytes (BitVec.ofNat 16 e.exchangesFailed)

/-- The eighteen counters in the order of the counter block. -/
def Counters.list (c : Counters) : List Nat :=
  [c.attempts, c.noReply, c.badCheck, c.charError, c.badLength, c.wrongStation, c.badKind, c.stale, c.lineBreak,
    c.contentions, c.noiseStarts, c.strayBlocks, c.breaks, c.pollSkips, c.repliesSuppressed, c.monitorCaptured,
    c.monitorLost, c.discarded]

/-- A counter block (80 bytes, R175). -/
def counterBlock (n : LineId) (l : Line) (rdy : Bool) (now : Word) : List Byte :=
  let monitor := match l.config with
    | some c => decide (c.mode = Mode.monitor)
    | none => false
  [lineByte n, l.state.code,
    BitVec.ofNat 8 (l.config.isSome.toNat + 2 * l.carrier.toNat + 4 * rdy.toNat + 8 * monitor.toNat), 0]
    ++ wordBytes now ++ l.counters.list.flatMap (fun k => wordBytes (BitVec.ofNat 32 k))

/-- R9: the control character of a block the KM840 sends; its kind is REQUEST. -/
def requestControl (seq : Bool) (function : BitVec 5) : Byte := BitVec.ofNat 8 (32 * seq.toNat + function.toNat)

/-- R12, R14: a request block. -/
def requestBlock (address : Byte) (seq : Bool) (function : BitVec 5) (payload : List Byte) : List Byte :=
  let covered := [address, requestControl seq function, BitVec.ofNat 8 payload.length] ++ payload
  covered ++ halfBytes (crc16 covered)

end Sys2Proof.Machine
end

