-- ==== Sys2Proof/Machine/Ops.lean ====
section
/-! DEFINITION. The operations every block shares: host memory, the memory port, waiter lists and posters, notices,
buffer promises, and the resets. -/

namespace Sys2Proof.Machine

/-! ## Reaching one block -/

def State.line (s : State) (n : LineId) : Line := s.lines[n]

def State.setLine (s : State) (n : LineId) (l : Line) : State := { s with lines := s.lines.set n l }

def State.modLine (s : State) (n : LineId) (f : Line → Line) : State := s.setLine n (f (s.line n))

def State.setSq (s : State) (i : SqId) (q : Option Sq) : State := { s with sqs := s.sqs.set i q }

def State.setCq (s : State) (i : CqId) (q : Option Cq) : State := { s with cqs := s.cqs.set i q }

def State.setBq (s : State) (n : LineId) (q : Option Bq) : State := { s with bqs := s.bqs.set n q }

def State.modAdmin (s : State) (f : Admin → Admin) : State := { s with admin := f s.admin }

def State.modPort (s : State) (f : Port → Port) : State := { s with port := f s.port }

/-- R195: a register write ignored with a host error. -/
def State.recordError (s : State) (e : HostError) : State := { s with hostError := e }

def Line.ctx (l : Line) (i : CtxId) : Option Ctx := l.exch.contexts[i]

def Line.setCtx (l : Line) (i : CtxId) (c : Option Ctx) : Line :=
  { l with exch := { l.exch with contexts := l.exch.contexts.set i c } }

def Line.poll (l : Line) (e : PollId) : Option PollEntry := l.polls[e]

def Line.setPoll (l : Line) (e : PollId) (p : Option PollEntry) : Line := { l with polls := l.polls.set e p }

def Line.count (l : Line) (f : Counters → Counters) : Line := { l with counters := f l.counters }

/-- R191: one more, stopping at the maximum of 32 bits. -/
def tally (n : Nat) : Nat := bump Config.counterMax n

/-! ## Host memory -/

/-- The byte at an address. -/
def Memory.read : List Host.Cell → Nat → Byte
  | [], _ => Config.unlistedByte
  | (k, v) :: rest, a => if k = a then v else Memory.read rest a

/-- Writing one byte; an entry equal to what an unlisted address reads as is removed. -/
def Memory.write : List Host.Cell → Nat → Byte → List Host.Cell
  | [], a, v => if v = Config.unlistedByte then [] else [(a, v)]
  | (k, w) :: rest, a, v =>
    if a < k then (if v = Config.unlistedByte then (k, w) :: rest else (a, v) :: (k, w) :: rest)
    else if a = k then (if v = Config.unlistedByte then rest else (a, v) :: rest)
    else (k, w) :: Memory.write rest a v

/-- The canonical form: addresses strictly rising and below 2^32, no entry equal to what an unlisted address reads
as. -/
def Memory.wf : List Host.Cell → Bool
  | [] => true
  | [(k, v)] => decide (k < 2 ^ 32) && decide (v ≠ Config.unlistedByte)
  | (k, v) :: (k', v') :: rest => decide (k < k') && decide (v ≠ Config.unlistedByte) && Memory.wf ((k', v') :: rest)

/-- The address of byte `i` of a transfer; host addresses wrap at 32 bits (log entry 7). -/
def byteAddr (addr : Word) (i : Nat) : Nat := (addr.toNat + i) % 2 ^ 32

/-- The `n` bytes from a host address. -/
def Memory.readBytes (m : List Host.Cell) (addr : Word) (n : Nat) : List Byte :=
  (List.range n).map fun i => Memory.read m (byteAddr addr i)

/-- Bytes written from index `i` of a transfer on. -/
def Memory.writeFrom (m : List Host.Cell) (addr : Word) (i : Nat) : List Byte → List Host.Cell
  | [] => m
  | b :: rest => Memory.writeFrom (Memory.write m (byteAddr addr i) b) addr (i + 1) rest

def Memory.writeBytes (m : List Host.Cell) (addr : Word) (bytes : List Byte) : List Host.Cell :=
  Memory.writeFrom m addr 0 bytes

/-- The stores the host itself makes to shared memory, in order. -/
def Memory.hostStores (m : List Host.Cell) (stores : List (Nat × Byte)) : List Host.Cell :=
  stores.foldl (fun m c => Memory.write m (c.1 % 2 ^ 32) c.2) m

/-! ## Memory port (R200, R201) -/

def queueEngine : ReqId := 0
def adminUnit : ReqId := 1
def lineEngine (n : LineId) : ReqId := ⟨n.val + 2, by omega⟩

/-- R200, R201: a requester issues a transfer behind those it has issued before. -/
def State.issue (s : State) (req : ReqId) (t : Transfer) : State :=
  s.modPort fun p => { p with queues := p.queues.set req (p.queues[req] ++ [t]) }

/-- R200: bytes of a transfer from `addr` that lie in the beats before beat `k`; a beat is one aligned word. -/
def bytesBefore (addr : Word) (k : Nat) : Nat := 4 * k - addr.toNat % 4

def TransferKind.length : TransferKind → Nat
  | .read n => n
  | .write b => b.length

/-- R200: how many bytes of a transfer a bus answer lets through: those of the beats before the one that faults. The
faulting beat itself, answered with an error or not at all, carries none of its bytes (log entry 38). -/
def answerBytes (a : BusAnswer) (t : Transfer) : Nat :=
  match a with
  | .completes => t.kind.length
  | .errorAt k => min t.kind.length (bytesBefore t.addr k)
  | .silentAt k => min t.kind.length (bytesBefore t.addr k)

/-- R200: how a transfer stands after the host bus has answered; a beat named past the last one does not exist, so
the transfer completes. -/
def answerOutcome (a : BusAnswer) (t : Transfer) (now : Word) (data : List Byte) : TransferOutcome :=
  if t.kind.length ≤ answerBytes a t then .done data
  else match a with
    | .silentAt _ => .unanswered now
    | _ => .fault

/-- R201: the requester granted next: the lowest number above the position with a transfer waiting, wrapping from 9
to 0. -/
def Port.next (p : Port) : Option ReqId :=
  ([1, 2, 3, 4, 5, 6, 7, 8, 9, 10].map fun d => (p.position + Fin.ofNat 10 d : ReqId)).find? fun r =>
    !(p.queues[r]).isEmpty

/-- The transfer leaves the port: the requester's rule takes it from here, in the same act, so a transfer it issues
competes in the next grant (R201; log entry 42). -/
def State.portFree (s : State) : State := s.modPort fun p => { p with current := none }

/-- The transfer under way has ended, and for what it was: `none` for a bus fault, the bytes read otherwise. -/
def UnderWay.ended (u : UnderWay) : Option (Option (List Byte)) :=
  match u.outcome with
  | .done data => some (some data)
  | .fault => some none
  | .unanswered _ => none

/-! ## Resets (R197, R198, R199) -/

/-- What power-on, soft reset and halt do alike: every line engine, the queue engine and the admin unit take their
reset values, and the memory port discards every transfer (R41, R70, R90, R92, R123, R140, R143, R176, R200). -/
def State.resetBlocks (s : State) : State :=
  { s with
    lines := s.lines.map fun l => Line.reset l.carrier l.rdy l.rx.mark
    sqs := Vector.replicate 17 none, cqs := Vector.replicate 9 none, bqs := Vector.replicate 8 none
    admin := .reset
    port := { s.port with queues := Vector.replicate 10 [], current := none } }

/-- R198: the part enters HALTED. -/
def State.halt (s : State) (cause : HaltCause) : State :=
  { s.resetBlocks with part := .halted, haltCause := cause }

/-! ## Notices (R163) -/

/-- A poster joins the end of an existing CQ's waiter list (R153). -/
def Cq.join (q : Cq) (w : Waiter) : Cq := { q with waiters := q.waiters ++ [w] }

/-- R163: a notice handed to the admin unit takes a place of the holding list and joins the admin CQ's waiter list in
the same act, or is dropped and counted. -/
def State.handNotice (s : State) (e : NoticeEvent) : State :=
  if s.admin.notices.length < Config.noticePlaces then
    let r : NoticeRecord := { event := e, time := s.timebase }
    let s1 := s.modAdmin fun a => { a with notices := a.notices ++ [r] }
    match s1.cqs[(0 : CqId)] with
    | some q => s1.setCq 0 (some (q.join { poster := .notice, record := .notice r }))
    | none => s1
  else s.modAdmin fun a => { a with noticeLost := bump 255 a.noticeLost }

/-! ## Posters (R153, R156) -/

/-- R73, R106, R108: the context returns to FREE and leaves the work list; a poll entry's instance becomes absent. -/
def Line.freeCtx (l : Line) (i : CtxId) : Line :=
  let l1 := { l with exch := { l.exch with contexts := l.exch.contexts.set i none,
                                            work := l.exch.work.filter (fun j => decide (j ≠ i)) } }
  match l.ctx i with
  | some c =>
    match c.origin with
    | .poll e =>
      match l.poll e with
      | some p => if p.inFlight = some i then l1.setPoll e (some { p with inFlight := none }) else l1
      | none => l1
    | .host _ _ => l1
  | none => l1

/-- The head block leaves monitor capture's pending list (R118, R119). -/
def Line.leaveHead (l : Line) : Line := { l with mon := { l.mon with list := l.mon.list.tail, phase := .idle } }

/-- R122: the staged buffer has been handed back (or lost), and monitor capture reports the line settled. -/
def Line.bufferReturned (l : Line) : Line := { l with mon := { l.mon with slot := .empty, settlement := .settled } }

/-- A poster is done with its CQ: its record is posted or its completion discarded (R73, R119, R122, R178, R182,
R163). -/
def State.posterDone (s : State) (p : Poster) : State :=
  match p with
  | .exchange n i => s.modLine n (·.freeCtx i)
  | .monitorBlock n => s.modLine n Line.leaveHead
  | .bufferReturn n => s.modLine n Line.bufferReturned
  | .command => s.modAdmin fun a => { a with phase := .idle, hand := none }
  | .pendingEntry w =>
    s.modAdmin fun a => { a with pendingList := a.pendingList.eraseP fun e => decide (e.work = w) && e.finished }
  | .notice => s.modAdmin fun a => { a with notices := a.notices.tail }

/-- The line engine a poster belongs to. -/
def Poster.line : Poster → Option LineId
  | .exchange n _ => some n
  | .monitorBlock n => some n
  | .bufferReturn n => some n
  | _ => none

/-- R156: one completion discarded on a FAULTED CQ, in the CQ's count and its line's, with its poster done. -/
def State.discard (s : State) (cq : CqId) (p : Poster) : State :=
  let s1 := match s.cqs[cq] with
    | some q => s.setCq cq (some { q with discards := bump Config.counterMax q.discards })
    | none => s
  let s2 := match p.line with
    | some n => s1.modLine n (·.count fun c => { c with discarded := tally c.discarded })
    | none => s1
  s2.posterDone p

/-- R153, R156: a poster ready to complete joins its CQ's waiter list, or is discarded at its joining when the CQ is
FAULTED. -/
def State.joinCq (s : State) (cq : CqId) (w : Waiter) : State :=
  match s.cqs[cq] with
  | some q =>
    match q.state with
    | .active => s.setCq cq (some (q.join w))
    | .faulted => s.discard cq w.poster
  | none => s.posterDone w.poster

/-! ## Buffers (R151) -/

/-- R151: a descriptor can be promised: the BQ is ACTIVE and its available count exceeds its promised count. -/
def Bq.promisable (q : Bq) : Bool :=
  decide (q.state = .active) && decide (q.promises.length < ringDist q.size q.tail q.head)

/-- R151: a promise: the promised count rises and the descriptor's read is issued. -/
def State.promise (s : State) (n : LineId) (q : Bq) (t : Taker) : State :=
  let index := (q.head + q.promises.length) % q.size
  (s.setBq n (some { q with promises := q.promises ++ [t] })).issue queueEngine
    { addr := q.base + BitVec.ofNat 32 (8 * index), kind := .read 8, use := .descriptor n }

/-- R151: a request answered at once: promised, or "none" where no descriptor can be promised. -/
def State.requestBuffer (s : State) (n : LineId) (t : Taker) : Option State :=
  match s.bqs[n] with
  | some q => if q.promisable then some (s.promise n q t) else none
  | none => none

/-- R151: monitor capture's request in STARTING, READY or FAULT: promised, or a place in the request list. A
configured MONITOR line has a BQ (R112). -/
def State.requestStaged (s : State) (n : LineId) : State :=
  match s.bqs[n] with
  | some q =>
    if q.promisable then s.promise n q .staged else s.setBq n (some { q with requests := q.requests ++ [.staged] })
  | none => s

/-! ## Command completions (R178 step 5, R182) -/

/-- The command in hand completes: its ADMIN record is composed and joins the admin CQ's waiter list. -/
def State.completeCommand (s : State) (status : Status) (a b c : Nat) : State :=
  match s.admin.hand with
  | some h =>
    let r : AdminRecord :=
      { status := status, tag := admTag h.record, opcode := byteAt h.record 0, lineByte := byteAt h.record 1,
        resultA := a, resultB := b, resultC := c }
    (s.modAdmin fun ad => { ad with phase := .completing }).joinCq 0 { poster := .command, record := .admin r }
  | none => s

/-- A refused command, and one without results. -/
def State.answerCommand (s : State) (status : Status) : State := s.completeCommand status 0 0 0

/-- R182: the command in hand enters the pending list and the admin unit returns to IDLE. -/
def State.pendCommand (s : State) (w : PendingWork) : State :=
  match s.admin.hand with
  | some h =>
    s.modAdmin fun a =>
      { a with phase := .idle, hand := none
               pendingList := a.pendingList ++
                [{ work := w, opcode := byteAt h.record 0, tag := admTag h.record, lineByte := byteAt h.record 1,
                   finished := false }] }
  | none => s

/-- The first entry of this work not yet over is marked. -/
def finishFirst (w : PendingWork) : List PendingEntry → List PendingEntry
  | [] => []
  | e :: rest => if e.work = w ∧ e.finished = false then { e with finished := true } :: rest else e :: finishFirst w rest

/-- R182: an owner reports a pending entry's work over; its ADMIN completion, with the count in result A, joins the
admin CQ's waiter list in the same act. -/
def State.finishPending (s : State) (w : PendingWork) (count : Nat) : State :=
  match s.admin.pendingList.find? fun e => decide (e.work = w) && !e.finished with
  | some e =>
    let r : AdminRecord :=
      { status := .ok, tag := e.tag, opcode := e.opcode, lineByte := e.lineByte, resultA := count, resultB := 0,
        resultC := 0 }
    (s.modAdmin fun a => { a with pendingList := finishFirst w a.pendingList }).joinCq 0
      { poster := .pendingEntry w, record := .admin r }
  | none => s

/-- The command in hand, in the step that executes it: opcode `op` and, where the row names one, operation `b`. -/
def State.inHand (s : State) (op : Nat) (b : Option Nat) : Option Hand :=
  match s.admin.hand with
  | some h =>
    if s.admin.phase = .executing ∧ admOpcode h.record = op ∧ (∀ k ∈ b, admB h.record = k) then some h else none
  | none => none

end Sys2Proof.Machine
end

