-- ==== Sys2Proof/Machine/StationOps.lean ====
section
/-! DEFINITION. The station table (file 04): finding, creating and replacing entries; health and the sequence bit. -/

namespace Sys2Proof.Machine

/-- The entry that holds an address (R76). -/
def Line.entryIdx (l : Line) (addr : Byte) : Option StationIdx :=
  (List.finRange 64).find? fun i =>
    match l.stations[i] with
    | some e => decide (e.address = addr)
    | none => false

def Line.entry (l : Line) (addr : Byte) : Option StationEntry :=
  match l.entryIdx addr with
  | some i => l.stations[i]
  | none => none

def Line.setStation (l : Line) (i : StationIdx) (e : StationEntry) : Line :=
  { l with stations := l.stations.set i (some e) }

def Line.modEntry (l : Line) (addr : Byte) (f : StationEntry → StationEntry) : Line :=
  match l.entryIdx addr with
  | some i =>
    match l.stations[i] with
    | some e => l.setStation i (f e)
    | none => l
  | none => l

/-- R75: a context pins the entry it has obtained until it returns to FREE. -/
def ctxPins (addr : Byte) : Option Ctx → Bool
  | some c => c.hasEntry && decide (c.station = addr)
  | none => false

/-- R75: an ENABLED poll entry pins its station's entry. -/
def pollPins (addr : Byte) : Option PollEntry → Bool
  | some p => decide (p.station = addr) && decide (p.run ≠ .disabled)
  | none => false

/-- R75: the pin count of the entry of an address. -/
def Line.pins (l : Line) (addr : Byte) : Nat :=
  l.exch.contexts.toList.countP (ctxPins addr) + l.polls.toList.countP (pollPins addr)

/-- R74: a new entry. -/
def newEntry (addr : Byte) (now : Word) : StationEntry :=
  { address := addr, health := .unknown, failures := 0, seq := false, lastUsed := now, lastSuccess := none,
    exchangesOk := 0, exchangesFailed := 0 }

/-- The lowest-numbered empty entry (R76). -/
def Line.emptyStation (l : Line) : Option StationIdx := (List.finRange 64).find? fun i => (l.stations[i]).isNone

/-- R77: age on the timebase, modulo 2^32. -/
def StationEntry.age (e : StationEntry) (now : Word) : Nat := (now - e.lastUsed).toNat

/-- R77: of two candidates in index order the later one wins only when it is older. -/
def Line.older (l : Line) (now : Word) (best : Option StationIdx) (i : StationIdx) : Option StationIdx :=
  match l.stations[i] with
  | none => best
  | some e =>
    if l.pins e.address ≠ 0 then best
    else match best with
      | none => some i
      | some b =>
        match l.stations[b] with
        | some eb => if eb.age now < e.age now then some i else best
        | none => some i

/-- R77: the unpinned entry with the oldest last-used time, the lowest-numbered among equals. -/
def Line.replaceable (l : Line) (now : Word) : Option StationIdx :=
  (List.finRange 64).foldl (l.older now) none

/-- R76, R77: the entry of an address is found or created; `none` is STATION_TABLE_FULL. With `touch` an entry found
has its last-used time set (R78). -/
def Line.obtain (l : Line) (addr : Byte) (now : Word) (touch : Bool) : Option Line :=
  match l.entryIdx addr with
  | some _ => some (if touch then l.modEntry addr fun e => { e with lastUsed := now } else l)
  | none =>
    match l.emptyStation with
    | some i => some (l.setStation i (newEntry addr now))
    | none =>
      match l.replaceable now with
      | some i => some (l.setStation i (newEntry addr now))
      | none => none

/-- The sequence bit a request to an address carries; 0 for a broadcast, which has no entry (R14). -/
def Line.seqOf (l : Line) (addr : Byte) : Bool :=
  match l.entry addr with
  | some e => e.seq
  | none => false

def Line.healthOf (l : Line) (addr : Byte) : Option Health :=
  match l.entry addr with
  | some e => some e.health
  | none => none

/-! ## What an exchange tells the table (R80) -/

/-- R81: an exchange that ends OK or REFUSED. -/
def StationEntry.good (e : StationEntry) (endTime : Word) : StationEntry :=
  { e with failures := 0, health := .online, seq := !e.seq, exchangesOk := bump 65535 e.exchangesOk
           lastSuccess := some endTime }

/-- R81: a WAIT reply. -/
def StationEntry.waited (e : StationEntry) : StationEntry := { e with failures := 0, health := .online }

/-- R82: an exchange that ends with a counted failure. -/
def StationEntry.failed (e : StationEntry) (threshold : Nat) : StationEntry :=
  let n := bump threshold e.failures
  { e with failures := n, exchangesFailed := bump 65535 e.exchangesFailed
           health := if n < threshold then .suspect else .silent }

/-- R84: the notice a change of health causes. -/
def healthNotice (n : LineId) (addr : Byte) (before aft : Health) : Option NoticeEvent :=
  if before ≠ .silent ∧ aft = .silent then some (.stationSilent n addr)
  else if before = .silent ∧ aft = .online then some (.stationBack n addr)
  else none

/-- R80: the station table takes a happening whole: the change to the entry and the notice it causes. -/
def State.tellStation (s : State) (n : LineId) (addr : Byte) (f : StationEntry → StationEntry) : State :=
  match (s.line n).entry addr with
  | some e =>
    let s1 := s.modLine n (·.modEntry addr f)
    match healthNotice n addr e.health (f e).health with
    | some ev => s1.handNotice ev
    | none => s1
  | none => s

end Sys2Proof.Machine
end

