-- ==== Sys2Proof/Machine/SignalOps.lean ====
section
/-! DEFINITION. The signalling unit (file 02): receiver, gap timer, transmitter and send orders, as changes of one
line. Intervals in bit times are counted in REFCLK periods, `divider` of them to a bit time (R16). -/

namespace Sys2Proof.Machine

/-! ## Receiver -/

/-- R19: the receiver leaves STOPPED. -/
def Receiver.start (r : Receiver) : Receiver :=
  { r with state := if r.mark then .hunting else .awaitMark, block := none, early := none, age := none, tail := none,
           echo := false, idle := false, gap := 0 }

/-- R19, R32: the receiver enters STOPPED; it is disarmed, and a character or block in progress is abandoned. -/
def Receiver.stop (r : Receiver) : Receiver :=
  { r with state := .stopped, armed := false, window := none, block := none, early := none, age := none, tail := none,
           echo := false, idle := false, gap := 0 }

/-- R19, R113: the line's receiver enters STOPPED; with the block in progress goes the block filter. -/
def Line.stopReceiver (l : Line) : Line :=
  { l with rx := l.rx.stop, mon := { l.mon with blockFilter := none } }

/-- R24: the gap timer has reached `bits` bit times. -/
def Line.gapReached (l : Line) (cfg : LineConfig) (bits : Nat) : Bool := decide (bits * cfg.divider ≤ l.rx.gap)

/-- R24, R26, R27: activity on RXD sets the gap timer to 0, and an order in READY_WAIT returns to GAP_WAIT. -/
def Line.activity (l : Line) : Line :=
  { l with rx := { l.rx with gap := 0 }
           tx := if l.tx.phase = .readyWait then { l.tx with phase := .gapWait } else l.tx }

/-- Two of three samples. -/
def maj3 (a b c : Bool) : Bool := (a && b) || (a && c) || (b && c)

/-- R20: at least two of the three samples of the start bit are space. -/
def spaceWins (b : BitSamples) : Bool := !maj3 b.s7 b.s8 b.s9

/-- R21: each bit by majority of its three samples. -/
def charBits (c : CharSamples) : BitVec 10 := (c.s7 &&& c.s8) ||| (c.s7 &&& c.s9) ||| (c.s8 &&& c.s9)

/-- R21: the character's value, its data bits least significant first. -/
def charValue (c : CharSamples) : Byte := (charBits c).setWidth 8

/-- R2: the received parity bit differs from the computed one. -/
def charParityError (c : CharSamples) (cfg : LineConfig) : Bool :=
  decide (cfg.parity ≠ .none) && ((charBits c).getLsbD 8 != parityBit cfg.parity (charValue c))

/-- R22: the first stop bit was taken as mark. -/
def charStopMark (c : CharSamples) : Bool := (charBits c).getLsbD 9

/-- R22: a break character, whatever its parity bit. -/
def charIsBreak (c : CharSamples) : Bool := !charStopMark c && decide (charValue c = 0)

/-- R20, R21: the third sample of the bit of index `i` has been taken, 9/16 of a bit period into it. -/
def sampled (cfg : LineConfig) (age : Option Nat) (i : Nat) : Bool :=
  match age with
  | some a => decide ((16 * i + 9) * cfg.divider ≤ 16 * a)
  | none => true

/-- The index of the first stop bit (R21). -/
def LineConfig.stopIndex (cfg : LineConfig) : Nat := if cfg.parity = Parity.none then 9 else 10

/-- R5, R23, R113: a block begins, at the falling edge that began the qualified start bit. -/
def Line.beginBlock (l : Line) (reply : Bool) : Line :=
  { l with
    rx := { l.rx with idle := false,
                      block := some { chars := [], count := 0, framing := false, parity := false, brk := false,
                                      start := l.rx.edge, reply := reply } }
    mon := match l.config with
      | some cfg => if cfg.mode = .monitor then { l.mon with blockFilter := some l.mon.filter } else l.mon
      | none => l.mon }

/-- R6, R23: a character joins the block in progress. -/
def RxBlock.join (b : RxBlock) (c : CharSamples) (cfg : LineConfig) : RxBlock :=
  { b with
    chars := if b.chars.length < Config.stagingChars then b.chars ++ [charValue c] else b.chars
    count := bump 65535 b.count
    framing := b.framing || !charStopMark c
    parity := b.parity || charParityError c cfg
    brk := b.brk || charIsBreak c }

/-- R33: the falling edge came before the window ran out. -/
def edgeInWindow (edge : Word) : Option Word → Bool
  | some w => !reached edge w
  | none => true

/-! ## Send orders -/

/-- R14: the request block of a context. -/
def Line.requestFor (l : Line) (c : Ctx) : List Byte :=
  requestBlock c.station (if c.station = 0 then false else l.seqOf c.station) c.function (c.store.take c.requestLength)

/-- R25, R53: a send order taken in IDLE; the transmitter enters GAP_WAIT. -/
def Line.giveOrder (l : Line) (i : CtxId) (idle : Nat) : Line :=
  match l.ctx i with
  | some c =>
    { l with tx := { Transmitter.reset with
                      phase := .gapWait
                      order := some { ctx := i, block := l.requestFor c, idle := idle,
                                      broadcast := decide (c.station = 0) } } }
  | none => l

/-- An order is held in GAP_WAIT or READY_WAIT (R25). -/
def Transmitter.waiting (t : Transmitter) : Bool := decide (t.phase = .gapWait) || decide (t.phase = .readyWait)

/-- A transmission is under way (R29). -/
def Transmitter.sending (t : Transmitter) : Bool :=
  decide (t.phase = .lead) || decide (t.phase = .send) || decide (t.phase = .hold)

/-- The ordered context (R43). -/
def Line.ordered (l : Line) : Option CtxId :=
  match l.tx.order with
  | some o => some o.ctx
  | none => none

/-- R25: the exchange unit withdraws the order of a context while it waits; nothing is reported. -/
def Line.withdraw (l : Line) (i : CtxId) : Line :=
  if l.tx.waiting = true ∧ l.ordered = some i then { l with tx := .reset } else l

/-- TALKING, LISTENING, RETRY_WAIT and SETTLING are the active states (R43). -/
def CtxState.active : CtxState → Bool
  | .talking => true
  | .listening => true
  | .retryWait => true
  | .settling => true
  | _ => false

def ctxActive : Option Ctx → Bool
  | some c => c.state.active
  | none => false

/-- The active context, if any. -/
def Line.activeCtx (l : Line) : Option CtxId := l.exch.work.find? fun i => ctxActive (l.ctx i)

/-- R52: a context in this state, earlier in the work list, keeps a later one for its station from being eligible. -/
def CtxState.blocksLater : CtxState → Bool
  | .queued => true
  | .holding _ => true
  | .admission => true
  | _ => false

def ctxBlocks (addr : Byte) : Option Ctx → Bool
  | some c => decide (c.station = addr) && c.state.blocksLater
  | none => false

/-- R52: the context is QUEUED and eligible. -/
def Line.eligible (l : Line) (i : CtxId) : Bool :=
  match l.ctx i with
  | some c =>
    decide (c.state = .queued)
      && (l.exch.work.takeWhile fun j => decide (j ≠ i)).all fun j => !ctxBlocks c.station (l.ctx j)
  | none => false

/-- R53: the first eligible context of the work list. -/
def Line.firstEligible (l : Line) : Option CtxId := l.exch.work.find? l.eligible

/-- R53: an order held for a context that is no longer the first eligible one is withdrawn. -/
def Line.reorder (l : Line) : Line :=
  match l.ordered with
  | some i =>
    match l.ctx i with
    | some c => if c.state = .queued ∧ l.firstEligible ≠ some i then l.withdraw i else l
    | none => l
  | none => l

/-- R29, R30, R54: the transmitter enters LEAD and reports LEAD_BEGUN; the ordered context enters TALKING and an
attempt begins. -/
def Line.beginLead (l : Line) (cfg : LineConfig) (now : Word) : Line :=
  match l.tx.order with
  | some o =>
    match l.ctx o.ctx with
    | some c =>
      let l1 := { l with
        tx := { l.tx with phase := .lead, age := 0, de := true, readyTimer := none, stopAt := none,
                          echoStarts := 0, echoMatched := 0 }
        rx := if cfg.echo then { l.rx with gap := 0 } else l.rx.stop }
      let recorded := match c.recordedHealth with
        | some h => some h
        | none => if c.hasEntry then l.healthOf c.station else none
      let l2 := l1.setCtx o.ctx (some { c with state := .talking, staleSeen := false, recordedHealth := recorded })
      if c.hasEntry then l2.modEntry c.station (fun e => { e with lastUsed := now }) else l2
    | none => l
  | none => l

/-- Bit times the order's block takes on the wire (R7). -/
def Line.blockBits (l : Line) (cfg : LineConfig) : Nat :=
  match l.tx.order with
  | some o => o.block.length * cfg.charTime
  | none => 0

/-- R36: REFCLK periods from the start of SEND to the end of the character being sent, the block's last one at most. -/
def Line.charEnd (l : Line) (cfg : LineConfig) : Nat :=
  min ((l.tx.age / (cfg.charTime * cfg.divider) + 1) * (cfg.charTime * cfg.divider)) (l.blockBits cfg * cfg.divider)

/-- R34: the echo of the next sent character to be compared matches. A character taken as an echo when every sent
character has been matched has none to match, and does not (log entry 37). -/
def Line.echoMatches (l : Line) (cfg : LineConfig) (c : CharSamples) : Bool :=
  match l.tx.order with
  | some o =>
    match o.block[l.tx.echoMatched]? with
    | some b => decide (charValue c = b) && !charParityError c cfg && charStopMark c
    | none => false
  | none => false

end Sys2Proof.Machine
end

