-- ==== Sys2Proof/Machine/PostingOps.lean ====
section
/-! DEFINITION. The end of an exchange and POSTING (file 03), with the poll table's decision to deliver, suppress or
lose a result (file 05). -/

namespace Sys2Proof.Machine

/-- OK and REFUSED: the good results (R102). -/
def Status.good : Status → Bool
  | .ok => true
  | .refused => true
  | _ => false

def State.setCtx (s : State) (n : LineId) (i : CtxId) (c : Ctx) : State := s.modLine n (·.setCtx i (some c))

/-! ## Completion records of contexts (R73, R110, R169) -/

/-- The origin's part of a record: kind, source and tag, and the SQ whose head the record carries. -/
def Line.originFields (l : Line) : Origin → LineKind × Byte × Half × Option SqId
  | .host sq tag => (.exchange, BitVec.ofNat 8 sq.val, tag, some sq)
  | .poll e =>
    (.poll, BitVec.ofNat 8 e.val,
      match l.poll e with
      | some p => p.tag
      | none => 0,
      none)

def Line.exchangeRecord (l : Line) (n : LineId) (c : Ctx) (r : Result) : LineRecord :=
  let o := l.originFields c.origin
  { kind := o.1, status := r.status, tag := o.2.2.1, source := o.2.1, line := n, station := c.station
    replyFunction := r.replyFunction, replyLength := r.replyLength, attempts := c.attempts, waits := c.waits
    health := r.healthAfter
    flags := { abortLate := r.abortLate, truncated := r.truncated, healthChanged := r.healthChanged }
    lost := 0
    buffer := match c.buffer with
      | some d => some d.addr
      | none => none
    timestamp := r.endTime, sq := o.2.2.2 }

/-- R73: the CQ a context completes on: its SQ's bound CQ, or the line CQ for POLL origin. -/
def State.ctxCq (s : State) (n : LineId) (c : Ctx) : Option CqId :=
  match c.origin with
  | .host sq _ =>
    match s.sqs[sq] with
    | some q =>
      match q.binding with
      | some b => some b.cq
      | none => none
    | none => none
  | .poll _ =>
    match (s.line n).config with
    | some cfg => some cfg.lineCq
    | none => none

/-- R73: a context ready to complete joins the waiter list of its CQ. -/
def State.readyToComplete (s : State) (n : LineId) (i : CtxId) : State :=
  match (s.line n).ctx i with
  | some c =>
    match c.result, s.ctxCq n c with
    | some r, some cq =>
      s.joinCq cq { poster := .exchange n i, record := .line ((s.line n).exchangeRecord n c r) }
    | _, _ => s.modLine n (·.freeCtx i)
  | none => s

/-! ## Reply data (R71, R72) -/

/-- R72: where the reply data goes: the reply address, or the buffer taken. -/
def Ctx.target (c : Ctx) : Option Descriptor :=
  match c.dest with
  | .host addr capacity => some { addr := addr, capacity := capacity }
  | .bufferQueue => c.buffer

/-- R72: the reply data is written, cut to the destination's capacity; a context without data to write is ready to
complete. -/
def State.writeReply (s : State) (n : LineId) (i : CtxId) : State :=
  match (s.line n).ctx i with
  | some c =>
    match c.result, c.target with
    | some r, some d =>
      if r.status.good then
        let s1 := s.setCtx n i { c with result := some { r with truncated := decide (d.capacity < r.replyLength) } }
        let data := c.store.take (min r.replyLength d.capacity)
        if data.isEmpty then s1.readyToComplete n i
        else s1.issue (lineEngine n) { addr := d.addr, kind := .write data, use := .payload n i }
      else s.readyToComplete n i
    | _, _ => s.readyToComplete n i
  | none => s

/-- R71: a buffer is needed. -/
def Ctx.needsBuffer (c : Ctx) (r : Result) : Bool :=
  decide (c.dest = .bufferQueue) && r.status.good && decide (1 ≤ r.replyLength) && decide (c.buffer = none)

/-- R71: a host exchange that finds no buffer takes NO_BUFFER and goes on without one. -/
def State.noBuffer (s : State) (n : LineId) (i : CtxId) : State :=
  match (s.line n).ctx i with
  | some c =>
    match c.result with
    | some r => (s.setCtx n i { c with result := some { r with status := .noBuffer } }).readyToComplete n i
    | none => s
  | none => s

/-! ## The poll table's decision (R102 to R108) -/

/-- R104: the digest of a result: its function field as one character, then the whole payload. -/
def replyDigest (c : Ctx) (r : Result) : Half :=
  crc16 ((match r.replyFunction with
    | some f => f.setWidth 8
    | none => 0) :: c.store.take r.replyLength)

/-- R103, R104, R105: the result is delivered; otherwise it is suppressed. -/
def PollEntry.delivers (p : PollEntry) (c : Ctx) (r : Result) : Bool :=
  match p.mode with
  | .every => true
  | .onChange =>
    if r.status.good then
      decide (p.digest ≠ some (replyDigest c r)) || decide (p.lastStatus ≠ some r.status)
        || (decide (p.quiet ≠ 0) && decide (p.quiet ≤ p.suppressed))
    else decide (p.lastStatus ≠ some r.status)

/-- R107: the entry after a delivered result. -/
def PollEntry.delivered (p : PollEntry) (c : Ctx) (r : Result) : PollEntry :=
  match p.mode with
  | .every => { p with suppressed := 0 }
  | .onChange =>
    { p with suppressed := 0, lastStatus := some r.status
             digest := if r.status.good then some (replyDigest c r) else none }

/-- R106: a suppressed result. -/
def Line.suppress (l : Line) (i : CtxId) (e : PollId) (p : PollEntry) : Line :=
  ((l.setPoll e (some { p with suppressed := bump 255 p.suppressed })).count fun k =>
    { k with repliesSuppressed := tally k.repliesSuppressed }).freeCtx i

/-- R108: a reply lost for want of a buffer. -/
def Line.losePoll (l : Line) (i : CtxId) : Line := ({ l with pollLost := bump 255 l.pollLost } : Line).freeCtx i

/-- R102, R107, R108: a poll instance's result at POSTING. -/
def State.settlePoll (s : State) (n : LineId) (i : CtxId) (e : PollId) (c : Ctx) (r : Result) : State :=
  match (s.line n).poll e with
  | some p =>
    if !p.delivers c r then s.modLine n (·.suppress i e p)
    else if c.needsBuffer r then
      match s.requestBuffer n (.ctx i) with
      | some s1 => s1
      | none => s.modLine n (·.losePoll i)
    else (s.modLine n (·.setPoll e (some (p.delivered c r)))).readyToComplete n i
  | none => s.modLine n (·.freeCtx i)

/-- R71: a context enters POSTING with its result. -/
def State.enterPosting (s : State) (n : LineId) (i : CtxId) : State :=
  match (s.line n).ctx i with
  | some c =>
    match c.result with
    | some r =>
      match c.origin with
      | .host _ _ =>
        if c.needsBuffer r then
          match s.requestBuffer n (.ctx i) with
          | some s1 => s1
          | none => s.noBuffer n i
        else s.writeReply n i
      | .poll e => s.settlePoll n i e c r
    | none => s
  | none => s

/-- R108, R110: the descriptor a context asked for has arrived: it is taken, a poll entry is updated, and the payload
is written. -/
def State.bufferArrives (s : State) (n : LineId) (i : CtxId) (d : Descriptor) : State :=
  match (s.line n).ctx i with
  | some c =>
    let s1 := s.setCtx n i { c with buffer := some d }
    match c.origin, c.result with
    | .poll e, some r =>
      match (s.line n).poll e with
      | some p => (s1.modLine n (·.setPoll e (some (p.delivered c r)))).writeReply n i
      | none => s1.writeReply n i
    | _, _ => s1.writeReply n i
  | none => s

/-- R71, R108, R152: the answer to a promised request is "none" after all. -/
def State.bufferNone (s : State) (n : LineId) (i : CtxId) : State :=
  match (s.line n).ctx i with
  | some c =>
    match c.origin with
    | .host _ _ => s.noBuffer n i
    | .poll _ => s.modLine n (·.losePoll i)
  | none => s

/-! ## The end of an exchange (R60 to R69, R85) -/

/-- How an exchange ends. -/
structure Ending where
  status : Status
  endTime : Word
  replyFunction : Option (BitVec 5) := none
  replyLength : Nat := 0
  abortLate : Bool := false
  /-- ended because the line lost its carrier (R68, R69, R132) -/
  byCarrier : Bool := false
  /-- ended at admission with ABORTED (R45, R135): it has no health after (R85) -/
  atAdmission : Bool := false
  deriving DecidableEq, Repr

/-- R132, R135: the ending counts in the stop ended count; a broadcast an immediate stop met in SETTLING does not,
however it ends. -/
def Line.countsInStop (l : Line) (c : Ctx) (e : Ending) : Bool :=
  match l.stop with
  | some .drain => e.byCarrier
  | some .immediate => decide (e.status = .aborted) && !c.stopLate
  | none => false

/-- R85, R169: the result, with the health after and whether this exchange changed it. -/
def Line.resultOf (l : Line) (c : Ctx) (e : Ending) : Result :=
  let health := if c.hasEntry && !e.atAdmission then l.healthOf c.station else none
  { status := e.status, replyFunction := e.replyFunction, replyLength := e.replyLength, endTime := e.endTime
    abortLate := e.abortLate, truncated := false, healthAfter := health
    healthChanged := match c.recordedHealth, health with
      | some h, some k => decide (k ≠ h)
      | _, _ => false }

/-- The context has its outcome: it takes its result and goes to POSTING. -/
def State.endExchange (s : State) (n : LineId) (i : CtxId) (e : Ending) : State :=
  let l := s.line n
  match l.ctx i with
  | some c =>
    let l1 := l.setCtx i (some { c with state := .posting, result := some (l.resultOf c e) })
    (s.setLine n { l1 with stopEnded := if l.countsInStop c e then bump 65535 l.stopEnded else l.stopEnded }).enterPosting
      n i
  | none => s

/-- R68, R69: a context ended because the line lost its carrier; with abort-requested set it ends with ABORTED, a
broadcast settling in a drain too (R65; log entry 40). -/
def State.endByCarrier (s : State) (n : LineId) (i : CtxId) : State :=
  match (s.line n).ctx i with
  | some c =>
    s.endExchange n i
      { status := if c.abortRequested then .aborted else .lineLost, endTime := s.timebase, byCarrier := true }
  | none => s

/-- R67, R68: a context ended now by an abort or an immediate stop; its order is withdrawn. -/
def State.endAborted (s : State) (n : LineId) (i : CtxId) : State :=
  (s.modLine n (·.withdraw i)).endExchange n i { status := .aborted, endTime := s.timebase }

/-- Doing something with each context of a line that passes a test, in work-list order (log entry 41); the contexts are
those of the work list at the start. -/
def State.forContexts (s : State) (n : LineId) (sel : Ctx → Bool) (f : State → CtxId → State) : State :=
  ((s.line n).exch.work.filter fun i =>
    match (s.line n).ctx i with
    | some c => sel c
    | none => false).foldl f s

end Sys2Proof.Machine
end

