-- ==== Sys2Proof/Machine/ExchangeOps.lean ====
section
/-! DEFINITION. The exchange unit (file 03): admission, judgement of replies, retries, contention, abort. -/

namespace Sys2Proof.Machine

/-! ## Failed attempts (R57, R58, R63, R190) -/

/-- R190: the failure counter of a cause. -/
def Counters.failure (k : Counters) : Status → Counters
  | .noReply => { k with noReply := tally k.noReply }
  | .badCheck => { k with badCheck := tally k.badCheck }
  | .charError => { k with charError := tally k.charError }
  | .badLength => { k with badLength := tally k.badLength }
  | .wrongStation => { k with wrongStation := tally k.wrongStation }
  | .badKind => { k with badKind := tally k.badKind }
  | .stale => { k with stale := tally k.stale }
  | .lineBreak => { k with lineBreak := tally k.lineBreak }
  | _ => k

/-- R63: the effective retry limit. -/
def Line.effectiveLimit (l : Line) (c : Ctx) : Nat :=
  if l.healthOf c.station = some .silent ∧ c.fullRetries = false then 0 else c.retryLimit

/-- R63: an attempt of a context has failed: it is counted, and retried or the end of the exchange. The instant of
failure is now; for a reply kept from HOLD that is the report of SENT and not its block's end (log entry 17). An ending
with ABORTED in place of the failure takes that instant too (log entry 39). -/
def State.failAttempt (s : State) (n : LineId) (i : CtxId) (why : Status) : State :=
  let s1 := s.modLine n (·.count fun k => k.failure why)
  let l := s1.line n
  match l.ctx i, l.config with
  | some c, some cfg =>
    if c.abortRequested then s1.endExchange n i { status := .aborted, endTime := s.timebase }
    else if c.attempts - c.waits ≤ l.effectiveLimit c then
      s1.setLine n ((l.setCtx i (some { c with state := .retryWait })).giveOrder i (cfg.gap + cfg.retryDelay))
    else
      (s1.tellStation n c.station (·.failed cfg.silentThreshold)).endExchange n i { status := why, endTime := s.timebase }
  | _, _ => s1

/-- The LISTENING context, if any. -/
def Line.listening (l : Line) : Option CtxId :=
  l.exch.work.find? fun i =>
    match l.ctx i with
    | some c => decide (c.state = .listening)
    | none => false

/-- R32, R33: the receiver is disarmed and the reply window timer stops. -/
def Line.disarm (l : Line) : Line := { l with rx := { l.rx with armed := false, window := none } }

/-- R33, R57: NO_START is reported: the receiver is disarmed and the attempt fails with NO_REPLY. -/
def State.reportNoStart (s : State) (n : LineId) : State :=
  let s1 := s.modLine n Line.disarm
  match (s.line n).listening with
  | some i => s1.failAttempt n i .noReply
  | none => s1

/-! ## Replies (R58 to R61) -/

/-- The judgement of a block handed to a LISTENING context. -/
inductive Verdict where
  | fails (why : Status)
  | stale
  | data | refuse | wait
  deriving DecidableEq, Repr

/-- R58: the seven checks in order, and the kind of a good reply (R15). -/
def judgeReply (b : RxBlock) (station : Byte) (seq : Bool) : Verdict :=
  let control := byteAt b.chars 1
  if !b.consistent then .fails .badLength
  else if b.brk then .fails .lineBreak
  else if b.framing || b.parity then .fails .charError
  else if !b.checkPasses then .fails .badCheck
  else if byteAt b.chars 0 ≠ station then .fails .wrongStation
  else if controlKind control = .request then .fails .badKind
  else if controlSeq control ≠ seq then .stale
  else match controlKind control with
    | .data => .data
    | .wait => .wait
    | _ => .refuse

/-- R60: a good reply of kind DATA or REFUSE, whose block ended at `ended`, ends the exchange. -/
def State.replyGood (s : State) (n : LineId) (i : CtxId) (b : RxBlock) (ended : Word) (status : Status) : State :=
  match (s.line n).ctx i with
  | some c =>
    let s1 := (s.setCtx n i { c with store := b.payload }).tellStation n c.station (·.good ended)
    s1.endExchange n i
      { status := status, endTime := ended, replyFunction := some (controlFunction (byteAt b.chars 1))
        replyLength := b.payload.length, abortLate := c.abortRequested }
  | none => s

/-- R61: a good reply of kind WAIT, whose block ended at `ended`; that is the end time of an ending with ABORTED too (log
entry 39). -/
def State.replyWait (s : State) (n : LineId) (i : CtxId) (ended : Word) : State :=
  match (s.line n).ctx i, (s.line n).config with
  | some c, some cfg =>
    let c1 := { c with waits := c.waits + 1 }
    let s1 := (s.setCtx n i c1).tellStation n c.station StationEntry.waited
    if c.abortRequested then s1.endExchange n i { status := .aborted, endTime := ended }
    else if cfg.waitLimit ≤ c1.waits then s1.endExchange n i { status := .waitLimit, endTime := ended }
    else s1.setCtx n i { c1 with state := .holding (afterMs ended cfg.holdOff) }
  | _, _ => s

/-- R59: a stale reply: the first of an attempt is discarded and the receiver re-armed with a fresh window
from the block's end, the second fails the attempt. -/
def State.replyStale (s : State) (n : LineId) (i : CtxId) (ended : Word) : State :=
  match (s.line n).ctx i, (s.line n).config with
  | some c, some cfg =>
    if c.staleSeen then s.failAttempt n i .stale
    else (s.setCtx n i { c with staleSeen := true }).modLine n fun l =>
      { l with rx := { l.rx with armed := true, window := some (after ended (100 * cfg.window)) } }
  | _, _ => s

/-- R57: a block that ended at `ended` handed to the LISTENING context; one that fails a check fails the attempt now
(log entry 17). -/
def State.judgeBlock (s : State) (n : LineId) (i : CtxId) (b : RxBlock) (ended : Word) : State :=
  match (s.line n).ctx i with
  | some c =>
    match judgeReply b c.station ((s.line n).seqOf c.station) with
    | .fails why => s.failAttempt n i why
    | .stale => s.replyStale n i ended
    | .data => s.replyGood n i b ended .ok
    | .refuse => s.replyGood n i b ended .refused
    | .wait => s.replyWait n i ended
  | none => s

/-! ## Contention (R36, R64) -/

/-- R36, R64: a contention: the transmission stops, DE is released, and the context backs off or ends. The end time is
that of the report, when the character being sent is finished (log entry 39). -/
def State.contention (s : State) (n : LineId) : State :=
  let l := s.line n
  let l1 := ({ l with tx := .reset, rx := { l.rx with armed := false, window := none, gap := 0 } } : Line).count
    fun k => { k with contentions := tally k.contentions }
  let s1 := s.setLine n l1
  match l.ordered, l.config with
  | some i, some cfg =>
    match l.ctx i with
    | some c =>
      if c.abortRequested then s1.endExchange n i { status := .aborted, endTime := s.timebase }
      else
        let c1 := { c with contentions := c.contentions + 1 }
        if cfg.contentionLimit ≤ c1.contentions then
          (s1.setCtx n i c1).endExchange n i { status := .contentionLimit, endTime := s.timebase }
        else
          s1.setLine n ((l1.setCtx i (some { c1 with state := .retryWait })).giveOrder i
            (cfg.gap + c.station.toNat % 8 * cfg.charTime))
    | none => s1
  | _, _ => s1

/-! ## Broadcasts (R65) -/

/-- R65: the settle time has run out. -/
def State.settleOver (s : State) (n : LineId) (i : CtxId) : State :=
  let s1 := s.modLine n fun l => { l with exch := { l.exch with settle := none } }
  match (s.line n).ctx i with
  | some c =>
    s1.endExchange n i { status := .sent, endTime := s.timebase, abortLate := c.abortRequested || c.abortLate }
  | none => s1

/-! ## Admission (R44 to R50) -/

/-- Contexts FREE and not lent. -/
def Line.freeCtxs (l : Line) : List CtxId :=
  (List.finRange 16).filter fun i => decide (l.ctx i = none ∧ l.exch.lent ≠ some i)

/-- R42: the fields every admitted context starts with. -/
def freshCtx (origin : Origin) (now : Word) : Ctx :=
  { origin := origin, station := 0, function := 0, requestLength := 0, store := [], dest := .bufferQueue
    retryLimit := 0, fullRetries := false, attempts := 0, waits := 0, contentions := 0, state := .admission
    abortRequested := false, abortLate := false, stopLate := false, abortAtAdmission := false, staleSeen := false
    recordedHealth := none, hasEntry := false, buffer := none, admitted := now, result := none }

/-- R49: a context filled from a host record. -/
def hostCtx (sq : SqId) (r : List Byte) (cfg : LineConfig) (now : Word) : Ctx :=
  { freshCtx (.host sq (subTag r)) now with
    station := subStation r, function := (subFunction r).setWidth 5, requestLength := subLength r
    store := if subInline r then subInlineData r else []
    dest := if subReplyToBq r then .bufferQueue else .host (subReplyAddr r) (subReplyCapacity r)
    retryLimit := if subRetry r = 8 then cfg.retryLimit else subRetry r
    fullRetries := subFullRetries r }

/-- R50: a context filled from a poll entry. -/
def pollCtx (e : PollId) (p : PollEntry) (now : Word) : Ctx :=
  { freshCtx (.poll e) now with
    station := p.station, function := p.function, requestLength := p.payload.length, store := p.payload
    retryLimit := p.retryLimit, hasEntry := true, state := .queued }

/-- R51: a context joins the end of the work list. -/
def Line.joinWork (l : Line) (i : CtxId) (c : Ctx) : Line :=
  { l with exch := { l.exch with contexts := l.exch.contexts.set i (some c), work := l.exch.work ++ [i] } }

/-- R46: a record that fails a check at admission. -/
def State.failAdmission (s : State) (n : LineId) (i : CtxId) (why : Status) : State :=
  match (s.line n).ctx i with
  | some c => s.endExchange n i { status := why, endTime := c.admitted }
  | none => s

/-- R45, R67, R132, R135: a context that has passed the checks enters QUEUED, unless an abort, an immediate stop or a
drain without carrier ends it in place of that. One ended ABORTED takes the moment it leaves admission as its end time,
also in an immediate stop (log entry 36), and has no health after (R85). -/
def State.enterQueued (s : State) (n : LineId) (i : CtxId) (c : Ctx) : State :=
  let s1 := s.setCtx n i c
  let l := s.line n
  if c.abortAtAdmission ∨ l.stop = some .immediate then
    s1.endExchange n i { status := .aborted, endTime := s.timebase, atAdmission := true }
  else if l.stop = some .drain ∧ l.carrier = false then s1.endByCarrier n i
  else s.setCtx n i { c with state := .queued }

/-- R46 step 5, R48: the request data is in the store; the station entry is obtained and the context leaves
admission. -/
def State.leaveAdmission (s : State) (n : LineId) (i : CtxId) : State :=
  match (s.line n).ctx i with
  | some c =>
    if c.station = 0 then s.enterQueued n i c
    else
      match (s.line n).obtain c.station s.timebase true with
      | some l1 => (s.setLine n l1).enterQueued n i { c with hasEntry := true }
      | none => s.failAdmission n i .stationTableFull
  | none => s

/-- R46, R47, R166: the checks of a fetched record, with its context already in the work list. -/
def State.checkRecord (s : State) (n : LineId) (i : CtxId) (r : List Byte) (cfg : LineConfig) : State :=
  if subKind r ≠ 1 then s.failAdmission n i .badRecord
  else if subMalformed r (s.bqs[n]).isSome then s.failAdmission n i .badRecord
  else if cfg.mode = .monitor then s.failAdmission n i .wrongMode
  else if subInline r = false ∧ 0 < subLength r then
    s.issue (lineEngine n) { addr := subPointer r, kind := .read (subLength r), use := .requestData n i }
  else s.leaveAdmission n i

/-! ## Abort (R66, R67) -/

/-- R67: the contexts an abort counts as aborted; SETTLING and POSTING are too late. -/
def CtxState.abortable : CtxState → Bool
  | .settling => false
  | .posting => false
  | _ => true

/-- R67: an abort acts on one context. -/
def State.abortOne (n : LineId) (s : State) (i : CtxId) : State :=
  match (s.line n).ctx i with
  | some c =>
    match c.state with
    | .queued => s.endAborted n i
    | .holding _ => s.endAborted n i
    | .retryWait => s.endAborted n i
    | .admission => s.setCtx n i { c with abortAtAdmission := true }
    | .talking => s.setCtx n i { c with abortRequested := true }
    | .listening => s.setCtx n i { c with abortRequested := true }
    | .settling => s.setCtx n i { c with abortLate := true }
    | .posting => s
  | none => s

def countCtx (p : Ctx → Bool) : Option Ctx → Bool
  | some c => p c
  | none => false

/-- R67: contexts of a line counted as aborted and as too late. -/
def Line.abortCounts (l : Line) (sel : Ctx → Bool) : Nat × Nat :=
  (l.exch.contexts.toList.countP (countCtx fun c => sel c && c.state.abortable),
   l.exch.contexts.toList.countP (countCtx fun c => sel c && !c.state.abortable))

/-- R66, R67, R188: an abort of the contexts a test names on a line, and its completion with the two counts. -/
def State.abort (s : State) (n : LineId) (sel : Ctx → Bool) : State :=
  let counts := (s.line n).abortCounts sel
  (s.forContexts n sel (State.abortOne n)).completeCommand .ok counts.1 counts.2 0

end Sys2Proof.Machine
end

