-- ==== Sys2Proof/Machine/MonitorOps.lean ====
section
/-! DEFINITION. Monitor capture (file 06): capture, the staged buffer, delivery and settlement. -/

namespace Sys2Proof.Machine

def Line.setMon (l : Line) (f : Monitor → Monitor) : Line := { l with mon := f l.mon }

/-- R113: a filter accepts an address. -/
def Filter.accepts (f : Filter) (a : Byte) : Bool :=
  match f with
  | .all => true
  | .list as => as.contains a

/-- R115: the block entry a received-block record gives. -/
def monBlock (b : RxBlock) : MonBlock :=
  { chars := b.chars, start := b.start, crcBad := !b.checkPasses, charErr := b.framing || b.parity || b.brk
    overlong := decide (Config.stagingChars < b.count), lost := 0, buffer := none, truncated := false, status := .ok }

/-- R116: a captured block joins the pending list or is dropped and counted. -/
def Line.capture (l : Line) (b : RxBlock) : Line :=
  if l.mon.list.length < Config.monitorPlaces then
    (l.setMon fun m => { m with list := m.list ++ [{ monBlock b with lost := m.lost }], lost := 0 }).count
      fun k => { k with monitorCaptured := tally k.monitorCaptured }
  else
    (l.setMon fun m => { m with lost := bump 255 m.lost }).count fun k => { k with monitorLost := tally k.monitorLost }

/-- R113, R114: a received block on a MONITOR line. -/
def Line.monitorBlock (l : Line) (b : RxBlock) : Line :=
  let l1 := l.setMon fun m => { m with blockFilter := none }
  match l.mon.blockFilter with
  | some f =>
    if (l.state = .ready ∨ l.state = .fault) ∧ f.accepts (byteAt b.chars 0) then l1.capture b else l1
  | none => l1

/-- R118: what the head takes with its buffer. -/
def MonBlock.taking (m : MonBlock) (d : Descriptor) : MonBlock :=
  { m with buffer := some d, truncated := decide (d.capacity < m.chars.length) }

/-- R119: the MONITOR record of a block. -/
def MonBlock.record (m : MonBlock) (n : LineId) : LineRecord :=
  { kind := .monitor, status := m.status, tag := 0, source := lineByte n, line := n, station := byteAt m.chars 0
    replyFunction := if 2 ≤ m.chars.length then some (controlFunction (byteAt m.chars 1)) else none
    replyLength := m.chars.length, attempts := 0, waits := 0, health := none
    flags := { crcBad := m.crcBad, charErr := m.charErr, overlong := m.overlong, truncated := m.truncated }
    lost := m.lost
    buffer := match m.buffer with
      | some d => some d.addr
      | none => none
    timestamp := m.start, sq := none }

/-- R122: the BUFFER_RETURN record. -/
def returnRecord (n : LineId) (d : Descriptor) (now : Word) : LineRecord :=
  { kind := .bufferReturn, status := .ok, tag := 0, source := lineByte n, line := n, station := 0
    replyFunction := none, replyLength := 0, attempts := 0, waits := 0, health := none, flags := {}, lost := 0
    buffer := some d.addr, timestamp := now, sq := none }

def cqFaulted : Option Cq → Bool
  | some q => decide (q.state = .faulted)
  | none => false

/-- R121: a settlement that finds no buffer: the head's data is discarded and counted. -/
def Line.dropHead (l : Line) : Line :=
  (l.leaveHead.setMon fun m => { m with lost := bump 255 m.lost }).count fun k =>
    { k with monitorLost := tally k.monitorLost }

/-- R118: the head block takes the staged buffer and its characters are written, or it leaves the list when the line
CQ is FAULTED. -/
def State.headTakes (s : State) (n : LineId) (cq : CqId) (head : MonBlock) (d : Descriptor) : State :=
  if cqFaulted s.cqs[cq] then s.discard cq (.monitorBlock n)
  else
    (s.modLine n (·.setMon fun m =>
      { m with list := (head.taking d) :: m.list.tail, slot := .empty, phase := .writing })).issue (lineEngine n)
        { addr := d.addr, kind := .write (head.chars.take (min head.chars.length d.capacity)), use := .monitorData n }

/-- R121: in DRAINING a head that finds the slot EMPTY asks for one descriptor and is answered at once. -/
def State.headAsks (s : State) (n : LineId) : State :=
  match s.requestBuffer n .staged with
  | some s1 => s1.modLine n (·.setMon fun m => { m with slot := .requested, phase := .bufferWait })
  | none => s.modLine n Line.dropHead

/-- R122: the pending list is empty: the staged slot is settled. -/
def State.settleSlot (s : State) (n : LineId) (cq : CqId) : State :=
  match (s.line n).mon.slot with
  | .held d =>
    (s.modLine n (·.setMon fun m => { m with settlement := .returning })).joinCq cq
      { poster := .bufferReturn n, record := .line (returnRecord n d s.timebase) }
  | _ => s.modLine n (·.setMon fun m => { m with settlement := .settled })

/-- The line is STARTING, READY or FAULT: the staged slot is kept filled (R117). -/
def LineState.staging : LineState → Bool
  | .starting => true
  | .ready => true
  | .fault => true
  | _ => false

/-- One move of delivery or settlement that waits for nothing (R117, R118, R121, R122), or `none` when monitor capture
stands still. -/
def State.monitorMove (s : State) (n : LineId) : Option State :=
  let l := s.line n
  match l.config with
  | none => none
  | some cfg =>
    if cfg.mode ≠ .monitor then none
    else if l.state.staging ∧ l.mon.slot = .empty then
      some ((s.modLine n (·.setMon fun m => { m with slot := .requested })).requestStaged n)
    else match l.mon.list with
      | head :: _ =>
        if l.mon.phase = .idle ∨ l.mon.phase = .bufferWait then
          match l.mon.slot with
          | .held d => some (s.headTakes n cfg.lineCq head d)
          | .empty => if l.state = .draining then some (s.headAsks n) else none
          | .requested =>
            if l.mon.phase = .idle then some (s.modLine n (·.setMon fun m => { m with phase := .bufferWait })) else none
        else none
      | [] =>
        if l.state = .draining ∧ l.mon.settlement = .settling ∧ l.mon.slot ≠ .requested then
          some (s.settleSlot n cfg.lineCq)
        else none

/-- Monitor capture moves until it waits for something; a pending list of four needs at most twelve moves. -/
def State.runMonitorFor : Nat → LineId → State → State
  | 0, _, s => s
  | k + 1, n, s =>
    match s.monitorMove n with
    | some s1 => State.runMonitorFor k n s1
    | none => s

def State.runMonitor (s : State) (n : LineId) : State := State.runMonitorFor 16 n s

/-- Every line's monitor capture moves on, line 0 first; used where one step frees posters of several lines (R156; the
order is log entry 41). -/
def State.runMonitors (s : State) : State := (List.finRange 8).foldl State.runMonitor s

/-- R121: monitor capture begins to settle; a request still in the request list is withdrawn. On a MASTER line it
reports settled at once (R137). -/
def State.beginSettlement (s : State) (n : LineId) (cfg : LineConfig) : State :=
  if cfg.mode = .monitor then
    let s1 := match s.bqs[n] with
      | some q =>
        if q.requests.contains .staged then
          (s.setBq n (some { q with requests := [] })).modLine n (·.setMon fun m => { m with slot := .empty })
        else s
      | none => s
    (s1.modLine n (·.setMon fun m => { m with settlement := .settling })).runMonitor n
  else s.modLine n (·.setMon fun m => { m with settlement := .settled })

end Sys2Proof.Machine
end

