-- ==== Sys2Proof/Machine/LineOps.lean ====
section
/-! DEFINITION. Line control (file 07): configuring, starting, stopping, loss and return of the carrier. -/

namespace Sys2Proof.Machine

/-- The states a loss of the carrier ends in a drain (R132). -/
def CtxState.endsInDrain : CtxState → Bool
  | .queued => true
  | .holding _ => true
  | .retryWait => true
  | .settling => true
  | _ => false

/-- R68, R69, R132: the contexts in these states end for want of the carrier, in work-list order. -/
def State.endWaiting (s : State) (n : LineId) (sel : CtxState → Bool) : State :=
  s.forContexts n (fun c => sel c.state) fun s i => (s.modLine n (·.withdraw i)).endByCarrier n i

/-- R68, R132: the contexts a drain without carrier ends. -/
def State.endDrained (s : State) (n : LineId) : State := s.endWaiting n CtxState.endsInDrain

/-- R135: what an immediate stop does to one context: an abort, but that one met in SETTLING is not counted by the stop
whatever it ends with. -/
def State.stopOne (n : LineId) (s : State) (i : CtxId) : State :=
  match (s.line n).ctx i with
  | some c =>
    if c.state = .settling then s.setCtx n i { c with abortLate := true, stopLate := true } else State.abortOne n s i
  | none => s

/-- R135: an immediate stop acts on the contexts by the states of R67; in admission the stop itself ends them when
they leave it (`enterQueued`). -/
def State.stopContexts (s : State) (n : LineId) : State :=
  s.forContexts n (fun c => decide (c.state ≠ .admission)) (State.stopOne n)

/-- R128: START_LINE is accepted. -/
def Line.started (l : Line) (now : Word) : Line :=
  { l with
    state := .starting
    rx := if l.carrier then l.rx.start else l.rx.stop
    polls := l.polls.map fun o =>
      match o with
      | some p =>
        match p.run with
        | .enabled _ => some { p with run := .enabled (afterMs now p.offset) }
        | .disabled => some p
      | none => none }

/-- R127: CONFIGURE_LINE is accepted. -/
def Line.configured (l : Line) (cfg : LineConfig) : Line :=
  { l with
    config := some cfg, counters := {}, pollLost := 0
    stations := Vector.replicate 64 none, polls := Vector.replicate 32 none
    mon := { l.mon with filter := .all, lost := 0 }
    tx := { l.tx with de := false } }

/-- R127, R143: the buffer queue a line has after CONFIGURE_LINE. -/
def newBq : Option (Word × Nat) → Option Bq
  | some (base, size) =>
    some { base := base, size := size, head := 0, tail := 0, state := .active, promises := [], requests := [] }
  | none => none

/-- R133: STOP_LINE is accepted. -/
def State.acceptStop (s : State) (n : LineId) (cfg : LineConfig) (kind : StopKind) : State :=
  let s1 := s.modLine n fun l => { l with state := .draining, stop := some kind, stopEnded := 0 }
  let s2 := match kind with
    | .drain => if (s.line n).carrier then s1 else s1.endDrained n
    | .immediate => s1.stopContexts n
  s2.beginSettlement n cfg

/-- R37: what CAR deassertion does to the signalling unit; a send order is cancelled. -/
def Line.loseCarrier (l : Line) : Line :=
  { l.stopReceiver with tx := .reset, carrier := false, exch := { l.exch with settle := none } }

/-- R69: the states the loss of the carrier itself ends: TALKING, LISTENING, RETRY_WAIT and SETTLING. -/
def State.endActive (s : State) (n : LineId) : State :=
  s.forContexts n (fun c => c.state.active) fun s i => s.endByCarrier n i

/-- R130, R132: CAR deasserted on a line that is not OFF. -/
def State.carrierLost (s : State) (n : LineId) : State :=
  let l := s.line n
  let s1 := (s.setLine n { l.loseCarrier with state := if l.state = .draining then .draining else .fault })
  match l.state with
  | .starting => s1.handNotice (.lineDown n l.state)
  | .ready => (s1.handNotice (.lineDown n l.state)).endActive n
  | .draining =>
    let s2 := s1.handNotice (.lineDown n l.state)
    if l.stop = some .drain then s2.endWaiting n (fun x => x.active || x.endsInDrain) else s2.endActive n
  | _ => s1

/-- R138: every context is FREE, none is lent or in admission, and monitor capture has reported settled. -/
def Line.stopDone (l : Line) : Bool :=
  decide (l.state = .draining) && (l.exch.contexts.toList.all (·.isNone)) && decide (l.exch.lent = none)
    && decide (l.mon.settlement = .settled)

/-- R138: the line enters OFF. -/
def Line.off (l : Line) : Line :=
  { l with state := .off, stop := none, rx := l.rx.stop, tx := .reset
           mon := { l.mon with settlement := .none, blockFilter := none } }

/-- R97, R100: an ENABLED entry whose due time is reached. -/
def dueAt (now : Word) : Option PollEntry → Option Word
  | some p =>
    match p.run with
    | .enabled due => if reached now due then some due else none
    | .disabled => none
  | none => none

/-- R44: `a` is served before `b` when its due time lies further back, or equally far with a lower index. -/
def dueBefore (now : Word) (a : PollId × Word) (b : PollId × Word) : Bool :=
  decide ((now - b.2).toNat < (now - a.2).toNat) || (decide (a.2 = b.2) && decide (a.1 < b.1))

/-- The entries of a line that are due. -/
def Line.dues (l : Line) (now : Word) : List (PollId × Word) :=
  (List.finRange 32).filterMap fun e =>
    match dueAt now (l.poll e) with
    | some due => some (e, due)
    | none => none

/-- R44: an entry is the one served next: due, and no due entry of the line comes before it. -/
def Line.servedNext (l : Line) (now : Word) (e : PollId) : Option Word :=
  match dueAt now (l.poll e) with
  | some due => if (l.dues now).all fun x => !dueBefore now x (e, due) then some due else none
  | none => none

/-- R44: a due entry of a READY line claims a context. -/
def Line.dueClaims (l : Line) (now : Word) : Bool :=
  decide (l.state = .ready) && (List.finRange 32).any fun e =>
    match l.poll e with
    | some p => (dueAt now (some p)).isSome && decide (p.inFlight = none)
    | none => false

/-- R99: the period used at a due. -/
def Line.periodUsed (l : Line) (cfg : LineConfig) (p : PollEntry) : Nat :=
  if l.healthOf p.station = some .silent then max p.period cfg.probe else p.period

/-- R98, R99: the due is skipped. -/
def Line.skipDue (l : Line) (e : PollId) (p : PollEntry) (next : Word) : Line :=
  (l.setPoll e (some { p with run := .enabled next, skips := bump 65535 p.skips })).count fun k =>
    { k with pollSkips := tally k.pollSkips }

/-- R50, R98: the due is admitted as a poll instance. -/
def Line.admitDue (l : Line) (e : PollId) (p : PollEntry) (next : Word) (i : CtxId) (now : Word) : Line :=
  ((l.setPoll e (some { p with run := .enabled next, inFlight := some i })).joinWork i (pollCtx e p now)).modEntry p.station
    fun se => { se with lastUsed := now }

/-- R98, R100: an entry falls due. -/
def Line.fallDue (l : Line) (cfg : LineConfig) (e : PollId) (p : PollEntry) (due now : Word) : Line :=
  let next := afterMs due (l.periodUsed cfg p)
  match l.state with
  | .ready =>
    match p.inFlight, l.freeCtxs with
    | none, i :: _ => l.admitDue e p next i now
    | _, _ => l.skipDue e p next
  | .starting => l.skipDue e p next
  | .fault => l.skipDue e p next
  | .draining => l
  | .off => l

/-! ## Fetch arbitration (R147, R148) -/

/-- An existing CQ is ACTIVE. -/
def cqActive : Option Cq → Bool
  | some c => decide (c.state = .active)
  | none => false

/-- R147: an SQ is a candidate of its line's fetch arbiter. -/
def State.candidate (s : State) (n : LineId) (i : SqId) : Option SqBinding :=
  match s.sqs[i] with
  | some q =>
    match q.binding with
    | some b =>
      if b.line = n ∧ q.state = .active ∧ 1 ≤ ringDist q.size q.tail q.head ∧ cqActive s.cqs[b.cq] = true then some b
      else none
    | none => none
  | none => none

/-- The candidates of a priority, in id order. -/
def State.candidates (s : State) (n : LineId) (p : Priority) : List SqId :=
  (List.finRange 17).filter fun i =>
    match s.candidate n i with
    | some b => decide (b.priority = p)
    | none => false

/-- R148: round robin: the lowest id above the pointer, or the lowest of all. -/
def roundRobin (ids : List SqId) (pointer : Option SqId) : Option SqId :=
  match pointer with
  | none => ids.head?
  | some k =>
    match ids.find? fun i => decide (k < i) with
    | some i => some i
    | none => ids.head?

/-- R148: the SQ granted at a lending, with its priority. -/
def State.fetchChoice (s : State) (n : LineId) : Option (SqId × Priority) :=
  let a := (s.line n).arbiter
  match roundRobin (s.candidates n .high) a.highPointer with
  | some i => some (i, .high)
  | none =>
    match roundRobin (s.candidates n .normal) a.normalPointer with
    | some i => some (i, .normal)
    | none => none

/-- R44, R45: the exchange unit may lend a context to the fetch arbiter. -/
def Line.mayLend (l : Line) (cfg : LineConfig) (now : Word) : Bool :=
  l.state.staging && decide (l.exch.lent = none) && decide (l.arbiter.inFlight = none)
    && decide (cfg.pollReserve < l.freeCtxs.length) && !l.dueClaims now

/-! ## SQ deletion (R160) -/

/-- A context whose origin is the SQ. -/
def ctxFromSq (sq : SqId) : Option Ctx → Bool
  | some c =>
    match c.origin with
    | .host q _ => decide (q = sq)
    | .poll _ => false
  | none => false

/-- R160: no context of the SQ remains on its line and no fetch from it is in flight. -/
def State.sqQuiet (s : State) (sq : SqId) (b : SqBinding) : Bool :=
  let l := s.line b.line
  !(l.exch.contexts.toList.any (ctxFromSq sq)) && decide (l.arbiter.inFlight ≠ some sq)

/-! ## Time (R16, R24, R202) -/

/-- One REFCLK period on a line. The ages of a character being taken, of one waiting for its nominal end and of the
transmitter's phase advance; the gap timer counts while RXD is at mark, and is 0 at a nominal end. -/
def Line.tick (l : Line) : Line :=
  match l.config with
  | none => l
  | some cfg =>
    let aged := match l.rx.age with
      | some a => some (a + 1)
      | none => none
    let trailing := match l.rx.tail with
      | some a => some (a + 1)
      | none => none
    let nominalEnd := decide (trailing = some (cfg.charTime * cfg.divider))
    let counts :=
      decide (l.rx.state = .hunting) && l.rx.mark && decide (l.tx.phase ≠ .lead) && decide (l.tx.phase ≠ .send)
    let gap :=
      if nominalEnd then 0
      else if counts then min (l.rx.gap + 1) (65535 * cfg.divider)
      else l.rx.gap
    { l with
      rx := { l.rx with
        gap := gap
        age := aged
        tail := if nominalEnd then none else trailing
        idle := l.rx.idle || (counts && decide (cfg.gap * cfg.divider ≤ gap)) }
      tx := if l.tx.sending then { l.tx with age := l.tx.age + 1 } else l.tx }

/-- REFCLK frequency field of ADMIN_SIZE in kHz (register map, file 11). -/
def State.refclkKhz (s : State) : Nat := s.adminSize.toNat / 2 ^ 16

/-- One REFCLK period of the part: the timebase counts while the part is RUNNING or HALTED (R202). -/
def State.tick (s : State) : State :=
  if s.held then s
  else
    let s1 := { s with lines := s.lines.map Line.tick }
    if s.part = .stopped then s1
    else
      let f := s.fraction + 1000
      if s.refclkKhz ≤ f then { s1 with fraction := f - s.refclkKhz, timebase := s.timebase + 1 }
      else { s1 with fraction := f }

end Sys2Proof.Machine
end

