-- ==== Sys2Proof/Machine/HostOps.lean ====
section
/-! DEFINITION. The register window (file 11): the target port's accesses as changes of the part. -/

namespace Sys2Proof.Machine

/-! ## Queues coming into existence (R143) -/

def newCq (base : Word) (size threshold delay : Nat) (intEnable : Bool) : Cq :=
  { base := base, size := size, head := 0, tail := 0, state := .active, phase := true, unacked := 0, waiters := []
    threshold := threshold, delay := delay, intEnable := intEnable, pending := false, timer := none, discards := 0 }

def newSq (base : Word) (size : Nat) (binding : Option SqBinding) : Sq :=
  { base := base, size := size, head := 0, tail := 0, state := .active, binding := binding }

/-! ## CONTROL (R193, R194, R197) -/

def State.asqSize (s : State) : Nat := s.adminSize.toNat % 2 ^ 8

def State.acqSize (s : State) : Nat := s.adminSize.toNat / 2 ^ 8 % 2 ^ 8

/-- R194: the admin setup is valid. -/
def State.setupValid (s : State) : Bool :=
  decide (s.asqBase.toNat % 32 = 0) && decide (s.acqBase.toNat % 32 = 0)
    && decide (4 ≤ s.asqSize ∧ s.asqSize ≤ 64) && decide (4 ≤ s.acqSize ∧ s.acqSize ≤ 64)
    && decide (8000 ≤ s.refclkKhz ∧ s.refclkKhz ≤ 40000)

/-- R143, R194: the part becomes RUNNING and the admin rings come into existence. -/
def State.startRunning (s : State) : State :=
  { (s.setSq 0 (some (newSq s.asqBase s.asqSize none))).setCq 0 (some (newCq s.acqBase s.acqSize 1 0 true)) with
    part := .running }

/-- R193: the RUN bit of a CONTROL write, by the part state. -/
def State.runWritten (s : State) (run : Bool) : State :=
  match s.part, run with
  | .stopped, true => if s.setupValid then s.startRunning else s.recordError .badAdminSetup
  | .running, false => s.recordError .runClearIgnored
  | .stopped, false => s
  | .running, true => s
  | .halted, _ => s

/-- R193: a CONTROL write with SOFT_RESET clear. -/
def State.controlWrite (s : State) (run int : Bool) : State :=
  State.runWritten { s with intEnable := int, answer := .written } run

/-- R197: soft reset. -/
def State.softReset (s : State) : State :=
  { s.resetBlocks with
    part := .stopped, haltCause := .none, hostError := .none, intEnable := false, timebase := 0, fraction := 0
    answer := .written }

/-- R199: power-on. -/
def State.powerOn (s : State) : State :=
  { s.softReset with
    held := true, asqBase := 0, acqBase := 0, adminSize := 0, answer := .idle
    port := .reset }

/-! ## The other registers (R145, R146, R194, R195) -/

/-- R194: a write to an admin setup register. -/
def State.setupWrite (s : State) (reg : SetupReg) (value : Word) : State :=
  if s.part = .stopped then
    match reg with
    | .asqBase => { s with asqBase := value }
    | .acqBase => { s with acqBase := value }
    | .adminSize => { s with adminSize := value }
  else s.recordError .setupLocked

/-- R145: the new tail of a ring passes the index checks. -/
def tailAccepted (size head tail new : Nat) : Bool :=
  decide (new < size) && decide (ringDist size new tail + ringDist size tail head < size)

/-- The SQ a number names. -/
def State.sqNumbered (s : State) (k : Nat) : Option (SqId × Sq) :=
  if h : k < 17 then
    match s.sqs[k] with
    | some q => some (⟨k, h⟩, q)
    | none => none
  else none

def State.bqNumbered (s : State) (k : Nat) : Option (LineId × Bq) :=
  if h : k < 8 then
    match s.bqs[k] with
    | some q => some (⟨k, h⟩, q)
    | none => none
  else none

def State.cqNumbered (s : State) (k : Nat) : Option (CqId × Cq) :=
  if h : k < 9 then
    match s.cqs[k] with
    | some q => some (⟨k, h⟩, q)
    | none => none
  else none

/-- R145: a POST naming an SQ. -/
def State.postSq (s : State) (k new : Nat) : State :=
  match s.part, s.sqNumbered k with
  | .running, some (i, q) =>
    if q.state = .deleting then s
    else if tailAccepted q.size q.head q.tail new then s.setSq i (some { q with tail := new })
    else s.recordError .badIndex
  | _, _ => s.recordError .badIndex

/-- R145: a POST naming a BQ. -/
def State.postBq (s : State) (k new : Nat) : State :=
  match s.part, s.bqNumbered k with
  | .running, some (n, q) =>
    if tailAccepted q.size q.head q.tail new then s.setBq n (some { q with tail := new }) else s.recordError .badIndex
  | _, _ => s.recordError .badIndex

/-- R146, R158: a CQ after an ACK that releases the entries up to a new head. -/
def Cq.acknowledge (q : Cq) (new : Nat) (now : Word) : Cq :=
  ({ q with head := new, unacked := q.unacked - ringDist q.size new q.head } : Cq).acked now

/-- R146: the new head passes the index checks. -/
def Cq.ackAccepted (q : Cq) (new : Nat) : Bool :=
  decide (new < q.size) && decide (ringDist q.size new q.head ≤ q.unacked)

/-- R146: a write to ACK. -/
def State.ackWrite (s : State) (k new : Nat) : State :=
  match s.part, s.cqNumbered k with
  | .running, some (i, q) =>
    if q.ackAccepted new then s.setCq i (some (q.acknowledge new s.timebase)) else s.recordError .badIndex
  | _, _ => s.recordError .badIndex

/-- R195: a read of STATUS. -/
def State.readStatus (s : State) : State := { s with answer := .read s.statusWord, hostError := .none }

/-! ## Any access (R192) -/

/-- The read value of the register at an offset; STATUS is read by `readStatus`. -/
def State.readRegister (s : State) (offset : Nat) : Word :=
  if offset = 0 then Config.ident
  else if offset = 4 then s.controlWord
  else if offset = 12 then s.asqBase
  else if offset = 16 then s.acqBase
  else if offset = 20 then s.adminSize
  else if offset = 32 then s.intPending
  else 0

/-- A whole read at a register's offset. -/
def State.readAccess (s : State) (offset : Nat) : State :=
  if offset = 8 then s.readStatus else { s with answer := .read (s.readRegister offset) }

/-- POST, ACK and CONTROL words as their fields. -/
def State.writeRegister (s : State) (offset : Nat) (d : Word) : State :=
  if offset = 4 then (if d.getLsbD 1 then s.softReset else s.controlWrite (d.getLsbD 0) (d.getLsbD 2))
  else if offset = 12 then s.setupWrite .asqBase d
  else if offset = 16 then s.setupWrite .acqBase d
  else if offset = 20 then s.setupWrite .adminSize d
  else if offset = 24 then
    (if d.extractLsb' 24 2 = 0#2 then s.postSq (d.extractLsb' 16 5).toNat (d.extractLsb' 0 9).toNat
     else if d.extractLsb' 24 2 = 1#2 then s.postBq (d.extractLsb' 16 5).toNat (d.extractLsb' 0 9).toNat
     else s.recordError .badIndex)
  else if offset = 28 then s.ackWrite (d.extractLsb' 16 4).toNat (d.extractLsb' 0 9).toNat
  else s

/-- R192: an access of the window; one outside it is not the part's. -/
def State.access (s : State) (a : RegAccess) : State :=
  if Config.windowBytes ≤ a.offset then s
  else if a.enables ≠ 0xF#4 ∨ a.offset % 4 ≠ 0 then { s with answer := .error }
  else if a.write then State.writeRegister { s with answer := .written } a.offset a.data
  else s.readAccess a.offset

end Sys2Proof.Machine
end

