-- ==== Sys2Proof/Machine/AdminOps.lean ====
section
/-! DEFINITION. The owner blocks' part of every administration command (files 04, 05, 06, 07, 10), from the record in
hand to the completion it composes. -/

namespace Sys2Proof.Machine

/-! ## Queue commands (R184, R185, R186) -/

/-- Check 3 of R184. -/
def createCqInRange (r : List Byte) : Bool :=
  decide (admB r ≤ 1) && decide (1 ≤ admC r) && ringInRange (admAddr r) (admSize r)

/-- R184. -/
def State.createCq (s : State) (r : List Byte) : State :=
  if admA r = 0 then s.answerCommand .badQueueId
  else if h : admA r < 9 then
    if (s.cqs[admA r]).isSome then s.answerCommand .queueExists
    else if !createCqInRange r then s.answerCommand .badParameter
    else
      (s.setCq ⟨admA r, h⟩ (some (newCq (admAddr r) (admSize r) (admC r) (admD r).toNat (decide (admB r = 1))))).answerCommand
        .ok
  else s.answerCommand .badQueueId

def sqBoundTo (i : CqId) : Option Sq → Bool
  | some q =>
    match q.binding with
    | some b => decide (b.cq = i)
    | none => false
  | none => false

def lineNames (i : CqId) (l : Line) : Bool :=
  match l.config with
  | some cfg => decide (cfg.lineCq = i)
  | none => false

/-- R185: an SQ is bound to the CQ, or a configured line names it. -/
def State.cqInUse (s : State) (i : CqId) : Bool := s.sqs.toList.any (sqBoundTo i) || s.lines.toList.any (lineNames i)

/-- R185. -/
def State.deleteCq (s : State) (r : List Byte) : State :=
  if admA r = 0 then s.answerCommand .badQueueId
  else
    match s.cqNumbered (admA r) with
    | some (i, q) =>
      if s.cqInUse i then s.answerCommand .queueInUse else (s.setCq i none).completeCommand .ok q.discards 0 0
    | none => s.answerCommand .badQueueId

/-- Check 3 of R186. -/
def createSqInRange (r : List Byte) : Bool :=
  decide (admLine r ≤ 7) && decide (admB r ≤ 1) && ringInRange (admAddr r) (admSize r)

/-- Check 4 of R126 and of R186: the number names an ACTIVE I/O CQ. -/
def State.activeCq (s : State) (k : Nat) : Option CqId :=
  if k = 0 then none
  else
    match s.cqNumbered k with
    | some (i, q) => if q.state = .active then some i else none
    | none => none

/-- R186. -/
def State.createSq (s : State) (r : List Byte) : State :=
  if admA r = 0 then s.answerCommand .badQueueId
  else if h : admA r < 17 then
    match s.sqs[admA r] with
    | some q => s.answerCommand (if q.state = .deleting then .queueInUse else .queueExists)
    | none =>
      if !createSqInRange r then s.answerCommand .badParameter
      else
        match s.activeCq (admC r) with
        | some cq =>
          (s.setSq ⟨admA r, h⟩
            (some (newSq (admAddr r) (admSize r)
              (some { line := admLineId r, cq := cq, priority := if admB r = 1 then .high else .normal })))).answerCommand
            .ok
        | none => s.answerCommand .badQueueId
  else s.answerCommand .badQueueId

/-- The I/O SQ a byte names. -/
def State.ioSq (s : State) (k : Nat) : Option (SqId × Sq × SqBinding) :=
  if k = 0 then none
  else
    match s.sqNumbered k with
    | some (i, q) =>
      match q.binding with
      | some b => some (i, q, b)
      | none => none
    | none => none

/-- R160: the records posted and never fetched. -/
def Sq.abandoned (q : Sq) : Nat := ringDist q.size q.tail q.head

/-- R160, R182, R186. -/
def State.deleteSq (s : State) (r : List Byte) : State :=
  match s.ioSq (admA r) with
  | some (i, q, b) =>
    if q.state = .deleting then s.answerCommand .queueInUse
    else if s.sqQuiet i b then (s.setSq i none).completeCommand .ok q.abandoned 0 0
    else (s.setSq i (some { q with state := .deleting })).pendCommand (.deleteSq i)
  | none => s.answerCommand .badQueueId

/-! ## Line commands (R126, R127, R128, R133) -/

/-- R126, R127. -/
def State.configureLine (s : State) (n : LineId) (b : List Byte) : State :=
  if (s.line n).state ≠ .off then s.answerCommand .lineBusy
  else if !lpbInRange b then s.answerCommand .badParameter
  else
    match s.activeCq (lpbLineCq b) with
    | some _ =>
      ((s.modLine n (·.configured (lpbConfig b))).setBq n (newBq (lpbConfig b).bufferQueue)).answerCommand .ok
    | none => s.answerCommand .badQueueId

/-- R128. -/
def State.startLine (s : State) (n : LineId) : State :=
  if (s.line n).config = none then s.answerCommand .notConfigured
  else if (s.line n).state ≠ .off then s.answerCommand .lineBusy
  else ((s.modLine n (·.started s.timebase)).runMonitor n).answerCommand .ok

/-- R133, R182. -/
def State.stopLine (s : State) (n : LineId) (kind : StopKind) : State :=
  match (s.line n).state, (s.line n).config with
  | .off, _ => s.answerCommand .ok
  | .draining, _ => s.answerCommand .lineBusy
  | _, some cfg => (s.acceptStop n cfg kind).pendCommand (.stopLine n)
  | _, none => s.answerCommand .lineBusy

/-! ## Poll table commands (R93 to R96) -/

/-- The first two refusals of R93 to R96. -/
def Line.notMaster (l : Line) : Option Status :=
  match l.config with
  | none => some .notConfigured
  | some cfg => if cfg.mode = .monitor then some .wrongMode else none

/-- R93: check 4. -/
def pollBusy : Option PollEntry → Bool
  | some p => decide (p.run ≠ .disabled) || p.inFlight.isSome
  | none => false

/-- R93. -/
def State.setPoll (s : State) (n : LineId) (r b : List Byte) : State :=
  match (s.line n).notMaster with
  | some st => s.answerCommand st
  | none =>
    if h : admA r < 32 then
      if !pebInRange b || (s.bqs[n]).isNone then s.answerCommand .badParameter
      else if pollBusy ((s.line n).poll ⟨admA r, h⟩) then s.answerCommand .entryBusy
      else (s.modLine n (·.setPoll ⟨admA r, h⟩ (some (pebEntry b)))).answerCommand .ok
    else s.answerCommand .badParameter

/-- The state codes of POLL_CONTROL's result C. -/
def pollStateCode : Option PollEntry → Nat
  | none => 0
  | some p => if p.run = .disabled then 1 else 2

/-- R96: the completion of a POLL_CONTROL that found its entry, with the entry as it stood before. -/
def State.answerPoll (s : State) (st : Status) (before : Option PollEntry) : State :=
  match before with
  | some p => s.completeCommand st p.skips p.suppressed (pollStateCode before)
  | none => s.completeCommand st 0 0 0

/-- The entry a POLL_CONTROL names, or the status that refuses it before the entry is found. -/
def Line.pollNamed (l : Line) (r : List Byte) : Except Status PollId :=
  match l.notMaster with
  | some st => .error st
  | none => if h : admA r < 32 then .ok ⟨admA r, h⟩ else .error .badParameter

/-- R94: what an enable makes of an entry. -/
def PollEntry.enable (p : PollEntry) (now : Word) : PollEntry :=
  { p with run := .enabled (afterMs now p.offset), digest := none, lastStatus := none, suppressed := 0, skips := 0 }

/-- R94. -/
def State.pollEnable (s : State) (n : LineId) (r : List Byte) : State :=
  match (s.line n).pollNamed r with
  | .error st => s.answerCommand st
  | .ok e =>
    match (s.line n).poll e with
    | none => s.answerPoll .notFound none
    | some p =>
      match (s.line n).obtain p.station s.timebase false with
      | none => s.answerPoll .stationTableFull (some p)
      | some l1 => (s.setLine n (l1.setPoll e (some (p.enable s.timebase)))).answerPoll .ok (some p)

/-- R95. -/
def State.pollDisable (s : State) (n : LineId) (r : List Byte) : State :=
  match (s.line n).pollNamed r with
  | .error st => s.answerCommand st
  | .ok e =>
    match (s.line n).poll e with
    | none => s.answerPoll .notFound none
    | some p => (s.modLine n (·.setPoll e (some { p with run := .disabled }))).answerPoll .ok (some p)

/-- R96. -/
def State.pollClear (s : State) (n : LineId) (r : List Byte) : State :=
  match (s.line n).pollNamed r with
  | .error st => s.answerCommand st
  | .ok e =>
    match (s.line n).poll e with
    | none => s.answerPoll .ok none
    | some p =>
      if p.inFlight.isSome then s.answerPoll .entryBusy (some p)
      else (s.modLine n (·.setPoll e none)).answerPoll .ok (some p)

/-! ## Station table commands (R87 to R89) -/

/-- R87: a context naming the address is in use of the entry's sequence bit. -/
def ctxHoldsReset (addr : Byte) : Option Ctx → Bool
  | some c =>
    decide (c.station = addr)
      && (match c.state with
          | .talking => true
          | .listening => true
          | .retryWait => true
          | .settling => true
          | .holding _ => true
          | .queued => decide (0 < c.attempts)
          | .admission => false
          | .posting => false)
  | none => false

/-- R87. -/
def StationEntry.resetHealth (e : StationEntry) : StationEntry :=
  { e with health := .unknown, failures := 0, seq := false }

/-- R88: an order held for a QUEUED context of the station is given again with its block composed afresh. -/
def Line.reorderAfresh (l : Line) (cfg : LineConfig) (addr : Byte) : Line :=
  match l.ordered with
  | some i =>
    match l.ctx i with
    | some c =>
      if l.tx.waiting = true ∧ c.state = .queued ∧ c.station = addr then (l.withdraw i).giveOrder i cfg.gap else l
    | none => l
  | none => l

/-- R87, R88: the change an accepted station reset makes. -/
def Line.resetStation (l : Line) (addr : Byte) : Line :=
  match l.config with
  | some cfg => (l.modEntry addr StationEntry.resetHealth).reorderAfresh cfg addr
  | none => l.modEntry addr StationEntry.resetHealth

/-- R87. -/
def State.stationReset (s : State) (n : LineId) (addr : Byte) : State :=
  match (s.line n).entry addr with
  | none => s.answerCommand .notFound
  | some _ =>
    if (s.line n).exch.contexts.toList.any (ctxHoldsReset addr) then s.answerCommand .entryBusy
    else (s.modLine n (·.resetStation addr)).answerCommand .ok

/-- The report of one entry of the table, where it is occupied. -/
def Line.reportAt (l : Line) (i : StationIdx) : Option (List Byte) :=
  match l.stations[i] with
  | some e => some (stationReport i e)
  | none => none

/-- R89: the reports of every occupied entry, in index order. -/
def Line.allReports (l : Line) : List (List Byte) := (List.finRange 64).filterMap l.reportAt

/-- R89: the report of the entry of one address. -/
def Line.oneReport (l : Line) (addr : Byte) : List (List Byte) :=
  match l.entryIdx addr with
  | some i =>
    match l.reportAt i with
    | some b => [b]
    | none => []
  | none => []

/-- R174: report k is written at the result buffer's address plus 16 × k; as many as fit whole. -/
def placeReports (addr : Word) (capacity : Nat) (reports : List (List Byte)) : List (Word × List Byte) :=
  (reports.take (capacity / 16)).mapIdx fun k b => (addr + BitVec.ofNat 32 (16 * k), b)

/-- R178 step 4: the first of the result writes is issued, or the command completes when none is left. -/
def State.nextResult (s : State) : State :=
  match s.admin.hand with
  | some h =>
    match h.writes with
    | (a, b) :: rest =>
      (s.modAdmin fun ad => { ad with phase := .writing, hand := some { h with writes := rest } }).issue adminUnit
        { addr := a, kind := .write b, use := .resultWrite }
    | [] => s.completeCommand .ok h.resultA h.resultB 0
  | none => s

/-- A line whose contexts obtain station entries: a configured MASTER line (R90). -/
def Line.keepsStations (l : Line) : Bool :=
  match l.config with
  | some cfg => decide (cfg.mode = .master)
  | none => false

/-- R178 step 4: the result writes of the command in hand are taken down with its results. -/
def State.writeResults (s : State) (h : Hand) (writes : List (Word × List Byte)) (a b : Nat) : State :=
  (s.modAdmin fun ad => { ad with hand := some { h with writes := writes, resultA := a, resultB := b } }).nextResult

/-- R89, R174. On an unconfigured or MONITOR line a read, also one of a single address, is answered OK with 0 and 0
(R90, R187). -/
def State.stationRead (s : State) (n : LineId) (h : Hand) : State :=
  let addr := byteAt h.record 4
  let l := s.line n
  if l.keepsStations = false then s.writeResults h [] 0 0
  else if addr ≠ 0 ∧ (l.entry addr).isNone then s.answerCommand .notFound
  else
    let reports := if addr = 0 then l.allReports else l.oneReport addr
    let writes := placeReports (admAddr h.record) (admSize h.record) reports
    s.writeResults h writes l.allReports.length writes.length

/-! ## SET_FILTER (R124) -/

/-- R124. -/
def State.setFilter (s : State) (n : LineId) (r : List Byte) : State :=
  if admB r = 0 ∧ (admC r = 0 ∨ 16 < admC r) then s.answerCommand .badParameter
  else
    match (s.line n).config with
    | none => s.answerCommand .notConfigured
    | some cfg =>
      if cfg.mode = .master then s.answerCommand .wrongMode
      else
        (s.modLine n (·.setMon fun m => { m with filter := if admB r = 0 then .list (admList r) else .all })).answerCommand
          .ok

/-! ## ABORT (R66, R67, R188) -/

/-- A context of HOST origin from this SQ, and with this tag where one is given. -/
def fromSq (sq : SqId) (tag : Option Half) (c : Ctx) : Bool :=
  match c.origin with
  | .host q t =>
    decide (q = sq)
      && (match tag with
          | some k => decide (t = k)
          | none => true)
  | .poll _ => false

/-- R53, R66, R67: an abort, after which an order no longer for the first eligible context is withdrawn. -/
def State.abortLine (s : State) (n : LineId) (sel : Ctx → Bool) : State := (s.abort n sel).modLine n Line.reorder

/-- R188, modes 0 and 2. -/
def State.abortSq (s : State) (r : List Byte) (tag : Option Half) : State :=
  match s.ioSq (admA r) with
  | some (i, _, b) => s.abortLine b.line (fromSq i tag)
  | none => s.answerCommand .badQueueId

/-- R188, mode 1. -/
def State.abortStation (s : State) (n : LineId) (r : List Byte) : State :=
  if 240 ≤ admC r then s.answerCommand .badParameter
  else s.abortLine n fun c => decide (c.station.toNat = admC r)

/-! ## READ_COUNTERS (R189, R175) -/

/-- R189: the block is taken, the counters are cleared where asked, and the write is issued. -/
def State.readCounters (s : State) (n : LineId) (h : Hand) (rdy : Bool) : State :=
  let block := counterBlock n (s.line n) rdy s.timebase
  let s1 := s.modLine n fun l =>
    { l with rdy := rdy, counters := if admB h.record = 1 then {} else l.counters }
  s1.writeResults h [(admAddr h.record, block)] 0 0

end Sys2Proof.Machine
end

