-- ==== Sys2Proof/Machine/TransferOps.lean ====
section
/-! DEFINITION. The memory port's grant, and what the end of each transfer means to its requester: for every use of a
transfer one operation, taking the bytes read where it completed and `none` where it ended in a bus fault. -/

namespace Sys2Proof.Machine

/-! ## The grant (R200, R201) -/

/-- R200: the transfer taken from the head of its queue is carried as far as the host bus answers it. -/
def State.carry (s : State) (r : ReqId) (t : Transfer) (answer : BusAnswer) : State :=
  let k := answerBytes answer t
  let mem := match t.kind with
    | .read _ => s.mem
    | .write bytes => Memory.writeBytes s.mem t.addr (bytes.take k)
  let data := match t.kind with
    | .read n => Memory.readBytes s.mem t.addr n
    | .write _ => []
  { s with
    mem := mem
    port := { queues := s.port.queues.set r (s.port.queues[r]).tail, position := r
              current := some { requester := r, transfer := t,
                                outcome := answerOutcome answer t s.timebase data } } }

/-- R200, R201: a grant, with the port free and a transfer waiting. -/
def State.grantPort (s : State) (answer : BusAnswer) : State :=
  if s.held ∨ s.port.current ≠ none then s
  else
    match s.port.next with
    | some r =>
      match s.port.queues[r] with
      | t :: _ => s.carry r t answer
      | [] => s
    | none => s

/-! ## Queue faults (R152, R156, R161) -/

/-- R152: the promised takers of a BQ that wait in STARTING, READY or FAULT go back to the request list. -/
def takerWaits (l : Line) (t : Taker) : Bool := decide (t = .staged) && decide (l.state ≠ .draining)

/-- R151, R152: descriptor reads of a BQ under way when it becomes FAULTED will be discarded. -/
def Transfer.stale (n : LineId) (t : Transfer) : Transfer :=
  if t.use = .descriptor n then { t with use := .staleDescriptor } else t

/-- R152: a promised taker that cannot wait is answered "none". -/
def State.answerNone (n : LineId) (s : State) (t : Taker) : State :=
  match t with
  | .ctx i => s.bufferNone n i
  | .staged =>
    if (s.line n).state = .draining then s.modLine n (·.setMon fun m => { m with slot := .empty }) else s

/-- R152, R161: a BQ becomes FAULTED. -/
def State.faultBq (s : State) (n : LineId) (q : Bq) (cause : FaultCause) : State :=
  let back := q.promises.filter (takerWaits (s.line n))
  let s1 := s.setBq n (some { q with state := .faulted, promises := [], requests := back ++ q.requests })
  let s2 := s1.modPort fun p =>
    { p with queues := p.queues.set queueEngine ((p.queues[queueEngine]).map (Transfer.stale n)) }
  ((q.promises.foldl (State.answerNone n) (s2.handNotice (.queueFault .bq n.val cause)))).runMonitor n

/-- R156, R161: an I/O CQ becomes FAULTED: the completion whose write faulted and every waiter are discarded. -/
def State.faultCq (s : State) (i : CqId) (q : Cq) (p : Poster) : State :=
  let s1 := (s.setCq i (some { q with state := .faulted, waiters := [] })).handNotice (.queueFault .cq i.val .writeFault)
  (q.waiters.foldl (fun s w => s.discard i w.poster) (s1.discard i p)).runMonitors

/-! ## Ends of transfers -/

/-- R149, R160, R161: a bus fault on an SQ fetch. -/
def Sq.fetchFaulted (q : Sq) : Sq := if q.state = .deleting then q else { q with state := .faulted }

/-- The fetch is no longer in flight and the context no longer lent. -/
def Line.fetchOver (l : Line) : Line :=
  { l with exch := { l.exch with lent := none }, arbiter := { l.arbiter with inFlight := none } }

/-- R144, R149: one record further. -/
def Sq.advance (q : Sq) : Sq := { q with head := ringNext q.size q.head }

/-- R45, R46, R149: an SQ fetch has ended. -/
def State.fetchEnded (s : State) (sq : SqId) (n : LineId) (i : CtxId) (data : Option (List Byte)) : State :=
  let s1 := s.modLine n Line.fetchOver
  match s.sqs[sq], data with
  | some q, some r =>
    match (s.line n).config with
    | some cfg =>
      ((s1.setSq sq (some q.advance)).modLine n (·.joinWork i (hostCtx sq r cfg s.timebase))).checkRecord n i r cfg
    | none => s1.setSq sq (some q.advance)
  | some q, none =>
    (s1.setSq sq (some q.fetchFaulted)).handNotice (.queueFault .sq sq.val .readFault)
  | none, _ => s1

/-- R46 step 4, R47: a request data read has ended. -/
def State.requestDataEnded (s : State) (n : LineId) (i : CtxId) (data : Option (List Byte)) : State :=
  match (s.line n).ctx i, data with
  | some c, some b => ((s.setCtx n i { c with store := b }).leaveAdmission n i).modLine n Line.reorder
  | some _, none => (s.failAdmission n i .bufferFault).modLine n Line.reorder
  | none, _ => s

/-- R151: the descriptor is handed to the taker promised it. -/
def State.handOver (s : State) (n : LineId) (t : Taker) (d : Descriptor) : State :=
  match t with
  | .ctx i => s.bufferArrives n i d
  | .staged => (s.modLine n (·.setMon fun m => { m with slot := .held d })).runMonitor n

/-- R151, R152: a descriptor read has ended. -/
def State.descriptorEnded (s : State) (n : LineId) (data : Option (List Byte)) : State :=
  match s.bqs[n], data with
  | some q, some b =>
    if (descriptorOf b).capacity = 0 then s.faultBq n q .badDescriptor
    else
      match q.promises with
      | t :: rest =>
        (s.setBq n (some { q with head := ringNext q.size q.head, promises := rest })).handOver n t (descriptorOf b)
      | [] => s
  | some q, none => s.faultBq n q .readFault
  | none, _ => s

/-- R72, R110: what a bus fault on the payload write tells the poll entry. -/
def PollEntry.payloadFaulted (p : PollEntry) : PollEntry :=
  match p.mode with
  | .onChange => { p with digest := none, lastStatus := some .bufferFault }
  | .every => p

/-- R72, R110: the poll entry of a context whose payload write faulted. -/
def Line.payloadFaulted (l : Line) (c : Ctx) : Line :=
  match c.origin with
  | .poll e =>
    match l.poll e with
    | some p => l.setPoll e (some p.payloadFaulted)
    | none => l
  | .host _ _ => l

/-- R72, R73: a reply payload write has ended. -/
def State.payloadEnded (s : State) (n : LineId) (i : CtxId) (data : Option (List Byte)) : State :=
  match (s.line n).ctx i, data with
  | some _, some _ => s.readyToComplete n i
  | some c, none =>
    match c.result with
    | some r =>
      ((s.setCtx n i { c with result := some { r with status := .bufferFault } }).modLine n
        (·.payloadFaulted c)).readyToComplete n i
    | none => s
  | none, _ => s

/-- R118: the data write of the head block has ended. -/
def State.monitorDataEnded (s : State) (n : LineId) (data : Option (List Byte)) : State :=
  match (s.line n).mon.list, (s.line n).config with
  | head :: rest, some cfg =>
    let h := if data.isSome then head else { head with status := .bufferFault }
    ((s.modLine n (·.setMon fun m => { m with list := h :: rest, phase := .slotWait })).joinCq cfg.lineCq
      { poster := .monitorBlock n, record := .line (h.record n) }).runMonitor n
  | _, _ => s

/-- The monitor capture a poster belongs to moves on when its poster is done. -/
def State.runPosterMonitor (s : State) (p : Poster) : State :=
  match p with
  | .monitorBlock n => s.runMonitor n
  | .bufferReturn n => s.runMonitor n
  | _ => s

/-- R154, R156, R162: a completion write has ended. -/
def State.completionEnded (s : State) (i : CqId) (w : Waiter) (data : Option (List Byte)) : State :=
  match s.cqs[i], data with
  | some q, some _ => ((s.setCq i (some (q.posted s.timebase))).posterDone w.poster).runPosterMonitor w.poster
  | some q, none =>
    if i = 0 then s.halt .adminCq
    else
      match q.state with
      | .active => s.faultCq i q w.poster
      | .faulted => (s.discard i w.poster).runMonitors
  | none, _ => s

/-- R150, R167, R177, R178, R179: the record of an admin SQ fetch is the command in hand. -/
def State.takeCommand (s : State) (r : List Byte) : State :=
  let s1 := s.modAdmin fun a =>
    { a with phase := .executing
             hand := some { record := r, block := [], writes := [], resultA := 0, resultB := 0 } }
  if admUnknown r then s1
  else
    match admBlockLength r with
    | some len =>
      (s1.modAdmin fun a => { a with phase := .reading }).issue adminUnit
        { addr := admAddr r, kind := .read len, use := .blockRead }
    | none => if admRefused r then s1.answerCommand .badParameter else s1

/-- R150, R162, R177: an admin SQ fetch has ended. -/
def State.adminFetchEnded (s : State) (data : Option (List Byte)) : State :=
  match s.sqs[(0 : SqId)], data with
  | some q, some r => (s.setSq 0 (some q.advance)).takeCommand r
  | _, none => s.halt .adminSq
  | none, some _ => s

/-- R178 step 2, R179, R181: the read of a parameter block has ended. -/
def State.blockReadEnded (s : State) (data : Option (List Byte)) : State :=
  match s.admin.hand, data with
  | some h, some b =>
    let s1 := s.modAdmin fun a => { a with phase := .executing, hand := some { h with block := b } }
    if admRefused h.record then s1.answerCommand .badParameter else s1
  | some _, none => s.answerCommand .busFault
  | none, _ => s

/-- R178 step 4, R181: a result write has ended. -/
def State.resultWriteEnded (s : State) (data : Option (List Byte)) : State :=
  if data.isSome then s.nextResult else s.answerCommand .busFault

/-- R200: a transfer has ended; the port is free, and the rule of its requester takes the end. -/
def State.transferEnded (s : State) (use : TransferUse) (data : Option (List Byte)) : State :=
  match use with
  | .sqFetch sq n i => s.portFree.fetchEnded sq n i data
  | .descriptor n => s.portFree.descriptorEnded n data
  | .staleDescriptor => s.portFree
  | .adminFetch => s.portFree.adminFetchEnded data
  | .blockRead => s.portFree.blockReadEnded data
  | .resultWrite => s.portFree.resultWriteEnded data
  | .completion i w => s.portFree.completionEnded i w data
  | .requestData n i => s.portFree.requestDataEnded n i data
  | .payload n i => s.portFree.payloadEnded n i data
  | .monitorData n => s.portFree.monitorDataEnded n data

/-- R200: a beat unanswered for 64 µs is a bus fault that ends the transfer. -/
def State.beatTimedOut (s : State) : State :=
  match s.port.current with
  | some u =>
    match u.outcome with
    | .unanswered since =>
      if reached s.timebase (after since Config.beatTimeout) then s.transferEnded u.transfer.use none else s
    | _ => s
  | none => s

/-- The transfer whose end waits to be taken, with what it was: its use, and the bytes read or a fault. -/
def State.endedTransfer (s : State) : Option (TransferUse × Option (List Byte)) :=
  match s.port.current with
  | some u =>
    match u.ended with
    | some data => some (u.transfer.use, data)
    | none => none
  | none => none

/-! ## Slots (R153, R154, R168) -/

/-- The head an SQ shows in a record (R149). -/
def State.sqHead (s : State) (i : SqId) : Half :=
  match s.sqs[i] with
  | some q => BitVec.ofNat 16 q.head
  | none => 0xFFFF

/-- R168: the bytes of a record, with what is fixed at the slot grant. -/
def State.recordBytes (s : State) (w : Waiter) (phase : Bool) : List Byte :=
  match w.record with
  | .line r =>
    r.bytes
      (match r.kind with
        | .poll => BitVec.ofNat 8 (s.line r.line).pollLost
        | _ => BitVec.ofNat 8 r.lost)
      (match r.sq with
        | some i => s.sqHead i
        | none => 0xFFFF)
      phase
  | .admin r => r.bytes s.timebase (s.sqHead 0) phase
  | .notice r => r.bytes (BitVec.ofNat 8 s.admin.noticeLost) phase

/-- R109, R164: the count a record takes at its grant is then 0; a monitor block enters RECORDING (R119). -/
def State.takeCounts (s : State) (w : Waiter) : State :=
  match w.record with
  | .line r =>
    match r.kind with
    | .poll => s.modLine r.line fun l => { l with pollLost := 0 }
    | .monitor => s.modLine r.line (·.setMon fun m => { m with phase := .recording })
    | .exchange => s
    | .bufferReturn => s
  | .admin _ => s
  | .notice _ => s.modAdmin fun a => { a with noticeLost := 0 }

/-- The port requester a poster writes through. -/
def Poster.requester (p : Poster) : ReqId :=
  match p.line with
  | some n => lineEngine n
  | none => adminUnit

/-- R153: the CQ after a grant to its first waiter. -/
def Cq.granted (q : Cq) : Cq :=
  { q with tail := ringNext q.size q.tail, unacked := q.unacked + 1, waiters := q.waiters.tail
           phase := if q.tail + 1 < q.size then q.phase else !q.phase }

/-- R153: a grant is possible: the CQ is ACTIVE, has room and has a waiter. -/
def Cq.grantable (q : Cq) : Bool := decide (q.state = .active) && decide (q.unacked < q.size) && !q.waiters.isEmpty

/-- R154: the write of a completion record into its slot. -/
def Cq.slotWrite (q : Cq) (i : CqId) (w : Waiter) (bytes : List Byte) : Transfer :=
  { addr := q.base + BitVec.ofNat 32 (32 * q.tail), kind := .write bytes, use := .completion i w }

/-- R153, R154, R168: a slot grant, whose record is written through the poster's requester. -/
def State.grantSlot (s : State) (i : CqId) : State :=
  match s.cqs[i] with
  | some q =>
    match q.waiters with
    | w :: _ =>
      if q.grantable then
        ((s.takeCounts w).setCq i (some q.granted)).issue w.poster.requester
          (q.slotWrite i w (s.recordBytes w q.phase))
      else s
    | [] => s
  | none => s

/-! ## Fetch grant (R44, R45, R148, R149) -/

/-- R148: the pointer of the priority granted takes the SQ's id. -/
def Arbiter.grant (a : Arbiter) (i : SqId) (p : Priority) : Arbiter :=
  match p with
  | .high => { a with highPointer := some i, inFlight := some i }
  | .normal => { a with normalPointer := some i, inFlight := some i }

/-- R45, R148, R149: a context is lent, an SQ chosen and its fetch issued; with no candidate the context goes back
unused. -/
def State.grantFetch (s : State) (n : LineId) : State :=
  match (s.line n).config with
  | some cfg =>
    if s.part = .running ∧ (s.line n).mayLend cfg s.timebase = true then
      match s.fetchChoice n, (s.line n).freeCtxs with
      | some (i, p), k :: _ =>
        match s.sqs[i] with
        | some q =>
          (s.modLine n fun l =>
              { l with exch := { l.exch with lent := some k }, arbiter := l.arbiter.grant i p }).issue queueEngine
            { addr := q.base + BitVec.ofNat 32 (32 * q.head), kind := .read 32, use := .sqFetch i n k }
        | none => s
      | _, _ => s
    else s
  | none => s

/-- R151: the oldest waiting request is promised a descriptor. -/
def State.promiseWaiting (s : State) (n : LineId) : State :=
  match s.bqs[n] with
  | some q =>
    match q.requests with
    | t :: rest => if q.promisable then s.promise n { q with requests := rest } t else s
    | [] => s
  | none => s

/-- R150, R177: the admin unit issues a fetch. -/
def State.startAdminFetch (s : State) : State :=
  match s.sqs[(0 : SqId)] with
  | some q =>
    if s.part = .running ∧ s.admin.phase = .idle ∧ s.admin.pendingList.length < Config.pendingPlaces
        ∧ 1 ≤ ringDist q.size q.tail q.head then
      (s.modAdmin fun a => { a with phase := .fetching }).issue adminUnit
        { addr := q.base + BitVec.ofNat 32 (32 * q.head), kind := .read 32, use := .adminFetch }
    else s
  | none => s

end Sys2Proof.Machine
end

