-- ==== Sys2Proof/Machine/AdminCommands.lean ====
section
/-! DEFINITION. The administration commands (file 10): each acts on the command in hand, in the step that executes it
(R178 step 3). The operands are those of the record; a command that is not the one in hand does not take place (log
entry 1). -/

namespace Sys2Proof.Machine

/-- R167. -/
def execBadCommand (s : State) : Host.Outcome State Fault Refusal :=
  .next (match s.admin.hand with
    | some h =>
      if s.admin.phase = .executing ∧ admUnknown h.record = true then s.answerCommand .badCommand else s
    | none => s)

/-- R184. -/
def execCreateCq (s : State) : Host.Outcome State Fault Refusal :=
  .next (match s.inHand 1 none with
    | some h => s.createCq h.record
    | none => s)

/-- R185. -/
def execDeleteCq (s : State) : Host.Outcome State Fault Refusal :=
  .next (match s.inHand 2 none with
    | some h => s.deleteCq h.record
    | none => s)

/-- R186. -/
def execCreateSq (s : State) : Host.Outcome State Fault Refusal :=
  .next (match s.inHand 3 none with
    | some h => s.createSq h.record
    | none => s)

/-- R160, R182, R186. -/
def execDeleteSq (s : State) : Host.Outcome State Fault Refusal :=
  .next (match s.inHand 4 none with
    | some h => s.deleteSq h.record
    | none => s)

/-- R126, R127. -/
def execConfigureLine (s : State) : Host.Outcome State Fault Refusal :=
  .next (match s.inHand 5 none with
    | some h => s.configureLine (admLineId h.record) h.block
    | none => s)

/-- R128. -/
def execStartLine (s : State) : Host.Outcome State Fault Refusal :=
  .next (match s.inHand 6 none with
    | some h => s.startLine (admLineId h.record)
    | none => s)

/-- R133. -/
def execStopLine (s : State) : Host.Outcome State Fault Refusal :=
  .next (match s.inHand 7 none with
    | some h => s.stopLine (admLineId h.record) (if admB h.record = 0 then .drain else .immediate)
    | none => s)

/-- R93. -/
def execSetPoll (s : State) : Host.Outcome State Fault Refusal :=
  .next (match s.inHand 8 none with
    | some h => s.setPoll (admLineId h.record) h.record h.block
    | none => s)

/-- R94. -/
def execPollEnable (s : State) : Host.Outcome State Fault Refusal :=
  .next (match s.inHand 9 (some 0) with
    | some h => s.pollEnable (admLineId h.record) h.record
    | none => s)

/-- R95. -/
def execPollDisable (s : State) : Host.Outcome State Fault Refusal :=
  .next (match s.inHand 9 (some 1) with
    | some h => s.pollDisable (admLineId h.record) h.record
    | none => s)

/-- R96. -/
def execPollClear (s : State) : Host.Outcome State Fault Refusal :=
  .next (match s.inHand 9 (some 2) with
    | some h => s.pollClear (admLineId h.record) h.record
    | none => s)

/-- R87, R88. -/
def execStationReset (s : State) : Host.Outcome State Fault Refusal :=
  .next (match s.inHand 10 (some 0) with
    | some h => s.stationReset (admLineId h.record) (byteAt h.record 4)
    | none => s)

/-- R89, R174. -/
def execStationRead (s : State) : Host.Outcome State Fault Refusal :=
  .next (match s.inHand 10 (some 1) with
    | some h => s.stationRead (admLineId h.record) h
    | none => s)

/-- R124. -/
def execSetFilter (s : State) : Host.Outcome State Fault Refusal :=
  .next (match s.inHand 11 none with
    | some h => s.setFilter (admLineId h.record) h.record
    | none => s)

/-- R66, R67, R188. -/
def execAbortSqAndTag (s : State) : Host.Outcome State Fault Refusal :=
  .next (match s.inHand 12 (some 0) with
    | some h => s.abortSq h.record (some (admD h.record))
    | none => s)

/-- R66, R67, R188. -/
def execAbortLineAndStation (s : State) : Host.Outcome State Fault Refusal :=
  .next (match s.inHand 12 (some 1) with
    | some h => s.abortStation (admLineId h.record) h.record
    | none => s)

/-- R66, R67, R188. -/
def execAbortWholeSq (s : State) : Host.Outcome State Fault Refusal :=
  .next (match s.inHand 12 (some 2) with
    | some h => s.abortSq h.record none
    | none => s)

/-- R175, R189. -/
def execReadCounters (rdy : Bool) (s : State) : Host.Outcome State Fault Refusal :=
  .next (match s.inHand 13 none with
    | some h => s.readCounters (admLineId h.record) h rdy
    | none => s)

/-- R138. -/
def execStopComplete (line : LineId) (s : State) : Host.Outcome State Fault Refusal :=
  .next (if (s.line line).stopDone then
      (s.modLine line Line.off).finishPending (.stopLine line) (s.line line).stopEnded
    else s)

/-- R160. -/
def execSqDeletionDone (sq : SqId) (s : State) : Host.Outcome State Fault Refusal :=
  .next (match s.sqs[sq] with
    | some q =>
      match q.binding with
      | some b =>
        if q.state = .deleting ∧ s.sqQuiet sq b = true then
          (s.setSq sq none).finishPending (.deleteSq sq) q.abandoned
        else s
      | none => s
    | none => s)

end Sys2Proof.Machine
end

