-- ==== Sys2Proof/Machine/HostAccess.lean ====
section
/-! DEFINITION. The host's commands: resets and register accesses (file 11). While RESET_N is asserted the target port
answers no access (R199). -/

namespace Sys2Proof.Machine

/-- R199. -/
def execPowerOn (s : State) : Host.Outcome State Fault Refusal := .next s.powerOn

/-- R197: the RUN and INT_ENABLE bits of the write are not used. -/
def execSoftReset (_runBit _intBit : Bool) (s : State) : Host.Outcome State Fault Refusal :=
  .next (if s.held then s else s.softReset)

/-- R193, R194: CONTROL written with RUN 1 and SOFT_RESET 0. -/
def execRun (intBit : Bool) (s : State) : Host.Outcome State Fault Refusal :=
  .next (if s.held then s else s.controlWrite true intBit)

/-- R193: CONTROL written with RUN 0 and SOFT_RESET 0. -/
def execRunClear (intBit : Bool) (s : State) : Host.Outcome State Fault Refusal :=
  .next (if s.held then s else s.controlWrite false intBit)

/-- R193: a CONTROL write with SOFT_RESET 0, seen from its INT_ENABLE bit; the RUN bit it carries acts with it. -/
def execIntEnable (runBit intBit : Bool) (s : State) : Host.Outcome State Fault Refusal :=
  .next (if s.held then s else s.controlWrite runBit intBit)

/-- R194. -/
def execAdminSetupWrite (reg : SetupReg) (value : Word) (s : State) : Host.Outcome State Fault Refusal :=
  .next (if s.held then s else State.setupWrite { s with answer := .written } reg value)

/-- R145. -/
def execPostSq (number : BitVec 5) (tail : BitVec 9) (s : State) : Host.Outcome State Fault Refusal :=
  .next (if s.held then s else State.postSq { s with answer := .written } number.toNat tail.toNat)

/-- R145. -/
def execPostBq (number : BitVec 5) (tail : BitVec 9) (s : State) : Host.Outcome State Fault Refusal :=
  .next (if s.held then s else State.postBq { s with answer := .written } number.toNat tail.toNat)

/-- R146. -/
def execAck (number : BitVec 4) (head : BitVec 9) (s : State) : Host.Outcome State Fault Refusal :=
  .next (if s.held then s else State.ackWrite { s with answer := .written } number.toNat head.toNat)

/-- R195. -/
def execStatusRead (s : State) : Host.Outcome State Fault Refusal := .next (if s.held then s else s.readStatus)

/-- R192. -/
def execRegisterWrite (access : RegAccess) (s : State) : Host.Outcome State Fault Refusal :=
  .next (if s.held then s else s.access access)

/-- R199: at the release every block holds its reset values. -/
def execResetNRelease (s : State) : Host.Outcome State Fault Refusal :=
  .next (if s.held then { s.powerOn with held := false } else s)

end Sys2Proof.Machine
end

