-- ==== Sys2Proof/Machine/ReceiveOps.lean ====
section
/-! DEFINITION. What the receiver's and the transmitter's happenings do to the part (files 02, 03): characters, start
bits, block ends, and the phases of a transmission. -/

namespace Sys2Proof.Machine

/-! ## Start bits (R20, R23, R33 to R35) -/

/-- The receiver is QUALIFYING and the third sample of the start bit has been taken (R20). -/
def Line.startSampled (l : Line) (cfg : LineConfig) : Bool :=
  decide (l.rx.state = .qualifying) && sampled cfg l.rx.age 0

/-- R33: armed with no block in progress: the next qualified start bit begins the reply. -/
def Receiver.awaitsReply (r : Receiver) : Bool := r.armed && r.block.isNone

/-- The receiver assembles the character whose start bit has just been qualified (R20). -/
def Line.assemble (l : Line) (echo : Bool) : Line := { l with rx := { l.rx with state := .assembling, echo := echo } }

/-- R33: the qualified start bit of the reply. -/
def Line.replyBegins (l : Line) : Line :=
  let l1 := (l.assemble false).beginBlock true
  { l1 with rx := { l1.rx with window := none } }

/-- R5, R23: a qualified start bit that is no echo and no reply's begins a block when the line counts as idle. -/
def Line.strayStart (l : Line) : Line :=
  if l.rx.block.isNone && l.rx.idle then (l.assemble false).beginBlock false else l.assemble false

/-- R34: the qualified start bit of an echo. Every start bit qualified in SEND is taken as one, also beyond those of the
characters sent (log entry 37). -/
def Line.echoStart (l : Line) : Line :=
  let l1 := l.assemble true
  { l1 with tx := { l1.tx with echoStarts := l1.tx.echoStarts + 1 } }

/-- The echo check is on and the transmitter is in this phase. -/
def Line.echoIn (l : Line) (cfg : LineConfig) (p : TxPhase) : Bool := cfg.echo && decide (l.tx.phase = p)

/-- R23, R34, R35: a qualified start bit other than a reply's. -/
def State.startBit (s : State) (n : LineId) (cfg : LineConfig) : State :=
  if (s.line n).echoIn cfg .lead then (s.modLine n fun l => (l.assemble false).beginBlock false).contention n
  else if (s.line n).echoIn cfg .send then s.modLine n Line.echoStart
  else s.modLine n Line.strayStart

/-- R20: a noise start. -/
def Line.noise (l : Line) (b : BitSamples) : Line :=
  ({ l with rx := { l.rx with state := if b.s9 then .hunting else .awaitMark, age := none, gap := 0, mark := b.s9 } } :
    Line).count fun k => { k with noiseStarts := tally k.noiseStarts }

/-! ## Characters (R21, R22, R34) -/

/-- The level at which the third sample of the first stop bit found RXD. -/
def stopLevel (c : CharSamples) : Bool := c.s9.getLsbD 9

/-- R21, R22: the character is complete, and breaks are counted. The receiver hunts again, or waits for mark where RXD
is at space: RXD stands as the third sample of the stop bit found it, so a stop bit taken as space with RXD back at mark
leaves the receiver HUNTING (log entry 33). Its time origin is kept until its nominal end. An echo joins no block, also
one completed after a contention's release (R36; log entry 35). -/
def Line.characterTaken (l : Line) (cfg : LineConfig) (c : CharSamples) : Line :=
  let rx1 := { l.rx with
    state := if charStopMark c || stopLevel c then .hunting else .awaitMark
    mark := stopLevel c
    age := none
    tail := match l.rx.age with
      | some a => if a < cfg.charTime * cfg.divider then some a else none
      | none => none
    block := if l.rx.echo then l.rx.block
      else match l.rx.block with
        | some b => some (b.join c cfg)
        | none => none }
  ({ l with rx := rx1 } : Line).count fun k => { k with breaks := if charIsBreak c then tally k.breaks else k.breaks }

/-- R34, R36: a contention judged now: in SEND the character being sent is finished first. -/
def State.judgeContention (s : State) (n : LineId) (cfg : LineConfig) : State :=
  if (s.line n).tx.phase = .send then
    s.modLine n fun l => { l with tx := { l.tx with stopAt := some (l.charEnd cfg) } }
  else s.contention n

/-- R34: an echo is compared: in SEND until a contention is judged, and in HOLD for the last character. One whose first
stop bit is taken after HOLD has ended is not compared (log entry 34). -/
def Line.comparesEcho (l : Line) : Bool :=
  l.rx.echo && ((decide (l.tx.phase = .send) && l.tx.stopAt.isNone) || decide (l.tx.phase = .hold))

/-- R21, R22, R34: a received character. -/
def State.character (s : State) (n : LineId) (cfg : LineConfig) (c : CharSamples) : State :=
  let l := s.line n
  let s1 := s.modLine n (·.characterTaken cfg c)
  if l.comparesEcho then
    if l.echoMatches cfg c then
      s1.modLine n fun l => { l with tx := { l.tx with echoMatched := l.tx.echoMatched + 1 } }
    else s1.judgeContention n cfg
  else s1

/-- R34: no start bit has been qualified within one bit time of the start of the character being sent. -/
def Line.echoMissed (l : Line) (cfg : LineConfig) : Bool :=
  let k := l.tx.age / (cfg.charTime * cfg.divider)
  l.echoIn cfg .send && l.tx.stopAt.isNone && decide (l.tx.echoStarts ≤ k)
    && decide (l.tx.age < l.blockBits cfg * cfg.divider) && decide ((k * cfg.charTime + 1) * cfg.divider ≤ l.tx.age)

/-! ## The end of a block (R6, R23, R39, R40) -/

/-- R23: the staging area is free; the line counts as idle (R5). -/
def Line.blockOver (l : Line) : Line := { l with rx := { l.rx with block := none, idle := true } }

/-- R39: a stray block. -/
def Line.stray (l : Line) : Line := l.count fun k => { k with strayBlocks := tally k.strayBlocks }

/-- R32, R33: a reply that has ended within HOLD is kept until SENT is reported, and the receiver is disarmed (log entry
17). -/
def Line.keepReply (l : Line) (b : RxBlock) (now : Word) : Line :=
  let l1 := l.disarm
  { l1 with rx := { l1.rx with early := some (b, now) } }

/-- R6, R23, R32, R39: a block is handed on: to monitor capture, to the LISTENING context as its reply, or as a stray
block. -/
def State.blockEnded (s : State) (n : LineId) (cfg : LineConfig) (b : RxBlock) : State :=
  let s1 := s.modLine n Line.blockOver
  match cfg.mode with
  | .monitor => (s1.modLine n (·.monitorBlock b)).runMonitor n
  | .master =>
    if (s.line n).rx.armed && b.reply then
      match (s.line n).listening with
      | some i => (s1.modLine n Line.disarm).judgeBlock n i b s.timebase
      | none =>
        if (s.line n).tx.phase = .hold then s1.modLine n (·.keepReply b s.timebase) else s1.modLine n Line.stray
    else s1.modLine n Line.stray

/-! ## Transmission (R26 to R32, R56) -/

/-- R26: the line state permits a lead. -/
def LineState.sends : LineState → Bool
  | .ready => true
  | .draining => true
  | _ => false

/-- R26, R30: a held order's idle requirement is met in READY or DRAINING; the requirement is at least G, so a block in
progress has ended by then. -/
def Line.requirementMet (l : Line) (cfg : LineConfig) : Bool :=
  match l.tx.order with
  | some o =>
    decide (l.tx.phase = .gapWait) && l.state.sends && decide (cfg.mode = .master) && l.gapReached cfg o.idle
      && l.rx.block.isNone
  | none => false

/-- R27, R28: RDY is deasserted: READY_WAIT, with the ready timer started at the order's first entry. -/
def Line.waitReady (l : Line) (cfg : LineConfig) (now : Word) : Line :=
  { l with tx := { l.tx with
      phase := .readyWait
      readyTimer := match l.tx.readyTimer with
        | some t => some t
        | none => if cfg.readyTimeout = 0 then none else some (afterMs now cfg.readyTimeout) } }

/-- R55: the ordered context ends with NOT_READY; its end time is that of the report (log entry 39). -/
def State.notReady (s : State) (n : LineId) : State :=
  let s1 := s.modLine n fun l => { l with tx := .reset }
  match (s.line n).ordered with
  | some i => s1.endExchange n i { status := .notReady, endTime := s.timebase }
  | none => s1

/-- R30: the first character's start bit begins. -/
def Line.beginSend (l : Line) : Line :=
  { l with tx := { l.tx with phase := .send, age := 0, stopAt := none, echoStarts := 0, echoMatched := 0 } }

/-- R24, R30, R32: the last stop bit ends: HOLD, with the receiver armed unless the order is a broadcast. -/
def Line.endSend (l : Line) (cfg : LineConfig) : Line :=
  let rx := if cfg.echo then l.rx else l.rx.start
  let armed := match l.tx.order with
    | some o => !o.broadcast
    | none => false
  { l with
    tx := { l.tx with phase := .hold, age := 0 }
    rx := { rx with gap := 0, idle := true, armed := armed, window := none } }

/-- R31, R33, R56: DE is released and the context has been sent. -/
def Line.sent (l : Line) (cfg : LineConfig) (now : Word) (i : CtxId) (c : Ctx) : Line :=
  let c1 := { c with attempts := c.attempts + 1, state := if c.station = 0 then .settling else .listening }
  let l1 := ({ l with tx := .reset } : Line).setCtx i (some c1)
  let l2 := l1.count fun k => { k with attempts := tally k.attempts }
  if c.station = 0 then { l2 with exch := { l2.exch with settle := some (after now (100 * cfg.settle)) } }
  else if l.rx.awaitsReply && l.rx.early.isNone then
    { l2 with rx := { l2.rx with window := some (after now (100 * cfg.window)) } }
  else l2

/-- R32, R57: a reply kept from HOLD is handed to the context that now listens. One that fails a check fails the attempt
here, at SENT, which is then its instant of failure (R63; log entry 17). -/
def State.handEarly (s : State) (n : LineId) (i : CtxId) : State :=
  match (s.line n).rx.early with
  | some (b, ended) =>
    (s.modLine n fun l => { l with rx := { l.rx with early := none } }).judgeBlock n i b ended
  | none => s

/-- R31, R32, R56, R65: SENT; a reply that has ended already is judged, and a broadcast with a settle time of 0 ends at
once. -/
def State.holdEnded (s : State) (n : LineId) (cfg : LineConfig) : State :=
  match (s.line n).ordered with
  | some i =>
    match (s.line n).ctx i with
    | some c =>
      let s1 := s.modLine n (·.sent cfg s.timebase i c)
      if c.station ≠ 0 then s1.handEarly n i
      else if cfg.settle = 0 then s1.settleOver n i
      else s1
    | none => s
  | none => s

/-! ## Settling, dues and orders (R53, R62, R65, R98) -/

/-- The SETTLING context (R65). -/
def Line.settling (l : Line) : Option CtxId :=
  l.exch.work.find? fun i =>
    match l.ctx i with
    | some c => decide (c.state = .settling)
    | none => false

/-- R53: an order may be given. -/
def Line.mayOrder (l : Line) (cfg : LineConfig) : Bool :=
  decide (cfg.mode = .master) && l.state.sends && l.activeCtx.isNone && l.tx.order.isNone

/-- R62: the context returns to QUEUED; an order no longer for the first eligible context is withdrawn (R53). -/
def Line.backToQueue (l : Line) (i : CtxId) (c : Ctx) : Line := (l.setCtx i (some { c with state := .queued })).reorder

/-- R129: the quiet report is taken. -/
def State.quietTaken (s : State) (n : LineId) : State :=
  (s.modLine n fun l => { l with state := .ready }).handNotice (.lineUp n)

/-- R38, R131: what the return of CAR does to a line. -/
def Line.carrierBack (l : Line) : Line :=
  match l.state with
  | .off => { l with carrier := true }
  | .fault => { l with carrier := true, state := .starting, rx := l.rx.start }
  | .starting => { l with carrier := true, rx := l.rx.start }
  | .draining => { l with carrier := true, rx := l.rx.start }
  | .ready => { l with carrier := true, rx := l.rx.start }

/-- R20, R24: RXD goes to space. -/
def Line.fallingEdge (l : Line) (now : Word) : Line :=
  if l.rx.state = .hunting then
    let l1 := l.activity
    { l1 with rx := { l1.rx with state := .qualifying, edge := now, age := some 0, mark := false } }
  else { l with rx := { l.rx with mark := false } }

/-- R22: RXD returns to mark. -/
def Line.risingEdge (l : Line) : Line :=
  { l with rx := { l.rx with mark := true, state := if l.rx.state = .awaitMark then .hunting else l.rx.state } }

end Sys2Proof.Machine
end

