-- ==== Sys2Proof/Machine/LineCommands.lean ====
section
/-! DEFINITION. The happenings on a line (files 02, 03, 05, 07): the transmitter's phases, what the receiver takes, the
line's timers, and its inputs. A command whose conditions do not hold does not take place (log entry 1). -/

namespace Sys2Proof.Machine

/-- R25, R53. -/
def execSendOrder (line : LineId) (s : State) : Host.Outcome State Fault Refusal :=
  .next (match (s.line line).config, (s.line line).firstEligible with
    | some cfg, some i => if (s.line line).mayOrder cfg then s.modLine line (·.giveOrder i cfg.gap) else s
    | _, _ => s)

/-- R26, R28, R29, R54. -/
def execIdleRequirementMet (line : LineId) (rdy : Bool) (s : State) : Host.Outcome State Fault Refusal :=
  .next (match (s.line line).config with
    | some cfg =>
      if (s.line line).requirementMet cfg then
        s.modLine line fun l =>
          let l1 := { l with rdy := rdy }
          if rdy then l1.beginLead cfg s.timebase else l1.waitReady cfg s.timebase
      else s
    | none => s)

/-- R27, R54. -/
def execRdyAsserted (line : LineId) (s : State) : Host.Outcome State Fault Refusal :=
  .next (s.modLine line fun l =>
    let l1 := { l with rdy := true }
    match l.config with
    | some cfg =>
      if l.tx.phase = .readyWait ∧ l.state.sends = true ∧ cfg.mode = .master then l1.beginLead cfg s.timebase else l1
    | none => l1)

/-- R28, R55. -/
def execNotReady (line : LineId) (s : State) : Host.Outcome State Fault Refusal :=
  .next (if (s.line line).tx.waiting && expired s.timebase (s.line line).tx.readyTimer then s.notReady line else s)

/-- R29, R30. -/
def execLeadEnd (line : LineId) (s : State) : Host.Outcome State Fault Refusal :=
  .next (match (s.line line).config with
    | some cfg =>
      if (s.line line).tx.phase = .lead ∧ cfg.lead * cfg.divider ≤ (s.line line).tx.age then
        s.modLine line Line.beginSend
      else s
    | none => s)

/-- R30, R32. -/
def execSendEnd (line : LineId) (s : State) : Host.Outcome State Fault Refusal :=
  .next (match (s.line line).config with
    | some cfg =>
      if (s.line line).tx.phase = .send ∧ (s.line line).tx.stopAt = none
          ∧ (s.line line).blockBits cfg * cfg.divider ≤ (s.line line).tx.age then
        s.modLine line (·.endSend cfg)
      else s
    | none => s)

/-- R31, R56. -/
def execHoldEnd (line : LineId) (s : State) : Host.Outcome State Fault Refusal :=
  .next (match (s.line line).config with
    | some cfg =>
      if (s.line line).tx.phase = .hold ∧ cfg.hold * cfg.divider ≤ (s.line line).tx.age then s.holdEnded line cfg else s
    | none => s)

/-- R21, R22, R34. -/
def execCharacterReceived (line : LineId) (samples : CharSamples) (s : State) : Host.Outcome State Fault Refusal :=
  .next (match (s.line line).config with
    | some cfg =>
      if (s.line line).rx.state = .assembling ∧ sampled cfg (s.line line).rx.age cfg.stopIndex = true then
        s.character line cfg samples
      else s
    | none => s)

/-- R20, R33: a noise start; a reply window that ran out while it was being sampled ends with it. -/
def execNoiseStart (line : LineId) (samples : BitSamples) (s : State) : Host.Outcome State Fault Refusal :=
  .next (match (s.line line).config with
    | some cfg =>
      if (s.line line).startSampled cfg && !spaceWins samples then
        let s1 := s.modLine line (·.noise samples)
        if (s.line line).rx.awaitsReply && expired s.timebase (s.line line).rx.window then s1.reportNoStart line else s1
      else s
    | none => s)

/-- R34, R36. -/
def execEchoMissing (line : LineId) (s : State) : Host.Outcome State Fault Refusal :=
  .next (match (s.line line).config with
    | some cfg => if (s.line line).echoMissed cfg then s.judgeContention line cfg else s
    | none => s)

/-- R33: a reply begins; its falling edge came before the window ran out. -/
def execStartSeen (line : LineId) (samples : BitSamples) (s : State) : Host.Outcome State Fault Refusal :=
  .next (match (s.line line).config with
    | some cfg =>
      if (s.line line).startSampled cfg && spaceWins samples && (s.line line).rx.awaitsReply
          && edgeInWindow (s.line line).rx.edge (s.line line).rx.window then
        s.modLine line Line.replyBegins
      else s
    | none => s)

/-- R33, R57: the window has run out, whatever block is in progress, and no edge from before its end is being
qualified. -/
def execNoStart (line : LineId) (s : State) : Host.Outcome State Fault Refusal :=
  .next (let r := (s.line line).rx
    if r.armed && expired s.timebase r.window
        && !(decide (r.state = .qualifying) && edgeInWindow r.edge r.window) then
      s.reportNoStart line
    else s)

/-- R6, R23, R39, R40. -/
def execBlockEnd (line : LineId) (s : State) : Host.Outcome State Fault Refusal :=
  .next (match (s.line line).config, (s.line line).rx.block with
    | some cfg, some b =>
      if (s.line line).rx.state = .hunting ∧ (s.line line).gapReached cfg cfg.gap = true then s.blockEnded line cfg b
      else s
    | _, _ => s)

/-- R65. -/
def execSettleEnd (line : LineId) (s : State) : Host.Outcome State Fault Refusal :=
  .next (match (s.line line).settling with
    | some i => if expired s.timebase (s.line line).exch.settle then s.settleOver line i else s
    | none => s)

/-- R62, R97. -/
def execHoldOffExpiry (line : LineId) (ctx : CtxId) (s : State) : Host.Outcome State Fault Refusal :=
  .next (match (s.line line).ctx ctx with
    | some c =>
      match c.state with
      | .holding t => if reached s.timebase t then s.modLine line (·.backToQueue ctx c) else s
      | _ => s
    | none => s)

/-- R44, R98, R100. -/
def execPollDue (line : LineId) (entry : PollId) (s : State) : Host.Outcome State Fault Refusal :=
  .next (match (s.line line).config, (s.line line).poll entry, (s.line line).servedNext s.timebase entry with
    | some cfg, some p, some due => s.modLine line (·.fallDue cfg entry p due s.timebase)
    | _, _, _ => s)

/-- R37, R69, R130, R132. -/
def execCarDeasserted (line : LineId) (s : State) : Host.Outcome State Fault Refusal :=
  .next (if (s.line line).carrier = false then s
    else if (s.line line).state = .off then s.modLine line fun l => { l with carrier := false }
    else s.carrierLost line)

/-- R38, R131. -/
def execCarReasserted (line : LineId) (s : State) : Host.Outcome State Fault Refusal :=
  .next (if (s.line line).carrier then s else s.modLine line Line.carrierBack)

/-- R129. -/
def execQuiet (line : LineId) (s : State) : Host.Outcome State Fault Refusal :=
  .next (match (s.line line).config with
    | some cfg =>
      if (s.line line).state = .starting ∧ (s.line line).carrier = true ∧ (s.line line).gapReached cfg cfg.gap = true then
        s.quietTaken line
      else s
    | none => s)

/-- R5, R20, R23, R35, R113: any start bit qualified but a reply's. -/
def execQualifiedStartBit (line : LineId) (samples : BitSamples) (s : State) : Host.Outcome State Fault Refusal :=
  .next (match (s.line line).config with
    | some cfg =>
      if (s.line line).startSampled cfg && spaceWins samples && !(s.line line).rx.awaitsReply then s.startBit line cfg
      else s
    | none => s)

/-- R20, R24. -/
def execRxdFallingEdge (line : LineId) (s : State) : Host.Outcome State Fault Refusal :=
  .next (s.modLine line (·.fallingEdge s.timebase))

/-- R22. -/
def execRxdReturnToMark (line : LineId) (s : State) : Host.Outcome State Fault Refusal :=
  .next (s.modLine line Line.risingEdge)

/-- R36, R64. -/
def execContentionStop (line : LineId) (s : State) : Host.Outcome State Fault Refusal :=
  .next (match (s.line line).tx.stopAt with
    | some t => if (s.line line).tx.phase = .send ∧ t ≤ (s.line line).tx.age then s.contention line else s
    | none => s)

end Sys2Proof.Machine
end

