-- ==== Sys2Proof/Machine/PortCommands.lean ====
section
/-! DEFINITION. The commands of the memory port and the queue engine: the grant of the host bus, the end of each kind of
transfer, and the grants of slots, fetches and buffers (files 08, 11). A command whose conditions do not hold does not
take place and leaves the state as it is (log entry 1). -/

namespace Sys2Proof.Machine

/-- R200, R201; the host's own stores to shared memory come first (log entry 8). -/
def execPortGrant (hostStores : List (Nat × Byte)) (answer : BusAnswer) (s : State) :
    Host.Outcome State Fault Refusal :=
  .next (State.grantPort { s with mem := Memory.hostStores s.mem hostStores } answer)

/-- R200. -/
def execBeatTimeout (s : State) : Host.Outcome State Fault Refusal := .next s.beatTimedOut

/-- R150, R177. -/
def execAdminFetchStart (s : State) : Host.Outcome State Fault Refusal := .next s.startAdminFetch

/-- R150, R162, R177, R198. -/
def execAdminFetchComplete (s : State) : Host.Outcome State Fault Refusal :=
  .next (match s.endedTransfer with
    | some (.adminFetch, data) => s.portFree.adminFetchEnded data
    | _ => s)

/-- R172, R173, R178, R181. -/
def execParameterBlockReadDone (s : State) : Host.Outcome State Fault Refusal :=
  .next (match s.endedTransfer with
    | some (.blockRead, data) => s.portFree.blockReadEnded data
    | _ => s)

/-- R174, R175, R178, R181. -/
def execResultWriteDone (s : State) : Host.Outcome State Fault Refusal :=
  .next (match s.endedTransfer with
    | some (.resultWrite, data) => s.portFree.resultWriteEnded data
    | _ => s)

/-- R44, R45, R147, R148, R149. -/
def execFetchGrant (line : LineId) (s : State) : Host.Outcome State Fault Refusal := .next (s.grantFetch line)

/-- R45, R46, R149, R161. A request data read issued here competes in the next grant (log entry 42). -/
def execFetchComplete (s : State) : Host.Outcome State Fault Refusal :=
  .next (match s.endedTransfer with
    | some (.sqFetch sq n i, data) => s.portFree.fetchEnded sq n i data
    | _ => s)

/-- R46, R47, R48. -/
def execRequestDataReadDone (s : State) : Host.Outcome State Fault Refusal :=
  .next (match s.endedTransfer with
    | some (.requestData n i, data) => s.portFree.requestDataEnded n i data
    | _ => s)

/-- R151, R152. A payload write issued here competes in the next grant (log entry 42). -/
def execDescriptorReadComplete (s : State) : Host.Outcome State Fault Refusal :=
  .next (match s.endedTransfer with
    | some (.descriptor n, data) => s.portFree.descriptorEnded n data
    | some (.staleDescriptor, _) => s.portFree
    | _ => s)

/-- R151. -/
def execBufferPromise (line : LineId) (s : State) : Host.Outcome State Fault Refusal := .next (s.promiseWaiting line)

/-- R72, R73, R110. -/
def execPayloadWriteDone (s : State) : Host.Outcome State Fault Refusal :=
  .next (match s.endedTransfer with
    | some (.payload n i, data) => s.portFree.payloadEnded n i data
    | _ => s)

/-- R118. -/
def execMonitorDataWriteDone (s : State) : Host.Outcome State Fault Refusal :=
  .next (match s.endedTransfer with
    | some (.monitorData n, data) => s.portFree.monitorDataEnded n data
    | _ => s)

/-- R153, R154, R168. -/
def execSlotGrant (cq : CqId) (s : State) : Host.Outcome State Fault Refusal := .next (s.grantSlot cq)

/-- R154, R156, R162. -/
def execCompletionWriteDone (s : State) : Host.Outcome State Fault Refusal :=
  .next (match s.endedTransfer with
    | some (.completion i w, data) => s.portFree.completionEnded i w data
    | _ => s)

/-- R157. -/
def execDelayTimerExpiry (cq : CqId) (s : State) : Host.Outcome State Fault Refusal :=
  .next (match s.cqs[cq] with
    | some q => if expired s.timebase q.timer then s.setCq cq (some q.timerExpired) else s
    | none => s)

end Sys2Proof.Machine
end

