-- ==== Sys2Proof/Machine/Dispatch.lean ====
section
/-! DEFINITION. One arm per command of the table, each a direct call of its meaning. -/

namespace Sys2Proof.Machine

def exec (i : Instr) (s : State) : Host.Outcome State Fault Refusal :=
  match i with
  | .powerOn => Sys2Proof.Machine.execPowerOn s
  | .softReset runBit intBit => Sys2Proof.Machine.execSoftReset runBit intBit s
  | .run intBit => Sys2Proof.Machine.execRun intBit s
  | .runClear intBit => Sys2Proof.Machine.execRunClear intBit s
  | .intEnable runBit intBit => Sys2Proof.Machine.execIntEnable runBit intBit s
  | .adminSetupWrite reg value => Sys2Proof.Machine.execAdminSetupWrite reg value s
  | .postSq number tail => Sys2Proof.Machine.execPostSq number tail s
  | .postBq number tail => Sys2Proof.Machine.execPostBq number tail s
  | .ack number head => Sys2Proof.Machine.execAck number head s
  | .statusRead => Sys2Proof.Machine.execStatusRead s
  | .registerWrite access => Sys2Proof.Machine.execRegisterWrite access s
  | .portGrant hostStores answer => Sys2Proof.Machine.execPortGrant hostStores answer s
  | .beatTimeout => Sys2Proof.Machine.execBeatTimeout s
  | .adminFetchStart => Sys2Proof.Machine.execAdminFetchStart s
  | .adminFetchComplete => Sys2Proof.Machine.execAdminFetchComplete s
  | .badCommand => Sys2Proof.Machine.execBadCommand s
  | .parameterBlockReadDone => Sys2Proof.Machine.execParameterBlockReadDone s
  | .createCq => Sys2Proof.Machine.execCreateCq s
  | .deleteCq => Sys2Proof.Machine.execDeleteCq s
  | .createSq => Sys2Proof.Machine.execCreateSq s
  | .deleteSq => Sys2Proof.Machine.execDeleteSq s
  | .configureLine => Sys2Proof.Machine.execConfigureLine s
  | .startLine => Sys2Proof.Machine.execStartLine s
  | .stopLine => Sys2Proof.Machine.execStopLine s
  | .setPoll => Sys2Proof.Machine.execSetPoll s
  | .pollEnable => Sys2Proof.Machine.execPollEnable s
  | .pollDisable => Sys2Proof.Machine.execPollDisable s
  | .pollClear => Sys2Proof.Machine.execPollClear s
  | .stationReset => Sys2Proof.Machine.execStationReset s
  | .stationRead => Sys2Proof.Machine.execStationRead s
  | .setFilter => Sys2Proof.Machine.execSetFilter s
  | .abortSqAndTag => Sys2Proof.Machine.execAbortSqAndTag s
  | .abortLineAndStation => Sys2Proof.Machine.execAbortLineAndStation s
  | .abortWholeSq => Sys2Proof.Machine.execAbortWholeSq s
  | .readCounters rdy => Sys2Proof.Machine.execReadCounters rdy s
  | .resultWriteDone => Sys2Proof.Machine.execResultWriteDone s
  | .stopComplete line => Sys2Proof.Machine.execStopComplete line s
  | .sqDeletionDone sq => Sys2Proof.Machine.execSqDeletionDone sq s
  | .fetchGrant line => Sys2Proof.Machine.execFetchGrant line s
  | .fetchComplete => Sys2Proof.Machine.execFetchComplete s
  | .requestDataReadDone => Sys2Proof.Machine.execRequestDataReadDone s
  | .descriptorReadComplete => Sys2Proof.Machine.execDescriptorReadComplete s
  | .bufferPromise line => Sys2Proof.Machine.execBufferPromise line s
  | .payloadWriteDone => Sys2Proof.Machine.execPayloadWriteDone s
  | .monitorDataWriteDone => Sys2Proof.Machine.execMonitorDataWriteDone s
  | .slotGrant cq => Sys2Proof.Machine.execSlotGrant cq s
  | .completionWriteDone => Sys2Proof.Machine.execCompletionWriteDone s
  | .delayTimerExpiry cq => Sys2Proof.Machine.execDelayTimerExpiry cq s
  | .sendOrder line => Sys2Proof.Machine.execSendOrder line s
  | .idleRequirementMet line rdy => Sys2Proof.Machine.execIdleRequirementMet line rdy s
  | .rdyAsserted line => Sys2Proof.Machine.execRdyAsserted line s
  | .notReady line => Sys2Proof.Machine.execNotReady line s
  | .leadEnd line => Sys2Proof.Machine.execLeadEnd line s
  | .sendEnd line => Sys2Proof.Machine.execSendEnd line s
  | .holdEnd line => Sys2Proof.Machine.execHoldEnd line s
  | .characterReceived line samples => Sys2Proof.Machine.execCharacterReceived line samples s
  | .noiseStart line samples => Sys2Proof.Machine.execNoiseStart line samples s
  | .echoMissing line => Sys2Proof.Machine.execEchoMissing line s
  | .startSeen line samples => Sys2Proof.Machine.execStartSeen line samples s
  | .noStart line => Sys2Proof.Machine.execNoStart line s
  | .blockEnd line => Sys2Proof.Machine.execBlockEnd line s
  | .settleEnd line => Sys2Proof.Machine.execSettleEnd line s
  | .holdOffExpiry line ctx => Sys2Proof.Machine.execHoldOffExpiry line ctx s
  | .pollDue line entry => Sys2Proof.Machine.execPollDue line entry s
  | .carDeasserted line => Sys2Proof.Machine.execCarDeasserted line s
  | .carReasserted line => Sys2Proof.Machine.execCarReasserted line s
  | .quiet line => Sys2Proof.Machine.execQuiet line s
  | .qualifiedStartBit line samples => Sys2Proof.Machine.execQualifiedStartBit line samples s
  | .rxdFallingEdge line => Sys2Proof.Machine.execRxdFallingEdge line s
  | .rxdReturnToMark line => Sys2Proof.Machine.execRxdReturnToMark line s
  | .contentionStop line => Sys2Proof.Machine.execContentionStop line s
  | .resetNRelease => Sys2Proof.Machine.execResetNRelease s

end Sys2Proof.Machine
end

