-- ==== Sys2Proof/Safety.lean ====
section
/-! DEFINITION. What claims about the KM840 say: what a command may leave untouched, the laws of its state that hold in
every run, and which command takes the end of a transfer. -/

namespace Sys2Proof.Machine

/-! ## Frames -/

/-- The register window, the part state and the timebase are as before. -/
def SameWindow (s t : State) : Prop :=
  t.held = s.held ∧ t.part = s.part ∧ t.haltCause = s.haltCause ∧ t.hostError = s.hostError
    ∧ t.intEnable = s.intEnable ∧ t.asqBase = s.asqBase ∧ t.acqBase = s.acqBase ∧ t.adminSize = s.adminSize
    ∧ t.answer = s.answer ∧ t.timebase = s.timebase ∧ t.fraction = s.fraction

/-- Host memory and the waiting commands are as before. -/
def SameHost (s t : State) : Prop := t.mem = s.mem ∧ t.pending = s.pending

/-- Every line but one is as before. -/
def SameOtherLines (n : LineId) (s t : State) : Prop := ∀ m, m ≠ n → t.line m = s.line m

/-- Every queue record is as before. -/
def SameQueues (s t : State) : Prop := t.sqs = s.sqs ∧ t.cqs = s.cqs ∧ t.bqs = s.bqs

/-- The transmitter, receiver, line state, configuration and inputs of a line are as before. -/
def SameWire (l m : Line) : Prop :=
  m.tx = l.tx ∧ m.rx = l.rx ∧ m.state = l.state ∧ m.config = l.config ∧ m.stop = l.stop ∧ m.carrier = l.carrier
    ∧ m.rdy = l.rdy ∧ m.arbiter = l.arbiter

/-- A CQ is as before but for its waiter list and discard count. -/
def SameCqIndices : Option Cq → Option Cq → Prop
  | some q, some r =>
    r.base = q.base ∧ r.size = q.size ∧ r.head = q.head ∧ r.tail = q.tail ∧ r.state = q.state ∧ r.phase = q.phase
      ∧ r.unacked = q.unacked ∧ r.threshold = q.threshold ∧ r.delay = q.delay ∧ r.intEnable = q.intEnable
      ∧ r.pending = q.pending ∧ r.timer = q.timer
  | none, none => True
  | _, _ => False

/-- R41, R70, R90, R92, R123, R140, R143, R176, R200: what `s` leaves when every block takes its reset values, the
levels of the inputs apart. -/
def BlocksReset (s t : State) : Prop :=
  (∀ n, t.line n = Line.reset (s.line n).carrier (s.line n).rdy (s.line n).rx.mark)
    ∧ (∀ n, (t.line n).tx.de = false ∧ (t.line n).txd = true)
    ∧ (∀ i : SqId, t.sqs[i] = none) ∧ (∀ i : CqId, t.cqs[i] = none) ∧ (∀ n : LineId, t.bqs[n] = none)
    ∧ t.admin = Admin.reset ∧ (∀ r : ReqId, t.port.queues[r] = []) ∧ t.port.current = none
    ∧ t.int = false ∧ t.intPending = 0

/-! ## Command answers -/

/-- The command in hand is the one of opcode `op`, in the step that executes it (R178 step 3), and the admin CQ is
ACTIVE. -/
def State.Executing (s : State) (op : Nat) (h : Hand) (q : Cq) : Prop :=
  s.admin.hand = some h ∧ s.admin.phase = .executing ∧ admOpcode h.record = op ∧ s.cqs[(0 : CqId)] = some q
    ∧ q.state = .active

/-- The poster and the ADMIN record of the command in hand, with its status and results (R168, R178 step 5). -/
def commandAnswer (h : Hand) (st : Status) (a b c : Nat) : Waiter :=
  { poster := .command
    record := .admin { status := st, tag := admTag h.record, opcode := byteAt h.record 0
                       lineByte := byteAt h.record 1, resultA := a, resultB := b, resultC := c } }

/-- The state with that answer at the end of the admin CQ's waiter list `q.waiters` and the admin unit COMPLETING. -/
def State.answered (s : State) (h : Hand) (q : Cq) (st : Status) (a b c : Nat) : State :=
  { s with admin := { s.admin with phase := .completing }
           cqs := s.cqs.set 0 (some { q with waiters := q.waiters ++ [commandAnswer h st a b c] }) }

/-- The state with the command in hand in the pending list and the admin unit IDLE (R182). -/
def State.pended (s : State) (h : Hand) (w : PendingWork) : State :=
  { s with admin := { s.admin with
      phase := .idle, hand := none
      pendingList := s.admin.pendingList ++
        [{ work := w, opcode := byteAt h.record 0, tag := admTag h.record, lineByte := byteAt h.record 1
           finished := false }] } }

/-- The ADMIN record of a pending entry whose work is over, with its count in result A (R182). -/
def PendingEntry.answer (e : PendingEntry) (count : Nat) : Waiter :=
  { poster := .pendingEntry e.work
    record := .admin { status := .ok, tag := e.tag, opcode := e.opcode, lineByte := e.lineByte, resultA := count
                       resultB := 0, resultC := 0 } }

/-- The state in which that entry, between `before` and `later` in the pending list, has its work over and its answer
at the end of the admin CQ's waiter list. -/
def State.pendingOver (s : State) (before later : List PendingEntry) (e : PendingEntry) (q : Cq) (count : Nat) : State :=
  { s with admin := { s.admin with pendingList := before ++ { e with finished := true } :: later }
           cqs := s.cqs.set 0 (some { q with waiters := q.waiters ++ [e.answer count] }) }

/-! ## What happenings are about -/

/-- Only line `n`, the memory port's queues, the waiter lists and discard counts of the CQs, the BQs and the admin unit
may differ. -/
def OnlyLine (n : LineId) (s t : State) : Prop :=
  SameWindow s t ∧ SameHost s t ∧ SameOtherLines n s t ∧ t.sqs = s.sqs ∧ ∀ i : CqId, SameCqIndices s.cqs[i] t.cqs[i]

/-- The transfer on the host bus is for this use and has ended: with the bytes it read, or `none` in a bus fault. -/
def State.Ended (s : State) (use : TransferUse) (data : Option (List Byte)) : Prop :=
  ∃ u, s.port.current = some u ∧ u.transfer.use = use
    ∧ u.outcome = match data with
        | some b => .done b
        | none => .fault

/-- R198: HALTED with a cause; the blocks have their reset values and the register window keeps its own. -/
def HaltedFrom (s t : State) (cause : HaltCause) : Prop :=
  t.part = .halted ∧ t.haltCause = cause ∧ BlocksReset s t ∧ t.held = s.held ∧ t.hostError = s.hostError
    ∧ t.intEnable = s.intEnable ∧ t.asqBase = s.asqBase ∧ t.acqBase = s.acqBase ∧ t.adminSize = s.adminSize
    ∧ t.timebase = s.timebase ∧ t.port.position = s.port.position ∧ SameHost s t

/-- A notice of this event, with the present timebase value, has taken a place of the holding list and joined the admin
CQ's waiter list behind those that waited there, or has been dropped and counted when all places are taken (R163). -/
def Noticed (s t : State) (e : NoticeEvent) : Prop :=
  if s.admin.notices.length < 8 then
    t.admin.notices = s.admin.notices ++ [{ event := e, time := s.timebase }] ∧ t.admin.noticeLost = s.admin.noticeLost
      ∧ ∀ q, s.cqs[(0 : CqId)] = some q → ∃ r, t.cqs[(0 : CqId)] = some r
          ∧ q.waiters ++ [{ poster := .notice, record := .notice { event := e, time := s.timebase } }] <+: r.waiters
  else t.admin.notices = s.admin.notices ∧ t.admin.noticeLost = min 255 (s.admin.noticeLost + 1)

/-- The context is of HOST origin, and its SQ is bound to the ACTIVE I/O CQ `k`. -/
def HostOn (s : State) (c : Ctx) (k : CqId) (q : Cq) : Prop :=
  k ≠ 0 ∧ s.cqs[k] = some q ∧ q.state = .active
    ∧ ∃ sq tag v b, c.origin = .host sq tag ∧ s.sqs[sq] = some v ∧ v.binding = some b ∧ b.cq = k

/-- The context is the instance in flight of poll entry `e`, which is `p`, on a line whose line CQ `k` is an ACTIVE I/O
CQ. -/
def PollOn (s : State) (n : LineId) (i : CtxId) (c : Ctx) (e : PollId) (p : PollEntry) (k : CqId) (q : Cq) : Prop :=
  k ≠ 0 ∧ s.cqs[k] = some q ∧ q.state = .active ∧ c.origin = .poll e ∧ (s.line n).poll e = some p
    ∧ p.inFlight = some i ∧ ∃ cfg, (s.line n).config = some cfg ∧ cfg.lineCq = k

/-- R63, R85: the result of an exchange that ends without a reply: its health after is the one its entry, where it has
one, holds on the line `l` the ending leaves. -/
def Ctx.ended (c : Ctx) (l : Line) (st : Status) (e : Word) : Result :=
  { status := st, replyFunction := none, replyLength := 0, endTime := e, abortLate := false, truncated := false
    healthAfter := if c.hasEntry then l.healthOf c.station else none
    healthChanged := match c.recordedHealth, if c.hasEntry then l.healthOf c.station else none with
      | some h, some k => decide (k ≠ h)
      | _, _ => false }

/-- R60: the result of a good reply `b`, whose block ended at `e`. -/
def Ctx.replied (c : Ctx) (l : Line) (st : Status) (e : Word) (b : RxBlock) : Result :=
  { c.ended l st e with
    replyFunction := some ((byteAt b.chars 1).setWidth 5), replyLength := b.payload.length
    abortLate := c.abortRequested }

/-- R110, R168: the completion record of a context with a result. -/
def completionRecord (n : LineId) (c : Ctx) (r : Result) (kind : LineKind) (source : Byte) (tag : Half)
    (sq : Option SqId) : LineRecord :=
  { kind := kind, status := r.status, tag := tag, source := source, line := n, station := c.station
    replyFunction := r.replyFunction, replyLength := r.replyLength, attempts := c.attempts, waits := c.waits
    health := r.healthAfter
    flags := { abortLate := r.abortLate, truncated := r.truncated, healthChanged := r.healthChanged }
    lost := 0, buffer := c.buffer.map Descriptor.addr, timestamp := r.endTime, sq := sq }

/-- Context `i` of line `n`, which is `c` at its end, is in POSTING with result `r`, and its EXCHANGE record stands at
the end of the waiter list of CQ `k`, which was `q` before (R73, R168). -/
def PostedAs (t : State) (n : LineId) (i : CtxId) (k : CqId) (q : Cq) (c : Ctx) (r : Result) : Prop :=
  (t.line n).ctx i = some { c with state := .posting, result := some r }
    ∧ ∀ sq tag, c.origin = .host sq tag → t.cqs[k] = some
        { q with waiters := q.waiters ++
            [{ poster := .exchange n i
               record := .line (completionRecord n c r .exchange (BitVec.ofNat 8 sq.val) tag (some sq)) }] }

/-- R104: the digest of a result: its function field as one character, then the payload. -/
def resultDigest (c : Ctx) (r : Result) : Half :=
  crc16 ((match r.replyFunction with
    | some f => f.setWidth 8
    | none => 0) :: c.store.take r.replyLength)

/-- R102: OK and REFUSED are the good results. -/
def Result.isGood (r : Result) : Prop := r.status = .ok ∨ r.status = .refused

/-- R103 to R105: the result is delivered: in EVERY mode always; in ON_CHANGE mode a good one whose digest or status
differs from the last delivered or that the quiet limit forces, and a failure whose status differs. -/
def Reported (p : PollEntry) (c : Ctx) (r : Result) : Prop :=
  p.mode = .every
    ∨ (r.isGood ∧ (p.digest ≠ some (resultDigest c r) ∨ p.lastStatus ≠ some r.status
        ∨ (p.quiet ≠ 0 ∧ p.quiet ≤ p.suppressed)))
    ∨ (¬r.isGood ∧ p.lastStatus ≠ some r.status)

/-- R107: `p'` is the entry `p` after the delivery of a result. -/
def AfterReport (p p' : PollEntry) (c : Ctx) (r : Result) : Prop :=
  (p.mode = .every → p' = { p with suppressed := 0 })
    ∧ (p.mode = .onChange → r.isGood →
        p' = { p with suppressed := 0, lastStatus := some r.status, digest := some (resultDigest c r) })
    ∧ (p.mode = .onChange → ¬r.isGood →
        p' = { p with suppressed := 0, lastStatus := some r.status, digest := none })

/-- The POLL record of a delivered result stands at the end of the waiter list of CQ `k`, which was `q` before (R110).
-/
def PollPosted (t : State) (n : LineId) (i : CtxId) (e : PollId) (p : PollEntry) (k : CqId) (q : Cq) (c : Ctx)
    (r : Result) : Prop :=
  t.cqs[k] = some { q with waiters := q.waiters ++
    [{ poster := .exchange n i
       record := .line (completionRecord n c r .poll (BitVec.ofNat 8 e.val) p.tag none) }] }

/-- R108: a result lost for want of a buffer: the context is FREE, the loss counted and the instance absent. -/
def PollLost (s t : State) (n : LineId) (i : CtxId) (e : PollId) (p : PollEntry) : Prop :=
  (t.line n).ctx i = none ∧ i ∉ (t.line n).exch.work ∧ (t.line n).poll e = some { p with inFlight := none }
    ∧ (t.line n).pollLost = min 255 ((s.line n).pollLost + 1)

/-- R102 to R108: what becomes of the result `r` of a poll instance, which is `c` at its end: suppressed and counted
with the instance absent, delivered, or waiting for the buffer its data needs, and lost where none can be promised.
The line's other counters stand at `counters`. -/
def PollSettled (s t : State) (n : LineId) (i : CtxId) (e : PollId) (p : PollEntry) (k : CqId) (q : Cq) (c : Ctx)
    (r : Result) (counters : Counters) : Prop :=
  (¬Reported p c r → (t.line n).ctx i = none ∧ i ∉ (t.line n).exch.work
      ∧ (t.line n).poll e = some { p with suppressed := min 255 (p.suppressed + 1), inFlight := none }
      ∧ (t.line n).counters =
          { counters with repliesSuppressed := min 4294967295 (counters.repliesSuppressed + 1) }
      ∧ t.cqs[k] = some q)
    ∧ (Reported p c r → (t.line n).counters = counters
        ∧ (¬r.isGood ∨ r.replyLength = 0 →
            (t.line n).ctx i = some { c with state := .posting, result := some r }
            ∧ (∃ p', AfterReport p p' c r ∧ (t.line n).poll e = some p') ∧ PollPosted t n i e p k q c r)
        ∧ (r.isGood → 1 ≤ r.replyLength → c.dest = .bufferQueue → c.buffer = none → ∀ bq, s.bqs[n] = some bq →
            (bq.state = .active → bq.promises.length < (bq.tail + bq.size - bq.head) % bq.size →
              (t.line n).ctx i = some { c with state := .posting, result := some r }
              ∧ t.bqs[n] = some { bq with promises := bq.promises ++ [.ctx i] }
              ∧ (t.line n).poll e = some p ∧ t.cqs[k] = some q)
            ∧ (bq.state = .faulted ∨ (bq.tail + bq.size - bq.head) % bq.size ≤ bq.promises.length →
                PollLost s t n i e p ∧ t.cqs[k] = some q)))

/-- R147: the SQ is a candidate of its line's fetch arbiter, with this priority. -/
def State.Candidate (s : State) (n : LineId) (p : Priority) (i : SqId) : Prop :=
  ∃ q b c, s.sqs[i] = some q ∧ q.binding = some b ∧ b.line = n ∧ b.priority = p ∧ q.state = .active
    ∧ 1 ≤ (q.tail + q.size - q.head) % q.size ∧ s.cqs[b.cq] = some c ∧ c.state = .active

/-- R148: the round robin among the ids of `P`: the lowest above the pointer; the lowest of all when none lies above it
or the pointer is none. -/
def RoundRobinPick (P : SqId → Prop) (pointer : Option SqId) (i : SqId) : Prop :=
  P i ∧ ((∃ k, pointer = some k ∧ k < i ∧ ∀ j, P j → k < j → i ≤ j)
    ∨ ((∀ k, pointer = some k → ∀ j, P j → j ≤ k) ∧ ∀ j, P j → i ≤ j))

/-- R52: context `i`, with `earlier` before it in the work list, is QUEUED and no earlier context for its station is
still to be sent. -/
def EligibleAfter (l : Line) (earlier : List CtxId) (i : CtxId) : Prop :=
  ∃ c, l.ctx i = some c ∧ c.state = .queued
    ∧ ∀ j ∈ earlier, ∀ d, l.ctx j = some d → d.station = c.station →
        d.state ≠ .queued ∧ d.state ≠ .admission ∧ ∀ x, d.state ≠ .holding x

/-- R52, R53: the first eligible context of the work list. -/
def FirstEligible (l : Line) (i : CtxId) : Prop :=
  ∃ earlier later, l.exch.work = earlier ++ i :: later ∧ i ∉ earlier ∧ EligibleAfter l earlier i
    ∧ ∀ a j b, earlier = a ++ j :: b → ¬EligibleAfter l a j

/-- R54: the ordered context `i`, which was `c`, has begun an attempt on line `n`: the transmitter is in LEAD with DE
asserted, and the context in TALKING. -/
def LeadBegun (s t : State) (n : LineId) (cfg : LineConfig) (o : Order) (c : Ctx) : Prop :=
  (t.line n).tx = { (s.line n).tx with phase := .lead, age := 0, de := true, readyTimer := none, stopAt := none
                                       echoStarts := 0, echoMatched := 0 }
    ∧ (t.line n).rx = (if cfg.echo then { (s.line n).rx with gap := 0 } else (s.line n).rx.stop)
    ∧ (t.line n).ctx o.ctx = some
        { c with state := .talking, staleSeen := false
                 recordedHealth := match c.recordedHealth with
                   | some h => some h
                   | none => if c.hasEntry then (s.line n).healthOf c.station else none }
    ∧ (∀ j, j ≠ o.ctx → (t.line n).ctx j = (s.line n).ctx j)
    ∧ (c.hasEntry = true → ∀ e, (s.line n).entry c.station = some e →
        (t.line n).entry c.station = some { e with lastUsed := s.timebase })
    ∧ (t.line n).state = (s.line n).state ∧ (t.line n).polls = (s.line n).polls
    ∧ (t.line n).exch.work = (s.line n).exch.work ∧ (t.line n).counters = (s.line n).counters
    ∧ OnlyLine n s t ∧ t.cqs = s.cqs ∧ t.admin = s.admin ∧ t.port = s.port ∧ t.bqs = s.bqs

/-- R63, R82, R102, R190: an attempt of context `i`, which was `c`, has failed for `why`: an abort already asked for
ends it, a retry left gives it a new order, and otherwise the exchange ends and its station's entry takes a counted
failure. -/
def AttemptFails (s t : State) (n : LineId) (i : CtxId) (cfg : LineConfig) (c : Ctx) (why : Status) : Prop :=
  OnlyLine n s t ∧ (∀ j, j ≠ i → (t.line n).ctx j = (s.line n).ctx j)
    ∧ (c.abortRequested = true →
        (∀ k q, HostOn s c k q → PostedAs t n i k q c (c.ended (t.line n) .aborted s.timebase))
        ∧ ∀ e p k q, PollOn s n i c e p k q →
            PollSettled s t n i e p k q c (c.ended (t.line n) .aborted s.timebase) ((s.line n).counters.failure why))
    ∧ ∀ limit, limit = (if (s.line n).healthOf c.station = some .silent ∧ c.fullRetries = false then 0 else c.retryLimit) →
      (c.abortRequested = false → c.attempts - c.waits ≤ limit →
        (t.line n).ctx i = some { c with state := .retryWait }
        ∧ (t.line n).counters = (s.line n).counters.failure why
        ∧ (t.line n).tx = { Transmitter.reset with
            phase := .gapWait
            order := some { ctx := i, block := (s.line n).requestFor c, idle := cfg.gap + cfg.retryDelay
                            broadcast := decide (c.station = 0) } })
      ∧ (c.abortRequested = false → limit < c.attempts - c.waits →
          (∀ k q, HostOn s c k q → PostedAs t n i k q c (c.ended (t.line n) why s.timebase)
            ∧ (t.line n).counters = (s.line n).counters.failure why)
          ∧ (∀ e p k q, PollOn s n i c e p k q →
              PollSettled s t n i e p k q c (c.ended (t.line n) why s.timebase) ((s.line n).counters.failure why))
          ∧ ∀ e, (s.line n).entry c.station = some e → (t.line n).entry c.station = some
              { e with failures := min cfg.silentThreshold (e.failures + 1)
                       exchangesFailed := min 65535 (e.exchangesFailed + 1)
                       health := if e.failures + 1 < cfg.silentThreshold then .suspect else .silent })

/-- R36, R64: a contention is over on line `n`: DE is released, the receiver is not armed, and context `o.ctx`, which
was `c`, ends where an abort was asked for or the line's contention limit is reached, and backs off by its station's
number modulo 8 in character times beyond G otherwise. -/
def Contends (s t : State) (n : LineId) (cfg : LineConfig) (o : Order) (c : Ctx) : Prop :=
  OnlyLine n s t ∧ (t.line n).tx.de = false ∧ (t.line n).rx.armed = false ∧ (t.line n).rx.window = none
    ∧ (t.line n).rx.gap = 0
    ∧ (t.line n).counters.contentions = min 4294967295 ((s.line n).counters.contentions + 1)
    ∧ (∀ j, j ≠ o.ctx → (t.line n).ctx j = (s.line n).ctx j)
    ∧ (c.abortRequested = true → ∀ k q, HostOn s c k q →
        PostedAs t n o.ctx k q c (c.ended (t.line n) .aborted s.timebase))
    ∧ (c.abortRequested = false → cfg.contentionLimit ≤ c.contentions + 1 → ∀ k q, HostOn s c k q →
        PostedAs t n o.ctx k q { c with contentions := c.contentions + 1 }
          (c.ended (t.line n) .contentionLimit s.timebase))
    ∧ (c.abortRequested = false → c.contentions + 1 < cfg.contentionLimit →
        (t.line n).ctx o.ctx = some { c with contentions := c.contentions + 1, state := .retryWait }
        ∧ (t.line n).tx = { Transmitter.reset with
            phase := .gapWait
            order := some
              { ctx := o.ctx, block := (s.line n).requestFor c, broadcast := decide (c.station = 0)
                idle := cfg.gap + c.station.toNat % 8 * cfg.charTime } })

/-- R57 to R61, R71, R72, R81: what the block `b`, which ended at the timebase value `ended`, makes of the LISTENING
context `i`, which was `c`. A check that fails ends the attempt, now (log entry 17); a first stale reply re-arms the
receiver with a window from the block's end; a WAIT holds the context off from the block's end or ends it; DATA and
REFUSE end the exchange at the block's end, toggle the sequence bit, and carry the payload to its destination, or to
NO_BUFFER where it needs a buffer and none can be promised. -/
def ReplyJudged (s t : State) (n : LineId) (i : CtxId) (cfg : LineConfig) (c : Ctx) (b : RxBlock) (ended : Word) :
    Prop :=
  (∀ why, judgeReply b c.station ((s.line n).seqOf c.station) = .fails why →
      (t.line n).rx.armed = false ∧ AttemptFails s t n i cfg c why)
    ∧ (judgeReply b c.station ((s.line n).seqOf c.station) = .stale →
        (c.staleSeen = true → (t.line n).rx.armed = false ∧ AttemptFails s t n i cfg c .stale)
        ∧ (c.staleSeen = false → (t.line n).rx.armed = true
            ∧ (t.line n).rx.window = some (ended + BitVec.ofNat 32 (100 * cfg.window))
            ∧ (t.line n).ctx i = some { c with staleSeen := true } ∧ OnlyLine n s t))
    ∧ (judgeReply b c.station ((s.line n).seqOf c.station) = .wait →
        (t.line n).rx.armed = false ∧ OnlyLine n s t
        ∧ (c.abortRequested = true → ∀ k q, HostOn s c k q →
            PostedAs t n i k q { c with waits := c.waits + 1 } (c.ended (t.line n) .aborted ended))
        ∧ (c.abortRequested = false → cfg.waitLimit ≤ c.waits + 1 → ∀ k q, HostOn s c k q →
            PostedAs t n i k q { c with waits := c.waits + 1 } (c.ended (t.line n) .waitLimit ended))
        ∧ (c.abortRequested = false → c.waits + 1 < cfg.waitLimit → (t.line n).ctx i = some
            { c with waits := c.waits + 1, state := .holding (ended + BitVec.ofNat 32 (1000 * cfg.holdOff)) })
        ∧ ∀ e, (s.line n).entry c.station = some e →
            (t.line n).entry c.station = some { e with failures := 0, health := .online })
    ∧ ∀ st r c', (judgeReply b c.station ((s.line n).seqOf c.station) = .data ∧ st = .ok)
          ∨ (judgeReply b c.station ((s.line n).seqOf c.station) = .refuse ∧ st = .refused) →
        c' = { c with store := b.payload } → r = c.replied (t.line n) st ended b →
        (t.line n).rx.armed = false ∧ OnlyLine n s t
        ∧ (∀ e, (s.line n).entry c.station = some e → (t.line n).entry c.station = some
            { e with failures := 0, health := .online, seq := !e.seq, lastSuccess := some ended
                     exchangesOk := min 65535 (e.exchangesOk + 1) })
        ∧ (∀ k q, HostOn s c k q →
            (b.payload = [] → PostedAs t n i k q c' r)
            ∧ (∀ addr cap, c.dest = .host addr cap → b.payload.take cap ≠ [] →
                (t.line n).ctx i = some
                  { c' with state := .posting, result := some { r with truncated := decide (cap < b.payload.length) } }
                ∧ t.port = (s.issue (lineEngine n)
                    { addr := addr, kind := .write (b.payload.take cap), use := .payload n i }).port)
            ∧ (b.payload ≠ [] → c.dest = .bufferQueue → c.buffer = none → ∀ bq, s.bqs[n] = some bq →
                (bq.state = .active → bq.promises.length < (bq.tail + bq.size - bq.head) % bq.size →
                  (t.line n).ctx i = some { c' with state := .posting, result := some r }
                  ∧ t.bqs[n] = some { bq with promises := bq.promises ++ [.ctx i] })
                ∧ (bq.state = .faulted ∨ (bq.tail + bq.size - bq.head) % bq.size ≤ bq.promises.length →
                    PostedAs t n i k q c' { r with status := .noBuffer })))
        ∧ ∀ e p k q, PollOn s n i c e p k q → PollSettled s t n i e p k q c' r (s.line n).counters

/-- R66, R67, R188: what an abort of the contexts `sel` names on line `n` does: the completion carries the numbers found
in a state that can be aborted and in one that is too late, a context waiting to be sent ends, one in transmission or
admission is marked, and every other context, line and SQ is left alone. -/
def AbortDone (s t : State) (h : Hand) (n : LineId) (sel : Ctx → Bool) : Prop :=
  (∃ q, t.cqs[(0 : CqId)] = some q ∧ q.waiters.getLast? = some
      (commandAnswer h .ok
        ((List.finRange 16).countP fun i => match (s.line n).ctx i with
          | some c => sel c && !decide (c.state = .settling) && !decide (c.state = .posting)
          | none => false)
        ((List.finRange 16).countP fun i => match (s.line n).ctx i with
          | some c => sel c && (decide (c.state = .settling) || decide (c.state = .posting))
          | none => false) 0))
    ∧ t.admin.phase = .completing ∧ OnlyLine n s t
    ∧ (∀ i ∈ (s.line n).exch.work, ∀ c, (s.line n).ctx i = some c → sel c = false → (t.line n).ctx i = some c)
    ∧ ∀ i ∈ (s.line n).exch.work, ∀ c, (s.line n).ctx i = some c → sel c = true →
        (c.state = .queued ∨ c.state = .retryWait ∨ (∃ x, c.state = .holding x) →
          ∀ d, (t.line n).ctx i = some d → d.state = .posting ∧ ∃ r, d.result = some r ∧ r.status = .aborted)
        ∧ (c.state = .talking ∨ c.state = .listening → (t.line n).ctx i = some { c with abortRequested := true })
        ∧ (c.state = .admission → (t.line n).ctx i = some { c with abortAtAdmission := true })
        ∧ (c.state = .settling → (t.line n).ctx i = some { c with abortLate := true })
        ∧ (c.state = .posting → (t.line n).ctx i = some c)

/-! ## Operands of records (files 04, 09, 10) -/

/-- R179: the operands the admin unit refuses with BAD_PARAMETER before the owner block is reached, by the bytes of the
administration record: opcode 0, line 1, operands A 4 and B 5. -/
def OperandsRefused (r : List Byte) : Prop :=
  (7 < (byteAt r 1).toNat
      ∧ ((5 ≤ (byteAt r 0).toNat ∧ (byteAt r 0).toNat ≤ 11) ∨ byteAt r 0 = 13#8
          ∨ (byteAt r 0 = 12#8 ∧ byteAt r 5 = 1#8)))
    ∨ ((byteAt r 0 = 7#8 ∨ byteAt r 0 = 10#8 ∨ byteAt r 0 = 11#8 ∨ byteAt r 0 = 13#8) ∧ 2 ≤ (byteAt r 5).toNat)
    ∨ ((byteAt r 0 = 9#8 ∨ byteAt r 0 = 12#8) ∧ 3 ≤ (byteAt r 5).toNat)
    ∨ (byteAt r 0 = 10#8 ∧ (240 ≤ (byteAt r 4).toNat ∨ (byteAt r 5 = 0#8 ∧ byteAt r 4 = 0#8)))

/-- R126, R172: every field of a line parameter block lies in its range, and a MONITOR line has a buffer queue. -/
def LineBlockInRange (b : List Byte) : Prop :=
  (byteAt b 0).toNat ≤ 1 ∧ (byteAt b 1).toNat ≤ 2 ∧ (byteAt b 2 = 1#8 ∨ byteAt b 2 = 2#8) ∧ (byteAt b 3).toNat ≤ 1
    ∧ 16 ≤ (half b 4).toNat ∧ (byteAt b 6 = 0#8 ∨ 16 ≤ (byteAt b 6).toNat)
    ∧ (byteAt b 7).toNat ≤ 31 ∧ (byteAt b 8).toNat ≤ 31 ∧ (byteAt b 9).toNat ≤ 7 ∧ 1 ≤ (half b 10).toNat
    ∧ (half b 12).toNat ≤ 1023 ∧ (1 ≤ (byteAt b 14).toNat ∧ (byteAt b 14).toNat ≤ 15)
    ∧ (1 ≤ (byteAt b 15).toNat ∧ (byteAt b 15).toNat ≤ 15) ∧ 1 ≤ (half b 16).toNat ∧ 1 ≤ (half b 18).toNat
    ∧ (1 ≤ (byteAt b 24).toNat ∧ (byteAt b 24).toNat ≤ 15) ∧ (byteAt b 25).toNat ≤ 8 ∧ (byteAt b 27).toNat ≤ 1
    ∧ (byteAt b 27 = 1#8 →
        (word b 28).toNat % 8 = 0 ∧ 4 ≤ (half b 32).toNat ∧ (half b 32).toNat ≤ 256)
    ∧ (byteAt b 0 = 1#8 → byteAt b 27 = 1#8)

/-- R4, R18, R127: the parameters CONFIGURE_LINE stores from a block whose line CQ is `cq`. -/
def storedParameters (b : List Byte) (cq : CqId) : LineConfig :=
  { mode := if byteAt b 0 = 1#8 then .monitor else .master
    parity := if byteAt b 1 = 0#8 then .none else if byteAt b 1 = 1#8 then .even else .odd
    twoStops := decide (byteAt b 2 = 2#8), echo := decide (byteAt b 3 = 1#8), divider := (half b 4).toNat
    gap := if byteAt b 6 = 0#8 then 28 else (byteAt b 6).toNat
    lead := (byteAt b 7).toNat, hold := (byteAt b 8).toNat, retryLimit := (byteAt b 9).toNat
    window := (half b 10).toNat, retryDelay := (half b 12).toNat, contentionLimit := (byteAt b 14).toNat
    waitLimit := (byteAt b 15).toNat, holdOff := (half b 16).toNat, probe := (half b 18).toNat
    readyTimeout := (half b 20).toNat, settle := (half b 22).toNat, silentThreshold := (byteAt b 24).toNat
    pollReserve := (byteAt b 25).toNat, lineCq := cq
    bufferQueue := if byteAt b 27 = 1#8 then some (word b 28, (half b 32).toNat) else none }

/-- R93, R173: every field of a poll entry block lies in its range. -/
def PollBlockInRange (b : List Byte) : Prop :=
  1 ≤ (byteAt b 0).toNat ∧ (byteAt b 0).toNat ≤ 239 ∧ (byteAt b 1).toNat ≤ 31 ∧ (byteAt b 2).toNat ≤ 16
    ∧ (byteAt b 3).toNat ≤ 1 ∧ 1 ≤ (half b 4).toNat ∧ (byteAt b 9).toNat ≤ 7

/-- R46, R166: a submission record of kind EXCHANGE is malformed on a line with or without a buffer queue: station,
length, inline length, retry limit, reply to a buffer queue that is not there, function, or a flag bit not in use. -/
def RecordMalformed (r : List Byte) (bq : Option Bq) : Prop :=
  240 ≤ (byteAt r 4).toNat ∨ 200 < (byteAt r 6).toNat ∨ ((byteAt r 1).getLsbD 0 = true ∧ 16 < (byteAt r 6).toNat)
    ∨ 8 < (byteAt r 7).toNat ∨ ((byteAt r 1).getLsbD 1 = true ∧ bq = none) ∨ 32 ≤ (byteAt r 5).toNat
    ∨ 8 ≤ (byteAt r 1).toNat

/-! ## Station entries (file 04) -/

/-- R76, R77: the entry of an address can be obtained: it is there, an entry is empty, or one is not pinned. -/
def Obtainable (l : Line) (addr : Byte) : Prop :=
  (∃ e, l.entry addr = some e) ∨ (∃ j : StationIdx, l.stations[j] = none)
    ∨ ∃ (j : StationIdx) (e : StationEntry), l.stations[j] = some e ∧ l.pins e.address = 0

/-- R76 to R78: the table `m` is that of `l` with the entry of an address obtained at the time `now`. An entry found
has its last-used time set where the use sets it (`touch`); otherwise a new entry takes the lowest empty place, or
where none is empty that of the unpinned entry used longest ago, the lowest among equals. -/
def Obtained (l : Line) (addr : Byte) (now : Word) (touch : Bool) (m : Vector (Option StationEntry) 64) : Prop :=
  (∀ e, l.entry addr = some e →
      if touch then ∃ j : StationIdx, l.stations[j] = some e ∧ e.address = addr
        ∧ m = l.stations.set j (some { e with lastUsed := now })
      else m = l.stations)
    ∧ (l.entry addr = none → ∃ j : StationIdx,
        m = l.stations.set j (some
          { address := addr, health := .unknown, failures := 0, seq := false, lastUsed := now, lastSuccess := none
            exchangesOk := 0, exchangesFailed := 0 })
        ∧ ((l.stations[j] = none ∧ ∀ k, k < j → l.stations[k] ≠ none)
            ∨ ((∀ k : StationIdx, l.stations[k] ≠ none)
                ∧ ∃ e, l.stations[j] = some e ∧ l.pins e.address = 0
                  ∧ ∀ (k : StationIdx) (f : StationEntry), l.stations[k] = some f → l.pins f.address = 0 →
                      (now - f.lastUsed).toNat < (now - e.lastUsed).toNat
                        ∨ ((now - f.lastUsed).toNat = (now - e.lastUsed).toNat ∧ j ≤ k))))

/-! ## Laws of the state -/

/-- R29: DE is asserted exactly in LEAD, SEND and HOLD, and only on a MASTER line in READY or DRAINING. -/
def Line.deLawful (l : Line) : Prop :=
  l.tx.de = l.tx.sending
    ∧ (l.tx.de = true → (l.state = .ready ∨ l.state = .draining) ∧ ∃ cfg, l.config = some cfg ∧ cfg.mode = .master)

def State.deLawful (s : State) : Prop := ∀ n, (s.line n).deLawful

/-- R155: the unacknowledged count, which no posting outruns, never exceeds the size. -/
def cqWithinSize : Option Cq → Prop
  | some q => q.unacked ≤ q.size
  | none => True

def State.cqsWithinSize (s : State) : Prop := ∀ i : CqId, cqWithinSize s.cqs[i]

/-- R163: the notice holding list has 8 places, and the lost count stops at 255. -/
def State.noticesBounded (s : State) : Prop := s.admin.notices.length ≤ 8 ∧ s.admin.noticeLost ≤ 255

/-- R74: the failure count lies between 0 and the threshold, and the health is the one the count has. -/
def StationEntry.lawful (threshold : Nat) (e : StationEntry) : Prop :=
  e.failures ≤ threshold ∧ (e.health = .silent ↔ e.failures = threshold)
    ∧ (e.health = .suspect ↔ 1 ≤ e.failures ∧ e.failures < threshold)

def stationLawful (threshold : Nat) : Option StationEntry → Prop
  | some e => e.lawful threshold
  | none => True

def Line.stationsLawful (l : Line) : Prop :=
  ∀ cfg, l.config = some cfg →
    1 ≤ cfg.silentThreshold ∧ ∀ i : StationIdx, stationLawful cfg.silentThreshold l.stations[i]

def State.stationsLawful (s : State) : Prop := ∀ n, (s.line n).stationsLawful

/-- R6: a block keeps at most 205 characters and counts at most 65535. -/
def blockBounded : Option RxBlock → Prop
  | some b => b.chars.length ≤ 205 ∧ b.count ≤ 65535
  | none => True

/-- R74: the counts of a station entry stop at 65535. -/
def stationBounded : Option StationEntry → Prop
  | some e => e.exchangesOk ≤ 65535 ∧ e.exchangesFailed ≤ 65535
  | none => True

/-- R91: the suppressed count stops at 255 and the skip count at 65535. -/
def pollBounded : Option PollEntry → Prop
  | some p => p.suppressed ≤ 255 ∧ p.skips ≤ 65535
  | none => True

/-- R6, R74, R91, R111, R132, R191: the bounds of a line's lists and counts. -/
def Line.bounded (l : Line) : Prop :=
  blockBounded l.rx.block ∧ l.mon.list.length ≤ 4 ∧ l.mon.lost ≤ 255 ∧ l.pollLost ≤ 255 ∧ l.stopEnded ≤ 65535
    ∧ blockBounded (l.rx.early.map Prod.fst) ∧ (∀ i : StationIdx, stationBounded l.stations[i])
    ∧ (∀ e : PollId, pollBounded (l.poll e)) ∧ ∀ k ∈ l.counters.list, k ≤ 4294967295

def State.linesBounded (s : State) : Prop := ∀ n, (s.line n).bounded

/-- R156: the discard count of a CQ stops at the maximum of 32 bits. -/
def State.discardsBounded (s : State) : Prop := ∀ (i : CqId) (q : Cq), s.cqs[i] = some q → q.discards ≤ 4294967295

/-- Host memory is in its one canonical form. -/
def State.memCanonical (s : State) : Prop := Memory.wf s.mem = true

/-! ## Transfers -/

/-- The command that takes the end of a transfer, by what the transfer is for. -/
def TransferUse.taker : TransferUse → Instr
  | .sqFetch _ _ _ => .fetchComplete
  | .descriptor _ => .descriptorReadComplete
  | .staleDescriptor => .descriptorReadComplete
  | .adminFetch => .adminFetchComplete
  | .blockRead => .parameterBlockReadDone
  | .resultWrite => .resultWriteDone
  | .completion _ _ => .completionWriteDone
  | .requestData _ _ => .requestDataReadDone
  | .payload _ _ => .payloadWriteDone
  | .monitorData _ => .monitorDataWriteDone

end Sys2Proof.Machine
end

