-- ==== Sys2Proof/Certificates/Slice0/Obligations.lean ====
section
/-! DEFINITION. The statements about the KM840, each formalising what its docstring cites. A command is said to
complete by the next state `exec` answers; every field a statement does not name in an updated state is as before. -/

open Sys2Proof Sys2Proof.Machine

/-! ## The queue of commands -/

/-- The machine's own step (log entries 1 and 2): the command at the front of the queue runs, with the rest of the queue
behind it. With no command waiting one REFCLK period passes, unless RESET_N is asserted: the timebase and the remainder
it carries stand still in STOPPED and otherwise advance by the microsecond that has filled (R202); on each configured
line the ages of a character, of one waiting for its nominal end and of a transmission advance (R16), and the gap timer
counts while the receiver hunts, RXD is at mark and the transmitter is not in LEAD or SEND, stops at 65535 bit times and
is 0 at a nominal end (R21, R24; log entry 24). -/
def Obligations.StepRunsTheFrontCommand : Prop :=
  (∀ (c : Instr) (s : State), step { s with pending := c :: s.pending } = exec c s)
    ∧ ∀ s : State, s.pending = [] → (s.held = true → step s = .next s)
      ∧ (s.held = false → ∃ t, step s = .next t
        ∧ t = { s with lines := t.lines, timebase := t.timebase, fraction := t.fraction }
        ∧ (s.part = .stopped → t.timebase = s.timebase ∧ t.fraction = s.fraction)
        ∧ (s.part ≠ .stopped → ∀ khz, khz = s.adminSize.toNat / 65536 →
            (khz ≤ s.fraction + 1000 →
              t.timebase = s.timebase + 1 ∧ t.fraction = s.fraction + 1000 - khz)
            ∧ (s.fraction + 1000 < khz → t.timebase = s.timebase ∧ t.fraction = s.fraction + 1000))
        ∧ ∀ (n : LineId) (l : Line), s.line n = l → (l.config = none → t.line n = l)
          ∧ ∀ (cfg : LineConfig) (ends counts : Prop), l.config = some cfg →
              (ends ↔ ∃ a, l.rx.tail = some a ∧ a + 1 = cfg.charTime * cfg.divider) →
              (counts ↔ l.rx.state = .hunting ∧ l.rx.mark = true ∧ l.tx.phase ≠ .lead ∧ l.tx.phase ≠ .send) →
              { t.line n with rx := l.rx, tx := l.tx } = l
              ∧ (t.line n).tx = { l.tx with age := l.tx.age
                  + (if l.tx.phase = .lead ∨ l.tx.phase = .send ∨ l.tx.phase = .hold then 1 else 0) }
              ∧ { (t.line n).rx with age := l.rx.age, tail := l.rx.tail, gap := l.rx.gap, idle := l.rx.idle } = l.rx
              ∧ (t.line n).rx.age = l.rx.age.map (· + 1)
              ∧ (ends → (t.line n).rx.tail = none ∧ (t.line n).rx.gap = 0)
              ∧ (¬ends → (t.line n).rx.tail = l.rx.tail.map (· + 1))
              ∧ (¬ends → counts → (t.line n).rx.gap = min (l.rx.gap + 1) (65535 * cfg.divider))
              ∧ (¬ends → ¬counts → (t.line n).rx.gap = l.rx.gap)
              ∧ ((t.line n).rx.idle = true ↔
                  l.rx.idle = true ∨ (counts ∧ cfg.gap * cfg.divider ≤ (t.line n).rx.gap)))

/-- File 11 (R192 to R202) and R125, R142, R176: what the host finds right after reset. The levels of the inputs (log
entry 6) and host memory (log entry 5) are the model's choice and are not named. -/
def Obligations.ResetLeavesThePartStopped : Prop :=
  State.reset.part = .stopped ∧ State.reset.statusWord = 0 ∧ State.reset.controlWord = 0
    ∧ State.reset.readRegister 0 = 0x1D784001 ∧ State.reset.intPending = 0 ∧ State.reset.intN = true
    ∧ State.reset.asqBase = 0 ∧ State.reset.acqBase = 0 ∧ State.reset.adminSize = 0 ∧ State.reset.timebase = 0
    ∧ BlocksReset State.reset State.reset ∧ State.reset.port.position = 0 ∧ State.reset.held = false
    ∧ State.reset.pending = []

/-! ## Resets and registers (file 11) -/

/-- R199: power-on holds the part with every block at its reset values and the setup registers 0; at the release the
part is STOPPED with those values, and while it is held the target port answers no access. -/
def Obligations.PowerOnHoldsUntilRelease : Prop :=
  (∀ s : State, ∃ t, exec .powerOn s = .next t ∧ t.held = true ∧ BlocksReset s t ∧ t.part = .stopped
    ∧ t.statusWord = 0 ∧ t.controlWord = 0 ∧ t.asqBase = 0 ∧ t.acqBase = 0 ∧ t.adminSize = 0 ∧ t.timebase = 0
    ∧ t.port.position = 0 ∧ t.intN = true ∧ SameHost s t)
  ∧ (∀ s : State, s.held = true → ∃ t, exec .resetNRelease s = .next t ∧ t.held = false ∧ BlocksReset s t
    ∧ t.part = .stopped ∧ t.statusWord = 0 ∧ t.controlWord = 0 ∧ t.asqBase = 0 ∧ t.acqBase = 0 ∧ t.adminSize = 0
    ∧ t.timebase = 0 ∧ t.port.position = 0 ∧ SameHost s t)
  ∧ ∀ s : State, s.held = true →
      (∀ r i, exec (.softReset r i) s = .next s) ∧ (∀ i, exec (.run i) s = .next s)
      ∧ (∀ i, exec (.runClear i) s = .next s) ∧ (∀ r i, exec (.intEnable r i) s = .next s)
      ∧ (∀ r v, exec (.adminSetupWrite r v) s = .next s) ∧ (∀ k v, exec (.postSq k v) s = .next s)
      ∧ (∀ k v, exec (.postBq k v) s = .next s) ∧ (∀ k v, exec (.ack k v) s = .next s)
      ∧ exec .statusRead s = .next s ∧ ∀ a, exec (.registerWrite a) s = .next s

/-- R197: a soft reset, in any part state and whatever the other bits of the write, leaves the part STOPPED with every
block at its reset values, STATUS, CONTROL and the timebase 0, and the admin setup registers and the memory port's
position as they were. -/
def Obligations.SoftResetClearsThePart : Prop :=
  ∀ (s : State) (runBit intBit : Bool), s.held = false →
    ∃ t, exec (.softReset runBit intBit) s = .next t ∧ BlocksReset s t ∧ t.part = .stopped ∧ t.statusWord = 0
      ∧ t.controlWord = 0 ∧ t.timebase = 0 ∧ t.asqBase = s.asqBase ∧ t.acqBase = s.acqBase
      ∧ t.adminSize = s.adminSize ∧ t.port.position = s.port.position ∧ t.held = false ∧ SameHost s t

/-- R193, R194, R143: RUN written 1 in STOPPED with a valid setup makes the part RUNNING, and the admin SQ and admin CQ
come into existence with the stored bases and sizes. -/
def Obligations.RunStartsThePart : Prop :=
  ∀ (s : State) (intBit : Bool), s.held = false → s.part = .stopped →
    s.asqBase.toNat % 32 = 0 → s.acqBase.toNat % 32 = 0 →
    4 ≤ s.adminSize.toNat % 256 → s.adminSize.toNat % 256 ≤ 64 →
    4 ≤ s.adminSize.toNat / 256 % 256 → s.adminSize.toNat / 256 % 256 ≤ 64 →
    8000 ≤ s.adminSize.toNat / 65536 → s.adminSize.toNat / 65536 ≤ 40000 →
    exec (.run intBit) s = .next
      { s with
        part := .running, intEnable := intBit, answer := .written
        sqs := s.sqs.set 0 (some { base := s.asqBase, size := s.adminSize.toNat % 256, head := 0, tail := 0
                                   state := .active, binding := none })
        cqs := s.cqs.set 0 (some { base := s.acqBase, size := s.adminSize.toNat / 256 % 256, head := 0, tail := 0
                                   state := .active, phase := true, unacked := 0, waiters := [], threshold := 1
                                   delay := 0, intEnable := true, pending := false, timer := none, discards := 0 }) }

/-- R193: every other CONTROL write with SOFT_RESET clear sets INT_ENABLE and records at most a host error; a write with
INT_ENABLE acts as the RUN bit it carries does. -/
def Obligations.ControlWriteSetsIntEnable : Prop :=
  ∀ (s : State) (intBit : Bool), s.held = false →
    (s.part = .stopped → s.setupValid = false → exec (.run intBit) s = .next
        { s with intEnable := intBit, answer := .written, hostError := .badAdminSetup })
    ∧ (s.part ≠ .stopped → exec (.run intBit) s = .next { s with intEnable := intBit, answer := .written })
    ∧ (s.part = .running → exec (.runClear intBit) s = .next
        { s with intEnable := intBit, answer := .written, hostError := .runClearIgnored })
    ∧ (s.part ≠ .running → exec (.runClear intBit) s = .next { s with intEnable := intBit, answer := .written })
    ∧ (s.part = .halted → ∀ r, exec (.intEnable r intBit) s = .next { s with intEnable := intBit, answer := .written })
    ∧ (s.part = .running → exec (.intEnable true intBit) s = .next { s with intEnable := intBit, answer := .written })
    ∧ (s.part = .stopped → exec (.intEnable false intBit) s = .next { s with intEnable := intBit, answer := .written })
    ∧ exec (.intEnable true intBit) s = exec (.run intBit) s
    ∧ exec (.intEnable false intBit) s = exec (.runClear intBit) s

/-- R194: a write to an admin setup register is stored in STOPPED, and ignored with SETUP_LOCKED in RUNNING and
HALTED. -/
def Obligations.SetupWriteStoredOnlyInStopped : Prop :=
  ∀ (s : State) (v : Word), s.held = false →
    (s.part = .stopped →
      exec (.adminSetupWrite .asqBase v) s = .next { s with answer := .written, asqBase := v }
      ∧ exec (.adminSetupWrite .acqBase v) s = .next { s with answer := .written, acqBase := v }
      ∧ exec (.adminSetupWrite .adminSize v) s = .next { s with answer := .written, adminSize := v })
    ∧ (s.part ≠ .stopped → ∀ r, exec (.adminSetupWrite r v) s = .next
        { s with answer := .written, hostError := .setupLocked })

/-- R145, R195: a POST naming an SQ or a BQ that exists sets its tail when the index checks pass, is ignored silently
for a DELETING SQ, and otherwise records BAD_INDEX. -/
def Obligations.PostChecksTheTail : Prop :=
  (∀ (s : State) (i : SqId) (q : Sq) (tail : BitVec 9), s.held = false → s.part = .running → s.sqs[i] = some q →
    exec (.postSq (BitVec.ofNat 5 i.val) tail) s = .next
      (if q.state = .deleting then { s with answer := .written }
       else if tail.toNat < q.size
           ∧ (tail.toNat + q.size - q.tail) % q.size + (q.tail + q.size - q.head) % q.size < q.size then
         { s with answer := .written, sqs := s.sqs.set i (some { q with tail := tail.toNat }) }
       else { s with answer := .written, hostError := .badIndex }))
  ∧ (∀ (s : State) (k : BitVec 5) (tail : BitVec 9), s.held = false →
      (s.part ≠ .running ∨ ∀ i : SqId, i.val = k.toNat → s.sqs[i] = none) →
      exec (.postSq k tail) s = .next { s with answer := .written, hostError := .badIndex })
  ∧ (∀ (s : State) (n : LineId) (q : Bq) (tail : BitVec 9), s.held = false → s.part = .running → s.bqs[n] = some q →
    exec (.postBq (BitVec.ofNat 5 n.val) tail) s = .next
      (if tail.toNat < q.size
           ∧ (tail.toNat + q.size - q.tail) % q.size + (q.tail + q.size - q.head) % q.size < q.size then
         { s with answer := .written, bqs := s.bqs.set n (some { q with tail := tail.toNat }) }
       else { s with answer := .written, hostError := .badIndex }))
  ∧ ∀ (s : State) (k : BitVec 5) (tail : BitVec 9), s.held = false →
      (s.part ≠ .running ∨ ∀ n : LineId, n.val = k.toNat → s.bqs[n] = none) →
      exec (.postBq k tail) s = .next { s with answer := .written, hostError := .badIndex }

/-- R146, R158: an ACK sets the head, lowers the unacknowledged count by the entries released, and acts on the pending
flag and delay timer by the count it leaves. -/
def Obligations.AckReleasesEntries : Prop :=
  (∀ (s : State) (i : CqId) (q : Cq) (head : BitVec 9), s.held = false → s.part = .running → s.cqs[i] = some q →
    ∀ released, released = (head.toNat + q.size - q.head) % q.size →
    exec (.ack (BitVec.ofNat 4 i.val) head) s = .next
      (if head.toNat < q.size ∧ released ≤ q.unacked then
         { s with
           answer := .written
           cqs := s.cqs.set i (some
             (if q.unacked = released then
                { q with head := head.toNat, unacked := 0, pending := false, timer := none }
              else if q.threshold ≤ q.unacked - released then
                { q with head := head.toNat, unacked := q.unacked - released }
              else
                { q with head := head.toNat, unacked := q.unacked - released, pending := false
                         timer := if q.delay = 0 then none else some (s.timebase + BitVec.ofNat 32 q.delay) })) }
       else { s with answer := .written, hostError := .badIndex }))
  ∧ ∀ (s : State) (k : BitVec 4) (head : BitVec 9), s.held = false →
      (s.part ≠ .running ∨ ∀ i : CqId, i.val = k.toNat → s.cqs[i] = none) →
      exec (.ack k head) s = .next { s with answer := .written, hostError := .badIndex }

/-- R195: a read of STATUS returns the part state, the halt cause and the host error code, and sets the host error code
to NONE in the same act; the fields stand where the register map puts them. -/
def Obligations.StatusReadClearsHostError : Prop :=
  ∀ s : State, s.held = false → ∃ v,
    exec .statusRead s = .next { s with answer := .read v, hostError := .none }
    ∧ v.toNat % 4 = s.part.code ∧ v.toNat / 4 % 4 = s.haltCause.code ∧ v.toNat / 16 % 16 = 0
    ∧ v.toNat / 256 % 16 = s.hostError.code ∧ v.toNat / 4096 = 0

/-- R192 to R196: a partial or misaligned access is answered with an error response, a write to a read-only register is
ignored without a host error, a read of POST or ACK returns 0 and every other read its register's value, and a whole
write to CONTROL, an admin setup register, POST or ACK does what its fields say. -/
def Obligations.TargetPortAnswersEveryAccess : Prop :=
  ∀ (s : State) (a : RegAccess), s.held = false → a.offset < 36 →
    ((a.enables ≠ 0xF#4 ∨ a.offset % 4 ≠ 0) → exec (.registerWrite a) s = .next { s with answer := .error })
    ∧ (a.enables = 0xF#4 → a.write = true → a.offset = 0 ∨ a.offset = 8 ∨ a.offset = 32 →
        exec (.registerWrite a) s = .next { s with answer := .written })
    ∧ (a.enables = 0xF#4 → a.write = false → a.offset = 24 ∨ a.offset = 28 →
        exec (.registerWrite a) s = .next { s with answer := .read 0 })
    ∧ (a.enables = 0xF#4 → a.write = false → a.offset = 0 →
        exec (.registerWrite a) s = .next { s with answer := .read 0x1D784001 })
    ∧ (a.enables = 0xF#4 → a.write = false → a.offset = 8 → exec (.registerWrite a) s = exec .statusRead s)
    ∧ (a.enables = 0xF#4 → a.write = false → a.offset = 4 → exec (.registerWrite a) s = .next
        { s with answer := .read (if s.part = .running then (if s.intEnable then 5 else 1)
                                  else if s.intEnable then 4 else 0) })
    ∧ (a.enables = 0xF#4 → a.write = false → a.offset = 12 →
        exec (.registerWrite a) s = .next { s with answer := .read s.asqBase })
    ∧ (a.enables = 0xF#4 → a.write = false → a.offset = 16 →
        exec (.registerWrite a) s = .next { s with answer := .read s.acqBase })
    ∧ (a.enables = 0xF#4 → a.write = false → a.offset = 20 →
        exec (.registerWrite a) s = .next { s with answer := .read s.adminSize })
    ∧ (a.enables = 0xF#4 → a.write = false → a.offset = 32 → ∃ v,
        exec (.registerWrite a) s = .next { s with answer := .read v }
        ∧ (∀ i : CqId, v.getLsbD i.val = true ↔ ∃ q, s.cqs[i] = some q ∧ q.pending = true)
        ∧ ∀ k, 9 ≤ k → v.getLsbD k = false)
    ∧ (a.enables = 0xF#4 → a.write = true → a.offset = 12 →
        exec (.registerWrite a) s = exec (.adminSetupWrite .asqBase a.data) s)
    ∧ (a.enables = 0xF#4 → a.write = true → a.offset = 16 →
        exec (.registerWrite a) s = exec (.adminSetupWrite .acqBase a.data) s)
    ∧ (a.enables = 0xF#4 → a.write = true → a.offset = 20 →
        exec (.registerWrite a) s = exec (.adminSetupWrite .adminSize a.data) s)
    ∧ (a.enables = 0xF#4 → a.write = true → a.offset = 28 →
        exec (.registerWrite a) s = exec (.ack (a.data.extractLsb' 16 4) (a.data.extractLsb' 0 9)) s)
    ∧ (a.enables = 0xF#4 → a.write = true → a.offset = 24 → a.data.extractLsb' 24 2 = 0#2 →
        exec (.registerWrite a) s = exec (.postSq (a.data.extractLsb' 16 5) (a.data.extractLsb' 0 9)) s)
    ∧ (a.enables = 0xF#4 → a.write = true → a.offset = 24 → a.data.extractLsb' 24 2 = 1#2 →
        exec (.registerWrite a) s = exec (.postBq (a.data.extractLsb' 16 5) (a.data.extractLsb' 0 9)) s)
    ∧ (a.enables = 0xF#4 → a.write = true → a.offset = 24 → 2 ≤ (a.data.extractLsb' 24 2).toNat →
        exec (.registerWrite a) s = .next { s with answer := .written, hostError := .badIndex })
    ∧ (a.enables = 0xF#4 → a.write = true → a.offset = 4 → a.data.getLsbD 1 = true →
        exec (.registerWrite a) s = exec (.softReset (a.data.getLsbD 0) (a.data.getLsbD 2)) s)
    ∧ (a.enables = 0xF#4 → a.write = true → a.offset = 4 → a.data.getLsbD 1 = false →
        exec (.registerWrite a) s = exec (.intEnable (a.data.getLsbD 0) (a.data.getLsbD 2)) s)

/-- R159, R196: INT is asserted exactly while INT_ENABLE is set and an existing CQ has both its interrupt enable and its
pending flag set; INT_PENDING shows the pending flag of every CQ, and the flag of one that does not exist as clear. -/
def Obligations.IntFollowsPendingFlags : Prop :=
  ∀ s : State,
    (s.int = true ↔ s.intEnable = true
      ∧ ∃ (i : CqId) (q : Cq), s.cqs[i] = some q ∧ q.intEnable = true ∧ q.pending = true)
    ∧ (∀ i : CqId, s.intPending.getLsbD i.val = true ↔ ∃ q, s.cqs[i] = some q ∧ q.pending = true)
    ∧ ∀ k, 9 ≤ k → s.intPending.getLsbD k = false

/-! ## Memory port (file 11) -/

/-- R200, R201: with the port free and a transfer waiting, the next requester above the position is granted and its
oldest transfer carried; no other requester's transfers change. A read leaves host memory as the host's stores made it
and gives its bytes; a write that completes leaves its bytes there and every other byte as it was. The host's stores as
an operand, the whole transfer at its grant, addresses going on at 0 past the last one, and a faulting beat that stores
nothing are log entries 8, 9, 7 and 38.
With the port taken, no transfer waiting or the part held, the host's stores are all that happens. -/
def Obligations.PortGrantIsRoundRobin : Prop :=
  (∀ (s : State) (stores : List (Nat × Byte)) (answer : BusAnswer) (before : List Host.Cell), s.held = false →
    s.port.current = none → (∃ r : ReqId, s.port.queues[r] ≠ []) → before = Memory.hostStores s.mem stores →
    ∃ (r : ReqId) (x : Transfer) (rest : List Transfer) (u : UnderWay) (mem : List Host.Cell),
      s.port.queues[r] = x :: rest
      ∧ (∀ q : ReqId, s.port.queues[q] ≠ [] →
          (r.val + 9 - s.port.position.val) % 10 ≤ (q.val + 9 - s.port.position.val) % 10)
      ∧ exec (.portGrant stores answer) s = .next
          { s with mem := mem, port := { queues := s.port.queues.set r rest, current := some u, position := r } }
      ∧ u.requester = r ∧ u.transfer = x
      ∧ (∀ n, x.kind = .read n → mem = before
          ∧ (answer = .completes → u.outcome = .done (Memory.readBytes before x.addr n)))
      ∧ (∀ bytes, x.kind = .write bytes →
          mem = Memory.writeBytes before x.addr (bytes.take (answerBytes answer x))
          ∧ (answer = .completes → u.outcome = .done [] ∧ mem = Memory.writeBytes before x.addr bytes
              ∧ (Memory.wf s.mem = true → bytes.length ≤ 256 →
                  (∀ j, j < bytes.length → Memory.read mem ((x.addr.toNat + j) % 2 ^ 32) = byteAt bytes j)
                  ∧ ∀ a, (∀ j, j < bytes.length → a ≠ (x.addr.toNat + j) % 2 ^ 32) →
                      Memory.read mem a = Memory.read before a)))
      ∧ ∀ beat, 1 ≤ x.kind.length → 4 * beat < x.addr.toNat % 4 + x.kind.length →
          (answer = .errorAt beat → u.outcome = .fault)
          ∧ (answer = .silentAt beat → u.outcome = .unanswered s.timebase))
  ∧ ∀ (s : State) (stores : List (Nat × Byte)) (answer : BusAnswer),
      (s.held = true ∨ s.port.current ≠ none ∨ ∀ r : ReqId, s.port.queues[r] = []) →
      exec (.portGrant stores answer) s = .next { s with mem := Memory.hostStores s.mem stores }

/-- R200: the beats before the one that faults have taken effect and later ones have not: beat k of a write carries the
bytes of its aligned word, and every other byte of host memory stays as it was. That the bytes of the faulting beat
itself stay is log entry 38, that addresses go on at 0 past the last one log entry 7, and that the beats are all made at
the grant log entry 9: the model's choices. -/
def Obligations.FaultedWriteStopsAtItsBeat : Prop :=
  ∀ (s : State) (r : ReqId) (addr : Word) (bytes : List Byte) (use : TransferUse) (rest : List Transfer) (beat : Nat),
    s.held = false → s.port.current = none → Memory.wf s.mem = true → bytes.length ≤ 256 →
    s.port.queues[r] = { addr := addr, kind := .write bytes, use := use } :: rest →
    (∀ q : ReqId, q ≠ r → s.port.queues[q] = []) →
    ∃ t, exec (.portGrant [] (.errorAt beat)) s = .next t
      ∧ (∀ j, j < bytes.length → addr.toNat % 4 + j < 4 * beat →
          Memory.read t.mem ((addr.toNat + j) % 2 ^ 32) = byteAt bytes j)
      ∧ (∀ a, (∀ j, j < bytes.length → addr.toNat % 4 + j < 4 * beat → a ≠ (addr.toNat + j) % 2 ^ 32) →
          Memory.read t.mem a = Memory.read s.mem a)
      ∧ (1 ≤ bytes.length → 4 * beat < addr.toNat % 4 + bytes.length → ∃ u, t.port.current = some u ∧ u.outcome = .fault)

/-- R200: a beat unanswered for 64 µs on the timebase is a bus fault: it does what the completion command of the
transfer does on an error response. Before that nothing happens. -/
def Obligations.BeatTimeoutIsABusFault : Prop :=
  ∀ (s : State) (u : UnderWay) (since : Word), s.port.current = some u → u.outcome = .unanswered since →
    ((s.timebase - (since + 64)).toNat < 2 ^ 31 →
      ∃ t, exec .beatTimeout s = .next t
        ∧ exec u.transfer.use.taker { s with port := { s.port with current := some { u with outcome := .fault } } } = .next t)
    ∧ (2 ^ 31 ≤ (s.timebase - (since + 64)).toNat → exec .beatTimeout s = .next s)

/-! ## The admin unit (file 10) -/

/-- R150, R177: in IDLE, with records in the admin SQ and fewer than four pending entries, the admin unit issues a read
of the record at the admin SQ's head and enters FETCHING; where one of these does not hold nothing happens. -/
def Obligations.AdminFetchStartsInIdle : Prop :=
  ∀ (s : State) (q : Sq), s.sqs[(0 : SqId)] = some q →
    (s.part = .running → s.admin.phase = .idle → s.admin.pendingList.length < 4 →
      1 ≤ (q.tail + q.size - q.head) % q.size →
      exec .adminFetchStart s = .next
        { s with
          admin := { s.admin with phase := .fetching }
          port := { s.port with queues := s.port.queues.set 1 (s.port.queues[(1 : ReqId)] ++
            [{ addr := q.base + BitVec.ofNat 32 (32 * q.head), kind := .read 32, use := .adminFetch }]) } })
    ∧ ((s.part ≠ .running ∨ s.admin.phase ≠ .idle ∨ 4 ≤ s.admin.pendingList.length
          ∨ (q.tail + q.size - q.head) % q.size = 0) →
        exec .adminFetchStart s = .next s)

/-- R150, R167, R177, R178, R179: when the fetch of an admin record completes the head advances and the record is the
command in hand; CONFIGURE_LINE and SET_POLL then read their parameter block, an operand the admin unit refuses is
answered BAD_PARAMETER, and every other record is ready to be executed. The phase EXECUTING, and the checks of R179 at
the record's arrival, are the model's (log entry 12). -/
def Obligations.AdminFetchTakesTheCommand : Prop :=
  ∀ (s s1 : State) (q : Sq) (c : Cq) (r : List Byte) (h : Hand), s.Ended .adminFetch (some r) →
    s.sqs[(0 : SqId)] = some q → s.cqs[(0 : CqId)] = some c → c.state = .active →
    h = { record := r, block := [], writes := [], resultA := 0, resultB := 0 } →
    s1 = { s with
      port := { s.port with current := none }
      sqs := s.sqs.set 0 (some { q with head := if q.head + 1 < q.size then q.head + 1 else 0 })
      admin := { s.admin with phase := .executing, hand := some h } } →
    ((byteAt r 0 = 5#8 ∨ byteAt r 0 = 8#8) → exec .adminFetchComplete s = .next
        (State.issue { s1 with admin := { s1.admin with phase := .reading } } adminUnit
          { addr := word r 8, kind := .read (if byteAt r 0 = 5#8 then 40 else 32), use := .blockRead }))
    ∧ ((byteAt r 0 = 0#8 ∨ 14 ≤ (byteAt r 0).toNat) → exec .adminFetchComplete s = .next s1)
    ∧ (1 ≤ (byteAt r 0).toNat → (byteAt r 0).toNat ≤ 13 → byteAt r 0 ≠ 5#8 → byteAt r 0 ≠ 8#8 →
        (OperandsRefused r → exec .adminFetchComplete s = .next (s1.answered h c .badParameter 0 0 0))
        ∧ (¬OperandsRefused r → exec .adminFetchComplete s = .next s1))

/-- R162, R198: a bus fault on a transfer of the admin rings halts the part: every block takes its reset values, the
halt cause names the ring, and the registers and the timebase stay. -/
def Obligations.AdminRingFaultHaltsThePart : Prop :=
  (∀ s : State, s.Ended .adminFetch none → ∃ t, exec .adminFetchComplete s = .next t ∧ HaltedFrom s t .adminSq)
  ∧ ∀ (s : State) (q : Cq) (w : Waiter), s.Ended (.completion 0 w) none → s.cqs[(0 : CqId)] = some q →
      ∃ t, exec .completionWriteDone s = .next t ∧ HaltedFrom s t .adminCq

/-- R167, R178, R181: the steps of the command in hand outside its owner block. A parameter block read makes the command
ready, or refuses it; a bus fault on a block read or a result write answers BUS_FAULT with results 0; result writes
follow one another, and the last one answers OK; an unknown opcode is answered BAD_COMMAND. The phase EXECUTING after a
block read is the model's (log entry 12), and each result write issued only after the one before has ended is read from
R174 (log entry 14). -/
def Obligations.CommandStepsOfTheAdminUnit : Prop :=
  ∀ (s : State) (h : Hand) (q : Cq), s.admin.hand = some h → s.cqs[(0 : CqId)] = some q → q.state = .active →
    (∀ b s1, s.Ended .blockRead (some b) →
      s1 = { s with port := { s.port with current := none }
                    admin := { s.admin with phase := .executing, hand := some { h with block := b } } } →
      (OperandsRefused h.record →
        exec .parameterBlockReadDone s = .next (s1.answered { h with block := b } q .badParameter 0 0 0))
      ∧ (¬OperandsRefused h.record → exec .parameterBlockReadDone s = .next s1))
    ∧ (s.Ended .blockRead none →
        exec .parameterBlockReadDone s = .next (s.portFree.answered h q .busFault 0 0 0))
    ∧ (s.Ended .resultWrite none → exec .resultWriteDone s = .next (s.portFree.answered h q .busFault 0 0 0))
    ∧ (∀ d, s.Ended .resultWrite (some d) → h.writes = [] →
        exec .resultWriteDone s = .next (s.portFree.answered h q .ok h.resultA h.resultB 0))
    ∧ (∀ d a b rest, s.Ended .resultWrite (some d) → h.writes = (a, b) :: rest →
        exec .resultWriteDone s = .next
          (State.issue { s.portFree with
              admin := { s.admin with phase := .writing, hand := some { h with writes := rest } } }
            adminUnit { addr := a, kind := .write b, use := .resultWrite }))
    ∧ (s.admin.phase = .executing → byteAt h.record 0 = 0#8 ∨ 14 ≤ (byteAt h.record 0).toNat →
        exec .badCommand s = .next (s.answered h q .badCommand 0 0 0))

/-! ## Queue commands (files 08, 10) -/

/-- R143, R184: CREATE_CQ answers BAD_QUEUE_ID for id 0 or one over 8, QUEUE_EXISTS for a CQ that exists and
BAD_PARAMETER for an operand out of range, in that order; otherwise the CQ comes into existence ACTIVE and empty, with
phase 1 and the moderation given. -/
def Obligations.CreateCqChecksInOrder : Prop :=
  ∀ (s : State) (h : Hand) (q0 : Cq), s.Executing 1 h q0 →
    ((admA h.record = 0 ∨ 8 < admA h.record) →
      exec .createCq s = .next (s.answered h q0 .badQueueId 0 0 0))
    ∧ ∀ i : CqId, i.val = admA h.record → i ≠ 0 →
      (s.cqs[i] ≠ none → exec .createCq s = .next (s.answered h q0 .queueExists 0 0 0))
      ∧ (s.cqs[i] = none →
          (2 ≤ admB h.record ∨ admC h.record = 0 ∨ (admAddr h.record).toNat % 32 ≠ 0 ∨ admSize h.record < 4
            ∨ 256 < admSize h.record) →
          exec .createCq s = .next (s.answered h q0 .badParameter 0 0 0))
      ∧ (s.cqs[i] = none → admB h.record ≤ 1 → 1 ≤ admC h.record → (admAddr h.record).toNat % 32 = 0 →
          4 ≤ admSize h.record → admSize h.record ≤ 256 →
          exec .createCq s = .next
            (State.answered
              { s with cqs := s.cqs.set i (some
                  { base := admAddr h.record, size := admSize h.record, head := 0, tail := 0, state := .active
                    phase := true, unacked := 0, waiters := [], threshold := admC h.record
                    delay := (admD h.record).toNat, intEnable := decide (admB h.record = 1), pending := false
                    timer := none, discards := 0 }) }
              h q0 .ok 0 0 0))

/-- R185: DELETE_CQ removes a CQ that no SQ is bound to and no configured line names, with its discard count in result
A; every other one is refused. -/
def Obligations.DeleteCqRefusesAQueueInUse : Prop :=
  ∀ (s : State) (h : Hand) (q0 : Cq), s.Executing 2 h q0 →
    ((admA h.record = 0 ∨ ∀ i : CqId, i.val = admA h.record → s.cqs[i] = none) →
      exec .deleteCq s = .next (s.answered h q0 .badQueueId 0 0 0))
    ∧ ∀ (i : CqId) (q : Cq), i.val = admA h.record → i ≠ 0 → s.cqs[i] = some q →
      (((∃ (j : SqId) (v : Sq) (b : SqBinding), s.sqs[j] = some v ∧ v.binding = some b ∧ b.cq = i)
          ∨ ∃ (n : LineId) (cfg : LineConfig), (s.line n).config = some cfg ∧ cfg.lineCq = i) →
        exec .deleteCq s = .next (s.answered h q0 .queueInUse 0 0 0))
      ∧ ((∀ (j : SqId) (v : Sq) (b : SqBinding), s.sqs[j] = some v → v.binding = some b → b.cq ≠ i) →
          (∀ (n : LineId) (cfg : LineConfig), (s.line n).config = some cfg → cfg.lineCq ≠ i) →
          exec .deleteCq s = .next (State.answered { s with cqs := s.cqs.set i none } h q0 .ok q.discards 0 0))

/-- R143, R186: CREATE_SQ answers BAD_QUEUE_ID for id 0 or one over 16, QUEUE_IN_USE or QUEUE_EXISTS for an SQ that
exists, BAD_PARAMETER for an operand out of range and BAD_QUEUE_ID for a bound CQ that is not an ACTIVE I/O CQ, in that
order; otherwise the SQ comes into existence ACTIVE and empty, with its line, CQ and priority. -/
def Obligations.CreateSqChecksInOrder : Prop :=
  ∀ (s : State) (h : Hand) (q0 : Cq), s.Executing 3 h q0 →
    ((admA h.record = 0 ∨ 16 < admA h.record) →
      exec .createSq s = .next (s.answered h q0 .badQueueId 0 0 0))
    ∧ ∀ i : SqId, i.val = admA h.record → i ≠ 0 →
      (∀ v, s.sqs[i] = some v → exec .createSq s = .next
          (s.answered h q0 (if v.state = .deleting then .queueInUse else .queueExists) 0 0 0))
      ∧ (s.sqs[i] = none →
          (7 < admLine h.record ∨ 2 ≤ admB h.record ∨ (admAddr h.record).toNat % 32 ≠ 0 ∨ admSize h.record < 4
            ∨ 256 < admSize h.record) →
          exec .createSq s = .next (s.answered h q0 .badParameter 0 0 0))
      ∧ (s.sqs[i] = none → admB h.record ≤ 1 → (admAddr h.record).toNat % 32 = 0 → 4 ≤ admSize h.record →
          admSize h.record ≤ 256 → ∀ n : LineId, n.val = admLine h.record →
          ((admC h.record = 0 ∨ ∀ (k : CqId) (c : Cq), k.val = admC h.record → s.cqs[k] = some c → c.state ≠ .active) →
            exec .createSq s = .next (s.answered h q0 .badQueueId 0 0 0))
          ∧ ∀ (k : CqId) (c : Cq), k.val = admC h.record → k ≠ 0 → s.cqs[k] = some c → c.state = .active →
            exec .createSq s = .next
              (State.answered
                { s with sqs := s.sqs.set i (some
                    { base := admAddr h.record, size := admSize h.record, head := 0, tail := 0, state := .active
                      binding := some { line := n, cq := k
                                        priority := if admB h.record = 1 then .high else .normal } }) }
                h q0 .ok 0 0 0))

/-- R160, R182: DELETE_SQ refuses an SQ that is not there or already DELETING, removes one with no context and no fetch
left and answers its abandoned count, and otherwise waits in the pending list; the deletion is done when the last of
them is gone. -/
def Obligations.DeleteSqWaitsForItsContexts : Prop :=
  (∀ (s : State) (h : Hand) (q0 : Cq), s.Executing 4 h q0 →
    ((admA h.record = 0 ∨ ∀ i : SqId, i.val = admA h.record → s.sqs[i] = none) →
      exec .deleteSq s = .next (s.answered h q0 .badQueueId 0 0 0))
    ∧ ∀ (i : SqId) (q : Sq) (b : SqBinding), i.val = admA h.record → i ≠ 0 → s.sqs[i] = some q → q.binding = some b →
      (q.state = .deleting → exec .deleteSq s = .next (s.answered h q0 .queueInUse 0 0 0))
      ∧ (q.state ≠ .deleting → (∀ j c tag, (s.line b.line).ctx j = some c → c.origin ≠ .host i tag) →
          (s.line b.line).arbiter.inFlight ≠ some i →
          exec .deleteSq s = .next
            (State.answered { s with sqs := s.sqs.set i none } h q0 .ok ((q.tail + q.size - q.head) % q.size) 0 0))
      ∧ (q.state ≠ .deleting → ((∃ j c tag, (s.line b.line).ctx j = some c ∧ c.origin = .host i tag)
            ∨ (s.line b.line).arbiter.inFlight = some i) →
          exec .deleteSq s = .next
            (State.pended { s with sqs := s.sqs.set i (some { q with state := .deleting }) } h (.deleteSq i))))
  ∧ ∀ (s : State) (i : SqId) (q : Sq) (b : SqBinding), s.sqs[i] = some q → q.binding = some b →
      q.state = .deleting →
      (∀ (q0 : Cq) before later e, s.cqs[(0 : CqId)] = some q0 → q0.state = .active →
        s.admin.pendingList = before ++ e :: later → e.work = .deleteSq i → e.finished = false →
        (∀ x ∈ before, x.work ≠ .deleteSq i ∨ x.finished = true) →
        (∀ j c tag, (s.line b.line).ctx j = some c → c.origin ≠ .host i tag) →
        (s.line b.line).arbiter.inFlight ≠ some i →
        exec (.sqDeletionDone i) s = .next
          (State.pendingOver { s with sqs := s.sqs.set i none } before later e q0 ((q.tail + q.size - q.head) % q.size)))
      ∧ (((∃ j c tag, (s.line b.line).ctx j = some c ∧ c.origin = .host i tag)
            ∨ (s.line b.line).arbiter.inFlight = some i) → exec (.sqDeletionDone i) s = .next s)

/-! ## Line, poll, station and filter commands (files 04 to 07, 10) -/

/-- R126, R127, R140, R143, R172: CONFIGURE_LINE answers LINE_BUSY outside OFF, BAD_PARAMETER for a field out of range
and BAD_QUEUE_ID for a line CQ that is not an ACTIVE I/O CQ; accepted, it stores the parameters, empties the line's
tables, clears its counters and lost counts and gives the line the buffer queue named. -/
def Obligations.ConfigureLineStoresTheParameters : Prop :=
  ∀ (s : State) (h : Hand) (q0 : Cq) (n : LineId), s.Executing 5 h q0 → n = admLineId h.record →
    ((s.line n).state ≠ .off → exec .configureLine s = .next (s.answered h q0 .lineBusy 0 0 0))
    ∧ ((s.line n).state = .off → ¬LineBlockInRange h.block →
        exec .configureLine s = .next (s.answered h q0 .badParameter 0 0 0))
    ∧ ((s.line n).state = .off → LineBlockInRange h.block →
        (byteAt h.block 26 = 0#8
          ∨ ∀ (k : CqId) (c : Cq), k.val = (byteAt h.block 26).toNat → s.cqs[k] = some c → c.state ≠ .active) →
        exec .configureLine s = .next (s.answered h q0 .badQueueId 0 0 0))
    ∧ ∀ (k : CqId) (c : Cq), (s.line n).state = .off → LineBlockInRange h.block → k ≠ 0 →
        k.val = (byteAt h.block 26).toNat → s.cqs[k] = some c → c.state = .active →
        exec .configureLine s = .next
          (State.answered
            { s with
              lines := s.lines.set n
                { s.line n with
                  config := some (storedParameters h.block k), counters := {}, pollLost := 0
                  stations := Vector.replicate 64 none, polls := Vector.replicate 32 none
                  mon := { (s.line n).mon with filter := .all, lost := 0 }
                  tx := { (s.line n).tx with de := false } }
              bqs := s.bqs.set n
                (if byteAt h.block 27 = 1#8 then
                   some { base := word h.block 28, size := (half h.block 32).toNat, head := 0, tail := 0
                          state := .active, promises := [], requests := [] }
                 else none) }
            h q0 .ok 0 0 0)

/-- R128: START_LINE moves a configured OFF line to STARTING, with the receiver started where the carrier is present,
every ENABLED poll entry given a new due time, and on a MONITOR line the staged buffer asked for. -/
def Obligations.StartLineMovesToStarting : Prop :=
  ∀ (s : State) (h : Hand) (q0 : Cq) (n : LineId) (l : Line), s.Executing 6 h q0 → n = admLineId h.record →
    s.line n = l →
    (l.config = none → exec .startLine s = .next (s.answered h q0 .notConfigured 0 0 0))
    ∧ (l.config ≠ none → l.state ≠ .off → exec .startLine s = .next (s.answered h q0 .lineBusy 0 0 0))
    ∧ ∀ (cfg : LineConfig) (l1 : Line), l.config = some cfg → l.state = .off →
        l1.state = .starting → l1.rx = (if l.carrier then l.rx.start else l.rx.stop) →
        (∀ e, l1.poll e = match l.poll e with
          | none => none
          | some p => match p.run with
            | .enabled _ => some { p with run := .enabled (s.timebase + BitVec.ofNat 32 (1000 * p.offset)) }
            | .disabled => some p) →
        { l1 with state := l.state, rx := l.rx, polls := l.polls } = l →
        (cfg.mode = .master → exec .startLine s = .next (State.answered (s.setLine n l1) h q0 .ok 0 0 0))
        ∧ (cfg.mode = .monitor → l.mon.list = [] → l.mon.slot = .empty → ∀ q, s.bqs[n] = some q →
            exec .startLine s = .next (State.answered
              (if q.state = .active ∧ q.promises.length < (q.tail + q.size - q.head) % q.size then
                 (s.setLine n { l1 with mon := { l.mon with slot := .requested } }).promise n q .staged
               else
                 (s.setLine n { l1 with mon := { l.mon with slot := .requested } }).setBq n
                   (some { q with requests := q.requests ++ [.staged] }))
              h q0 .ok 0 0 0))

/-- R121, R122, R133, R135, R138, R182: STOP_LINE completes at once on an OFF line and is refused on a DRAINING one;
on any other it moves the line to DRAINING and waits in the pending list, a DRAIN leaving the contexts to run on while
the carrier is present and an IMMEDIATE stop leaving none waiting to be sent. On a MONITOR line with nothing to
deliver a held buffer is handed back by a BUFFER_RETURN, a waiting request is withdrawn and a promised one awaited; a
head block that finds no buffer is dropped and counted. The stop is done when every context is FREE, none is lent and
monitor capture has settled; the line is then OFF and the stop ended count answered. -/
def Obligations.StopLineDrainsToOff : Prop :=
  (∀ (s : State) (h : Hand) (q0 : Cq) (n : LineId) (cfg : LineConfig), s.Executing 7 h q0 → n = admLineId h.record →
    (∀ (l m : Line) (b : Bq) (c : Cq), s.line n = l → l.config = some cfg → cfg.mode = .monitor → l.state ≠ .off →
      l.state ≠ .draining → l.exch.work = [] → s.bqs[n] = some b → s.cqs[cfg.lineCq] = some c → c.state = .active →
      cfg.lineCq ≠ 0 →
      m = { l with state := .draining, stopEnded := 0
                   stop := some (if admB h.record = 0 then .drain else .immediate) } →
      (∀ d, l.mon.list = [] → l.mon.slot = .held d → .staged ∉ b.requests →
        exec .stopLine s = .next (State.pended
          { (s.setLine n { m with mon := { l.mon with settlement := .returning } }) with
            cqs := s.cqs.set cfg.lineCq (some { c with waiters := c.waiters ++
              [{ poster := .bufferReturn n
                 record := .line
                   { kind := .bufferReturn, status := .ok, tag := 0, source := BitVec.ofNat 8 n.val, line := n
                     station := 0, replyFunction := none, replyLength := 0, attempts := 0, waits := 0, health := none
                     flags := {}, lost := 0, buffer := some d.addr, timestamp := s.timebase, sq := none } }] }) }
          h (.stopLine n)))
      ∧ (l.mon.list = [] → l.mon.slot = .requested → .staged ∈ b.requests →
          exec .stopLine s = .next (State.pended
            ((s.setLine n { m with mon := { l.mon with slot := .empty, settlement := .settled } }).setBq n
              (some { b with requests := [] })) h (.stopLine n)))
      ∧ (l.mon.list = [] → l.mon.slot = .requested → .staged ∉ b.requests →
          exec .stopLine s = .next (State.pended
            (s.setLine n { m with mon := { l.mon with settlement := .settling } }) h (.stopLine n)))
      ∧ (∀ head, l.mon.list = [head] → l.mon.slot = .requested → .staged ∈ b.requests →
          l.mon.phase = .idle ∨ l.mon.phase = .bufferWait →
          b.state = .faulted ∨ (b.tail + b.size - b.head) % b.size ≤ b.promises.length →
          exec .stopLine s = .next (State.pended
            ((s.setLine n { m with
                mon := { l.mon with list := [], slot := .empty, phase := .idle, settlement := .settled
                                    lost := min 255 (l.mon.lost + 1) }
                counters := { l.counters with
                  monitorLost := min 4294967295 (l.counters.monitorLost + 1) } }).setBq n
              (some { b with requests := [] })) h (.stopLine n))))
    ∧ ((s.line n).state = .off → exec .stopLine s = .next (s.answered h q0 .ok 0 0 0))
    ∧ ((s.line n).state = .draining → exec .stopLine s = .next (s.answered h q0 .lineBusy 0 0 0))
    ∧ ((s.line n).config = some cfg → cfg.mode = .master → admB h.record = 0 → (s.line n).carrier = true →
        (s.line n).state ≠ .off → (s.line n).state ≠ .draining →
        exec .stopLine s = .next
          (State.pended
            (s.setLine n { s.line n with state := .draining, stop := some .drain, stopEnded := 0
                                         mon := { (s.line n).mon with settlement := .settled } }) h (.stopLine n)))
    ∧ ((s.line n).config = some cfg → (s.line n).state ≠ .off → (s.line n).state ≠ .draining →
        ∃ t, exec .stopLine s = .next t ∧ (t.line n).state = .draining ∧ t.admin.phase = .idle ∧ t.admin.hand = none
          ∧ t.admin.pendingList = s.admin.pendingList ++
              [{ work := .stopLine n, opcode := byteAt h.record 0, tag := admTag h.record
                 lineByte := byteAt h.record 1, finished := false }]
          ∧ (t.line n).stop = some (if admB h.record = 0 then .drain else .immediate)
          ∧ OnlyLine n s t
          ∧ (admB h.record ≠ 0 → ∀ i ∈ (s.line n).exch.work, ∀ c, (t.line n).ctx i = some c →
              c.state ≠ .queued ∧ c.state ≠ .retryWait ∧ (∀ x, c.state ≠ .holding x)
              ∧ (c.state = .talking ∨ c.state = .listening → c.abortRequested = true))))
  ∧ ∀ (s : State) (n : LineId) (l : Line), s.line n = l →
      (∀ (q0 : Cq) before later e, l.state = .draining → (∀ i, l.ctx i = none) → l.exch.lent = none →
        l.mon.settlement = .settled → s.cqs[(0 : CqId)] = some q0 → q0.state = .active →
        s.admin.pendingList = before ++ e :: later → e.work = .stopLine n → e.finished = false →
        (∀ x ∈ before, x.work ≠ .stopLine n ∨ x.finished = true) →
        exec (.stopComplete n) s = .next
          (State.pendingOver
            (s.setLine n { l with state := .off, stop := none, rx := l.rx.stop, tx := Transmitter.reset
                                  mon := { l.mon with settlement := .none, blockFilter := none } })
            before later e q0 l.stopEnded))
      ∧ ((l.state ≠ .draining ∨ (∃ i c, l.ctx i = some c) ∨ l.exch.lent ≠ none ∨ l.mon.settlement ≠ .settled) →
          exec (.stopComplete n) s = .next s)

/-- R93, R173: SET_POLL answers NOT_CONFIGURED for an unconfigured line, WRONG_MODE for a MONITOR line, BAD_PARAMETER
for an index or field out of range or a line without a buffer queue, and ENTRY_BUSY for an entry that is ENABLED or
has an instance in flight, in that order; otherwise the entry becomes DISABLED with the fields of the block. -/
def Obligations.SetPollWritesADisabledEntry : Prop :=
  ∀ (s : State) (h : Hand) (q0 : Cq) (n : LineId), s.Executing 8 h q0 → n = admLineId h.record →
    ((s.line n).config = none → exec .setPoll s = .next (s.answered h q0 .notConfigured 0 0 0))
    ∧ ∀ cfg, (s.line n).config = some cfg →
      (cfg.mode = .monitor → exec .setPoll s = .next (s.answered h q0 .wrongMode 0 0 0))
      ∧ (cfg.mode = .master → (32 ≤ admA h.record ∨ ¬PollBlockInRange h.block ∨ s.bqs[n] = none) →
          exec .setPoll s = .next (s.answered h q0 .badParameter 0 0 0))
      ∧ (cfg.mode = .master → s.bqs[n] ≠ none → PollBlockInRange h.block → ∀ e : PollId, e.val = admA h.record →
          (∀ p, (s.line n).poll e = some p → (p.run ≠ .disabled ∨ p.inFlight ≠ none) →
            exec .setPoll s = .next (s.answered h q0 .entryBusy 0 0 0))
          ∧ ((∀ p, (s.line n).poll e = some p → p.run = .disabled ∧ p.inFlight = none) →
            exec .setPoll s = .next (State.answered
              (s.setLine n ((s.line n).setPoll e (some
                { station := byteAt h.block 0, function := (byteAt h.block 1).setWidth 5
                  payload := (h.block.drop 16).take (byteAt h.block 2).toNat
                  period := (half h.block 4).toNat, offset := (half h.block 6).toNat
                  mode := if byteAt h.block 3 = 1#8 then .onChange else .every
                  quiet := (byteAt h.block 8).toNat, retryLimit := (byteAt h.block 9).toNat, tag := half h.block 10
                  run := .disabled, digest := none, lastStatus := none, suppressed := 0, skips := 0
                  inFlight := none })))
              h q0 .ok 0 0 0)))

/-- R94 to R96, with R76 to R78: POLL_CONTROL on a MASTER line. Enable obtains the station's entry, as found or a new
one in the lowest empty place or that of the unpinned entry used longest ago, and makes the poll entry ENABLED with a
due time of now plus its phase offset and fresh counts; disable makes it DISABLED and leaves an instance in flight;
clear makes it EMPTY unless an instance is in flight. The results are the counts and the state before the command. -/
def Obligations.PollControlActsOnTheEntry : Prop :=
  ∀ (s : State) (h : Hand) (q0 : Cq) (n : LineId) (cfg : LineConfig) (e : PollId), s.Executing 9 h q0 →
    n = admLineId h.record → (s.line n).config = some cfg → cfg.mode = .master → e.val = admA h.record →
    ((s.line n).poll e = none →
      (admB h.record = 0 → exec .pollEnable s = .next (s.answered h q0 .notFound 0 0 0))
      ∧ (admB h.record = 1 → exec .pollDisable s = .next (s.answered h q0 .notFound 0 0 0))
      ∧ (admB h.record = 2 → exec .pollClear s = .next (s.answered h q0 .ok 0 0 0)))
    ∧ ∀ (p : PollEntry) (code : Nat), (s.line n).poll e = some p → code = (if p.run = .disabled then 1 else 2) →
      (admB h.record = 0 →
        Obtainable (s.line n) p.station →
        ∃ l1 : Line,
          exec .pollEnable s = .next (State.answered
            (s.setLine n (l1.setPoll e (some
              { p with run := .enabled (s.timebase + BitVec.ofNat 32 (1000 * p.offset)), digest := none
                       lastStatus := none, suppressed := 0, skips := 0 })))
            h q0 .ok p.skips p.suppressed code)
          ∧ { l1 with stations := (s.line n).stations } = s.line n ∧ l1.entry p.station ≠ none
          ∧ Obtained (s.line n) p.station s.timebase false l1.stations)
      ∧ (admB h.record = 0 → (s.line n).entry p.station = none →
          (∀ i : StationIdx, ∃ se, (s.line n).stations[i] = some se ∧ (s.line n).pins se.address ≠ 0) →
          exec .pollEnable s = .next (s.answered h q0 .stationTableFull p.skips p.suppressed code))
      ∧ (admB h.record = 1 → exec .pollDisable s = .next (State.answered
          (s.setLine n ((s.line n).setPoll e (some { p with run := .disabled }))) h q0 .ok p.skips p.suppressed code))
      ∧ (admB h.record = 2 → p.inFlight ≠ none →
          exec .pollClear s = .next (s.answered h q0 .entryBusy p.skips p.suppressed code))
      ∧ (admB h.record = 2 → p.inFlight = none → exec .pollClear s = .next (State.answered
          (s.setLine n ((s.line n).setPoll e none)) h q0 .ok p.skips p.suppressed code))

/-- R87, R88: a station reset gives the entry UNKNOWN health, failure count 0 and sequence bit 0, unless a context for
the station is under way; an order waiting for a QUEUED context of the station is given again with its block composed
from the new sequence bit. -/
def Obligations.StationResetNeedsAnIdleStation : Prop :=
  ∀ (s : State) (h : Hand) (q0 : Cq) (n : LineId) (addr : Byte), s.Executing 10 h q0 → admB h.record = 0 →
    n = admLineId h.record → addr = byteAt h.record 4 →
    ((s.line n).entry addr = none → exec .stationReset s = .next (s.answered h q0 .notFound 0 0 0))
    ∧ ∀ e, (s.line n).entry addr = some e →
      ((∃ i c, (s.line n).ctx i = some c ∧ c.station = addr
          ∧ (c.state.active = true ∨ (∃ x, c.state = .holding x) ∨ (c.state = .queued ∧ 1 ≤ c.attempts))) →
        exec .stationReset s = .next (s.answered h q0 .entryBusy 0 0 0))
      ∧ ((∀ i c, (s.line n).ctx i = some c → c.station = addr →
            c.state = .admission ∨ c.state = .posting ∨ (c.state = .queued ∧ c.attempts = 0)) →
          ∃ l1 : Line, exec .stationReset s = .next (State.answered (s.setLine n l1) h q0 .ok 0 0 0)
            ∧ l1.entry addr = some { e with health := .unknown, failures := 0, seq := false }
            ∧ (∀ b, b ≠ addr → l1.entry b = (s.line n).entry b)
            ∧ { l1 with stations := (s.line n).stations, tx := (s.line n).tx } = s.line n
            ∧ ((∀ o, (s.line n).tx.order = some o → (s.line n).tx.waiting = true →
                  ∀ c, (s.line n).ctx o.ctx = some c → c.station ≠ addr) → l1.tx = (s.line n).tx)
            ∧ ∀ cfg o c, (s.line n).config = some cfg → (s.line n).tx.order = some o → (s.line n).tx.waiting = true →
                (s.line n).ctx o.ctx = some c → c.station = addr → c.state = .queued → addr ≠ 0#8 →
                l1.tx.phase = .gapWait ∧ l1.tx.order = some
                  { ctx := o.ctx, idle := cfg.gap, broadcast := false
                    block := requestBlock addr false c.function (c.store.take c.requestLength) })

/-- R89, R90, R174, R175, R187, R189: a station read on a MASTER line writes one report for each entry it is asked for,
from the lowest index up and as many as fit, and answers the numbers found and written, or NOT_FOUND for one address
that has no entry; on an unconfigured or MONITOR line it is answered OK with 0 and 0. READ_COUNTERS writes the counter
block as it stood, and then clears the counters where asked. The model's own, not the spec's: result A counts the
occupied entries also for a read of one address (log entry 15), the reports are issued one at a time (log entry 14), and
the level of RDY is an operand and a field (log entry 13). -/
def Obligations.ReadsWriteTheirBlocks : Prop :=
  (∀ (s : State) (h : Hand) (q0 : Cq) (n : LineId) (reports : List (List Byte)), s.Executing 10 h q0 →
    admB h.record = 1 → n = admLineId h.record →
    ((s.line n).config = none ∨ (∃ cfg, (s.line n).config = some cfg ∧ cfg.mode = .monitor) →
      exec .stationRead s = .next (State.answered
        { s with admin := { s.admin with hand := some { h with writes := [], resultA := 0, resultB := 0 } } }
        h q0 .ok 0 0 0))
    ∧ ∀ cfg, (s.line n).config = some cfg → cfg.mode = .master →
      (byteAt h.record 4 ≠ 0#8 → (s.line n).entry (byteAt h.record 4) = none →
        exec .stationRead s = .next (s.answered h q0 .notFound 0 0 0))
      ∧ ((byteAt h.record 4 = 0#8 ∧ reports = (s.line n).allReports)
            ∨ (∃ i e, byteAt h.record 4 ≠ 0#8 ∧ (s.line n).entryIdx (byteAt h.record 4) = some i
                ∧ (s.line n).stations[i] = some e ∧ reports = [stationReport i e]) →
          ((reports = [] ∨ admSize h.record < 16) →
            exec .stationRead s = .next (State.answered
              { s with admin := { s.admin with hand := some { h with
                  writes := [], resultA := (s.line n).allReports.length, resultB := 0 } } }
              h q0 .ok (s.line n).allReports.length 0 0))
          ∧ ∀ b rest, reports = b :: rest → 16 ≤ admSize h.record →
            ∃ writes, (admAddr h.record, b) :: writes
                = (List.range (min (admSize h.record / 16) reports.length)).map
                    (fun k => (admAddr h.record + BitVec.ofNat 32 (16 * k), reports.getD k []))
              ∧ exec .stationRead s = .next
                (State.issue
                  { s with admin := { s.admin with
                      phase := .writing
                      hand := some { h with writes := writes, resultA := (s.line n).allReports.length
                                            resultB := min (admSize h.record / 16) reports.length } } }
                  adminUnit { addr := admAddr h.record, kind := .write b, use := .resultWrite })))
  ∧ ∀ (s : State) (h : Hand) (q0 : Cq) (n : LineId) (rdy : Bool), s.Executing 13 h q0 → n = admLineId h.record →
      exec (.readCounters rdy) s = .next
        (State.issue
          { s with
            lines := s.lines.set n
              { s.line n with rdy := rdy
                              counters := if admB h.record = 1 then {} else (s.line n).counters }
            admin := { s.admin with phase := .writing
                                    hand := some { h with writes := [], resultA := 0, resultB := 0 } } }
          adminUnit
          { addr := admAddr h.record, kind := .write (counterBlock n (s.line n) rdy s.timebase), use := .resultWrite })

/-- R124: SET_FILTER refuses a list of no address or more than 16, an unconfigured line and a MASTER line, in that
order; accepted, it replaces the filter and leaves the filter of a block already begun. -/
def Obligations.SetFilterReplacesTheFilter : Prop :=
  ∀ (s : State) (h : Hand) (q0 : Cq) (n : LineId), s.Executing 11 h q0 → n = admLineId h.record →
    (admB h.record = 0 → (admC h.record = 0 ∨ 16 < admC h.record) →
      exec .setFilter s = .next (s.answered h q0 .badParameter 0 0 0))
    ∧ ((admB h.record ≠ 0 ∨ (1 ≤ admC h.record ∧ admC h.record ≤ 16)) →
        ((s.line n).config = none → exec .setFilter s = .next (s.answered h q0 .notConfigured 0 0 0))
        ∧ ∀ cfg, (s.line n).config = some cfg →
          (cfg.mode = .master → exec .setFilter s = .next (s.answered h q0 .wrongMode 0 0 0))
          ∧ (cfg.mode = .monitor → exec .setFilter s = .next (State.answered
              (s.setLine n { s.line n with mon := { (s.line n).mon with
                filter := if admB h.record = 0 then .list ((h.record.drop 16).take (admC h.record)) else .all } })
              h q0 .ok 0 0 0)))

/-- R66, R67, R188: the three modes of ABORT act on the contexts of the SQ and tag, of the line and station, or of the
SQ named, and on no others: those waiting end with ABORTED, those on the wire or in admission are marked, and the
completion carries the numbers aborted and too late. An SQ that is not there is answered BAD_QUEUE_ID, and a station
over 239 BAD_PARAMETER. -/
def Obligations.AbortActsOnTheContextsNamed : Prop :=
  (∀ (s : State) (h : Hand) (q0 : Cq) (i : SqId) (q : Sq) (b : SqBinding), s.Executing 12 h q0 →
    i.val = admA h.record → i ≠ 0 → s.sqs[i] = some q → q.binding = some b →
    (admB h.record = 0 → ∃ t, exec .abortSqAndTag s = .next t
      ∧ AbortDone s t h b.line fun c => decide (c.origin = .host i (admD h.record)))
    ∧ (admB h.record = 2 → ∃ t, exec .abortWholeSq s = .next t
      ∧ AbortDone s t h b.line fun c => match c.origin with
          | .host j _ => decide (j = i)
          | .poll _ => false))
  ∧ (∀ (s : State) (h : Hand) (q0 : Cq), s.Executing 12 h q0 →
      (admA h.record = 0 ∨ ∀ i : SqId, i.val = admA h.record → s.sqs[i] = none) →
      (admB h.record = 0 → exec .abortSqAndTag s = .next (s.answered h q0 .badQueueId 0 0 0))
      ∧ (admB h.record = 2 → exec .abortWholeSq s = .next (s.answered h q0 .badQueueId 0 0 0)))
  ∧ ∀ (s : State) (h : Hand) (q0 : Cq) (n : LineId), s.Executing 12 h q0 → admB h.record = 1 →
      n = admLineId h.record →
      (240 ≤ admC h.record → exec .abortLineAndStation s = .next (s.answered h q0 .badParameter 0 0 0))
      ∧ (admC h.record < 240 → ∃ t, exec .abortLineAndStation s = .next t
          ∧ AbortDone s t h n fun c => decide (c.station = byteAt h.record 6))

/-! ## Fetches and buffers (files 03, 06, 08) -/

/-- R148, with R44, R45, R147, R149: at a lending the grant goes to a HIGH candidate if there is one, otherwise to a
NORMAL one, round robin within the priority; that priority's pointer takes the SQ's id and the other is unchanged, and
the record at the SQ's head is read into the FREE context lent. With no candidate the context is returned unused. The
pointers are none after a reset. -/
def Obligations.FetchGrantIsRoundRobinByPriority : Prop :=
  (∀ (s : State) (n : LineId) (l : Line) (cfg : LineConfig), s.line n = l → l.config = some cfg →
    s.part = .running → l.state = .starting ∨ l.state = .ready ∨ l.state = .fault → l.exch.lent = none →
    l.arbiter.inFlight = none → cfg.pollReserve < ((List.finRange 16).countP fun j => (l.ctx j).isNone) →
    (l.state = .ready → ∀ e p due, l.poll e = some p → p.inFlight = none → p.run = .enabled due →
      2 ^ 31 ≤ (s.timebase - due).toNat) →
    (∀ (p : Priority) (i : SqId) (q : Sq), s.sqs[i] = some q → (p = .normal → ∀ j, ¬s.Candidate n .high j) →
      RoundRobinPick (s.Candidate n p) (if p = .high then l.arbiter.highPointer else l.arbiter.normalPointer) i →
      ∃ k, l.ctx k = none ∧ exec (.fetchGrant n) s = .next
        (State.issue
          (s.setLine n { l with
            exch := { l.exch with lent := some k }
            arbiter := { highPointer := if p = .high then some i else l.arbiter.highPointer
                         normalPointer := if p = .high then l.arbiter.normalPointer else some i
                         inFlight := some i } })
          queueEngine
          { addr := q.base + BitVec.ofNat 32 (32 * q.head), kind := .read 32, use := .sqFetch i n k }))
    ∧ ((∀ p j, ¬s.Candidate n p j) → exec (.fetchGrant n) s = .next s))
  ∧ ∀ c r m, (Line.reset c r m).arbiter.highPointer = none ∧ (Line.reset c r m).arbiter.normalPointer = none

/-- R45 to R51, R149, R160, R161: when a fetch completes the SQ's head advances and the record's context joins the work
list. A record that passes the checks enters QUEUED, with its station's entry as found or as made (R76 to R78), or waits
for its request data; one that fails ends at once. A bus fault makes the SQ FAULTED and frees the context. -/
def Obligations.FetchCompleteAdmitsTheRecord : Prop :=
  ∀ (s : State) (i : SqId) (n : LineId) (k : CtxId) (q : Sq) (l : Line), s.sqs[i] = some q → s.line n = l →
    (∀ (r : List Byte) (cfg : LineConfig) (c : Ctx) (s1 : State) (l1 : Line), s.Ended (.sqFetch i n k) (some r) →
      l.config = some cfg → c = hostCtx i r cfg s.timebase →
      s1 = { s with port := { s.port with current := none }
                    sqs := s.sqs.set i (some { q with head := if q.head + 1 < q.size then q.head + 1 else 0 }) } →
      l1 = { l with exch := { l.exch with lent := none, work := l.exch.work ++ [k] }
                    arbiter := { l.arbiter with inFlight := none } } →
      (c.station = byteAt r 4 ∧ c.function = (byteAt r 5).setWidth 5 ∧ c.requestLength = (byteAt r 6).toNat
        ∧ c.retryLimit = (if byteAt r 7 = 8#8 then cfg.retryLimit else (byteAt r 7).toNat)
        ∧ c.origin = .host i (half r 2) ∧ c.fullRetries = (byteAt r 1).getLsbD 2
        ∧ c.dest = (if (byteAt r 1).getLsbD 1 then .bufferQueue else .host (word r 8) (half r 12).toNat)
        ∧ ((byteAt r 1).getLsbD 0 = true → c.store = (r.drop 16).take (byteAt r 6).toNat)
        ∧ c.attempts = 0 ∧ c.waits = 0 ∧ c.contentions = 0 ∧ c.admitted = s.timebase)
      ∧ (∀ m cq, HostOn s c m cq →
          (byteAt r 0 ≠ 1#8 ∨ RecordMalformed r s.bqs[n] →
            ∃ t, exec .fetchComplete s = .next t ∧ t.sqs = s1.sqs
              ∧ PostedAs t n k m cq c (c.ended l .badRecord s.timebase)
              ∧ SameWindow s t ∧ SameHost s t ∧ SameOtherLines n s t)
          ∧ (byteAt r 0 = 1#8 → ¬RecordMalformed r s.bqs[n] → cfg.mode = .monitor →
              ∃ t, exec .fetchComplete s = .next t ∧ t.sqs = s1.sqs
              ∧ PostedAs t n k m cq c (c.ended l .wrongMode s.timebase)
              ∧ SameWindow s t ∧ SameHost s t ∧ SameOtherLines n s t)
          ∧ (byteAt r 0 = 1#8 → ¬RecordMalformed r s.bqs[n] → cfg.mode = .master →
              (byteAt r 1).getLsbD 0 = true ∨ byteAt r 6 = 0#8 → c.station ≠ 0 → l.entry c.station = none →
              l.ctx k = none → (∀ j : StationIdx, ∃ se, l.stations[j] = some se ∧ l.pins se.address ≠ 0) →
              ∃ t, exec .fetchComplete s = .next t ∧ t.sqs = s1.sqs
                ∧ PostedAs t n k m cq c (c.ended l .stationTableFull s.timebase) ∧ SameWindow s t ∧ SameHost s t
                ∧ SameOtherLines n s t))
      ∧ (byteAt r 0 = 1#8 → ¬RecordMalformed r s.bqs[n] → cfg.mode = .master → l.stop = none →
          ((byteAt r 1).getLsbD 0 = false → byteAt r 6 ≠ 0#8 →
            exec .fetchComplete s = .next
              ((s1.setLine n (l1.setCtx k (some c))).issue (lineEngine n)
                { addr := word r 16, kind := .read (byteAt r 6).toNat, use := .requestData n k }))
          ∧ ((byteAt r 1).getLsbD 0 = true ∨ byteAt r 6 = 0#8 → c.station = 0 →
              exec .fetchComplete s = .next (s1.setLine n (l1.setCtx k (some { c with state := .queued }))))
          ∧ ((byteAt r 1).getLsbD 0 = true ∨ byteAt r 6 = 0#8 → c.station ≠ 0 →
              (∃ se, l.entry c.station = some se) ∨ (l.ctx k = none ∧ Obtainable l c.station) →
              ∃ l2 : Line, exec .fetchComplete s = .next
                  (s1.setLine n (l2.setCtx k (some { c with state := .queued, hasEntry := true })))
                ∧ { l2 with stations := l.stations } = l1 ∧ Obtained l c.station s.timebase true l2.stations
                ∧ (∀ se, l.entry c.station = some se → l2.entry c.station = some { se with lastUsed := s.timebase }))))
    ∧ (s.Ended (.sqFetch i n k) none →
        exec .fetchComplete s = .next
          (State.handNotice
            { (s.portFree.setLine n { l with exch := { l.exch with lent := none }
                                             arbiter := { l.arbiter with inFlight := none } }) with
              sqs := s.sqs.set i (some (if q.state = .deleting then q else { q with state := .faulted })) }
            (.queueFault .sq i.val .readFault)))

/-- R46, R47, R48: when a request data read completes the context takes the data, obtains its station's entry and enters
QUEUED; a bus fault ends it with BUFFER_FAULT. -/
def Obligations.RequestDataReadQueuesTheContext : Prop :=
  ∀ (s : State) (n : LineId) (i : CtxId) (l : Line) (c : Ctx), s.line n = l → l.ctx i = some c →
    (∀ b, s.Ended (.requestData n i) (some b) → l.stop = none → c.abortAtAdmission = false →
      (c.station = 0#8 ∨ Obtainable l c.station) →
      ∃ t, exec .requestDataReadDone s = .next t ∧ t.port.current = none
        ∧ (t.line n).ctx i = some
            { c with store := b, state := .queued, hasEntry := if c.station = 0#8 then c.hasEntry else true }
        ∧ (t.line n).exch.work = l.exch.work ∧ (∀ j, j ≠ i → (t.line n).ctx j = l.ctx j)
        ∧ (∀ se, c.station ≠ 0#8 → l.entry c.station = some se →
            (t.line n).entry c.station = some { se with lastUsed := s.timebase })
        ∧ (c.station = 0#8 → (t.line n).stations = l.stations)
        ∧ (c.station ≠ 0#8 → Obtained l c.station s.timebase true (t.line n).stations)
        ∧ (t.line n).rx = l.rx ∧ (t.line n).polls = l.polls ∧ OnlyLine n s t ∧ t.cqs = s.cqs ∧ t.admin = s.admin)
    ∧ (s.Ended (.requestData n i) none → ∀ k q, HostOn s c k q →
        ∃ t, exec .requestDataReadDone s = .next t ∧ t.port.current = none
          ∧ PostedAs t n i k q c (c.ended l .bufferFault c.admitted) ∧ OnlyLine n s t
          ∧ ∀ j, j ≠ i → (t.line n).ctx j = l.ctx j)

/-- R107, R108, R151, R152, R161, R171: a descriptor read hands its descriptor to the taker promised it, the staged
slot or a context whose reply data is then written, a poll entry taking its delivery in the same act; a capacity of 0
or a bus fault makes the BQ FAULTED with a notice, and answers "none" to a context promised one: NO_BUFFER for a host
exchange, a loss for a poll instance. A waiting request is promised a descriptor when one can be promised. -/
def Obligations.DescriptorsGoToTheirTakers : Prop :=
  (∀ (s : State) (n : LineId) (q : Bq) (b : List Byte) (d : Descriptor) (rest : List Taker) (s1 : State),
    s.Ended (.descriptor n) (some b) → s.bqs[n] = some q → d = { addr := word b 0, capacity := (half b 4).toNat } →
    1 ≤ d.capacity →
    s1 = { s with port := { s.port with current := none }
                  bqs := s.bqs.set n (some
                    { q with head := if q.head + 1 < q.size then q.head + 1 else 0, promises := rest }) } →
    (q.promises = .staged :: rest → (s.line n).mon.list = [] → (s.line n).state ≠ .draining →
      exec .descriptorReadComplete s = .next
        (s1.setLine n { s.line n with mon := { (s.line n).mon with slot := .held d } }))
    ∧ (∀ (i : CtxId) (c : Ctx) (r : Result) (sq : SqId) (tag : Half), q.promises = .ctx i :: rest →
        (s.line n).ctx i = some c → c.origin = .host sq tag → c.dest = .bufferQueue → c.result = some r →
        r.status = .ok ∨ r.status = .refused → c.store.take (min r.replyLength d.capacity) ≠ [] →
        exec .descriptorReadComplete s = .next
          (State.issue
            (s1.setLine n ((s.line n).setCtx i (some
              { c with buffer := some d, result := some { r with truncated := decide (d.capacity < r.replyLength) } })))
            (lineEngine n)
            { addr := d.addr, kind := .write (c.store.take (min r.replyLength d.capacity)), use := .payload n i }))
    ∧ (∀ (i : CtxId) (c : Ctx) (r : Result) (e : PollId) (p p' : PollEntry), q.promises = .ctx i :: rest →
        (s.line n).ctx i = some c → c.origin = .poll e → (s.line n).poll e = some p → c.dest = .bufferQueue →
        c.result = some r → r.isGood → c.store.take (min r.replyLength d.capacity) ≠ [] → AfterReport p p' c r →
        exec .descriptorReadComplete s = .next
          (State.issue
            (s1.setLine n (((s.line n).setCtx i (some
              { c with buffer := some d
                       result := some { r with truncated := decide (d.capacity < r.replyLength) } })).setPoll e (some p')))
            (lineEngine n)
            { addr := d.addr, kind := .write (c.store.take (min r.replyLength d.capacity)), use := .payload n i })))
  ∧ (∀ (s : State) (n : LineId) (q : Bq) (data : Option (List Byte)) (cause : FaultCause),
      s.Ended (.descriptor n) data → s.bqs[n] = some q →
      (data = none ∧ cause = .readFault) ∨ (∃ b, data = some b ∧ half b 4 = 0#16 ∧ cause = .badDescriptor) →
      ∃ t r, exec .descriptorReadComplete s = .next t ∧ t.bqs[n] = some r ∧ r.state = .faulted ∧ r.promises = []
        ∧ r.base = q.base ∧ r.size = q.size ∧ r.head = q.head ∧ r.tail = q.tail
        ∧ Noticed s t (.queueFault .bq n.val cause) ∧ OnlyLine n s t
        ∧ ∀ i c x, q.promises = [.ctx i] → (s.line n).ctx i = some c → c.state = .posting → c.result = some x →
            (∀ cfg, (s.line n).config = some cfg → cfg.mode = .master) →
            (∀ k cq, HostOn s c k cq → PostedAs t n i k cq c { x with status := .noBuffer })
            ∧ ∀ e p k cq, PollOn s n i c e p k cq → PollLost s t n i e p ∧ t.cqs[k] = some cq)
  ∧ (∀ (s : State) data, s.Ended .staleDescriptor data → exec .descriptorReadComplete s = .next s.portFree)
  ∧ ∀ (s : State) (n : LineId) (q : Bq) (x : Taker) (rest : List Taker), s.bqs[n] = some q → q.requests = x :: rest →
      (q.state = .active → q.promises.length < (q.tail + q.size - q.head) % q.size →
        exec (.bufferPromise n) s = .next
          (State.issue
            { s with bqs := s.bqs.set n (some { q with requests := rest, promises := q.promises ++ [x] }) } queueEngine
            { addr := q.base + BitVec.ofNat 32 (8 * ((q.head + q.promises.length) % q.size)), kind := .read 8
              use := .descriptor n }))
      ∧ (q.state = .faulted ∨ (q.tail + q.size - q.head) % q.size ≤ q.promises.length →
          exec (.bufferPromise n) s = .next s)

/-- R72, R73, R110, R118: when a payload write ends the context joins its CQ's waiter list with its status, and with
BUFFER_FAULT after a bus fault, which a poll entry in ON_CHANGE mode takes as its last status; when the head block's
data write ends the block does, in SLOT_WAIT. -/
def Obligations.DataWritesLeadToTheWaiterList : Prop :=
  (∀ (s : State) (n : LineId) (i : CtxId) (c : Ctx) (r : Result) (k : CqId) (q : Cq), (s.line n).ctx i = some c →
    c.state = .posting → c.result = some r → HostOn s c k q →
    (∀ b, s.Ended (.payload n i) (some b) → ∃ t, exec .payloadWriteDone s = .next t ∧ t.port.current = none
      ∧ PostedAs t n i k q c r ∧ t.lines = s.lines ∧ OnlyLine n s t)
    ∧ (s.Ended (.payload n i) none → ∃ t, exec .payloadWriteDone s = .next t ∧ t.port.current = none
        ∧ PostedAs t n i k q c { r with status := .bufferFault }
        ∧ (∀ j, j ≠ i → (t.line n).ctx j = (s.line n).ctx j) ∧ OnlyLine n s t))
  ∧ (∀ (s : State) (n : LineId) (i : CtxId) (c : Ctx) (r : Result) (e : PollId) (p : PollEntry) (k : CqId) (q : Cq),
    (s.line n).ctx i = some c → c.state = .posting → c.result = some r → PollOn s n i c e p k q →
    (∀ b, s.Ended (.payload n i) (some b) → ∃ t, exec .payloadWriteDone s = .next t ∧ t.port.current = none
      ∧ PollPosted t n i e p k q c r ∧ t.lines = s.lines ∧ OnlyLine n s t)
    ∧ (s.Ended (.payload n i) none → ∃ t, exec .payloadWriteDone s = .next t ∧ t.port.current = none
        ∧ PollPosted t n i e p k q c { r with status := .bufferFault }
        ∧ (t.line n).ctx i = some { c with result := some { r with status := .bufferFault } }
        ∧ (t.line n).poll e = some
            (if p.mode = .onChange then { p with digest := none, lastStatus := some .bufferFault } else p)
        ∧ (∀ j, j ≠ i → (t.line n).ctx j = (s.line n).ctx j) ∧ OnlyLine n s t))
  ∧ ∀ (s : State) (n : LineId) (cfg : LineConfig) (head : MonBlock) (rest : List MonBlock) (q : Cq)
      (data : Option (List Byte)), s.Ended (.monitorData n) data → (s.line n).config = some cfg →
      (s.line n).mon.list = head :: rest → s.cqs[cfg.lineCq] = some q → q.state = .active →
      ∃ t h x, exec .monitorDataWriteDone s = .next t ∧ t.port.current = none
        ∧ h = (if data = none then { head with status := .bufferFault } else head)
        ∧ (t.line n).mon.list = h :: rest ∧ (t.line n).mon.phase = .slotWait
        ∧ t.cqs[cfg.lineCq] = some { q with waiters := q.waiters ++
            [{ poster := .monitorBlock n, record := .line x }] }
        ∧ x.kind = .monitor ∧ x.status = h.status ∧ x.line = n ∧ x.timestamp = head.start
        ∧ x.replyLength = head.chars.length ∧ x.lost = head.lost ∧ OnlyLine n s t

/-! ## Completion queues (file 08) -/

/-- R153, R154, R168: an ACTIVE CQ with room grants its first waiter the slot at the tail with the CQ's phase: the
tail and the unacknowledged count advance, the phase toggles at the wrap, and the 32-byte record, each field at the
offset R168 gives it and the phase in the last byte, is written to the slot through the poster's requester. A full CQ,
a FAULTED one and one nobody waits on grant nothing. -/
def Obligations.SlotGrantTakesTheTail : Prop :=
  ∀ (s : State) (i : CqId) (q : Cq), s.cqs[i] = some q →
    (∀ (w : Waiter) (rest : List Waiter), q.waiters = w :: rest → q.state = .active → q.unacked < q.size →
      ∃ t bytes, exec (.slotGrant i) s = .next t ∧ bytes = s.recordBytes w q.phase
        ∧ t.cqs = s.cqs.set i (some
            { q with tail := if q.tail + 1 < q.size then q.tail + 1 else 0, unacked := q.unacked + 1, waiters := rest
                     phase := if q.tail + 1 < q.size then q.phase else !q.phase })
        ∧ bytes.length = 32 ∧ byteAt bytes 30 = 0#8 ∧ byteAt bytes 31 = (if q.phase then 1#8 else 0#8)
        ∧ (∀ r, w.record = .line r →
            byteAt bytes 0 = r.kind.code ∧ byteAt bytes 1 = r.status.code ∧ half bytes 2 = r.tag
            ∧ byteAt bytes 4 = r.source ∧ byteAt bytes 5 = BitVec.ofNat 8 r.line.val ∧ byteAt bytes 6 = r.station
            ∧ (r.replyFunction = none → byteAt bytes 7 = 0xFF#8)
            ∧ (∀ f, r.replyFunction = some f → byteAt bytes 7 = f.setWidth 8)
            ∧ half bytes 8 = BitVec.ofNat 16 r.replyLength ∧ byteAt bytes 10 = BitVec.ofNat 8 r.attempts
            ∧ byteAt bytes 11 = BitVec.ofNat 8 r.waits ∧ (r.health = none → byteAt bytes 12 = 0#8)
            ∧ (∀ x, r.health = some x → byteAt bytes 12 = x.code)
            ∧ ((byteAt bytes 13).getLsbD 0 = r.flags.abortLate ∧ (byteAt bytes 13).getLsbD 1 = r.flags.truncated
              ∧ (byteAt bytes 13).getLsbD 2 = r.flags.healthChanged ∧ (byteAt bytes 13).getLsbD 3 = r.flags.crcBad
              ∧ (byteAt bytes 13).getLsbD 4 = r.flags.charErr ∧ (byteAt bytes 13).getLsbD 5 = r.flags.overlong
              ∧ (byteAt bytes 13).getLsbD 6 = r.buffer.isSome ∧ (byteAt bytes 13).getLsbD 7 = false)
            ∧ (r.kind ≠ .poll → byteAt bytes 14 = BitVec.ofNat 8 r.lost) ∧ byteAt bytes 15 = 0#8
            ∧ word bytes 16 = r.buffer.getD 0 ∧ word bytes 20 = r.timestamp ∧ word bytes 24 = 0#32
            ∧ (r.sq = none → half bytes 28 = 0xFFFF#16)
            ∧ ∀ j v, r.sq = some j → s.sqs[j] = some v → half bytes 28 = BitVec.ofNat 16 v.head)
        ∧ (∀ r v, w.record = .admin r → s.sqs[(0 : SqId)] = some v →
            byteAt bytes 0 = 5#8 ∧ byteAt bytes 1 = r.status.code ∧ half bytes 2 = r.tag ∧ byteAt bytes 4 = r.opcode
            ∧ byteAt bytes 5 = r.lineByte ∧ half bytes 6 = 0#16 ∧ word bytes 8 = BitVec.ofNat 32 r.resultA
            ∧ half bytes 12 = BitVec.ofNat 16 r.resultB ∧ half bytes 14 = BitVec.ofNat 16 r.resultC
            ∧ word bytes 16 = 0#32 ∧ word bytes 20 = s.timebase ∧ word bytes 24 = 0#32
            ∧ half bytes 28 = BitVec.ofNat 16 v.head)
        ∧ (∀ r, w.record = .notice r →
            byteAt bytes 0 = 6#8 ∧ byteAt bytes 1 = r.event.code ∧ half bytes 2 = 0#16 ∧ byteAt bytes 4 = 0#8
            ∧ (bytes.drop 5).take 6 = r.event.fields ∧ half bytes 11 = 0#16 ∧ byteAt bytes 13 = 0#8
            ∧ word bytes 15 = 0#32 ∧ byteAt bytes 19 = 0#8 ∧ word bytes 20 = r.time ∧ word bytes 24 = 0#32
            ∧ half bytes 28 = 0xFFFF#16)
        ∧ t.port = (s.issue w.poster.requester
            { addr := q.base + BitVec.ofNat 32 (32 * q.tail), kind := .write bytes, use := .completion i w }).port
        ∧ (∀ r, w.record = .line r → r.kind = .poll →
            byteAt bytes 14 = BitVec.ofNat 8 (s.line r.line).pollLost ∧ (t.line r.line).pollLost = 0)
        ∧ (∀ r, w.record = .notice r →
            byteAt bytes 14 = BitVec.ofNat 8 s.admin.noticeLost ∧ t.admin.noticeLost = 0)
        ∧ (∀ r, w.record = .line r → r.kind = .monitor → (t.line r.line).mon.phase = .recording)
        ∧ (∀ m, SameWire (s.line m) (t.line m) ∧ (t.line m).exch = (s.line m).exch
            ∧ (t.line m).stations = (s.line m).stations ∧ (t.line m).polls = (s.line m).polls)
        ∧ SameWindow s t ∧ SameHost s t ∧ t.sqs = s.sqs ∧ t.bqs = s.bqs)
    ∧ (q.waiters = [] ∨ q.state = .faulted ∨ q.size ≤ q.unacked → exec (.slotGrant i) s = .next s)

/-- R154, R156, R157, R161: a completion write that completes posts its slot: the pending flag is set when N or more
entries are unacknowledged, the delay timer is started when it may be, and the poster is freed: a context is FREE, a
captured block leaves the pending list (R119), a buffer handed back settles the line (R122). A bus fault makes an I/O
CQ FAULTED, discards and counts its waiters, frees their contexts and hands a notice to the admin unit. The expiry of
the delay timer sets the pending flag and stops the timer; while the timer is stopped or its expiry lies ahead nothing
happens. -/
def Obligations.PostingFreesThePoster : Prop :=
  (∀ (s : State) (i : CqId) (q : Cq) (w : Waiter) (b : List Byte), s.Ended (.completion i w) (some b) →
    s.cqs[i] = some q →
    ∃ t, exec .completionWriteDone s = .next t ∧ t.port.current = none
      ∧ SameCqIndices (some
          { q with pending := decide (q.threshold ≤ q.unacked) || q.pending
                   timer := if q.threshold ≤ q.unacked then none
                     else if q.timer = none ∧ q.pending = false ∧ q.delay ≠ 0 then
                       some (s.timebase + BitVec.ofNat 32 q.delay)
                     else q.timer }) t.cqs[i]
      ∧ (∀ n k, w.poster = .exchange n k → (t.line n).ctx k = none ∧ k ∉ (t.line n).exch.work ∧ SameOtherLines n s t)
      ∧ (w.poster = .command → t.admin.phase = .idle ∧ t.admin.hand = none ∧ t.lines = s.lines)
      ∧ (w.poster = .notice → t.admin.notices = s.admin.notices.tail ∧ t.lines = s.lines)
      ∧ (∀ work, w.poster = .pendingEntry work → ∀ before later e, s.admin.pendingList = before ++ e :: later →
          e.work = work → e.finished = true → (∀ x ∈ before, x.work ≠ work ∨ x.finished = false) →
          t.admin.pendingList = before ++ later ∧ t.lines = s.lines)
      ∧ (∀ n l cfg head rest, w.poster = .monitorBlock n → s.line n = l → l.config = some cfg → cfg.mode = .monitor →
          l.state ≠ .draining → l.mon.slot = .requested → l.mon.list = head :: rest →
          t.line n = { l with mon := { l.mon with list := rest, phase := if rest = [] then .idle else .bufferWait } }
          ∧ SameOtherLines n s t)
      ∧ (∀ n l, w.poster = .bufferReturn n → s.line n = l → l.state = .draining → l.mon.list = [] →
          t.line n = { l with mon := { l.mon with slot := .empty, settlement := .settled } } ∧ SameOtherLines n s t)
      ∧ SameWindow s t ∧ SameHost s t ∧ t.sqs = s.sqs)
  ∧ (∀ (s : State) (i : CqId) (q : Cq), s.cqs[i] = some q →
      (∀ t, q.timer = some t → (s.timebase - t).toNat < 2 ^ 31 →
        exec (.delayTimerExpiry i) s = .next
          { s with cqs := s.cqs.set i (some { q with pending := true, timer := none }) })
      ∧ ((∀ t, q.timer = some t → 2 ^ 31 ≤ (s.timebase - t).toNat) → exec (.delayTimerExpiry i) s = .next s))
  ∧ ∀ (s : State) (i : CqId) (q : Cq) (w : Waiter), s.Ended (.completion i w) none → s.cqs[i] = some q → i ≠ 0 →
      q.state = .active → (∀ x ∈ w :: q.waiters, x.poster.line ≠ none) →
      ∃ t r, exec .completionWriteDone s = .next t ∧ t.cqs[i] = some r ∧ r.state = .faulted ∧ r.waiters = []
        ∧ Noticed s t (.queueFault .cq i.val .writeFault) ∧ SameWindow s t ∧ SameHost s t ∧ t.sqs = s.sqs
        ∧ (∀ m, SameWire (s.line m) (t.line m))
        ∧ (∀ x ∈ w :: q.waiters, ∀ n k, x.poster = .exchange n k →
            (t.line n).ctx k = none ∧ k ∉ (t.line n).exch.work)
        ∧ ((∀ n cfg, (s.line n).config = some cfg → cfg.mode = .master) →
            r.discards = min 4294967295 (q.discards + q.waiters.length + 1)
            ∧ ∀ n count, count = (w :: q.waiters).countP (fun x => decide (x.poster.line = some n)) →
                (count = 0 → t.line n = s.line n)
                ∧ (1 ≤ count →
                  (t.line n).counters.discarded = min 4294967295 ((s.line n).counters.discarded + count)))

/-! ## Orders and transmission (files 02, 03) -/

/-- R14, R25, R51 to R53: on a MASTER line in READY or DRAINING with no context active and no order held, the first
eligible context of the work list is ordered, with its request block and an idle requirement of G; with none eligible,
an order held or a context active, nothing happens. -/
def Obligations.SendOrderTakesTheFirstEligible : Prop :=
  ∀ (s : State) (n : LineId) (l : Line) (cfg : LineConfig), s.line n = l → l.config = some cfg →
    (cfg.mode = .master → l.state = .ready ∨ l.state = .draining → l.tx.order = none →
      (∀ i ∈ l.exch.work, ∀ c, l.ctx i = some c → c.state.active = false) →
      (∀ i c, FirstEligible l i → l.ctx i = some c →
        exec (.sendOrder n) s = .next
          (s.setLine n { l with tx := { Transmitter.reset with
            phase := .gapWait
            order := some
              { ctx := i, idle := cfg.gap, broadcast := decide (c.station = 0)
                block := requestBlock c.station (if c.station = 0 then false else l.seqOf c.station) c.function
                  (c.store.take c.requestLength) } } }))
      ∧ ((∀ i, ¬FirstEligible l i) → exec (.sendOrder n) s = .next s))
    ∧ ((cfg.mode = .monitor ∨ (l.state ≠ .ready ∧ l.state ≠ .draining) ∨ l.tx.order ≠ none
          ∨ ∃ i ∈ l.exch.work, ∃ c, l.ctx i = some c ∧ c.state.active = true) →
        exec (.sendOrder n) s = .next s)

/-- R26 to R30, R54: when the gap timer reaches a held order's idle requirement in READY or DRAINING the transmitter
enters LEAD if RDY is asserted and READY_WAIT otherwise, from where the assertion of RDY leads to LEAD; before it
nothing happens. The level of RDY as an operand, and as the field that holds the level last reported, is the model's
(log entry 13). -/
def Obligations.LeadBeginsWhenIdleAndReady : Prop :=
  (∀ (s : State) (n : LineId) (l : Line) (cfg : LineConfig) (o : Order) (c : Ctx), s.line n = l →
    l.config = some cfg → cfg.mode = .master → l.state = .ready ∨ l.state = .draining → l.tx.order = some o →
    l.ctx o.ctx = some c →
    (l.tx.phase = .gapWait → l.rx.block = none → o.idle * cfg.divider ≤ l.rx.gap →
      (∃ t, exec (.idleRequirementMet n true) s = .next t ∧ LeadBegun s t n cfg o c ∧ (t.line n).rdy = true)
      ∧ exec (.idleRequirementMet n false) s = .next
          (s.setLine n { l with rdy := false, tx := { l.tx with
            phase := .readyWait
            readyTimer := match l.tx.readyTimer with
              | some x => some x
              | none => if cfg.readyTimeout = 0 then none
                  else some (s.timebase + BitVec.ofNat 32 (1000 * cfg.readyTimeout)) } }))
    ∧ (l.tx.phase = .gapWait → l.rx.gap < o.idle * cfg.divider → ∀ r, exec (.idleRequirementMet n r) s = .next s)
    ∧ (l.tx.phase = .readyWait →
        ∃ t, exec (.rdyAsserted n) s = .next t ∧ LeadBegun s t n cfg o c ∧ (t.line n).rdy = true))
  ∧ ∀ (s : State) (n : LineId), (s.line n).tx.phase ≠ .readyWait →
      exec (.rdyAsserted n) s = .next (s.setLine n { s.line n with rdy := true })

/-- R28, R55: the expiry of the ready timer ends the order without DE, and the ordered context with NOT_READY, which a
poll entry delivers or suppresses by its mode (R102 to R107); before it nothing happens. The end time is that of the
report, which is the model's choice (log entry 39). -/
def Obligations.ReadyTimeoutEndsTheOrder : Prop :=
  ∀ (s : State) (n : LineId) (l : Line) (o : Order) (c : Ctx) (x : Word), s.line n = l →
    l.tx.phase = .gapWait ∨ l.tx.phase = .readyWait → l.tx.readyTimer = some x → l.tx.order = some o →
    l.ctx o.ctx = some c →
    ((s.timebase - x).toNat < 2 ^ 31 → ∀ k q, HostOn s c k q →
      ∃ t, exec (.notReady n) s = .next t ∧ PostedAs t n o.ctx k q c (c.ended l .notReady s.timebase)
        ∧ (t.line n).tx = Transmitter.reset ∧ (t.line n).rx = l.rx
        ∧ (∀ j, j ≠ o.ctx → (t.line n).ctx j = l.ctx j) ∧ (t.line n).stations = l.stations ∧ OnlyLine n s t)
    ∧ ((s.timebase - x).toNat < 2 ^ 31 → ∀ e p k q, PollOn s n o.ctx c e p k q →
      ∃ t, exec (.notReady n) s = .next t
        ∧ PollSettled s t n o.ctx e p k q c (c.ended l .notReady s.timebase) l.counters
        ∧ (t.line n).tx = Transmitter.reset ∧ (t.line n).rx = l.rx
        ∧ (∀ j, j ≠ o.ctx → (t.line n).ctx j = l.ctx j) ∧ (t.line n).stations = l.stations ∧ OnlyLine n s t)
    ∧ (2 ^ 31 ≤ (s.timebase - x).toNat → exec (.notReady n) s = .next s)

/-- R29, R30, R32: after the line's lead time the transmitter enters SEND and the block begins; the end of its last stop
bit moves it to HOLD and arms the receiver for a reply, unless the order is a broadcast. TXD is at mark outside SEND; in
SEND the block's characters follow one another without idle, each a start bit at space, eight data bits from the least
significant, the parity bit where the format has one, and its stop bits at mark, up to the block's end or a contention's
(R1, R2, R7, R36). -/
def Obligations.LeadAndSendRunTheirTimes : Prop :=
  ∀ (s : State) (n : LineId) (l : Line) (cfg : LineConfig), s.line n = l → l.config = some cfg →
    (l.tx.phase ≠ .send → l.txd = true)
    ∧ (l.tx.phase = .lead → cfg.lead * cfg.divider ≤ l.tx.age → exec (.leadEnd n) s = .next
      (s.setLine n { l with tx := { l.tx with phase := .send, age := 0, stopAt := none, echoStarts := 0
                                              echoMatched := 0 } }))
    ∧ (l.tx.phase = .lead → l.tx.age < cfg.lead * cfg.divider → exec (.leadEnd n) s = .next s)
    ∧ ∀ o, l.tx.phase = .send → l.tx.order = some o →
        (l.tx.stopAt = none → o.block.length * cfg.charTime * cfg.divider ≤ l.tx.age → exec (.sendEnd n) s = .next
          (s.setLine n { l with
            tx := { l.tx with phase := .hold, age := 0 }
            rx := { (if cfg.echo then l.rx else l.rx.start) with
                      gap := 0, idle := true, armed := !o.broadcast, window := none } }))
        ∧ (l.tx.stopAt ≠ none ∨ l.tx.age < o.block.length * cfg.charTime * cfg.divider →
            exec (.sendEnd n) s = .next s)
        ∧ ∀ index bit v, index = l.tx.age / cfg.divider / cfg.charTime → bit = l.tx.age / cfg.divider % cfg.charTime →
            v = byteAt o.block index →
            (o.block.length ≤ index ∨ (∃ x, l.tx.stopAt = some x ∧ x ≤ l.tx.age) → l.txd = true)
            ∧ (index < o.block.length → (∀ x, l.tx.stopAt = some x → l.tx.age < x) →
                (bit = 0 → l.txd = false)
                ∧ (1 ≤ bit → bit ≤ 8 → l.txd = v.getLsbD (bit - 1))
                ∧ (bit = 9 → cfg.parity ≠ .none →
                    ((List.range 8).countP (fun k => v.getLsbD k) + l.txd.toNat) % 2
                      = if cfg.parity = .even then 0 else 1)
                ∧ (9 ≤ bit → bit ≠ 9 ∨ cfg.parity = .none → l.txd = true))

/-- R31 to R33, R56, R65: the end of the hold time releases DE and counts the attempt. A context addressed to a
station listens, with the reply window running where no block has begun; a reply that ended within HOLD, whose record
the model keeps until here (log entry 17), is judged in the same act: a good one with its own end time, and a failed one
with this instant as that of the failure, which is that entry's choice too. A broadcast settles, and ends with SENT at
once when the settle time is 0. -/
def Obligations.HoldEndReleasesTheLine : Prop :=
  ∀ (s : State) (n : LineId) (l : Line) (cfg : LineConfig) (o : Order) (c : Ctx), s.line n = l →
    l.config = some cfg → l.tx.phase = .hold → l.tx.order = some o → l.ctx o.ctx = some c →
    (l.tx.age < cfg.hold * cfg.divider → exec (.holdEnd n) s = .next s)
    ∧ (cfg.hold * cfg.divider ≤ l.tx.age →
        (c.station ≠ 0#8 → l.rx.early = none → exec (.holdEnd n) s = .next
          (s.setLine n { l with
            tx := Transmitter.reset
            exch := { l.exch with
              contexts := l.exch.contexts.set o.ctx (some { c with attempts := c.attempts + 1, state := .listening }) }
            counters := { l.counters with attempts := min 4294967295 (l.counters.attempts + 1) }
            rx := if l.rx.armed = true ∧ l.rx.block = none then
                { l.rx with window := some (s.timebase + BitVec.ofNat 32 (100 * cfg.window)) }
              else l.rx }))
        ∧ (∀ (b : RxBlock) (ended : Word) (c1 : Ctx) (s1 : State), c.station ≠ 0#8 → l.rx.early = some (b, ended) →
            l.rx.armed = false → c1 = { c with attempts := c.attempts + 1, state := .listening } →
            s1 = s.setLine n { l with
              tx := Transmitter.reset
              exch := { l.exch with contexts := l.exch.contexts.set o.ctx (some c1) }
              counters := { l.counters with attempts := min 4294967295 (l.counters.attempts + 1) }
              rx := { l.rx with early := none } } →
            ∃ t, exec (.holdEnd n) s = .next t ∧ (t.line n).rx.early = none
              ∧ ReplyJudged s1 t n o.ctx cfg c1 b ended)
        ∧ (c.station = 0#8 → cfg.settle ≠ 0 → exec (.holdEnd n) s = .next
          (s.setLine n { l with
            tx := Transmitter.reset
            exch := { l.exch with
              contexts := l.exch.contexts.set o.ctx (some { c with attempts := c.attempts + 1, state := .settling })
              settle := some (s.timebase + BitVec.ofNat 32 (100 * cfg.settle)) }
            counters := { l.counters with attempts := min 4294967295 (l.counters.attempts + 1) } }))
        ∧ (c.station = 0#8 → cfg.settle = 0 → ∀ k q, HostOn s c k q →
            ∃ t, exec (.holdEnd n) s = .next t
              ∧ PostedAs t n o.ctx k q { c with attempts := c.attempts + 1 }
                  { c.ended l .sent s.timebase with abortLate := c.abortRequested || c.abortLate }
              ∧ (t.line n).tx = Transmitter.reset ∧ (t.line n).exch.settle = none
              ∧ (t.line n).counters = { l.counters with attempts := min 4294967295 (l.counters.attempts + 1) }
              ∧ (∀ j, j ≠ o.ctx → (t.line n).ctx j = l.ctx j) ∧ OnlyLine n s t))

/-! ## Reception (file 02) -/

/-- R1, R2, R6, R21, R22, R34: a character is taken by majority of three samples a bit. It joins the block in progress
with its framing, parity and break flags, a break is counted, and the receiver hunts again, or waits for mark where the
stop bit was space and RXD is so still, which its third sample tells (log entry 33). The echo of a sent character is
compared instead: a match goes on, a mismatch in SEND is a contention that stops the transmission at the end of the
character being sent, and one in HOLD, where the last character's echo may complete, is a contention at once (R36), with
the end times of log entry 39. That a character with no block in progress begins none (log entry 16), and that taking a
character leaves the gap timer to the clock (log entry 24), are the model's. -/
def Obligations.CharactersJoinTheBlock : Prop :=
  (∀ (c : CharSamples) (i : Nat), i < 10 → (charBits c).getLsbD i = maj3 (c.s7.getLsbD i) (c.s8.getLsbD i) (c.s9.getLsbD i))
  ∧ ∀ (s : State) (n : LineId) (l : Line) (cfg : LineConfig) (x : CharSamples) (v : Byte) (mark : Bool) (par : Bool),
    s.line n = l → l.config = some cfg → l.rx.state = .assembling →
    (∀ a, l.rx.age = some a → (16 * (if cfg.parity = .none then 9 else 10) + 9) * cfg.divider ≤ 16 * a) →
    v = (charBits x).setWidth 8 → mark = (charBits x).getLsbD 9 →
    par = (decide (cfg.parity ≠ .none) && ((charBits x).getLsbD 8 != parityBit cfg.parity v)) →
    ∃ t, exec (.characterReceived n x) s = .next t ∧ OnlyLine n s t
      ∧ (l.rx.echo = false →
          (t.line n).rx.state = (if mark || x.s9.getLsbD 9 then .hunting else .awaitMark)
          ∧ (t.line n).rx.mark = x.s9.getLsbD 9 ∧ (t.line n).tx = l.tx
          ∧ (t.line n).exch = l.exch ∧ (t.line n).rx.gap = l.rx.gap ∧ (t.line n).rx.armed = l.rx.armed
          ∧ (t.line n).counters = { l.counters with
              breaks := if mark = false ∧ v = 0#8 then min 4294967295 (l.counters.breaks + 1) else l.counters.breaks }
          ∧ (l.rx.block = none → (t.line n).rx.block = none)
          ∧ ∀ b, l.rx.block = some b → (t.line n).rx.block = some
              { b with chars := if b.chars.length < 205 then b.chars ++ [v] else b.chars
                       count := min 65535 (b.count + 1), framing := b.framing || !mark, parity := b.parity || par
                       brk := b.brk || (!mark && decide (v = 0#8)) })
      ∧ (∀ o e, l.rx.echo = true → l.tx.phase = .send → l.tx.stopAt = none → l.tx.order = some o →
          o.block[l.tx.echoMatched]? = some e →
          (t.line n).rx.block = l.rx.block
          ∧ (v = e ∧ mark = true ∧ par = false →
              (t.line n).tx = { l.tx with echoMatched := l.tx.echoMatched + 1 })
          ∧ (¬(v = e ∧ mark = true ∧ par = false) →
              (t.line n).tx = { l.tx with
                stopAt := some (min ((l.tx.age / (cfg.charTime * cfg.divider) + 1) * (cfg.charTime * cfg.divider))
                  (o.block.length * cfg.charTime * cfg.divider)) }))
      ∧ ∀ o e c, l.rx.echo = true → l.tx.phase = .hold → l.tx.order = some o → l.ctx o.ctx = some c →
          o.block[l.tx.echoMatched]? = some e →
          (t.line n).rx.block = l.rx.block
          ∧ (v = e ∧ mark = true ∧ par = false →
              (t.line n).tx = { l.tx with echoMatched := l.tx.echoMatched + 1 })
          ∧ (¬(v = e ∧ mark = true ∧ par = false) → Contends s t n cfg o c)

/-- R34, R36, R64: with the echo check on, a sent character whose echo has not begun within one bit time is a
contention. At the end of the character being sent DE is released and the order is gone; the context backs off by its
station's number modulo 8 in character times beyond G, or ends at the line's contention limit. That an ending's time is
that of the report is the model's choice (log entry 39). -/
def Obligations.ContentionBacksOff : Prop :=
  ∀ (s : State) (n : LineId) (l : Line) (cfg : LineConfig) (o : Order) (c : Ctx), s.line n = l →
    l.config = some cfg → l.tx.phase = .send → l.tx.order = some o → l.ctx o.ctx = some c →
    (∀ k, cfg.echo = true → l.tx.stopAt = none → k = l.tx.age / (cfg.charTime * cfg.divider) → l.tx.echoStarts ≤ k →
      l.tx.age < o.block.length * cfg.charTime * cfg.divider → (k * cfg.charTime + 1) * cfg.divider ≤ l.tx.age →
      exec (.echoMissing n) s = .next
        (s.setLine n { l with tx := { l.tx with stopAt := some ((k + 1) * (cfg.charTime * cfg.divider)) } }))
    ∧ (cfg.echo = false → exec (.echoMissing n) s = .next s)
    ∧ ∀ stop, l.tx.stopAt = some stop →
      (l.tx.age < stop → exec (.contentionStop n) s = .next s)
      ∧ (stop ≤ l.tx.age → ∃ t, exec (.contentionStop n) s = .next t ∧ Contends s t n cfg o c
          ∧ (t.line n).rx = { l.rx with armed := false, window := none, gap := 0 }
          ∧ (c.abortRequested = false → c.contentions + 1 < cfg.contentionLimit → (t.line n).counters =
              { l.counters with contentions := min 4294967295 (l.counters.contentions + 1) }))

/-- R5, R20, R23, R32 to R35, R113: the three samples of a start bit decide between noise, which is counted, and a
qualified start bit. While the receiver is armed with no block begun, one whose edge came inside the window begins the
reply and ends the window; otherwise one begins a block when the line counts as idle, belongs to an echo in SEND with
the echo check on, and in LEAD with the echo check on stops the transmission. Noise that ends after the reply window has
run out is NO_START. That a start bit on a line not yet idle begins no block is read from R5 and R23 (log entry 16), and
that NOISE_START or START_SEEN offered for the other kind of start bit changes nothing is the model's (log entry 1). -/
def Obligations.StartBitsBeginBlocks : Prop :=
  ∀ (s : State) (n : LineId) (l : Line) (cfg : LineConfig) (x : BitSamples) (opened : Bool → Line), s.line n = l →
    l.config = some cfg → l.rx.state = .qualifying → (∀ a, l.rx.age = some a → 9 * cfg.divider ≤ 16 * a) →
    (∀ reply, opened reply =
      { l with
        rx := { l.rx with
          state := .assembling, echo := false, idle := false
          window := if reply then none else l.rx.window
          block := some { chars := [], count := 0, framing := false, parity := false, brk := false
                          start := l.rx.edge, reply := reply } }
        mon := if cfg.mode = .monitor then { l.mon with blockFilter := some l.mon.filter } else l.mon }) →
    (maj3 x.s7 x.s8 x.s9 = true → ¬(l.rx.armed = true ∧ l.rx.block = none ∧ expired s.timebase l.rx.window = true) →
      exec (.noiseStart n x) s = .next
        (s.setLine n { l with
          rx := { l.rx with state := if x.s9 then .hunting else .awaitMark, age := none, gap := 0, mark := x.s9 }
          counters := { l.counters with noiseStarts := min 4294967295 (l.counters.noiseStarts + 1) } }))
    ∧ (∀ (i : CtxId) (c : Ctx) (s1 : State), maj3 x.s7 x.s8 x.s9 = true → l.rx.armed = true → l.rx.block = none →
        expired s.timebase l.rx.window = true → l.ctx i = some c → c.state = .listening → i ∈ l.exch.work →
        (∀ j d, l.ctx j = some d → d.state = .listening → j = i) →
        s1 = s.setLine n { l with
          rx := { l.rx with state := if x.s9 then .hunting else .awaitMark, age := none, gap := 0, mark := x.s9 }
          counters := { l.counters with noiseStarts := min 4294967295 (l.counters.noiseStarts + 1) } } →
        ∃ t, exec (.noiseStart n x) s = .next t ∧ AttemptFails s1 t n i cfg c .noReply
          ∧ (t.line n).rx = { (s1.line n).rx with armed := false, window := none })
    ∧ (maj3 x.s7 x.s8 x.s9 = false →
        exec (.noiseStart n x) s = .next s
        ∧ (l.rx.armed = true → l.rx.block = none → (∀ w, l.rx.window = some w → 2 ^ 31 ≤ (l.rx.edge - w).toNat) →
            exec (.startSeen n x) s = .next (s.setLine n (opened true)))
        ∧ (l.rx.armed = false ∨ l.rx.block ≠ none →
            exec (.startSeen n x) s = .next s
            ∧ (cfg.echo = false ∨ (l.tx.phase ≠ .lead ∧ l.tx.phase ≠ .send) →
                (l.rx.block = none → l.rx.idle = true →
                  exec (.qualifiedStartBit n x) s = .next (s.setLine n (opened false)))
                ∧ (l.rx.block ≠ none ∨ l.rx.idle = false → exec (.qualifiedStartBit n x) s = .next
                    (s.setLine n { l with rx := { l.rx with state := .assembling, echo := false } })))
            ∧ (cfg.echo = true → l.tx.phase = .send → exec (.qualifiedStartBit n x) s = .next
                (s.setLine n { l with rx := { l.rx with state := .assembling, echo := true }
                                      tx := { l.tx with echoStarts := l.tx.echoStarts + 1 } }))
            ∧ (cfg.echo = true → l.tx.phase = .lead → ∃ t, exec (.qualifiedStartBit n x) s = .next t ∧ OnlyLine n s t
                ∧ (t.line n).tx.de = false ∧ (t.line n).tx.phase ≠ .lead ∧ (t.line n).rx.state = .assembling
                ∧ ∀ o c, l.tx.order = some o → l.ctx o.ctx = some c → Contends s t n cfg o c)))

/-- R32, R33, R57, R63: the expiry of the reply window without a start bit of the reply disarms the receiver and fails
the attempt with NO_REPLY, also while another block is in progress; while the window runs nothing happens. -/
def Obligations.NoStartFailsTheAttempt : Prop :=
  ∀ (s : State) (n : LineId) (l : Line) (cfg : LineConfig) (x : Word) (i : CtxId) (c : Ctx), s.line n = l →
    l.config = some cfg → l.rx.armed = true → l.rx.window = some x → l.ctx i = some c →
    c.state = .listening → i ∈ l.exch.work → (∀ j d, l.ctx j = some d → d.state = .listening → j = i) →
    (2 ^ 31 ≤ (s.timebase - x).toNat → exec (.noStart n) s = .next s)
    ∧ ((s.timebase - x).toNat < 2 ^ 31 → l.rx.state ≠ .qualifying ∨ (l.rx.edge - x).toNat < 2 ^ 31 →
        ∃ t, exec (.noStart n) s = .next t ∧ (t.line n).rx = { l.rx with armed := false, window := none }
          ∧ AttemptFails s t n i cfg c .noReply)

/-- R23, R32, R39, R40, R57 to R61, R81, R116: the gap timer reaching G ends a block. The reply of a listening context
is judged by the seven checks in order, one that ends within HOLD is kept until SENT is reported (log entry 17), and a
stray block is counted; a block on a MONITOR line that its filter accepts is captured. -/
def Obligations.BlockEndHandsTheBlockOn : Prop :=
  (∀ (b : RxBlock) (a : Byte) (seq : Bool) (ctl : Byte), ctl = byteAt b.chars 1 →
    judgeReply b a seq =
      if ¬(5 ≤ b.count ∧ b.count ≤ 205 ∧ b.count = (byteAt b.chars 2).toNat + 5) then .fails .badLength
      else if b.brk then .fails .lineBreak
      else if b.framing ∨ b.parity then .fails .charError
      else if ¬(3 ≤ b.chars.length ∧
          crc16 (b.chars.take (b.chars.length - 2)) = half b.chars (b.chars.length - 2)) then .fails .badCheck
      else if byteAt b.chars 0 ≠ a then .fails .wrongStation
      else if ctl.toNat / 64 = 0 then .fails .badKind
      else if ctl.getLsbD 5 ≠ seq then .stale
      else if ctl.toNat / 64 = 1 then .data else if ctl.toNat / 64 = 2 then .wait else .refuse)
  ∧ ∀ (s : State) (n : LineId) (l : Line) (cfg : LineConfig) (b : RxBlock), s.line n = l → l.config = some cfg →
    l.rx.block = some b → l.rx.state = .hunting → cfg.gap * cfg.divider ≤ l.rx.gap →
    (cfg.mode = .master → (l.rx.armed = false ∨ b.reply = false
        ∨ (l.tx.phase ≠ .hold ∧ ∀ j d, l.ctx j = some d → d.state ≠ .listening)) → exec (.blockEnd n) s = .next
      (s.setLine n { l with rx := { l.rx with block := none, idle := true }
                            counters := { l.counters with
                              strayBlocks := min 4294967295 (l.counters.strayBlocks + 1) } }))
    ∧ (cfg.mode = .master → l.rx.armed = true → b.reply = true → l.tx.phase = .hold →
        (∀ j d, l.ctx j = some d → d.state ≠ .listening) → exec (.blockEnd n) s = .next
          (s.setLine n { l with rx := { l.rx with block := none, idle := true, armed := false, window := none
                                                  early := some (b, s.timebase) } }))
    ∧ (∀ (f : Filter) (m : MonBlock), cfg.mode = .monitor → l.mon.blockFilter = some f →
        l.state = .ready ∨ l.state = .fault →
        m = { chars := b.chars, start := b.start, crcBad := !b.checkPasses, charErr := b.framing || b.parity || b.brk
              overlong := decide (205 < b.count), lost := l.mon.lost, buffer := none, truncated := false
              status := .ok } →
        (l.mon.list ≠ [] → l.mon.phase = .slotWait → l.mon.slot ≠ .empty → f.accepts (byteAt b.chars 0) = false →
          exec (.blockEnd n) s = .next (s.setLine n
            { l with rx := { l.rx with block := none, idle := true }, mon := { l.mon with blockFilter := none } }))
        ∧ (l.mon.list ≠ [] → l.mon.phase = .slotWait → l.mon.slot ≠ .empty → f.accepts (byteAt b.chars 0) = true →
          exec (.blockEnd n) s = .next (s.setLine n
            (if l.mon.list.length < 4 then
               { l with rx := { l.rx with block := none, idle := true }
                        mon := { l.mon with blockFilter := none, lost := 0, list := l.mon.list ++ [m] }
                        counters := { l.counters with
                          monitorCaptured := min 4294967295 (l.counters.monitorCaptured + 1) } }
             else
               { l with rx := { l.rx with block := none, idle := true }
                        mon := { l.mon with blockFilter := none, lost := min 255 (l.mon.lost + 1) }
                        counters := { l.counters with
                          monitorLost := min 4294967295 (l.counters.monitorLost + 1) } })))
        ∧ ∀ d q, l.mon.list = [] → l.mon.phase = .idle → l.mon.slot = .held d → f.accepts (byteAt b.chars 0) = true →
            s.cqs[cfg.lineCq] = some q → q.state = .active → s.bqs[n] ≠ none →
            ∃ t, exec (.blockEnd n) s = .next t ∧ OnlyLine n s t
              ∧ (t.line n).mon.list = [{ m with buffer := some d, truncated := decide (d.capacity < b.chars.length) }]
              ∧ (t.line n).mon.phase = .writing ∧ (t.line n).mon.slot = .requested ∧ (t.line n).rx.block = none
              ∧ t.port.queues[lineEngine n] = s.port.queues[lineEngine n] ++
                  [{ addr := d.addr, kind := .write (b.chars.take d.capacity), use := .monitorData n }])
    ∧ ∀ (i : CtxId) (c : Ctx), cfg.mode = .master → l.rx.armed = true → b.reply = true → l.ctx i = some c →
        c.state = .listening → i ∈ l.exch.work → (∀ j d, l.ctx j = some d → d.state = .listening → j = i) →
        ∃ t, exec (.blockEnd n) s = .next t ∧ (t.line n).rx.block = none
          ∧ ReplyJudged s t n i cfg c b s.timebase

/-! ## Timers and inputs of a line (files 02, 03, 05, 07) -/

/-- R62, R65: when a broadcast's settle time has run out the exchange ends with SENT; when a hold-off has run out the
context is QUEUED again in its place, and an order waiting for a later context is withdrawn in its favour. -/
def Obligations.SettleAndHoldOffExpire : Prop :=
  ∀ (s : State) (n : LineId) (l : Line) (i : CtxId) (c : Ctx) (x : Word), s.line n = l → l.ctx i = some c →
    (c.state = .settling → i ∈ l.exch.work → (∀ j d, l.ctx j = some d → d.state = .settling → j = i) →
      l.exch.settle = some x →
      (2 ^ 31 ≤ (s.timebase - x).toNat → exec (.settleEnd n) s = .next s)
      ∧ ((s.timebase - x).toNat < 2 ^ 31 → ∀ k q, HostOn s c k q →
          ∃ t, exec (.settleEnd n) s = .next t
            ∧ PostedAs t n i k q c { c.ended l .sent s.timebase with abortLate := c.abortRequested || c.abortLate }
            ∧ (t.line n).exch.settle = none
            ∧ (∀ j, j ≠ i → (t.line n).ctx j = l.ctx j) ∧ SameWire l (t.line n) ∧ OnlyLine n s t))
    ∧ (c.state = .holding x →
        (2 ^ 31 ≤ (s.timebase - x).toNat → exec (.holdOffExpiry n i) s = .next s)
        ∧ ((s.timebase - x).toNat < 2 ^ 31 → ∃ t, exec (.holdOffExpiry n i) s = .next t
            ∧ (t.line n).ctx i = some { c with state := .queued } ∧ (t.line n).exch.work = l.exch.work
            ∧ (∀ j, j ≠ i → (t.line n).ctx j = l.ctx j) ∧ (t.line n).rx = l.rx ∧ OnlyLine n s t
            ∧ (l.tx.order = none → (t.line n).tx = l.tx)
            ∧ (l.tx.phase = .lead ∨ l.tx.phase = .send ∨ l.tx.phase = .hold → (t.line n).tx = l.tx)
            ∧ ∀ o d, l.tx.order = some o → l.tx.phase = .gapWait ∨ l.tx.phase = .readyWait → l.ctx o.ctx = some d →
                d.state = .queued → o.ctx ≠ i → FirstEligible (t.line n) i → (t.line n).tx = Transmitter.reset))

/-- R44, R50, R98 to R100: of the due entries of a line the one whose due time lies furthest back, and of equals the
lowest, falls due first. In READY with no instance of it in flight and a FREE context it is admitted as a poll instance;
otherwise in STARTING, READY and FAULT the due is skipped; in DRAINING and OFF nothing falls due. The next due time is
one period later, stretched to the probe period while the station is SILENT. -/
def Obligations.PollDueAdmitsOrSkips : Prop :=
  ∀ (s : State) (n : LineId) (l : Line) (cfg : LineConfig) (e : PollId) (p : PollEntry) (due next : Word),
    s.line n = l → l.config = some cfg → l.poll e = some p → p.run = .enabled due →
    ((s.timebase - due).toNat < 2 ^ 31 →
      (∀ e' p' due', l.poll e' = some p' → p'.run = .enabled due' → (s.timebase - due').toNat < 2 ^ 31 →
        (s.timebase - due').toNat < (s.timebase - due).toNat ∨ (due' = due ∧ e ≤ e')) →
      next = due + BitVec.ofNat 32 (1000 *
        (if l.healthOf p.station = some .silent then max p.period cfg.probe else p.period)) →
      (l.state = .ready → p.inFlight = none → (∃ j, l.ctx j = none ∧ l.exch.lent ≠ some j) →
        ∃ t k, exec (.pollDue n e) s = .next t ∧ l.ctx k = none ∧ l.exch.lent ≠ some k
          ∧ (t.line n).poll e = some { p with run := .enabled next, inFlight := some k }
          ∧ (∀ e', e' ≠ e → (t.line n).poll e' = l.poll e')
          ∧ (t.line n).ctx k = some
              { origin := .poll e, station := p.station, function := p.function, requestLength := p.payload.length
                store := p.payload, dest := .bufferQueue, retryLimit := p.retryLimit, fullRetries := false
                attempts := 0, waits := 0, contentions := 0, state := .queued, abortRequested := false
                abortLate := false, stopLate := false, abortAtAdmission := false, staleSeen := false, recordedHealth := none
                hasEntry := true, buffer := none, admitted := s.timebase, result := none }
          ∧ (∀ j, j ≠ k → (t.line n).ctx j = l.ctx j) ∧ (t.line n).exch.work = l.exch.work ++ [k]
          ∧ (∀ se, l.entry p.station = some se →
              (t.line n).entry p.station = some { se with lastUsed := s.timebase })
          ∧ (t.line n).counters = l.counters ∧ SameWire l (t.line n) ∧ OnlyLine n s t ∧ t.cqs = s.cqs
          ∧ t.admin = s.admin ∧ t.port = s.port ∧ t.bqs = s.bqs)
      ∧ (l.state = .starting ∨ l.state = .fault
            ∨ (l.state = .ready ∧ (p.inFlight ≠ none ∨ ∀ k, l.ctx k ≠ none ∨ l.exch.lent = some k)) →
          exec (.pollDue n e) s = .next
            (s.setLine n { (l.setPoll e (some { p with run := .enabled next, skips := min 65535 (p.skips + 1) })) with
              counters := { l.counters with pollSkips := min 4294967295 (l.counters.pollSkips + 1) } }))
      ∧ (l.state = .draining ∨ l.state = .off → exec (.pollDue n e) s = .next s))
    ∧ (2 ^ 31 ≤ (s.timebase - due).toNat → exec (.pollDue n e) s = .next s)

/-- R37, R69, R130, R132: the loss of CAR stops the transmitter and the receiver at once. A STARTING or READY line
goes to FAULT and its active contexts end, the others waiting on; a DRAINING line stays, and a DRAIN stop ends the
waiting contexts too. A LINE_DOWN notice names the state left. In OFF only the level changes. That a broadcast settling
in a drain with its abort asked for ends with ABORTED is read from R65 and R69 (log entry 40), and that CAR_DEASSERTED
offered while CAR is deasserted changes nothing is the model's (log entry 1). -/
def Obligations.CarrierLossStopsTheLine : Prop :=
  ∀ (s : State) (n : LineId) (l : Line), s.line n = l →
    (l.carrier = false → exec (.carDeasserted n) s = .next s)
    ∧ (l.carrier = true → l.state = .off →
        exec (.carDeasserted n) s = .next (s.setLine n { l with carrier := false }))
    ∧ (l.carrier = true → l.state = .starting ∨ l.state = .ready ∨ l.state = .draining →
        ∃ t, exec (.carDeasserted n) s = .next t ∧ (t.line n).tx = Transmitter.reset
          ∧ (t.line n).rx = l.rx.stop ∧ (t.line n).carrier = false ∧ (t.line n).exch.settle = none
          ∧ (t.line n).state = (if l.state = .draining then .draining else .fault)
          ∧ (t.line n).stop = l.stop ∧ (t.line n).config = l.config
          ∧ Noticed s t (.lineDown n l.state) ∧ OnlyLine n s t
          ∧ (l.state ≠ .starting → ∀ i ∈ l.exch.work, ∀ d, (t.line n).ctx i = some d → d.state.active = false)
          ∧ (l.state = .ready ∨ l.stop = some .immediate →
              ∀ i ∈ l.exch.work, ∀ c, l.ctx i = some c → c.state.active = false → (t.line n).ctx i = some c)
          ∧ (l.state = .draining → l.stop = some .drain → ∀ i ∈ l.exch.work, ∀ d, (t.line n).ctx i = some d →
              d.state ≠ .queued ∧ ∀ x, d.state ≠ .holding x)
          ∧ ∀ i ∈ l.exch.work, ∀ c k q, l.ctx i = some c → c.state = .listening → HostOn s c k q →
              l.state = .ready → ∃ d r, (t.line n).ctx i = some d ∧ d.state = .posting ∧ d.result = some r
                ∧ r.status = (if c.abortRequested then .aborted else .lineLost) ∧ r.endTime = s.timebase)

/-- R20, R22, R24, R27, R38, R129, R131: the return of CAR starts the receiver of a line that is not OFF and moves a
FAULT line to STARTING; the gap timer reaching G in STARTING makes the line READY with a LINE_UP notice. A falling edge
in HUNTING begins a start bit, sets the gap timer to 0 and takes an order out of READY_WAIT; RXD at mark ends
AWAIT_MARK. That CAR_REASSERTED offered while CAR is asserted, and QUIET offered short of G, without CAR or outside
STARTING, change nothing is the model's (log entry 1). -/
def Obligations.LineInputsAct : Prop :=
  ∀ (s : State) (n : LineId) (l : Line), s.line n = l →
    (l.carrier = true → exec (.carReasserted n) s = .next s)
    ∧ (l.carrier = false → exec (.carReasserted n) s = .next (s.setLine n
        (if l.state = .off then { l with carrier := true }
         else { l with carrier := true, state := if l.state = .fault then .starting else l.state, rx := l.rx.start })))
    ∧ (∀ cfg, l.config = some cfg →
        (l.state = .starting → l.carrier = true → cfg.gap * cfg.divider ≤ l.rx.gap →
          ∃ t, exec (.quiet n) s = .next t ∧ t.line n = { l with state := .ready } ∧ Noticed s t (.lineUp n)
            ∧ OnlyLine n s t ∧ t.port = s.port ∧ t.bqs = s.bqs)
        ∧ (l.state ≠ .starting ∨ l.carrier = false ∨ l.rx.gap < cfg.gap * cfg.divider →
            exec (.quiet n) s = .next s))
    ∧ (l.rx.state = .hunting → exec (.rxdFallingEdge n) s = .next (s.setLine n
        { l with rx := { l.rx with state := .qualifying, edge := s.timebase, age := some 0, gap := 0, mark := false }
                 tx := { l.tx with phase := if l.tx.phase = .readyWait then .gapWait else l.tx.phase } }))
    ∧ (l.rx.state ≠ .hunting → exec (.rxdFallingEdge n) s = .next
        (s.setLine n { l with rx := { l.rx with mark := false } }))
    ∧ exec (.rxdReturnToMark n) s = .next (s.setLine n
        { l with rx := { l.rx with mark := true
                                   state := if l.rx.state = .awaitMark then .hunting else l.rx.state } })

/-! ## Blocks and poll reports (files 01, 05) -/

/-- R9, R10, R12 to R14: the request block the KM840 sends, of at most 200 payload characters, is consistent in length
and passes the check when it is received with no character altered, and its first three characters are the address, the
control character and the length. -/
def Obligations.RequestBlockPassesItsCheck : Prop :=
  ∀ (a : Byte) (seq : Bool) (f : BitVec 5) (payload : List Byte) (b : RxBlock), payload.length ≤ 200 →
    b.chars = requestBlock a seq f payload → b.count = b.chars.length →
    b.consistent = true ∧ b.checkPasses = true ∧ b.payload = payload ∧ byteAt b.chars 0 = a
      ∧ controlKind (byteAt b.chars 1) = .request ∧ controlSeq (byteAt b.chars 1) = seq
      ∧ controlFunction (byteAt b.chars 1) = f ∧ b.chars.length = payload.length + 5

/-- R105, R107: in ON_CHANGE mode a failure is delivered when the last delivered status is absent or differs, whatever
the counts and the data, and the first good result after a delivered failure is delivered, whatever its data. -/
def Obligations.FailuresAreReportedOnceByStatus : Prop :=
  ∀ (p : PollEntry) (c : Ctx) (r : Result), p.mode = .onChange → r.status ≠ .ok → r.status ≠ .refused →
    (p.delivers c r = true ↔ p.lastStatus = none ∨ ∃ st, p.lastStatus = some st ∧ st ≠ r.status)
    ∧ (p.delivered c r).delivers c r = false
    ∧ ∀ (d : Ctx) (g : Result), g.status = .ok ∨ g.status = .refused → (p.delivered c r).delivers d g = true

/-! ## Laws that every step keeps -/

/-- R29: DE is asserted exactly while the transmitter is in LEAD, SEND or HOLD, and then the line is in MASTER mode and
in READY or DRAINING. -/
def Obligations.EveryStepKeepsDriverEnableLawful : Prop :=
  ∀ s t : State, s.deLawful → step s = .next t → t.deLawful

/-- R155: the entries posted to a completion queue and not yet acknowledged never exceed its size. -/
def Obligations.EveryStepKeepsCqsWithinSize : Prop :=
  ∀ s t : State, s.cqsWithinSize → step s = .next t → t.cqsWithinSize

/-- R74, R82, R83: every station entry of a configured line has a failure count from 0 to the line's silent threshold,
and the health that count gives. -/
def Obligations.EveryStepKeepsStationsLawful : Prop :=
  ∀ s t : State, s.stationsLawful → step s = .next t → t.stationsLawful

/-- R6, R74, R91, R111, R132, R156, R163, R191: the staging area, monitor capture's pending list and the notice holding
list never hold more than their places; the counters, the lost counts, the suppressed, skip, exchanges-ok,
exchanges-failed, stop ended and discard counts stop at their maxima; and host memory keeps its canonical form, which is
the model's own (log entry 5). The admin unit's pending list is not among them. -/
def Obligations.EveryStepKeepsBoundsAndMemory : Prop :=
  ∀ s t : State, s.noticesBounded → s.linesBounded → s.discardsBounded → s.memCanonical → step s = .next t →
    t.noticesBounded ∧ t.linesBounded ∧ t.discardsBounded ∧ t.memCanonical

/-- The laws above hold right after reset. -/
def Obligations.ResetIsLawful : Prop :=
  State.reset.deLawful ∧ State.reset.cqsWithinSize ∧ State.reset.stationsLawful ∧ State.reset.noticesBounded
    ∧ State.reset.linesBounded ∧ State.reset.discardsBounded ∧ State.reset.memCanonical
end

