-- ==== Sys2Proof/Laws/State.lean ====
section
/-! SUPPORT. One lemma per field per update of State, and of Line: true by rfl, used by simp, so that no proof unfolds a
record update. -/

namespace Sys2Proof.Machine


/-! ### State.setLine -/

@[simp] theorem State.setLine_held (s : State) (n : LineId) (l : Line) : (s.setLine n l).held = s.held := rfl
@[simp] theorem State.setLine_part (s : State) (n : LineId) (l : Line) : (s.setLine n l).part = s.part := rfl
@[simp] theorem State.setLine_haltCause (s : State) (n : LineId) (l : Line) : (s.setLine n l).haltCause = s.haltCause := rfl
@[simp] theorem State.setLine_hostError (s : State) (n : LineId) (l : Line) : (s.setLine n l).hostError = s.hostError := rfl
@[simp] theorem State.setLine_intEnable (s : State) (n : LineId) (l : Line) : (s.setLine n l).intEnable = s.intEnable := rfl
@[simp] theorem State.setLine_asqBase (s : State) (n : LineId) (l : Line) : (s.setLine n l).asqBase = s.asqBase := rfl
@[simp] theorem State.setLine_acqBase (s : State) (n : LineId) (l : Line) : (s.setLine n l).acqBase = s.acqBase := rfl
@[simp] theorem State.setLine_adminSize (s : State) (n : LineId) (l : Line) : (s.setLine n l).adminSize = s.adminSize := rfl
@[simp] theorem State.setLine_answer (s : State) (n : LineId) (l : Line) : (s.setLine n l).answer = s.answer := rfl
@[simp] theorem State.setLine_timebase (s : State) (n : LineId) (l : Line) : (s.setLine n l).timebase = s.timebase := rfl
@[simp] theorem State.setLine_fraction (s : State) (n : LineId) (l : Line) : (s.setLine n l).fraction = s.fraction := rfl
@[simp] theorem State.setLine_port (s : State) (n : LineId) (l : Line) : (s.setLine n l).port = s.port := rfl
@[simp] theorem State.setLine_sqs (s : State) (n : LineId) (l : Line) : (s.setLine n l).sqs = s.sqs := rfl
@[simp] theorem State.setLine_cqs (s : State) (n : LineId) (l : Line) : (s.setLine n l).cqs = s.cqs := rfl
@[simp] theorem State.setLine_bqs (s : State) (n : LineId) (l : Line) : (s.setLine n l).bqs = s.bqs := rfl
@[simp] theorem State.setLine_admin (s : State) (n : LineId) (l : Line) : (s.setLine n l).admin = s.admin := rfl
@[simp] theorem State.setLine_lines (s : State) (n : LineId) (l : Line) : (s.setLine n l).lines = s.lines.set n l := rfl
@[simp] theorem State.setLine_mem (s : State) (n : LineId) (l : Line) : (s.setLine n l).mem = s.mem := rfl
@[simp] theorem State.setLine_pending (s : State) (n : LineId) (l : Line) : (s.setLine n l).pending = s.pending := rfl

/-! ### State.modLine -/

@[simp] theorem State.modLine_held (s : State) (n : LineId) (f : Line → Line) : (s.modLine n f).held = s.held := rfl
@[simp] theorem State.modLine_part (s : State) (n : LineId) (f : Line → Line) : (s.modLine n f).part = s.part := rfl
@[simp] theorem State.modLine_haltCause (s : State) (n : LineId) (f : Line → Line) : (s.modLine n f).haltCause = s.haltCause := rfl
@[simp] theorem State.modLine_hostError (s : State) (n : LineId) (f : Line → Line) : (s.modLine n f).hostError = s.hostError := rfl
@[simp] theorem State.modLine_intEnable (s : State) (n : LineId) (f : Line → Line) : (s.modLine n f).intEnable = s.intEnable := rfl
@[simp] theorem State.modLine_asqBase (s : State) (n : LineId) (f : Line → Line) : (s.modLine n f).asqBase = s.asqBase := rfl
@[simp] theorem State.modLine_acqBase (s : State) (n : LineId) (f : Line → Line) : (s.modLine n f).acqBase = s.acqBase := rfl
@[simp] theorem State.modLine_adminSize (s : State) (n : LineId) (f : Line → Line) : (s.modLine n f).adminSize = s.adminSize := rfl
@[simp] theorem State.modLine_answer (s : State) (n : LineId) (f : Line → Line) : (s.modLine n f).answer = s.answer := rfl
@[simp] theorem State.modLine_timebase (s : State) (n : LineId) (f : Line → Line) : (s.modLine n f).timebase = s.timebase := rfl
@[simp] theorem State.modLine_fraction (s : State) (n : LineId) (f : Line → Line) : (s.modLine n f).fraction = s.fraction := rfl
@[simp] theorem State.modLine_port (s : State) (n : LineId) (f : Line → Line) : (s.modLine n f).port = s.port := rfl
@[simp] theorem State.modLine_sqs (s : State) (n : LineId) (f : Line → Line) : (s.modLine n f).sqs = s.sqs := rfl
@[simp] theorem State.modLine_cqs (s : State) (n : LineId) (f : Line → Line) : (s.modLine n f).cqs = s.cqs := rfl
@[simp] theorem State.modLine_bqs (s : State) (n : LineId) (f : Line → Line) : (s.modLine n f).bqs = s.bqs := rfl
@[simp] theorem State.modLine_admin (s : State) (n : LineId) (f : Line → Line) : (s.modLine n f).admin = s.admin := rfl
@[simp] theorem State.modLine_lines (s : State) (n : LineId) (f : Line → Line) : (s.modLine n f).lines = s.lines.set n (f (s.line n)) := rfl
@[simp] theorem State.modLine_mem (s : State) (n : LineId) (f : Line → Line) : (s.modLine n f).mem = s.mem := rfl
@[simp] theorem State.modLine_pending (s : State) (n : LineId) (f : Line → Line) : (s.modLine n f).pending = s.pending := rfl

/-! ### State.setSq -/

@[simp] theorem State.setSq_held (s : State) (i : SqId) (q : Option Sq) : (s.setSq i q).held = s.held := rfl
@[simp] theorem State.setSq_part (s : State) (i : SqId) (q : Option Sq) : (s.setSq i q).part = s.part := rfl
@[simp] theorem State.setSq_haltCause (s : State) (i : SqId) (q : Option Sq) : (s.setSq i q).haltCause = s.haltCause := rfl
@[simp] theorem State.setSq_hostError (s : State) (i : SqId) (q : Option Sq) : (s.setSq i q).hostError = s.hostError := rfl
@[simp] theorem State.setSq_intEnable (s : State) (i : SqId) (q : Option Sq) : (s.setSq i q).intEnable = s.intEnable := rfl
@[simp] theorem State.setSq_asqBase (s : State) (i : SqId) (q : Option Sq) : (s.setSq i q).asqBase = s.asqBase := rfl
@[simp] theorem State.setSq_acqBase (s : State) (i : SqId) (q : Option Sq) : (s.setSq i q).acqBase = s.acqBase := rfl
@[simp] theorem State.setSq_adminSize (s : State) (i : SqId) (q : Option Sq) : (s.setSq i q).adminSize = s.adminSize := rfl
@[simp] theorem State.setSq_answer (s : State) (i : SqId) (q : Option Sq) : (s.setSq i q).answer = s.answer := rfl
@[simp] theorem State.setSq_timebase (s : State) (i : SqId) (q : Option Sq) : (s.setSq i q).timebase = s.timebase := rfl
@[simp] theorem State.setSq_fraction (s : State) (i : SqId) (q : Option Sq) : (s.setSq i q).fraction = s.fraction := rfl
@[simp] theorem State.setSq_port (s : State) (i : SqId) (q : Option Sq) : (s.setSq i q).port = s.port := rfl
@[simp] theorem State.setSq_sqs (s : State) (i : SqId) (q : Option Sq) : (s.setSq i q).sqs = s.sqs.set i q := rfl
@[simp] theorem State.setSq_cqs (s : State) (i : SqId) (q : Option Sq) : (s.setSq i q).cqs = s.cqs := rfl
@[simp] theorem State.setSq_bqs (s : State) (i : SqId) (q : Option Sq) : (s.setSq i q).bqs = s.bqs := rfl
@[simp] theorem State.setSq_admin (s : State) (i : SqId) (q : Option Sq) : (s.setSq i q).admin = s.admin := rfl
@[simp] theorem State.setSq_lines (s : State) (i : SqId) (q : Option Sq) : (s.setSq i q).lines = s.lines := rfl
@[simp] theorem State.setSq_mem (s : State) (i : SqId) (q : Option Sq) : (s.setSq i q).mem = s.mem := rfl
@[simp] theorem State.setSq_pending (s : State) (i : SqId) (q : Option Sq) : (s.setSq i q).pending = s.pending := rfl

/-! ### State.setCq -/

@[simp] theorem State.setCq_held (s : State) (i : CqId) (q : Option Cq) : (s.setCq i q).held = s.held := rfl
@[simp] theorem State.setCq_part (s : State) (i : CqId) (q : Option Cq) : (s.setCq i q).part = s.part := rfl
@[simp] theorem State.setCq_haltCause (s : State) (i : CqId) (q : Option Cq) : (s.setCq i q).haltCause = s.haltCause := rfl
@[simp] theorem State.setCq_hostError (s : State) (i : CqId) (q : Option Cq) : (s.setCq i q).hostError = s.hostError := rfl
@[simp] theorem State.setCq_intEnable (s : State) (i : CqId) (q : Option Cq) : (s.setCq i q).intEnable = s.intEnable := rfl
@[simp] theorem State.setCq_asqBase (s : State) (i : CqId) (q : Option Cq) : (s.setCq i q).asqBase = s.asqBase := rfl
@[simp] theorem State.setCq_acqBase (s : State) (i : CqId) (q : Option Cq) : (s.setCq i q).acqBase = s.acqBase := rfl
@[simp] theorem State.setCq_adminSize (s : State) (i : CqId) (q : Option Cq) : (s.setCq i q).adminSize = s.adminSize := rfl
@[simp] theorem State.setCq_answer (s : State) (i : CqId) (q : Option Cq) : (s.setCq i q).answer = s.answer := rfl
@[simp] theorem State.setCq_timebase (s : State) (i : CqId) (q : Option Cq) : (s.setCq i q).timebase = s.timebase := rfl
@[simp] theorem State.setCq_fraction (s : State) (i : CqId) (q : Option Cq) : (s.setCq i q).fraction = s.fraction := rfl
@[simp] theorem State.setCq_port (s : State) (i : CqId) (q : Option Cq) : (s.setCq i q).port = s.port := rfl
@[simp] theorem State.setCq_sqs (s : State) (i : CqId) (q : Option Cq) : (s.setCq i q).sqs = s.sqs := rfl
@[simp] theorem State.setCq_cqs (s : State) (i : CqId) (q : Option Cq) : (s.setCq i q).cqs = s.cqs.set i q := rfl
@[simp] theorem State.setCq_bqs (s : State) (i : CqId) (q : Option Cq) : (s.setCq i q).bqs = s.bqs := rfl
@[simp] theorem State.setCq_admin (s : State) (i : CqId) (q : Option Cq) : (s.setCq i q).admin = s.admin := rfl
@[simp] theorem State.setCq_lines (s : State) (i : CqId) (q : Option Cq) : (s.setCq i q).lines = s.lines := rfl
@[simp] theorem State.setCq_mem (s : State) (i : CqId) (q : Option Cq) : (s.setCq i q).mem = s.mem := rfl
@[simp] theorem State.setCq_pending (s : State) (i : CqId) (q : Option Cq) : (s.setCq i q).pending = s.pending := rfl

/-! ### State.setBq -/

@[simp] theorem State.setBq_held (s : State) (n : LineId) (q : Option Bq) : (s.setBq n q).held = s.held := rfl
@[simp] theorem State.setBq_part (s : State) (n : LineId) (q : Option Bq) : (s.setBq n q).part = s.part := rfl
@[simp] theorem State.setBq_haltCause (s : State) (n : LineId) (q : Option Bq) : (s.setBq n q).haltCause = s.haltCause := rfl
@[simp] theorem State.setBq_hostError (s : State) (n : LineId) (q : Option Bq) : (s.setBq n q).hostError = s.hostError := rfl
@[simp] theorem State.setBq_intEnable (s : State) (n : LineId) (q : Option Bq) : (s.setBq n q).intEnable = s.intEnable := rfl
@[simp] theorem State.setBq_asqBase (s : State) (n : LineId) (q : Option Bq) : (s.setBq n q).asqBase = s.asqBase := rfl
@[simp] theorem State.setBq_acqBase (s : State) (n : LineId) (q : Option Bq) : (s.setBq n q).acqBase = s.acqBase := rfl
@[simp] theorem State.setBq_adminSize (s : State) (n : LineId) (q : Option Bq) : (s.setBq n q).adminSize = s.adminSize := rfl
@[simp] theorem State.setBq_answer (s : State) (n : LineId) (q : Option Bq) : (s.setBq n q).answer = s.answer := rfl
@[simp] theorem State.setBq_timebase (s : State) (n : LineId) (q : Option Bq) : (s.setBq n q).timebase = s.timebase := rfl
@[simp] theorem State.setBq_fraction (s : State) (n : LineId) (q : Option Bq) : (s.setBq n q).fraction = s.fraction := rfl
@[simp] theorem State.setBq_port (s : State) (n : LineId) (q : Option Bq) : (s.setBq n q).port = s.port := rfl
@[simp] theorem State.setBq_sqs (s : State) (n : LineId) (q : Option Bq) : (s.setBq n q).sqs = s.sqs := rfl
@[simp] theorem State.setBq_cqs (s : State) (n : LineId) (q : Option Bq) : (s.setBq n q).cqs = s.cqs := rfl
@[simp] theorem State.setBq_bqs (s : State) (n : LineId) (q : Option Bq) : (s.setBq n q).bqs = s.bqs.set n q := rfl
@[simp] theorem State.setBq_admin (s : State) (n : LineId) (q : Option Bq) : (s.setBq n q).admin = s.admin := rfl
@[simp] theorem State.setBq_lines (s : State) (n : LineId) (q : Option Bq) : (s.setBq n q).lines = s.lines := rfl
@[simp] theorem State.setBq_mem (s : State) (n : LineId) (q : Option Bq) : (s.setBq n q).mem = s.mem := rfl
@[simp] theorem State.setBq_pending (s : State) (n : LineId) (q : Option Bq) : (s.setBq n q).pending = s.pending := rfl

/-! ### State.modAdmin -/

@[simp] theorem State.modAdmin_held (s : State) (f : Admin → Admin) : (s.modAdmin f).held = s.held := rfl
@[simp] theorem State.modAdmin_part (s : State) (f : Admin → Admin) : (s.modAdmin f).part = s.part := rfl
@[simp] theorem State.modAdmin_haltCause (s : State) (f : Admin → Admin) : (s.modAdmin f).haltCause = s.haltCause := rfl
@[simp] theorem State.modAdmin_hostError (s : State) (f : Admin → Admin) : (s.modAdmin f).hostError = s.hostError := rfl
@[simp] theorem State.modAdmin_intEnable (s : State) (f : Admin → Admin) : (s.modAdmin f).intEnable = s.intEnable := rfl
@[simp] theorem State.modAdmin_asqBase (s : State) (f : Admin → Admin) : (s.modAdmin f).asqBase = s.asqBase := rfl
@[simp] theorem State.modAdmin_acqBase (s : State) (f : Admin → Admin) : (s.modAdmin f).acqBase = s.acqBase := rfl
@[simp] theorem State.modAdmin_adminSize (s : State) (f : Admin → Admin) : (s.modAdmin f).adminSize = s.adminSize := rfl
@[simp] theorem State.modAdmin_answer (s : State) (f : Admin → Admin) : (s.modAdmin f).answer = s.answer := rfl
@[simp] theorem State.modAdmin_timebase (s : State) (f : Admin → Admin) : (s.modAdmin f).timebase = s.timebase := rfl
@[simp] theorem State.modAdmin_fraction (s : State) (f : Admin → Admin) : (s.modAdmin f).fraction = s.fraction := rfl
@[simp] theorem State.modAdmin_port (s : State) (f : Admin → Admin) : (s.modAdmin f).port = s.port := rfl
@[simp] theorem State.modAdmin_sqs (s : State) (f : Admin → Admin) : (s.modAdmin f).sqs = s.sqs := rfl
@[simp] theorem State.modAdmin_cqs (s : State) (f : Admin → Admin) : (s.modAdmin f).cqs = s.cqs := rfl
@[simp] theorem State.modAdmin_bqs (s : State) (f : Admin → Admin) : (s.modAdmin f).bqs = s.bqs := rfl
@[simp] theorem State.modAdmin_admin (s : State) (f : Admin → Admin) : (s.modAdmin f).admin = f s.admin := rfl
@[simp] theorem State.modAdmin_lines (s : State) (f : Admin → Admin) : (s.modAdmin f).lines = s.lines := rfl
@[simp] theorem State.modAdmin_mem (s : State) (f : Admin → Admin) : (s.modAdmin f).mem = s.mem := rfl
@[simp] theorem State.modAdmin_pending (s : State) (f : Admin → Admin) : (s.modAdmin f).pending = s.pending := rfl

/-! ### State.modPort -/

@[simp] theorem State.modPort_held (s : State) (f : Port → Port) : (s.modPort f).held = s.held := rfl
@[simp] theorem State.modPort_part (s : State) (f : Port → Port) : (s.modPort f).part = s.part := rfl
@[simp] theorem State.modPort_haltCause (s : State) (f : Port → Port) : (s.modPort f).haltCause = s.haltCause := rfl
@[simp] theorem State.modPort_hostError (s : State) (f : Port → Port) : (s.modPort f).hostError = s.hostError := rfl
@[simp] theorem State.modPort_intEnable (s : State) (f : Port → Port) : (s.modPort f).intEnable = s.intEnable := rfl
@[simp] theorem State.modPort_asqBase (s : State) (f : Port → Port) : (s.modPort f).asqBase = s.asqBase := rfl
@[simp] theorem State.modPort_acqBase (s : State) (f : Port → Port) : (s.modPort f).acqBase = s.acqBase := rfl
@[simp] theorem State.modPort_adminSize (s : State) (f : Port → Port) : (s.modPort f).adminSize = s.adminSize := rfl
@[simp] theorem State.modPort_answer (s : State) (f : Port → Port) : (s.modPort f).answer = s.answer := rfl
@[simp] theorem State.modPort_timebase (s : State) (f : Port → Port) : (s.modPort f).timebase = s.timebase := rfl
@[simp] theorem State.modPort_fraction (s : State) (f : Port → Port) : (s.modPort f).fraction = s.fraction := rfl
@[simp] theorem State.modPort_port (s : State) (f : Port → Port) : (s.modPort f).port = f s.port := rfl
@[simp] theorem State.modPort_sqs (s : State) (f : Port → Port) : (s.modPort f).sqs = s.sqs := rfl
@[simp] theorem State.modPort_cqs (s : State) (f : Port → Port) : (s.modPort f).cqs = s.cqs := rfl
@[simp] theorem State.modPort_bqs (s : State) (f : Port → Port) : (s.modPort f).bqs = s.bqs := rfl
@[simp] theorem State.modPort_admin (s : State) (f : Port → Port) : (s.modPort f).admin = s.admin := rfl
@[simp] theorem State.modPort_lines (s : State) (f : Port → Port) : (s.modPort f).lines = s.lines := rfl
@[simp] theorem State.modPort_mem (s : State) (f : Port → Port) : (s.modPort f).mem = s.mem := rfl
@[simp] theorem State.modPort_pending (s : State) (f : Port → Port) : (s.modPort f).pending = s.pending := rfl

/-! ### State.recordError -/

@[simp] theorem State.recordError_held (s : State) (e : HostError) : (s.recordError e).held = s.held := rfl
@[simp] theorem State.recordError_part (s : State) (e : HostError) : (s.recordError e).part = s.part := rfl
@[simp] theorem State.recordError_haltCause (s : State) (e : HostError) : (s.recordError e).haltCause = s.haltCause := rfl
@[simp] theorem State.recordError_hostError (s : State) (e : HostError) : (s.recordError e).hostError = e := rfl
@[simp] theorem State.recordError_intEnable (s : State) (e : HostError) : (s.recordError e).intEnable = s.intEnable := rfl
@[simp] theorem State.recordError_asqBase (s : State) (e : HostError) : (s.recordError e).asqBase = s.asqBase := rfl
@[simp] theorem State.recordError_acqBase (s : State) (e : HostError) : (s.recordError e).acqBase = s.acqBase := rfl
@[simp] theorem State.recordError_adminSize (s : State) (e : HostError) : (s.recordError e).adminSize = s.adminSize := rfl
@[simp] theorem State.recordError_answer (s : State) (e : HostError) : (s.recordError e).answer = s.answer := rfl
@[simp] theorem State.recordError_timebase (s : State) (e : HostError) : (s.recordError e).timebase = s.timebase := rfl
@[simp] theorem State.recordError_fraction (s : State) (e : HostError) : (s.recordError e).fraction = s.fraction := rfl
@[simp] theorem State.recordError_port (s : State) (e : HostError) : (s.recordError e).port = s.port := rfl
@[simp] theorem State.recordError_sqs (s : State) (e : HostError) : (s.recordError e).sqs = s.sqs := rfl
@[simp] theorem State.recordError_cqs (s : State) (e : HostError) : (s.recordError e).cqs = s.cqs := rfl
@[simp] theorem State.recordError_bqs (s : State) (e : HostError) : (s.recordError e).bqs = s.bqs := rfl
@[simp] theorem State.recordError_admin (s : State) (e : HostError) : (s.recordError e).admin = s.admin := rfl
@[simp] theorem State.recordError_lines (s : State) (e : HostError) : (s.recordError e).lines = s.lines := rfl
@[simp] theorem State.recordError_mem (s : State) (e : HostError) : (s.recordError e).mem = s.mem := rfl
@[simp] theorem State.recordError_pending (s : State) (e : HostError) : (s.recordError e).pending = s.pending := rfl

/-! ### State.portFree -/

@[simp] theorem State.portFree_held (s : State) : (s.portFree).held = s.held := rfl
@[simp] theorem State.portFree_part (s : State) : (s.portFree).part = s.part := rfl
@[simp] theorem State.portFree_haltCause (s : State) : (s.portFree).haltCause = s.haltCause := rfl
@[simp] theorem State.portFree_hostError (s : State) : (s.portFree).hostError = s.hostError := rfl
@[simp] theorem State.portFree_intEnable (s : State) : (s.portFree).intEnable = s.intEnable := rfl
@[simp] theorem State.portFree_asqBase (s : State) : (s.portFree).asqBase = s.asqBase := rfl
@[simp] theorem State.portFree_acqBase (s : State) : (s.portFree).acqBase = s.acqBase := rfl
@[simp] theorem State.portFree_adminSize (s : State) : (s.portFree).adminSize = s.adminSize := rfl
@[simp] theorem State.portFree_answer (s : State) : (s.portFree).answer = s.answer := rfl
@[simp] theorem State.portFree_timebase (s : State) : (s.portFree).timebase = s.timebase := rfl
@[simp] theorem State.portFree_fraction (s : State) : (s.portFree).fraction = s.fraction := rfl
@[simp] theorem State.portFree_sqs (s : State) : (s.portFree).sqs = s.sqs := rfl
@[simp] theorem State.portFree_cqs (s : State) : (s.portFree).cqs = s.cqs := rfl
@[simp] theorem State.portFree_bqs (s : State) : (s.portFree).bqs = s.bqs := rfl
@[simp] theorem State.portFree_admin (s : State) : (s.portFree).admin = s.admin := rfl
@[simp] theorem State.portFree_lines (s : State) : (s.portFree).lines = s.lines := rfl
@[simp] theorem State.portFree_mem (s : State) : (s.portFree).mem = s.mem := rfl
@[simp] theorem State.portFree_pending (s : State) : (s.portFree).pending = s.pending := rfl

/-! ### State.issue -/

@[simp] theorem State.issue_held (s : State) (r : ReqId) (t : Transfer) : (s.issue r t).held = s.held := rfl
@[simp] theorem State.issue_part (s : State) (r : ReqId) (t : Transfer) : (s.issue r t).part = s.part := rfl
@[simp] theorem State.issue_haltCause (s : State) (r : ReqId) (t : Transfer) : (s.issue r t).haltCause = s.haltCause := rfl
@[simp] theorem State.issue_hostError (s : State) (r : ReqId) (t : Transfer) : (s.issue r t).hostError = s.hostError := rfl
@[simp] theorem State.issue_intEnable (s : State) (r : ReqId) (t : Transfer) : (s.issue r t).intEnable = s.intEnable := rfl
@[simp] theorem State.issue_asqBase (s : State) (r : ReqId) (t : Transfer) : (s.issue r t).asqBase = s.asqBase := rfl
@[simp] theorem State.issue_acqBase (s : State) (r : ReqId) (t : Transfer) : (s.issue r t).acqBase = s.acqBase := rfl
@[simp] theorem State.issue_adminSize (s : State) (r : ReqId) (t : Transfer) : (s.issue r t).adminSize = s.adminSize := rfl
@[simp] theorem State.issue_answer (s : State) (r : ReqId) (t : Transfer) : (s.issue r t).answer = s.answer := rfl
@[simp] theorem State.issue_timebase (s : State) (r : ReqId) (t : Transfer) : (s.issue r t).timebase = s.timebase := rfl
@[simp] theorem State.issue_fraction (s : State) (r : ReqId) (t : Transfer) : (s.issue r t).fraction = s.fraction := rfl
@[simp] theorem State.issue_sqs (s : State) (r : ReqId) (t : Transfer) : (s.issue r t).sqs = s.sqs := rfl
@[simp] theorem State.issue_cqs (s : State) (r : ReqId) (t : Transfer) : (s.issue r t).cqs = s.cqs := rfl
@[simp] theorem State.issue_bqs (s : State) (r : ReqId) (t : Transfer) : (s.issue r t).bqs = s.bqs := rfl
@[simp] theorem State.issue_admin (s : State) (r : ReqId) (t : Transfer) : (s.issue r t).admin = s.admin := rfl
@[simp] theorem State.issue_lines (s : State) (r : ReqId) (t : Transfer) : (s.issue r t).lines = s.lines := rfl
@[simp] theorem State.issue_mem (s : State) (r : ReqId) (t : Transfer) : (s.issue r t).mem = s.mem := rfl
@[simp] theorem State.issue_pending (s : State) (r : ReqId) (t : Transfer) : (s.issue r t).pending = s.pending := rfl

@[simp] theorem State.portFree_port (s : State) :
    s.portFree.port = { queues := s.port.queues, current := none, position := s.port.position } := rfl

@[simp] theorem State.issue_current (s : State) (r : ReqId) (t : Transfer) :
    (s.issue r t).port.current = s.port.current := rfl

@[simp] theorem State.issue_position (s : State) (r : ReqId) (t : Transfer) :
    (s.issue r t).port.position = s.port.position := rfl

@[simp] theorem State.issue_queues (s : State) (r : ReqId) (t : Transfer) :
    (s.issue r t).port.queues = s.port.queues.set r (s.port.queues[r] ++ [t]) := rfl

/-! ### Reaching one line, one queue -/

@[simp] theorem State.line_setLine_self (s : State) (n : LineId) (l : Line) : (s.setLine n l).line n = l := by
  simp [State.line, State.setLine]

theorem State.line_setLine_ne (s : State) {n m : LineId} (l : Line) (h : m ≠ n) : (s.setLine n l).line m = s.line m := by
  have : (n : Nat) ≠ m := fun e => h (Fin.ext e.symm)
  simp [State.line, State.setLine, this]

theorem State.line_setLine (s : State) (n m : LineId) (l : Line) :
    (s.setLine n l).line m = if m = n then l else s.line m := by
  by_cases h : m = n
  · subst h; simp
  · simp [h, State.line_setLine_ne]

@[simp] theorem State.line_modLine_self (s : State) (n : LineId) (f : Line → Line) :
    (s.modLine n f).line n = f (s.line n) := by simp [State.modLine]

theorem State.line_modLine_ne (s : State) {n m : LineId} (f : Line → Line) (h : m ≠ n) :
    (s.modLine n f).line m = s.line m := State.line_setLine_ne s _ h

theorem State.line_modLine (s : State) (n m : LineId) (f : Line → Line) :
    (s.modLine n f).line m = if m = n then f (s.line n) else s.line m := State.line_setLine s n m _

@[simp] theorem State.line_setSq (s : State) (i : SqId) (q : Option Sq) (m : LineId) : (s.setSq i q).line m = s.line m := rfl
@[simp] theorem State.line_setCq (s : State) (i : CqId) (q : Option Cq) (m : LineId) : (s.setCq i q).line m = s.line m := rfl
@[simp] theorem State.line_setBq (s : State) (n : LineId) (q : Option Bq) (m : LineId) : (s.setBq n q).line m = s.line m := rfl
@[simp] theorem State.line_modAdmin (s : State) (f : Admin → Admin) (m : LineId) : (s.modAdmin f).line m = s.line m := rfl
@[simp] theorem State.line_modPort (s : State) (f : Port → Port) (m : LineId) : (s.modPort f).line m = s.line m := rfl
@[simp] theorem State.line_recordError (s : State) (e : HostError) (m : LineId) : (s.recordError e).line m = s.line m := rfl
@[simp] theorem State.line_portFree (s : State) (m : LineId) : (s.portFree).line m = s.line m := rfl
@[simp] theorem State.line_issue (s : State) (r : ReqId) (t : Transfer) (m : LineId) : (s.issue r t).line m = s.line m := rfl

theorem State.cq_setCq (s : State) (i j : CqId) (q : Option Cq) :
    (s.setCq i q).cqs[j] = if j = i then q else s.cqs[j] := by
  by_cases h : j = i
  · subst h; simp
  · have : (i : Nat) ≠ j := fun e => h (Fin.ext e.symm)
    simp [h, this]

theorem State.sq_setSq (s : State) (i j : SqId) (q : Option Sq) :
    (s.setSq i q).sqs[j] = if j = i then q else s.sqs[j] := by
  by_cases h : j = i
  · subst h; simp
  · have : (i : Nat) ≠ j := fun e => h (Fin.ext e.symm)
    simp [h, this]

theorem State.bq_setBq (s : State) (i j : LineId) (q : Option Bq) :
    (s.setBq i q).bqs[j] = if j = i then q else s.bqs[j] := by
  by_cases h : j = i
  · subst h; simp
  · have : (i : Nat) ≠ j := fun e => h (Fin.ext e.symm)
    simp [h, this]


/-! ### Line.setCtx -/

@[simp] theorem Line.setCtx_state (l : Line) (i : CtxId) (c : Option Ctx) : (l.setCtx i c).state = l.state := rfl
@[simp] theorem Line.setCtx_config (l : Line) (i : CtxId) (c : Option Ctx) : (l.setCtx i c).config = l.config := rfl
@[simp] theorem Line.setCtx_stop (l : Line) (i : CtxId) (c : Option Ctx) : (l.setCtx i c).stop = l.stop := rfl
@[simp] theorem Line.setCtx_stopEnded (l : Line) (i : CtxId) (c : Option Ctx) : (l.setCtx i c).stopEnded = l.stopEnded := rfl
@[simp] theorem Line.setCtx_carrier (l : Line) (i : CtxId) (c : Option Ctx) : (l.setCtx i c).carrier = l.carrier := rfl
@[simp] theorem Line.setCtx_rdy (l : Line) (i : CtxId) (c : Option Ctx) : (l.setCtx i c).rdy = l.rdy := rfl
@[simp] theorem Line.setCtx_tx (l : Line) (i : CtxId) (c : Option Ctx) : (l.setCtx i c).tx = l.tx := rfl
@[simp] theorem Line.setCtx_rx (l : Line) (i : CtxId) (c : Option Ctx) : (l.setCtx i c).rx = l.rx := rfl
@[simp] theorem Line.setCtx_stations (l : Line) (i : CtxId) (c : Option Ctx) : (l.setCtx i c).stations = l.stations := rfl
@[simp] theorem Line.setCtx_polls (l : Line) (i : CtxId) (c : Option Ctx) : (l.setCtx i c).polls = l.polls := rfl
@[simp] theorem Line.setCtx_pollLost (l : Line) (i : CtxId) (c : Option Ctx) : (l.setCtx i c).pollLost = l.pollLost := rfl
@[simp] theorem Line.setCtx_mon (l : Line) (i : CtxId) (c : Option Ctx) : (l.setCtx i c).mon = l.mon := rfl
@[simp] theorem Line.setCtx_arbiter (l : Line) (i : CtxId) (c : Option Ctx) : (l.setCtx i c).arbiter = l.arbiter := rfl
@[simp] theorem Line.setCtx_counters (l : Line) (i : CtxId) (c : Option Ctx) : (l.setCtx i c).counters = l.counters := rfl

/-! ### Line.setPoll -/

@[simp] theorem Line.setPoll_state (l : Line) (e : PollId) (p : Option PollEntry) : (l.setPoll e p).state = l.state := rfl
@[simp] theorem Line.setPoll_config (l : Line) (e : PollId) (p : Option PollEntry) : (l.setPoll e p).config = l.config := rfl
@[simp] theorem Line.setPoll_stop (l : Line) (e : PollId) (p : Option PollEntry) : (l.setPoll e p).stop = l.stop := rfl
@[simp] theorem Line.setPoll_stopEnded (l : Line) (e : PollId) (p : Option PollEntry) : (l.setPoll e p).stopEnded = l.stopEnded := rfl
@[simp] theorem Line.setPoll_carrier (l : Line) (e : PollId) (p : Option PollEntry) : (l.setPoll e p).carrier = l.carrier := rfl
@[simp] theorem Line.setPoll_rdy (l : Line) (e : PollId) (p : Option PollEntry) : (l.setPoll e p).rdy = l.rdy := rfl
@[simp] theorem Line.setPoll_tx (l : Line) (e : PollId) (p : Option PollEntry) : (l.setPoll e p).tx = l.tx := rfl
@[simp] theorem Line.setPoll_rx (l : Line) (e : PollId) (p : Option PollEntry) : (l.setPoll e p).rx = l.rx := rfl
@[simp] theorem Line.setPoll_exch (l : Line) (e : PollId) (p : Option PollEntry) : (l.setPoll e p).exch = l.exch := rfl
@[simp] theorem Line.setPoll_stations (l : Line) (e : PollId) (p : Option PollEntry) : (l.setPoll e p).stations = l.stations := rfl
@[simp] theorem Line.setPoll_pollLost (l : Line) (e : PollId) (p : Option PollEntry) : (l.setPoll e p).pollLost = l.pollLost := rfl
@[simp] theorem Line.setPoll_mon (l : Line) (e : PollId) (p : Option PollEntry) : (l.setPoll e p).mon = l.mon := rfl
@[simp] theorem Line.setPoll_arbiter (l : Line) (e : PollId) (p : Option PollEntry) : (l.setPoll e p).arbiter = l.arbiter := rfl
@[simp] theorem Line.setPoll_counters (l : Line) (e : PollId) (p : Option PollEntry) : (l.setPoll e p).counters = l.counters := rfl

/-! ### Line.count -/

@[simp] theorem Line.count_state (l : Line) (f : Counters → Counters) : (l.count f).state = l.state := rfl
@[simp] theorem Line.count_config (l : Line) (f : Counters → Counters) : (l.count f).config = l.config := rfl
@[simp] theorem Line.count_stop (l : Line) (f : Counters → Counters) : (l.count f).stop = l.stop := rfl
@[simp] theorem Line.count_stopEnded (l : Line) (f : Counters → Counters) : (l.count f).stopEnded = l.stopEnded := rfl
@[simp] theorem Line.count_carrier (l : Line) (f : Counters → Counters) : (l.count f).carrier = l.carrier := rfl
@[simp] theorem Line.count_rdy (l : Line) (f : Counters → Counters) : (l.count f).rdy = l.rdy := rfl
@[simp] theorem Line.count_tx (l : Line) (f : Counters → Counters) : (l.count f).tx = l.tx := rfl
@[simp] theorem Line.count_rx (l : Line) (f : Counters → Counters) : (l.count f).rx = l.rx := rfl
@[simp] theorem Line.count_exch (l : Line) (f : Counters → Counters) : (l.count f).exch = l.exch := rfl
@[simp] theorem Line.count_stations (l : Line) (f : Counters → Counters) : (l.count f).stations = l.stations := rfl
@[simp] theorem Line.count_polls (l : Line) (f : Counters → Counters) : (l.count f).polls = l.polls := rfl
@[simp] theorem Line.count_pollLost (l : Line) (f : Counters → Counters) : (l.count f).pollLost = l.pollLost := rfl
@[simp] theorem Line.count_mon (l : Line) (f : Counters → Counters) : (l.count f).mon = l.mon := rfl
@[simp] theorem Line.count_arbiter (l : Line) (f : Counters → Counters) : (l.count f).arbiter = l.arbiter := rfl

/-! ### Line.setStation -/

@[simp] theorem Line.setStation_state (l : Line) (i : StationIdx) (e : StationEntry) : (l.setStation i e).state = l.state := rfl
@[simp] theorem Line.setStation_config (l : Line) (i : StationIdx) (e : StationEntry) : (l.setStation i e).config = l.config := rfl
@[simp] theorem Line.setStation_stop (l : Line) (i : StationIdx) (e : StationEntry) : (l.setStation i e).stop = l.stop := rfl
@[simp] theorem Line.setStation_stopEnded (l : Line) (i : StationIdx) (e : StationEntry) : (l.setStation i e).stopEnded = l.stopEnded := rfl
@[simp] theorem Line.setStation_carrier (l : Line) (i : StationIdx) (e : StationEntry) : (l.setStation i e).carrier = l.carrier := rfl
@[simp] theorem Line.setStation_rdy (l : Line) (i : StationIdx) (e : StationEntry) : (l.setStation i e).rdy = l.rdy := rfl
@[simp] theorem Line.setStation_tx (l : Line) (i : StationIdx) (e : StationEntry) : (l.setStation i e).tx = l.tx := rfl
@[simp] theorem Line.setStation_rx (l : Line) (i : StationIdx) (e : StationEntry) : (l.setStation i e).rx = l.rx := rfl
@[simp] theorem Line.setStation_exch (l : Line) (i : StationIdx) (e : StationEntry) : (l.setStation i e).exch = l.exch := rfl
@[simp] theorem Line.setStation_polls (l : Line) (i : StationIdx) (e : StationEntry) : (l.setStation i e).polls = l.polls := rfl
@[simp] theorem Line.setStation_pollLost (l : Line) (i : StationIdx) (e : StationEntry) : (l.setStation i e).pollLost = l.pollLost := rfl
@[simp] theorem Line.setStation_mon (l : Line) (i : StationIdx) (e : StationEntry) : (l.setStation i e).mon = l.mon := rfl
@[simp] theorem Line.setStation_arbiter (l : Line) (i : StationIdx) (e : StationEntry) : (l.setStation i e).arbiter = l.arbiter := rfl
@[simp] theorem Line.setStation_counters (l : Line) (i : StationIdx) (e : StationEntry) : (l.setStation i e).counters = l.counters := rfl

/-! ### Line.setMon -/

@[simp] theorem Line.setMon_state (l : Line) (f : Monitor → Monitor) : (l.setMon f).state = l.state := rfl
@[simp] theorem Line.setMon_config (l : Line) (f : Monitor → Monitor) : (l.setMon f).config = l.config := rfl
@[simp] theorem Line.setMon_stop (l : Line) (f : Monitor → Monitor) : (l.setMon f).stop = l.stop := rfl
@[simp] theorem Line.setMon_stopEnded (l : Line) (f : Monitor → Monitor) : (l.setMon f).stopEnded = l.stopEnded := rfl
@[simp] theorem Line.setMon_carrier (l : Line) (f : Monitor → Monitor) : (l.setMon f).carrier = l.carrier := rfl
@[simp] theorem Line.setMon_rdy (l : Line) (f : Monitor → Monitor) : (l.setMon f).rdy = l.rdy := rfl
@[simp] theorem Line.setMon_tx (l : Line) (f : Monitor → Monitor) : (l.setMon f).tx = l.tx := rfl
@[simp] theorem Line.setMon_rx (l : Line) (f : Monitor → Monitor) : (l.setMon f).rx = l.rx := rfl
@[simp] theorem Line.setMon_exch (l : Line) (f : Monitor → Monitor) : (l.setMon f).exch = l.exch := rfl
@[simp] theorem Line.setMon_stations (l : Line) (f : Monitor → Monitor) : (l.setMon f).stations = l.stations := rfl
@[simp] theorem Line.setMon_polls (l : Line) (f : Monitor → Monitor) : (l.setMon f).polls = l.polls := rfl
@[simp] theorem Line.setMon_pollLost (l : Line) (f : Monitor → Monitor) : (l.setMon f).pollLost = l.pollLost := rfl
@[simp] theorem Line.setMon_arbiter (l : Line) (f : Monitor → Monitor) : (l.setMon f).arbiter = l.arbiter := rfl
@[simp] theorem Line.setMon_counters (l : Line) (f : Monitor → Monitor) : (l.setMon f).counters = l.counters := rfl

@[simp] theorem Line.setPoll_polls (l : Line) (e : PollId) (p : Option PollEntry) :
    (l.setPoll e p).polls = l.polls.set e p := rfl

@[simp] theorem Line.count_counters (l : Line) (f : Counters → Counters) : (l.count f).counters = f l.counters := rfl

@[simp] theorem Line.setMon_mon (l : Line) (f : Monitor → Monitor) : (l.setMon f).mon = f l.mon := rfl

@[simp] theorem Line.setStation_stations (l : Line) (i : StationIdx) (e : StationEntry) :
    (l.setStation i e).stations = l.stations.set i (some e) := rfl

@[simp] theorem Line.setCtx_work (l : Line) (i : CtxId) (c : Option Ctx) : (l.setCtx i c).exch.work = l.exch.work := rfl

@[simp] theorem Line.setCtx_lent (l : Line) (i : CtxId) (c : Option Ctx) : (l.setCtx i c).exch.lent = l.exch.lent := rfl

@[simp] theorem Line.setCtx_settle (l : Line) (i : CtxId) (c : Option Ctx) :
    (l.setCtx i c).exch.settle = l.exch.settle := rfl

@[simp] theorem Line.ctx_setCtx_self (l : Line) (i : CtxId) (c : Option Ctx) : (l.setCtx i c).ctx i = c := by
  simp [Line.ctx, Line.setCtx]

theorem Line.ctx_setCtx (l : Line) (i j : CtxId) (c : Option Ctx) :
    (l.setCtx i c).ctx j = if j = i then c else l.ctx j := by
  by_cases h : j = i
  · subst h; simp
  · have : (i : Nat) ≠ j := fun e => h (Fin.ext e.symm)
    simp [h, Line.ctx, Line.setCtx, this]

end Sys2Proof.Machine
end

