-- ==== Sys2Proof/Laws/Answers.lean ====
section
/-! SUPPORT. What the shared conditions and answers of commands come to: the end of a transfer, the command in hand, the
completion it composes, and saturating counts. -/

namespace Sys2Proof.Machine

theorem State.endedTransfer_of_ended {s : State} {use : TransferUse} {data : Option (List Byte)} (h : s.Ended use data) :
    s.endedTransfer = some (use, data) := by
  obtain ⟨u, h1, h2, h3⟩ := h
  unfold State.endedTransfer
  rw [h1]
  cases data <;> simp_all [UnderWay.ended]

theorem State.inHand_of_executing {s : State} {op : Nat} {h : Hand} {q : Cq} (hx : s.Executing op h q) :
    s.inHand op none = some h := by
  obtain ⟨h1, h2, h3, -, -⟩ := hx
  simp [State.inHand, h1, h2, h3]

theorem State.inHand_operation_of_executing {s : State} {op k : Nat} {h : Hand} {q : Cq} (hx : s.Executing op h q)
    (hb : admB h.record = k) : s.inHand op (some k) = some h := by
  obtain ⟨h1, h2, h3, -, -⟩ := hx
  simp [State.inHand, h1, h2, h3, hb]

/-- The command in hand completes on an ACTIVE admin CQ. -/
theorem State.completeCommand_eq_answered {s : State} {h : Hand} {q : Cq} (h1 : s.admin.hand = some h)
    (h2 : s.cqs[(0 : CqId)] = some q) (h3 : q.state = .active) (st : Status) (a b c : Nat) :
    s.completeCommand st a b c = s.answered h q st a b c := by
  simp [State.completeCommand, h1, State.modAdmin, State.joinCq, h2, h3, State.answered, State.setCq, Cq.join,
    commandAnswer]

theorem State.answerCommand_eq_answered {s : State} {h : Hand} {q : Cq} (h1 : s.admin.hand = some h)
    (h2 : s.cqs[(0 : CqId)] = some q) (h3 : q.state = .active) (st : Status) :
    s.answerCommand st = s.answered h q st 0 0 0 := State.completeCommand_eq_answered h1 h2 h3 st 0 0 0

theorem State.pendCommand_eq_pended {s : State} {h : Hand} (h1 : s.admin.hand = some h) (w : PendingWork) :
    s.pendCommand w = s.pended h w := by
  simp [State.pendCommand, h1, State.modAdmin, State.pended]

/-- A saturating count is a minimum. -/
theorem bump_eq_min (max n : Nat) : bump max n = min max (n + 1) := by
  unfold bump
  split <;> omega

theorem tally_eq_min (n : Nat) : tally n = min 4294967295 (n + 1) := bump_eq_min _ _

/-- R163: what a notice does to the holding list, the lost count and the admin CQ's waiter list. -/
theorem noticed_handNotice (s : State) (e : NoticeEvent) : Noticed s (s.handNotice e) e := by
  unfold Noticed State.handNotice
  dsimp only
  split
  · rw [if_pos (by assumption)]
    cases hq : s.cqs[(0 : CqId)] with
    | none => simp [hq]
    | some q => simp [hq, Cq.join]
  · rw [if_neg (by assumption)]
    exact ⟨rfl, bump_eq_min _ _⟩

end Sys2Proof.Machine
end

