-- ==== Sys2Proof/Laws/Posting.lean ====
section
/-! SUPPORT. What posting may touch. The operations that carry an outcome to the host (notices, waiter lists, posters,
buffers, the end of an exchange, delivery) leave the register window, host memory, the command queue, the SQs and
every line's wire as they were, and change a CQ only in its waiter list and discard count. -/

namespace Sys2Proof.Machine

/-- What every posting operation leaves as it was. -/
structure Posts (s t : State) : Prop where
  window : SameWindow s t
  host : SameHost s t
  sqs : t.sqs = s.sqs
  wires : ∀ n, SameWire (s.line n) (t.line n)
  cqs : ∀ i : CqId, SameCqIndices s.cqs[i] t.cqs[i]

theorem SameWire.refl (l : Line) : SameWire l l := by simp [SameWire]

theorem SameWire.trans {a b c : Line} (h : SameWire a b) (k : SameWire b c) : SameWire a c := by
  simp_all [SameWire]

theorem SameCqIndices.refl (q : Option Cq) : SameCqIndices q q := by cases q <;> simp [SameCqIndices]

theorem SameCqIndices.trans {a b c : Option Cq} (h : SameCqIndices a b) (k : SameCqIndices b c) :
    SameCqIndices a c := by
  cases a <;> cases b <;> cases c <;> simp_all [SameCqIndices]

theorem SameWindow.trans {a b c : State} (h : SameWindow a b) (k : SameWindow b c) : SameWindow a c := by
  simp_all [SameWindow]

theorem Posts.refl (s : State) : Posts s s :=
  ⟨by simp [SameWindow], by simp [SameHost], rfl, fun _ => SameWire.refl _, fun _ => SameCqIndices.refl _⟩

theorem Posts.trans {s t u : State} (h : Posts s t) (k : Posts t u) : Posts s u :=
  ⟨h.window.trans k.window, ⟨k.host.1.trans h.host.1, k.host.2.trans h.host.2⟩, k.sqs.trans h.sqs,
    fun n => (h.wires n).trans (k.wires n), fun i => (h.cqs i).trans (k.cqs i)⟩

/-! ### The primitive changes -/

theorem posts_setLine (s : State) (n : LineId) (l : Line) (h : SameWire (s.line n) l) : Posts s (s.setLine n l) :=
  ⟨by simp [SameWindow], by simp [SameHost], rfl,
    fun m => by rw [State.line_setLine]; split
                · rename_i e; subst e; exact h
                · exact SameWire.refl _,
    fun _ => SameCqIndices.refl _⟩

theorem posts_modLine (s : State) (n : LineId) (f : Line → Line) (h : ∀ l, SameWire l (f l)) :
    Posts s (s.modLine n f) := posts_setLine s n _ (h _)

theorem posts_setCq (s : State) (i : CqId) (q : Option Cq) (h : SameCqIndices s.cqs[i] q) : Posts s (s.setCq i q) :=
  ⟨by simp [SameWindow], by simp [SameHost], rfl, fun _ => SameWire.refl _,
    fun j => by rw [State.cq_setCq]; split
                · rename_i e; subst e; exact h
                · exact SameCqIndices.refl _⟩

theorem posts_setBq (s : State) (n : LineId) (q : Option Bq) : Posts s (s.setBq n q) :=
  ⟨by simp [SameWindow], by simp [SameHost], rfl, fun _ => SameWire.refl _, fun _ => SameCqIndices.refl _⟩

theorem posts_modAdmin (s : State) (f : Admin → Admin) : Posts s (s.modAdmin f) :=
  ⟨by simp [SameWindow], by simp [SameHost], rfl, fun _ => SameWire.refl _, fun _ => SameCqIndices.refl _⟩

theorem posts_modPort (s : State) (f : Port → Port) : Posts s (s.modPort f) :=
  ⟨by simp [SameWindow], by simp [SameHost], rfl, fun _ => SameWire.refl _, fun _ => SameCqIndices.refl _⟩

theorem posts_issue (s : State) (r : ReqId) (t : Transfer) : Posts s (s.issue r t) := posts_modPort s _

theorem posts_portFree (s : State) : Posts s s.portFree := posts_modPort s _

/-- Folding an operation that posts. -/
theorem posts_foldl {α : Type} (f : State → α → State) (h : ∀ s a, Posts s (f s a)) (l : List α) (s : State) :
    Posts s (l.foldl f s) := by
  induction l generalizing s with
  | nil => exact Posts.refl s
  | cons a rest ih => exact (h s a).trans (ih _)

/-! ### Lines -/

theorem sameWire_setCtx (l : Line) (i : CtxId) (c : Option Ctx) : SameWire l (l.setCtx i c) := by simp [SameWire]

theorem sameWire_setPoll (l : Line) (e : PollId) (p : Option PollEntry) : SameWire l (l.setPoll e p) := by
  simp [SameWire]

theorem sameWire_count (l : Line) (f : Counters → Counters) : SameWire l (l.count f) := by simp [SameWire]

theorem sameWire_setMon (l : Line) (f : Monitor → Monitor) : SameWire l (l.setMon f) := by simp [SameWire]

theorem sameWire_modEntry (l : Line) (a : Byte) (f : StationEntry → StationEntry) : SameWire l (l.modEntry a f) := by
  unfold Line.modEntry
  split
  · split <;> simp [SameWire]
  · exact SameWire.refl l

theorem sameWire_freeCtx (l : Line) (i : CtxId) : SameWire l (l.freeCtx i) := by
  unfold Line.freeCtx
  dsimp only
  repeat' split
  all_goals simp [SameWire]

theorem sameWire_leaveHead (l : Line) : SameWire l l.leaveHead := by simp [SameWire, Line.leaveHead]

theorem sameWire_bufferReturned (l : Line) : SameWire l l.bufferReturned := by simp [SameWire, Line.bufferReturned]

theorem sameWire_dropHead (l : Line) : SameWire l l.dropHead :=
  ((sameWire_leaveHead l).trans (sameWire_setMon _ _)).trans (sameWire_count _ _)

theorem sameWire_suppress (l : Line) (i : CtxId) (e : PollId) (p : PollEntry) : SameWire l (l.suppress i e p) :=
  ((sameWire_setPoll l _ _).trans (sameWire_count _ _)).trans (sameWire_freeCtx _ _)

theorem sameWire_losePoll (l : Line) (i : CtxId) : SameWire l (l.losePoll i) := by
  refine SameWire.trans ?_ (sameWire_freeCtx _ _)
  simp [SameWire]

theorem sameWire_payloadFaulted (l : Line) (c : Ctx) : SameWire l (l.payloadFaulted c) := by
  unfold Line.payloadFaulted
  repeat' split
  all_goals first | exact sameWire_setPoll _ _ _ | exact SameWire.refl _

/-! ### Waiter lists, posters and notices -/

theorem posts_join (s : State) (i : CqId) (q : Cq) (w : Waiter) (h : s.cqs[i] = some q) :
    Posts s (s.setCq i (some (q.join w))) := posts_setCq s i _ (by rw [h]; simp [SameCqIndices, Cq.join])

/-- R163: a notice handed over posts. -/
theorem posts_handNotice (s : State) (e : NoticeEvent) : Posts s (s.handNotice e) := by
  unfold State.handNotice
  split
  · dsimp only
    split
    · rename_i q hq
      exact (posts_modAdmin s _).trans (posts_join _ _ q _ hq)
    · exact posts_modAdmin s _
  · exact posts_modAdmin s _

/-- A poster that is done posts. -/
theorem posts_posterDone (s : State) (p : Poster) : Posts s (s.posterDone p) := by
  unfold State.posterDone
  split
  · exact posts_modLine s _ _ fun l => sameWire_freeCtx l _
  · exact posts_modLine s _ _ sameWire_leaveHead
  · exact posts_modLine s _ _ sameWire_bufferReturned
  · exact posts_modAdmin s _
  · exact posts_modAdmin s _
  · exact posts_modAdmin s _

/-- R156: a discard posts. -/
theorem posts_discard (s : State) (i : CqId) (p : Poster) : Posts s (s.discard i p) := by
  unfold State.discard
  dsimp only
  refine Posts.trans ?_ (posts_posterDone _ p)
  have h1 : Posts s (match s.cqs[i] with
      | some q => s.setCq i (some { q with discards := bump Config.counterMax q.discards })
      | none => s) := by
    split
    · rename_i q hq
      exact posts_setCq s i _ (by rw [hq]; simp [SameCqIndices])
    · exact Posts.refl s
  split
  · exact h1.trans (posts_modLine _ _ _ fun l => sameWire_count l _)
  · exact h1

/-- R153, R156: joining a waiter list posts. -/
theorem posts_joinCq (s : State) (i : CqId) (w : Waiter) : Posts s (s.joinCq i w) := by
  unfold State.joinCq
  split
  · rename_i q hq
    split
    · exact posts_join s i q w hq
    · exact posts_discard s i _
  · exact posts_posterDone s _

/-! ### Command completions -/

theorem posts_completeCommand (s : State) (st : Status) (a b c : Nat) : Posts s (s.completeCommand st a b c) := by
  unfold State.completeCommand
  split
  · exact (posts_modAdmin s _).trans (posts_joinCq _ _ _)
  · exact Posts.refl s

theorem posts_answerCommand (s : State) (st : Status) : Posts s (s.answerCommand st) := posts_completeCommand s st 0 0 0

theorem posts_answerPoll (s : State) (st : Status) (p : Option PollEntry) : Posts s (s.answerPoll st p) := by
  unfold State.answerPoll
  split <;> exact posts_completeCommand s st _ _ _

theorem posts_pendCommand (s : State) (w : PendingWork) : Posts s (s.pendCommand w) := by
  unfold State.pendCommand
  split
  · exact posts_modAdmin s _
  · exact Posts.refl s

theorem posts_finishPending (s : State) (w : PendingWork) (k : Nat) : Posts s (s.finishPending w k) := by
  unfold State.finishPending
  split
  · exact (posts_modAdmin s _).trans (posts_joinCq _ _ _)
  · exact Posts.refl s

/-! ### Buffers -/

theorem posts_promise (s : State) (n : LineId) (q : Bq) (t : Taker) : Posts s (s.promise n q t) :=
  (posts_setBq s n _).trans (posts_issue _ _ _)

theorem posts_requestBuffer (s t : State) (n : LineId) (k : Taker) (h : s.requestBuffer n k = some t) : Posts s t := by
  unfold State.requestBuffer at h
  split at h
  · split at h
    · cases h; exact posts_promise s n _ k
    · cases h
  · cases h

theorem posts_requestStaged (s : State) (n : LineId) : Posts s (s.requestStaged n) := by
  unfold State.requestStaged
  split
  · split
    · exact posts_promise s n _ _
    · exact posts_setBq s n _
  · exact Posts.refl s

/-! ### POSTING (R71 to R73, R102 to R110) -/

theorem posts_setCtx (s : State) (n : LineId) (i : CtxId) (c : Ctx) : Posts s (s.setCtx n i c) :=
  posts_modLine s n _ fun l => sameWire_setCtx l i _

theorem posts_readyToComplete (s : State) (n : LineId) (i : CtxId) : Posts s (s.readyToComplete n i) := by
  unfold State.readyToComplete
  split
  · split
    · exact posts_joinCq s _ _
    · exact posts_modLine s n _ fun l => sameWire_freeCtx l i
  · exact Posts.refl s

theorem posts_writeReply (s : State) (n : LineId) (i : CtxId) : Posts s (s.writeReply n i) := by
  unfold State.writeReply
  repeat' split
  all_goals try exact Posts.refl s
  · dsimp only
    split
    · exact (posts_setCtx s n i _).trans (posts_readyToComplete _ n i)
    · exact (posts_setCtx s n i _).trans (posts_issue _ _ _)
  · exact posts_readyToComplete s n i
  · exact posts_readyToComplete s n i

theorem posts_noBuffer (s : State) (n : LineId) (i : CtxId) : Posts s (s.noBuffer n i) := by
  unfold State.noBuffer
  repeat' split
  all_goals first
    | exact Posts.refl s
    | exact (posts_setCtx s n i _).trans (posts_readyToComplete _ n i)

theorem posts_settlePoll (s : State) (n : LineId) (i : CtxId) (e : PollId) (c : Ctx) (r : Result) :
    Posts s (s.settlePoll n i e c r) := by
  unfold State.settlePoll
  split
  · split
    · exact posts_modLine s n _ fun l => sameWire_suppress l i e _
    · split
      · split
        · rename_i h; exact posts_requestBuffer s _ n _ h
        · exact posts_modLine s n _ fun l => sameWire_losePoll l i
      · exact (posts_modLine s n _ fun l => sameWire_setPoll l e _).trans (posts_readyToComplete _ n i)
  · exact posts_modLine s n _ fun l => sameWire_freeCtx l i

/-- Entering POSTING posts. -/
theorem posts_enterPosting (s : State) (n : LineId) (i : CtxId) : Posts s (s.enterPosting n i) := by
  unfold State.enterPosting
  repeat' split
  all_goals first
    | exact Posts.refl s
    | exact posts_noBuffer s n i
    | exact posts_writeReply s n i
    | exact posts_settlePoll s n i _ _ _
    | (rename_i h; exact posts_requestBuffer s _ n _ h)

theorem posts_bufferArrives (s : State) (n : LineId) (i : CtxId) (d : Descriptor) :
    Posts s (s.bufferArrives n i d) := by
  unfold State.bufferArrives
  split
  · dsimp only
    split
    · split
      · exact ((posts_setCtx s n i _).trans (posts_modLine _ n _ fun l => sameWire_setPoll l _ _)).trans
          (posts_writeReply _ n i)
      · exact (posts_setCtx s n i _).trans (posts_writeReply _ n i)
    · exact (posts_setCtx s n i _).trans (posts_writeReply _ n i)
  · exact Posts.refl s

theorem posts_bufferNone (s : State) (n : LineId) (i : CtxId) : Posts s (s.bufferNone n i) := by
  unfold State.bufferNone
  repeat' split
  all_goals first
    | exact Posts.refl s
    | exact posts_noBuffer s n i
    | exact posts_modLine s n _ fun l => sameWire_losePoll l i

/-- An exchange's end posts. -/
theorem posts_endExchange (s : State) (n : LineId) (i : CtxId) (e : Ending) : Posts s (s.endExchange n i e) := by
  unfold State.endExchange
  dsimp only
  split
  · refine Posts.trans (posts_setLine s n _ ?_) (posts_enterPosting _ n i)
    simp [SameWire, Line.setCtx]
  · exact Posts.refl s

theorem posts_endByCarrier (s : State) (n : LineId) (i : CtxId) : Posts s (s.endByCarrier n i) := by
  unfold State.endByCarrier
  split
  · exact posts_endExchange s n i _
  · exact Posts.refl s

/-- R80: telling the station table posts at most a notice. -/
theorem posts_tellStation (s : State) (n : LineId) (a : Byte) (f : StationEntry → StationEntry) :
    Posts s (s.tellStation n a f) := by
  unfold State.tellStation
  split
  · dsimp only
    have h := posts_modLine s n (·.modEntry a f) fun l => sameWire_modEntry l a f
    split
    · exact h.trans (posts_handNotice _ _)
    · exact h
  · exact Posts.refl s

/-! ### Monitor capture (R117 to R122) -/

theorem posts_headTakes (s : State) (n : LineId) (i : CqId) (m : MonBlock) (d : Descriptor) :
    Posts s (s.headTakes n i m d) := by
  unfold State.headTakes
  split
  · exact posts_discard s i _
  · exact (posts_modLine s n _ fun l => sameWire_setMon l _).trans (posts_issue _ _ _)

theorem posts_headAsks (s : State) (n : LineId) : Posts s (s.headAsks n) := by
  unfold State.headAsks
  split
  · rename_i h
    exact (posts_requestBuffer s _ n _ h).trans (posts_modLine _ n _ fun l => sameWire_setMon l _)
  · exact posts_modLine s n _ sameWire_dropHead

theorem posts_settleSlot (s : State) (n : LineId) (i : CqId) : Posts s (s.settleSlot n i) := by
  unfold State.settleSlot
  split
  · exact (posts_modLine s n _ fun l => sameWire_setMon l _).trans (posts_joinCq _ _ _)
  · exact posts_modLine s n _ fun l => sameWire_setMon l _

theorem posts_monitorMove (s t : State) (n : LineId) (h : s.monitorMove n = some t) : Posts s t := by
  unfold State.monitorMove at h
  dsimp only at h
  repeat' split at h
  all_goals first
    | (cases h; done)
    | (cases h
       first
         | exact (posts_modLine s n _ fun l => sameWire_setMon l _).trans (posts_requestStaged _ n)
         | exact posts_headTakes s n _ _ _
         | exact posts_headAsks s n
         | exact posts_modLine s n _ fun l => sameWire_setMon l _
         | exact posts_settleSlot s n _)

/-- Monitor capture's moves post. -/
theorem posts_runMonitor (s : State) (n : LineId) : Posts s (s.runMonitor n) := by
  unfold State.runMonitor
  generalize 16 = k
  induction k generalizing s with
  | zero => exact Posts.refl s
  | succ k ih =>
    unfold State.runMonitorFor
    split
    · rename_i h
      exact (posts_monitorMove s _ n h).trans (ih _)
    · exact Posts.refl s

theorem posts_runMonitors (s : State) : Posts s s.runMonitors :=
  posts_foldl State.runMonitor posts_runMonitor _ s

theorem posts_runPosterMonitor (s : State) (p : Poster) : Posts s (s.runPosterMonitor p) := by
  unfold State.runPosterMonitor
  split
  · exact posts_runMonitor s _
  · exact posts_runMonitor s _
  · exact Posts.refl s

/-! ### Ends of transfers that post -/

theorem posts_nextResult (s : State) : Posts s s.nextResult := by
  unfold State.nextResult
  repeat' split
  all_goals first
    | exact Posts.refl s
    | exact (posts_modAdmin s _).trans (posts_issue _ _ _)
    | exact posts_completeCommand s _ _ _ _

theorem posts_writeResults (s : State) (h : Hand) (w : List (Word × List Byte)) (a b : Nat) :
    Posts s (s.writeResults h w a b) := (posts_modAdmin s _).trans (posts_nextResult _)

theorem posts_resultWriteEnded (s : State) (d : Option (List Byte)) : Posts s (s.resultWriteEnded d) := by
  unfold State.resultWriteEnded
  split
  · exact posts_nextResult s
  · exact posts_answerCommand s _

theorem posts_blockReadEnded (s : State) (d : Option (List Byte)) : Posts s (s.blockReadEnded d) := by
  unfold State.blockReadEnded
  split
  · dsimp only
    split
    · exact (posts_modAdmin s _).trans (posts_answerCommand _ _)
    · exact posts_modAdmin s _
  · exact posts_answerCommand s _
  · exact Posts.refl s

theorem posts_payloadEnded (s : State) (n : LineId) (i : CtxId) (d : Option (List Byte)) :
    Posts s (s.payloadEnded n i d) := by
  unfold State.payloadEnded
  split
  · exact posts_readyToComplete s n i
  · split
    · exact ((posts_setCtx s n i _).trans (posts_modLine _ n _ fun l => sameWire_payloadFaulted l _)).trans
        (posts_readyToComplete _ n i)
    · exact Posts.refl s
  · exact Posts.refl s

theorem posts_monitorDataEnded (s : State) (n : LineId) (d : Option (List Byte)) :
    Posts s (s.monitorDataEnded n d) := by
  unfold State.monitorDataEnded
  split
  · dsimp only
    exact ((posts_modLine s n _ fun l => sameWire_setMon l _).trans (posts_joinCq _ _ _)).trans (posts_runMonitor _ n)
  · exact Posts.refl s

theorem posts_handOver (s : State) (n : LineId) (t : Taker) (d : Descriptor) : Posts s (s.handOver n t d) := by
  unfold State.handOver
  split
  · exact posts_bufferArrives s n _ d
  · exact (posts_modLine s n _ fun l => sameWire_setMon l _).trans (posts_runMonitor _ n)

theorem posts_answerNone (n : LineId) (s : State) (t : Taker) : Posts s (State.answerNone n s t) := by
  unfold State.answerNone
  split
  · exact posts_bufferNone s n _
  · split
    · exact posts_modLine s n _ fun l => sameWire_setMon l _
    · exact Posts.refl s

/-- R152: a BQ's fault posts. -/
theorem posts_faultBq (s : State) (n : LineId) (q : Bq) (c : FaultCause) : Posts s (s.faultBq n q c) := by
  unfold State.faultBq
  dsimp only
  exact ((((posts_setBq s n _).trans (posts_modPort _ _)).trans (posts_handNotice _ _)).trans
    (posts_foldl _ (posts_answerNone n) _ _)).trans (posts_runMonitor _ n)

theorem posts_descriptorEnded (s : State) (n : LineId) (d : Option (List Byte)) : Posts s (s.descriptorEnded n d) := by
  unfold State.descriptorEnded
  repeat' split
  all_goals first
    | exact Posts.refl s
    | exact posts_faultBq s n _ _
    | exact (posts_setBq s n _).trans (posts_handOver _ n _ _)

theorem posts_promiseWaiting (s : State) (n : LineId) : Posts s (s.promiseWaiting n) := by
  unfold State.promiseWaiting
  repeat' split
  all_goals first
    | exact Posts.refl s
    | exact posts_promise s n _ _

/-! ### Contexts ended by the line -/

/-- Doing something that posts with each context posts. -/
theorem posts_forContexts (s : State) (n : LineId) (sel : Ctx → Bool) (f : State → CtxId → State)
    (h : ∀ s i, Posts s (f s i)) : Posts s (s.forContexts n sel f) := posts_foldl f h _ s

theorem posts_endActive (s : State) (n : LineId) : Posts s (s.endActive n) :=
  posts_forContexts s n _ _ fun s i => posts_endByCarrier s n i

theorem posts_failAdmission (s : State) (n : LineId) (i : CtxId) (w : Status) : Posts s (s.failAdmission n i w) := by
  unfold State.failAdmission
  split
  · exact posts_endExchange s n i _
  · exact Posts.refl s

theorem posts_enterQueued (s : State) (n : LineId) (i : CtxId) (c : Ctx) : Posts s (s.enterQueued n i c) := by
  unfold State.enterQueued
  dsimp only
  repeat' split
  · exact (posts_setCtx s n i _).trans (posts_endExchange _ n i _)
  · exact (posts_setCtx s n i _).trans (posts_endByCarrier _ n i)
  · exact posts_setCtx s n i _

theorem sameWire_obtain (l m : Line) (a : Byte) (now : Word) (b : Bool) (h : l.obtain a now b = some m) :
    SameWire l m := by
  unfold Line.obtain at h
  repeat' split at h
  all_goals first
    | (cases h; done)
    | (cases h
       first
         | exact sameWire_modEntry l _ _
         | exact SameWire.refl l)

theorem posts_leaveAdmission (s : State) (n : LineId) (i : CtxId) : Posts s (s.leaveAdmission n i) := by
  unfold State.leaveAdmission
  repeat' split
  all_goals first
    | exact Posts.refl s
    | exact posts_enterQueued s n i _
    | exact posts_failAdmission s n i _
    | (rename_i h
       exact (posts_setLine s n _ (sameWire_obtain _ _ _ _ _ h)).trans (posts_enterQueued _ n i _))

theorem posts_checkRecord (s : State) (n : LineId) (i : CtxId) (r : List Byte) (cfg : LineConfig) :
    Posts s (s.checkRecord n i r cfg) := by
  unfold State.checkRecord
  repeat' split
  all_goals first
    | exact posts_failAdmission s n i _
    | exact posts_issue s _ _
    | exact posts_leaveAdmission s n i

end Sys2Proof.Machine
end

