-- ==== Sys2Proof/Laws/DriverEnable.lean ====
section
/-! SUPPORT. Driver enable (R29): every shared operation keeps DE asserted exactly while its line's transmitter is in
LEAD, SEND or HOLD, on a MASTER line in READY or DRAINING. A command's own lemma follows from those of the operations it
calls. -/

namespace Sys2Proof.Machine

theorem lineLawful_of_sameWire {l m : Line} (hs : SameWire l m) (h : l.deLawful) : m.deLawful := by
  obtain ⟨a, b, c, d, e, f, g, k⟩ := hs
  simp_all [Line.deLawful]

theorem lawful_of_posts {s t : State} (p : Posts s t) (h : s.deLawful) : t.deLawful := fun n =>
    lineLawful_of_sameWire (p.wires n) (h n)

theorem lawful_setLine (s : State) (n : LineId) (l : Line) (h : s.deLawful) (hl : l.deLawful) :
    (s.setLine n l).deLawful := by
  intro m; rw [State.line_setLine]; split
  · exact hl
  · exact h m

theorem lawful_modLine (s : State) (n : LineId) (f : Line → Line) (h : s.deLawful)
    (hl : (s.line n).deLawful → (f (s.line n)).deLawful) : (s.modLine n f).deLawful :=
  lawful_setLine s n _ h (hl (h n))

/-- A line whose DE is released outside LEAD, SEND and HOLD is lawful. -/
theorem lineLawful_of_released {l : Line} (h : l.tx.de = false) (h2 : l.tx.sending = false) : l.deLawful := by
  simp [Line.deLawful, h, h2]

theorem lineLawful_reset (c r m : Bool) : (Line.reset c r m).deLawful := lineLawful_of_released rfl rfl

theorem lawful_resetBlocks (s : State) : s.resetBlocks.deLawful := by
  intro n; simp [State.resetBlocks, State.line, lineLawful_reset]

theorem lineLawful_withdraw (l : Line) (i : CtxId) (h : l.deLawful) : (l.withdraw i).deLawful := by
  unfold Line.withdraw; split
  · exact lineLawful_of_released rfl rfl
  · exact h

theorem lineLawful_reorder (l : Line) (h : l.deLawful) : l.reorder.deLawful := by
  unfold Line.reorder; repeat' split
  all_goals first | exact h | exact lineLawful_withdraw _ _ h

theorem lineLawful_giveOrder (l : Line) (i : CtxId) (k : Nat) (h : l.deLawful) : (l.giveOrder i k).deLawful := by
  unfold Line.giveOrder; split
  · exact lineLawful_of_released rfl rfl
  · exact h

theorem lawful_endAborted (s : State) (n : LineId) (i : CtxId) (h : s.deLawful) : (s.endAborted n i).deLawful :=
  lawful_of_posts (posts_endExchange _ _ _ _) (lawful_modLine s n _ h (lineLawful_withdraw _ _))

theorem lawful_abortOne (n : LineId) (s : State) (i : CtxId) (h : s.deLawful) : (State.abortOne n s i).deLawful := by
  unfold State.abortOne
  repeat' split
  all_goals first
    | exact h
    | exact lawful_endAborted s n i h
    | exact lawful_of_posts (posts_setCtx _ _ _ _) h

theorem lawful_foldl {α : Type} (f : State → α → State) (hf : ∀ s a, s.deLawful → (f s a).deLawful)
    (l : List α) (s : State) (h : s.deLawful) : (l.foldl f s).deLawful := by
  induction l generalizing s with
  | nil => exact h
  | cons a r ih => exact ih _ (hf s a h)

theorem lawful_stopOne (n : LineId) (s : State) (i : CtxId) (h : s.deLawful) : (State.stopOne n s i).deLawful := by
  unfold State.stopOne
  repeat' split
  · exact lawful_of_posts (posts_setCtx _ _ _ _) h
  · exact lawful_abortOne n s i h
  · exact h

theorem lawful_forContexts (s : State) (n : LineId) (sel) (f : State → CtxId → State)
    (hf : ∀ s a, s.deLawful → (f s a).deLawful) (h : s.deLawful) : (s.forContexts n sel f).deLawful :=
  lawful_foldl f hf _ s h

theorem lawful_abortLine (s : State) (n : LineId) (sel) (h : s.deLawful) : (s.abortLine n sel).deLawful :=
  lawful_modLine _ n _ (lawful_of_posts (posts_completeCommand _ _ _ _ _)
      (lawful_forContexts s n sel _ (fun s a h => lawful_abortOne n s a h) h)) (lineLawful_reorder _)

theorem lawful_failAttempt (s : State) (n : LineId) (i : CtxId) (w : Status) (h : s.deLawful) :
    (s.failAttempt n i w).deLawful := by
  have h1 : (s.modLine n (·.count fun k => k.failure w)).deLawful := lawful_of_posts
      (posts_modLine s n _ fun l => sameWire_count l _) h
  unfold State.failAttempt
  dsimp only
  repeat' split
  · exact lawful_of_posts (posts_endExchange _ _ _ _) h1
  · exact lawful_setLine _ _ _ h1 (lineLawful_giveOrder _ _ _ (lineLawful_of_sameWire (sameWire_setCtx _ _ _) (h1 n)))
  · exact lawful_of_posts ((posts_tellStation _ _ _ _).trans (posts_endExchange _ _ _ _)) h1
  · exact h1

theorem lawful_contention (s : State) (n : LineId) (h : s.deLawful) : (s.contention n).deLawful := by
  unfold State.contention
  dsimp only
  have h0 : ∀ l : Line, l.tx = .reset → l.deLawful := fun l e => lineLawful_of_released (by rw [e]; rfl)
      (by rw [e]; rfl)
  have hs : ∀ l : Line, l.tx = .reset → (s.setLine n l).deLawful := fun l e => lawful_setLine s n l h (h0 l e)
  repeat' split
  · exact lawful_of_posts (posts_endExchange _ _ _ _) (hs _ rfl)
  · exact lawful_of_posts ((posts_setCtx _ _ _ _).trans (posts_endExchange _ _ _ _)) (hs _ rfl)
  · refine lawful_setLine _ _ _ (hs _ rfl) (lineLawful_giveOrder _ _ _ (h0 _ rfl))
  · exact hs _ rfl
  · exact hs _ rfl

theorem lineLawful_beginLead (l : Line) (cfg : LineConfig) (now : Word) (h : l.deLawful) (hs : l.state.sends = true)
    (hc : l.config = some cfg) (hm : cfg.mode = .master) :
    (l.beginLead cfg now).deLawful := by
  have hst : l.state = .ready ∨ l.state = .draining := by
    cases hh : l.state <;> simp_all [LineState.sends]
  unfold Line.beginLead
  split
  · split
    · dsimp only
      split
      · refine lineLawful_of_sameWire (sameWire_modEntry _ _ _) ?_
        refine lineLawful_of_sameWire (sameWire_setCtx _ _ _) ?_
        simp [Line.deLawful, Transmitter.sending, hst, hc, hm]
      · refine lineLawful_of_sameWire (sameWire_setCtx _ _ _) ?_
        simp [Line.deLawful, Transmitter.sending, hst, hc, hm]
    · exact h
  · exact h

theorem lawful_judgeBlock (s : State) (n : LineId) (i : CtxId) (b : RxBlock) (e : Word) (h : s.deLawful) :
    (s.judgeBlock n i b e).deLawful := by
  unfold State.judgeBlock
  split
  · split
    · exact lawful_failAttempt _ _ _ _ h
    · unfold State.replyStale; split
      · split
        · exact lawful_failAttempt _ _ _ _ h
        · exact lawful_modLine _ _ _ (lawful_of_posts (posts_setCtx _ _ _ _) h) (fun h => h)
      · exact h
    · unfold State.replyGood; split
      · exact lawful_of_posts (((posts_setCtx _ _ _ _).trans (posts_tellStation _ _ _ _)).trans
            (posts_endExchange _ _ _ _)) h
      · exact h
    · unfold State.replyGood; split
      · exact lawful_of_posts (((posts_setCtx _ _ _ _).trans (posts_tellStation _ _ _ _)).trans
            (posts_endExchange _ _ _ _)) h
      · exact h
    · unfold State.replyWait; split
      · have h2 := fun c a => lawful_of_posts ((posts_setCtx s n i c).trans
            (posts_tellStation _ n a StationEntry.waited)) h
        dsimp only
        repeat' split
        · exact lawful_of_posts (posts_endExchange _ _ _ _) (h2 _ _)
        · exact lawful_of_posts (posts_endExchange _ _ _ _) (h2 _ _)
        · exact lawful_of_posts (posts_setCtx _ _ _ _) (h2 _ _)
      · exact h
  · exact h

theorem lineLawful_tick (l : Line) (h : l.deLawful) : l.tick.deLawful := by
  unfold Line.tick
  split
  · exact h
  · rename_i cfg hc
    dsimp only
    split <;> simp_all [Line.deLawful, Transmitter.sending]

theorem lawful_tick (s : State) (h : s.deLawful) : s.tick.deLawful := by
  have : ∀ n : LineId, (((s.lines.map Line.tick)[n])).deLawful := fun n => by
    simpa [State.line] using lineLawful_tick _ (h n)
  unfold State.tick
  dsimp only
  repeat' split
  all_goals first | exact h | exact this

theorem lineLawful_of_sameTx {l m : Line} (h : l.deLawful) (ht : m.tx = l.tx) (hs : m.state = l.state)
    (hc : m.config = l.config) : m.deLawful := by
  simp_all [Line.deLawful]

theorem lawful_of_sameLines {s t : State} (h : s.deLawful) (e : t.lines = s.lines) : t.deLawful := by
  intro n; have := h n; simpa [State.line, e] using this

theorem lawful_controlWrite (s : State) (r i : Bool) (h : s.deLawful) : (s.controlWrite r i).deLawful := by
  unfold State.controlWrite State.runWritten; dsimp only
  repeat' split
  all_goals exact lawful_of_sameLines h rfl

theorem lawful_postSq (s : State) (k m : Nat) (h : s.deLawful) : (s.postSq k m).deLawful := by
  unfold State.postSq; repeat' split
  all_goals exact lawful_of_sameLines h rfl

theorem lawful_postBq (s : State) (k m : Nat) (h : s.deLawful) : (s.postBq k m).deLawful := by
  unfold State.postBq; repeat' split
  all_goals exact lawful_of_sameLines h rfl

theorem lawful_ackWrite (s : State) (k m : Nat) (h : s.deLawful) : (s.ackWrite k m).deLawful := by
  unfold State.ackWrite; repeat' split
  all_goals exact lawful_of_sameLines h rfl

theorem lawful_setupWrite (s : State) (k : SetupReg) (m : Word) (h : s.deLawful) : (s.setupWrite k m).deLawful := by
  unfold State.setupWrite; repeat' split
  all_goals exact lawful_of_sameLines h rfl

theorem lawful_softReset (s : State) : (s.softReset).deLawful := lawful_of_sameLines (lawful_resetBlocks s) rfl

theorem lawful_access (s : State) (a : RegAccess) (h : s.deLawful) : (s.access a).deLawful := by
  unfold State.access; repeat' split
  · exact h
  · exact lawful_of_sameLines h rfl
  · unfold State.writeRegister; repeat' split
    · exact lawful_softReset _
    · exact lawful_controlWrite _ _ _ (lawful_of_sameLines h rfl)
    · exact lawful_setupWrite _ _ _ (lawful_of_sameLines h rfl)
    · exact lawful_setupWrite _ _ _ (lawful_of_sameLines h rfl)
    · exact lawful_setupWrite _ _ _ (lawful_of_sameLines h rfl)
    · exact lawful_postSq _ _ _ (lawful_of_sameLines h rfl)
    · exact lawful_postBq _ _ _ (lawful_of_sameLines h rfl)
    · exact lawful_of_sameLines h rfl
    · exact lawful_ackWrite _ _ _ (lawful_of_sameLines h rfl)
    · exact lawful_of_sameLines h rfl
  · unfold State.readAccess; split <;> exact lawful_of_sameLines h rfl

theorem lawful_fetchEnded (s : State) (sq : SqId) (n : LineId) (i : CtxId) (d) (h : s.deLawful) :
    (s.fetchEnded sq n i d).deLawful := by
  have h1 : (s.modLine n Line.fetchOver).deLawful := lawful_modLine s n _ h fun h => lineLawful_of_sameTx h rfl rfl
      rfl
  unfold State.fetchEnded
  dsimp only
  repeat' split
  · refine lawful_of_posts (posts_checkRecord _ _ _ _ _) (lawful_modLine _ _ _ (lawful_of_sameLines h1 rfl) fun h =>
        lineLawful_of_sameTx h rfl rfl rfl)
  · exact lawful_of_sameLines h1 rfl
  · exact lawful_of_posts (posts_handNotice _ _) (lawful_of_sameLines h1 rfl)
  · exact h1

theorem lawful_requestDataEnded (s : State) (n : LineId) (i : CtxId) (d) (h : s.deLawful) :
    (s.requestDataEnded n i d).deLawful := by
  unfold State.requestDataEnded
  split
  · exact lawful_modLine _ _ _ (lawful_of_posts ((posts_setCtx _ _ _ _).trans (posts_leaveAdmission _ _ _)) h)
        (lineLawful_reorder _)
  · exact lawful_modLine _ _ _ (lawful_of_posts (posts_failAdmission _ _ _ _) h) (lineLawful_reorder _)
  · exact h

theorem lawful_runMonitors (s : State) (h : s.deLawful) : s.runMonitors.deLawful := lawful_of_posts
    (posts_runMonitors s) h

theorem lawful_discard (s : State) (i : CqId) (p) (h : s.deLawful) : (s.discard i p).deLawful := lawful_of_posts
    (posts_discard s i p) h

theorem lawful_completionEnded (s : State) (i : CqId) (w : Waiter) (d) (h : s.deLawful) :
    (s.completionEnded i w d).deLawful := by
  unfold State.completionEnded
  repeat' split
  · exact lawful_of_posts ((posts_posterDone _ _).trans (posts_runPosterMonitor _ _)) (lawful_of_sameLines h rfl)
  · exact lawful_of_sameLines (lawful_resetBlocks s) rfl
  · unfold State.faultCq; dsimp only
    exact lawful_runMonitors _ (lawful_foldl _ (fun s a h => lawful_discard s _ _ h) _ _
        (lawful_discard _ _ _ (lawful_of_posts (posts_handNotice _ _) (lawful_of_sameLines h rfl))))
  · exact lawful_runMonitors _ (lawful_discard _ _ _ h)
  · exact h

theorem lawful_takeCommand (s : State) (r) (h : s.deLawful) : (s.takeCommand r).deLawful := by
  unfold State.takeCommand; dsimp only
  repeat' split
  · exact lawful_of_sameLines h rfl
  · exact lawful_of_sameLines h rfl
  · exact lawful_of_posts (posts_answerCommand _ _) (lawful_of_sameLines h rfl)
  · exact lawful_of_sameLines h rfl

theorem lawful_adminFetchEnded (s : State) (d) (h : s.deLawful) : (s.adminFetchEnded d).deLawful := by
  unfold State.adminFetchEnded
  repeat' split
  · exact lawful_takeCommand _ _ (lawful_of_sameLines h rfl)
  · exact lawful_of_sameLines (lawful_resetBlocks s) rfl
  · exact h

theorem lawful_transferEnded (s : State) (u) (d) (h : s.deLawful) : (s.transferEnded u d).deLawful := by
  have hp : s.portFree.deLawful := lawful_of_sameLines h rfl
  unfold State.transferEnded
  split
  · exact lawful_fetchEnded _ _ _ _ _ hp
  · exact lawful_of_posts (posts_descriptorEnded _ _ _) hp
  · exact hp
  · exact lawful_adminFetchEnded _ _ hp
  · exact lawful_of_posts (posts_blockReadEnded _ _) hp
  · exact lawful_of_posts (posts_resultWriteEnded _ _) hp
  · exact lawful_completionEnded _ _ _ _ hp
  · exact lawful_requestDataEnded _ _ _ _ hp
  · exact lawful_of_posts (posts_payloadEnded _ _ _ _) hp
  · exact lawful_of_posts (posts_monitorDataEnded _ _ _) hp

theorem lawful_beginSettlement (s : State) (n : LineId) (cfg) (h : s.deLawful) :
    (s.beginSettlement n cfg).deLawful := by
  have hm : ∀ (s : State) f, s.deLawful → (s.modLine n (·.setMon f)).deLawful := fun s f h =>
    lawful_modLine s n _ h fun h => lineLawful_of_sameTx h rfl rfl rfl
  unfold State.beginSettlement; dsimp only
  repeat' split
  · exact lawful_of_posts (posts_runMonitor _ _) (hm _ _ (hm _ _ (lawful_of_sameLines h rfl)))
  · exact lawful_of_posts (posts_runMonitor _ _) (hm _ _ h)
  · exact lawful_of_posts (posts_runMonitor _ _) (hm _ _ h)
  · exact hm _ _ h

theorem lawful_endWaiting (s : State) (n : LineId) (sel) (h : s.deLawful) : (s.endWaiting n sel).deLawful :=
  lawful_forContexts s n _ _ (fun s _ h => lawful_of_posts (posts_endByCarrier _ _ _)
      (lawful_modLine s n _ h (lineLawful_withdraw _ _))) h

theorem lawful_acceptStop (s : State) (n : LineId) (cfg k) (h : s.deLawful) : (s.acceptStop n cfg k).deLawful := by
  have h0 : (s.modLine n fun l => { l with state := .draining, stop := some k, stopEnded := 0 }).deLawful := by
    refine lawful_modLine s n _ h fun g => ?_
    refine ⟨g.1, fun hd => ⟨Or.inr rfl, (g.2 hd).2⟩⟩
  unfold State.acceptStop; dsimp only
  refine lawful_beginSettlement _ _ _ ?_
  split
  · split
    · exact h0
    · exact lawful_endWaiting _ _ _ h0
  · exact lawful_forContexts _ _ _ _ (fun s a h => lawful_stopOne n s a h) h0

theorem lawful_stopLine (s : State) (n : LineId) (k) (h : s.deLawful) : (s.stopLine n k).deLawful := by
  unfold State.stopLine
  split
  · exact lawful_of_posts (posts_answerCommand _ _) h
  · exact lawful_of_posts (posts_answerCommand _ _) h
  · exact lawful_of_posts (posts_pendCommand _ _) (lawful_acceptStop _ _ _ _ h)
  · exact lawful_of_posts (posts_answerCommand _ _) h

theorem lawful_carrierLost (s : State) (n : LineId) (h : s.deLawful) : (s.carrierLost n).deLawful := by
  have h0 : ∀ st : LineState, (s.setLine n { (s.line n).loseCarrier with state := st }).deLawful := fun st =>
      lawful_setLine _ _ _ h (lineLawful_of_released rfl rfl)
  unfold State.carrierLost; dsimp only
  split
  · exact lawful_of_posts (posts_handNotice _ _) (h0 _)
  · exact lawful_of_posts ((posts_handNotice _ _).trans (posts_endActive _ _)) (h0 _)
  · split
    · exact lawful_endWaiting _ _ _ (lawful_of_posts (posts_handNotice _ _) (h0 _))
    · exact lawful_of_posts ((posts_handNotice _ _).trans (posts_endActive _ _)) (h0 _)
  · exact h0 _

theorem lawful_holdEnded (s : State) (n) (cfg) (h : s.deLawful) : (s.holdEnded n cfg).deLawful := by
  have hs : ∀ i c, (s.modLine n (·.sent cfg s.timebase i c)).deLawful := fun i c =>
    lawful_modLine s n _ h fun _ => by
    unfold Line.sent; dsimp only
    repeat' split
    all_goals exact lineLawful_of_released rfl rfl
  have he : ∀ (s : State) i, s.deLawful → (s.handEarly n i).deLawful := fun s i h => by
    unfold State.handEarly; split
    · exact lawful_judgeBlock _ _ _ _ _ (lawful_modLine _ _ _ h fun h => lineLawful_of_sameTx h rfl rfl rfl)
    · exact h
  unfold State.holdEnded; dsimp only
  repeat' split
  · exact he _ _ (hs _ _)
  · unfold State.settleOver; dsimp only
    split
    · exact lawful_of_posts (posts_endExchange _ _ _ _) (lawful_modLine _ _ _ (hs _ _) fun h => lineLawful_of_sameTx
          h rfl rfl rfl)
    · exact (lawful_modLine _ _ _ (hs _ _) fun h => lineLawful_of_sameTx h rfl rfl rfl)
  · exact hs _ _
  · exact h
  · exact h

theorem lawful_settleOver (s : State) (n i) (h : s.deLawful) : (s.settleOver n i).deLawful := by
  unfold State.settleOver; dsimp only
  split
  · exact lawful_of_posts (posts_endExchange _ _ _ _) (lawful_modLine _ _ _ h fun h => lineLawful_of_sameTx h rfl rfl
        rfl)
  · exact (lawful_modLine _ _ _ h fun h => lineLawful_of_sameTx h rfl rfl rfl)

theorem lawful_reportNoStart (s : State) (n) (h : s.deLawful) : (s.reportNoStart n).deLawful := by
  unfold State.reportNoStart; dsimp only
  split
  · exact lawful_failAttempt _ _ _ _ (lawful_modLine _ _ _ h fun h => lineLawful_of_sameTx h rfl rfl rfl)
  · exact (lawful_modLine _ _ _ h fun h => lineLawful_of_sameTx h rfl rfl rfl)

theorem lineLawful_of_samePhase {l m : Line} (h : l.deLawful) (ht : m.tx.de = l.tx.de)
    (hp : m.tx.sending = l.tx.sending) (hs : m.state = l.state) (hc : m.config = l.config) : m.deLawful := by
  simp_all [Line.deLawful]

theorem lawful_judgeContention (s : State) (n cfg) (h : s.deLawful) : (s.judgeContention n cfg).deLawful := by
  unfold State.judgeContention
  split
  · exact lawful_modLine _ _ _ h fun h => lineLawful_of_samePhase h rfl rfl rfl rfl
  · exact lawful_contention _ _ h

theorem lineLawful_characterTaken (l : Line) (cfg) (c) (h : l.deLawful) : (l.characterTaken cfg c).deLawful :=
    lineLawful_of_samePhase h rfl rfl rfl rfl

theorem lawful_character (s : State) (n cfg c) (h : s.deLawful) : (s.character n cfg c).deLawful := by
  have h1 := lawful_modLine s n (·.characterTaken cfg c) h (lineLawful_characterTaken _ _ _)
  unfold State.character; dsimp only
  repeat' split
  · exact lawful_modLine _ _ _ h1 fun h => lineLawful_of_samePhase h rfl rfl rfl rfl
  · exact lawful_judgeContention _ _ _ h1
  · exact h1

theorem lineLawful_beginBlock (l : Line) (r) (h : l.deLawful) : (l.beginBlock r).deLawful := lineLawful_of_samePhase
    h rfl rfl rfl rfl

theorem lawful_startBit (s : State) (n cfg) (h : s.deLawful) : (s.startBit n cfg).deLawful := by
  unfold State.startBit
  repeat' split
  · exact lawful_contention _ _ (lawful_modLine _ _ _ h fun h => lineLawful_of_samePhase h rfl rfl rfl rfl)
  · exact lawful_modLine _ _ _ h fun h => lineLawful_of_samePhase h rfl rfl rfl rfl
  · exact lawful_modLine _ _ _ h fun h => by
      unfold Line.strayStart
      split <;> exact lineLawful_of_samePhase h rfl rfl rfl rfl

theorem lawful_blockEnded (s : State) (n cfg b) (h : s.deLawful) : (s.blockEnded n cfg b).deLawful := by
  have h1 : (s.modLine n Line.blockOver).deLawful := lawful_modLine _ _ _ h fun h => lineLawful_of_samePhase h rfl
      rfl rfl rfl
  unfold State.blockEnded; dsimp only
  repeat' split
  · refine lawful_of_posts (posts_runMonitor _ _) (lawful_modLine _ _ _ h1 fun h => ?_)
    unfold Line.monitorBlock; dsimp only
    repeat' split
    · unfold Line.capture; split <;> exact lineLawful_of_samePhase h rfl rfl rfl rfl
    · exact lineLawful_of_samePhase h rfl rfl rfl rfl
    · exact lineLawful_of_samePhase h rfl rfl rfl rfl
  · exact lawful_judgeBlock _ _ _ _ _ (lawful_modLine _ _ _ h1 fun h => lineLawful_of_samePhase h rfl rfl rfl rfl)
  · exact (lawful_modLine _ _ _ h1 fun h => lineLawful_of_samePhase h rfl rfl rfl rfl)
  · exact (lawful_modLine _ _ _ h1 fun h => lineLawful_of_samePhase h rfl rfl rfl rfl)
  · exact (lawful_modLine _ _ _ h1 fun h => lineLawful_of_samePhase h rfl rfl rfl rfl)

theorem lawful_grantSlot (s : State) (i) (h : s.deLawful) : (s.grantSlot i).deLawful := by
  have ht : ∀ w, (s.takeCounts w).deLawful := fun w => by
    unfold State.takeCounts
    repeat' split
    all_goals first
      | exact h
      | exact lawful_modLine _ _ _ h fun h => lineLawful_of_samePhase h rfl rfl rfl rfl
  unfold State.grantSlot
  repeat' split
  · exact lawful_of_sameLines (ht _) rfl
  all_goals exact h

theorem lawful_grantFetch (s : State) (i) (h : s.deLawful) : (s.grantFetch i).deLawful := by
  unfold State.grantFetch
  repeat' split
  · exact lawful_of_posts (posts_issue _ _ _) (lawful_modLine _ _ _ h fun h => lineLawful_of_samePhase h rfl rfl rfl
        rfl)
  all_goals exact h

theorem released_of_off {l : Line} (h : l.deLawful) (ho : l.state = .off) : l.tx.de = false ∧ l.tx.sending =
    false := by
  obtain ⟨a, b⟩ := h
  cases hd : l.tx.de with
  | false => rw [hd] at a; exact ⟨rfl, a.symm⟩
  | true => rcases (b hd).1 with e | e <;> simp [ho] at e

end Sys2Proof.Machine
end

