-- ==== Sys2Proof/Laws/Endings.lean ====
section
/-! SUPPORT. The end of an exchange (files 03, 05): what POSTING makes of a result, said once for a context of each
origin. -/

namespace Sys2Proof.Machine

theorem good_iff (st : Status) : st.good = true ↔ st = .ok ∨ st = .refused := by cases st <;> simp [Status.good]

theorem good_result_iff (r : Result) : r.status.good = true ↔ r.isGood := good_iff r.status

theorem HostOn.ctxCq {s : State} {n : LineId} {c : Ctx} {k : CqId} {q : Cq} (h : HostOn s c k q) :
    s.ctxCq n c = some k := by
  obtain ⟨-, -, -, sq, tag, v, b, ho, hv, hb, hk⟩ := h
  simp [State.ctxCq, ho, hv, hb, hk]

theorem PollOn.ctxCq {s : State} {n : LineId} {i : CtxId} {c : Ctx} {e : PollId} {p : PollEntry} {k : CqId} {q : Cq}
    (h : PollOn s n i c e p k q) : s.ctxCq n c = some k := by
  obtain ⟨-, -, -, ho, -, -, cfg, hc, hk⟩ := h
  simp [State.ctxCq, ho, hc, hk]

/-- The record a context of HOST origin posts. -/
theorem exchangeRecord_host (l : Line) (n : LineId) (c : Ctx) (r : Result) (sq : SqId) (tag : Half)
    (h : c.origin = .host sq tag) :
    l.exchangeRecord n c r = completionRecord n c r .exchange (BitVec.ofNat 8 sq.val) tag (some sq) := by
  simp only [Line.exchangeRecord, Line.originFields, h, completionRecord]
  cases c.buffer <;> rfl

/-- The record a poll instance posts. -/
theorem exchangeRecord_poll (l : Line) (n : LineId) (c : Ctx) (r : Result) (e : PollId) (p : PollEntry)
    (h : c.origin = .poll e) (hp : l.poll e = some p) :
    l.exchangeRecord n c r = completionRecord n c r .poll (BitVec.ofNat 8 e.val) p.tag none := by
  simp only [Line.exchangeRecord, Line.originFields, h, hp, completionRecord]
  cases c.buffer <;> rfl

theorem joinCq_active {s : State} {k : CqId} {q : Cq} (h : s.cqs[k] = some q) (ha : q.state = .active) (w : Waiter) :
    s.joinCq k w = s.setCq k (some { q with waiters := q.waiters ++ [w] }) := by
  simp [State.joinCq, h, ha, Cq.join]

/-- R73: a context of HOST origin with a result joins its CQ's waiter list. -/
theorem readyToComplete_host {s : State} {n : LineId} {i : CtxId} {c : Ctx} {r : Result} {k : CqId} {q : Cq}
    (hc : (s.line n).ctx i = some c) (hr : c.result = some r) (h : HostOn s c k q) :
    ∃ sq tag, c.origin = .host sq tag ∧ s.readyToComplete n i = s.setCq k (some { q with waiters := q.waiters ++
      [{ poster := .exchange n i
         record := .line (completionRecord n c r .exchange (BitVec.ofNat 8 sq.val) tag (some sq)) }] }) := by
  have hk := h.ctxCq (n := n)
  obtain ⟨-, hq, ha, sq, tag, v, b, ho, -⟩ := h
  refine ⟨sq, tag, ho, ?_⟩
  simp only [State.readyToComplete, hc, hr, hk, exchangeRecord_host _ _ _ _ _ _ ho, joinCq_active hq ha]

/-- R110: a poll instance with a result to report joins the line CQ's waiter list. -/
theorem readyToComplete_poll {s : State} {n : LineId} {i : CtxId} {c : Ctx} {r : Result} {e : PollId} {p : PollEntry}
    {k : CqId} {q : Cq} (hc : (s.line n).ctx i = some c) (hr : c.result = some r) (h : PollOn s n i c e p k q) :
    s.readyToComplete n i = s.setCq k (some { q with waiters := q.waiters ++
      [{ poster := .exchange n i
         record := .line (completionRecord n c r .poll (BitVec.ofNat 8 e.val) p.tag none) }] }) := by
  have hk := h.ctxCq
  obtain ⟨-, hq, ha, ho, hp, -⟩ := h
  simp only [State.readyToComplete, hc, hr, hk, exchangeRecord_poll _ _ _ _ _ _ ho hp, joinCq_active hq ha]

/-- The line right after a context has taken its result. -/
def Line.resulted (l : Line) (i : CtxId) (c : Ctx) (e : Ending) : Line :=
  { l.setCtx i (some { c with state := .posting, result := some (l.resultOf c e) }) with
    stopEnded := if l.countsInStop c e then bump 65535 l.stopEnded else l.stopEnded }

theorem endExchange_eq {s : State} {n : LineId} {i : CtxId} {c : Ctx} (hc : (s.line n).ctx i = some c) (e : Ending) :
    s.endExchange n i e = (s.setLine n ((s.line n).resulted i c e)).enterPosting n i := by
  simp only [State.endExchange, hc]
  rfl

@[simp] theorem Line.resulted_ctx (l : Line) (i : CtxId) (c : Ctx) (e : Ending) :
    (l.resulted i c e).ctx i = some { c with state := .posting, result := some (l.resultOf c e) } :=
  Line.ctx_setCtx_self l i _

theorem Line.resulted_ctx_ne (l : Line) (i j : CtxId) (c : Ctx) (e : Ending) (h : j ≠ i) :
    (l.resulted i c e).ctx j = l.ctx j := by
  have := Line.ctx_setCtx l i j (some { c with state := .posting, result := some (l.resultOf c e) })
  rw [if_neg h] at this
  exact this

/-- R73: a result that is no good reply has no payload to write. -/
theorem writeReply_plain {s : State} {n : LineId} {i : CtxId} {c : Ctx} {r : Result} (hc : (s.line n).ctx i = some c)
    (hr : c.result = some r) (hg : r.status.good = false) : s.writeReply n i = s.readyToComplete n i := by
  simp only [State.writeReply, hc, hr]
  cases c.target <;> simp [hg]

/-- R60 to R69, R73: an exchange of HOST origin that ends without a reply posts its record, and nothing else happens but
the count of a stop. -/
theorem endExchange_host {s : State} {n : LineId} {i : CtxId} {c : Ctx} {k : CqId} {q : Cq} (e : Ending)
    (hc : (s.line n).ctx i = some c) (h : HostOn s c k q) (hg : e.status ≠ .ok ∧ e.status ≠ .refused) :
    ∃ sq tag, c.origin = .host sq tag ∧ s.endExchange n i e =
      (s.setLine n ((s.line n).resulted i c e)).setCq k (some { q with waiters := q.waiters ++
        [{ poster := .exchange n i
           record := .line (completionRecord n c ((s.line n).resultOf c e) .exchange (BitVec.ofNat 8 sq.val) tag
             (some sq)) }] }) := by
  have hgood : e.status.good = false := by
    cases he : e.status.good with
    | false => rfl
    | true => rcases (good_iff _).1 he with h1 | h1 <;> simp_all
  have hl : ((s.setLine n ((s.line n).resulted i c e)).line n).ctx i
      = some { c with state := .posting, result := some ((s.line n).resultOf c e) } := by simp
  have hh : HostOn (s.setLine n ((s.line n).resulted i c e))
      { c with state := .posting, result := some ((s.line n).resultOf c e) } k q := h
  obtain ⟨sq, tag, ho, hready⟩ := readyToComplete_host hl rfl hh
  refine ⟨sq, tag, ho, ?_⟩
  have hst : ((s.line n).resultOf c e).status.good = false := hgood
  have hn : ∀ d : Ctx, d.needsBuffer ((s.line n).resultOf c e) = false := fun d => by simp [Ctx.needsBuffer, hst]
  rw [endExchange_eq hc]
  have hw : (s.setLine n ((s.line n).resulted i c e)).enterPosting n i
      = (s.setLine n ((s.line n).resulted i c e)).writeReply n i := by
    simp only [State.enterPosting, hl, show c.origin = .host sq tag from ho, hn, Bool.false_eq_true, if_false]
  exact hw.trans ((writeReply_plain hl rfl hst).trans hready)

/-- What the end of an exchange without a reply gives the result. -/
theorem resultOf_eq_ended (l m : Line) (c : Ctx) (st : Status) (t : Word) (hm : m.stations = l.stations) :
    l.resultOf c { status := st, endTime := t } = c.ended m st t := by
  have hh : m.healthOf c.station = l.healthOf c.station := by
    simp only [Line.healthOf, Line.entry, Line.entryIdx, hm]
  simp only [Line.resultOf, Ctx.ended, hh, Bool.not_false, Bool.and_true] <;> cases c.recordedHealth <;> rfl

/-- An exchange of HOST origin ended without a reply is posted as the statements say. -/
theorem postedAs_endExchange {s : State} {n : LineId} {i : CtxId} {c : Ctx} {k : CqId} {q : Cq} {st : Status} {t : Word}
    (hc : (s.line n).ctx i = some c) (h : HostOn s c k q) (hg : st ≠ .ok ∧ st ≠ .refused) :
    PostedAs (s.endExchange n i { status := st, endTime := t }) n i k q c
      (c.ended ((s.endExchange n i { status := st, endTime := t }).line n) st t) := by
  obtain ⟨sq, tag, ho, heq⟩ := endExchange_host (e := { status := st, endTime := t }) hc h hg
  rw [heq]
  have hr : (s.line n).resultOf c { status := st, endTime := t } = c.ended ((s.line n).resulted i c { status := st, endTime := t }) st t :=
    resultOf_eq_ended _ _ _ _ _ rfl
  refine ⟨?_, fun sq' tag' ho' => ?_⟩
  · simp [← hr]
  · rw [ho] at ho'; cases ho'
    simp [← hr]

end Sys2Proof.Machine
end

