-- ==== Sys2Proof/Laws/Memory.lean ====
section
/-! SUPPORT. Host memory: reading after writing, and the canonical form that every memory operation keeps. -/

namespace Sys2Proof.Machine

/-- The canonical form, entry by entry: a bounded address, a value an unlisted address does not read as, and every later
address above it. -/
theorem Memory.wf_cons (k : Nat) (v : Byte) (rest : List Host.Cell) :
    Memory.wf ((k, v) :: rest) = true ↔
      k < 2 ^ 32 ∧ v ≠ Config.unlistedByte ∧ Memory.wf rest = true ∧ ∀ c ∈ rest, k < c.1 := by
  induction rest generalizing k v with
  | nil => simp [Memory.wf]
  | cons c rest ih =>
    obtain ⟨k', v'⟩ := c
    have hw : Memory.wf ((k, v) :: (k', v') :: rest) = true ↔
        k < k' ∧ v ≠ Config.unlistedByte ∧ Memory.wf ((k', v') :: rest) = true := by
      simp [Memory.wf, and_assoc]
    rw [hw, ih k' v']
    constructor
    · rintro ⟨h1, h2, h3, h4, h5, h6⟩
      refine ⟨by omega, h2, ⟨h3, h4, h5, h6⟩, ?_⟩
      intro c hc
      rcases List.mem_cons.1 hc with rfl | hc
      · exact h1
      · exact Nat.lt_trans h1 (h6 c hc)
    · rintro ⟨_, h2, h3, h4⟩
      exact ⟨h4 (k', v') (by simp), h2, h3⟩

/-- Below every listed address memory reads as unlisted. -/
theorem Memory.read_below (m : List Host.Cell) (a : Nat) (h : ∀ c ∈ m, a < c.1) :
    Memory.read m a = Config.unlistedByte := by
  induction m with
  | nil => rfl
  | cons c rest ih =>
    obtain ⟨k, v⟩ := c
    have hk : a < k := h (k, v) (by simp)
    simp only [Memory.read, if_neg (Nat.ne_of_gt hk)]
    exact ih fun c hc => h c (List.mem_cons_of_mem _ hc)

/-- A write adds no address but its own. -/
theorem Memory.mem_write (m : List Host.Cell) (a : Nat) (v : Byte) (c : Host.Cell)
    (h : c ∈ Memory.write m a v) : c.1 = a ∨ c ∈ m := by
  induction m with
  | nil =>
    simp only [Memory.write] at h
    split at h <;> simp_all
  | cons d rest ih =>
    obtain ⟨k, w⟩ := d
    simp only [Memory.write] at h
    split at h
    · split at h <;> simp_all
      rcases h with rfl | h <;> simp_all
    · split at h
      · split at h <;> simp_all
        rcases h with rfl | h <;> simp_all
      · rcases List.mem_cons.1 h with rfl | h
        · simp
        · rcases ih h with h | h <;> simp [h]

/-- Every write keeps the canonical form. -/
theorem Memory.wf_write (m : List Host.Cell) (a : Nat) (v : Byte) (h : Memory.wf m = true) (ha : a < 2 ^ 32) :
    Memory.wf (Memory.write m a v) = true := by
  induction m with
  | nil =>
    simp only [Memory.write]
    split <;> rename_i hv
    · rfl
    · simpa [Memory.wf] using ⟨ha, hv⟩
  | cons c rest ih =>
    obtain ⟨k, w⟩ := c
    obtain ⟨hk, hw, hr, hlt⟩ := (Memory.wf_cons k w rest).1 h
    simp only [Memory.write]
    split
    · rename_i hak
      split
      · exact h
      · rename_i hv
        refine (Memory.wf_cons _ _ _).2 ⟨ha, hv, h, ?_⟩
        intro c hc
        rcases List.mem_cons.1 hc with rfl | hc
        · exact hak
        · exact Nat.lt_trans hak (hlt c hc)
    · split
      · rename_i hak
        subst hak
        split
        · exact hr
        · rename_i hv
          exact (Memory.wf_cons _ _ _).2 ⟨ha, hv, hr, hlt⟩
      · rename_i h1 h2
        refine (Memory.wf_cons _ _ _).2 ⟨hk, hw, ih hr, ?_⟩
        intro c hc
        rcases Memory.mem_write rest a v c hc with hc | hc
        · omega
        · exact hlt c hc

/-- A byte reads back as written. -/
theorem Memory.read_write_same (m : List Host.Cell) (a : Nat) (v : Byte) (h : Memory.wf m = true) :
    Memory.read (Memory.write m a v) a = v := by
  induction m with
  | nil =>
    simp only [Memory.write]
    split <;> rename_i hv
    · simp [Memory.read, hv]
    · simp [Memory.read]
  | cons c rest ih =>
    obtain ⟨k, w⟩ := c
    obtain ⟨_, _, hr, hlt⟩ := (Memory.wf_cons k w rest).1 h
    simp only [Memory.write]
    split
    · rename_i hak
      split <;> rename_i hv
      · rw [hv]
        refine Memory.read_below _ _ ?_
        intro c hc
        rcases List.mem_cons.1 hc with rfl | hc
        · exact hak
        · exact Nat.lt_trans hak (hlt c hc)
      · simp [Memory.read]
    · split
      · rename_i hak
        subst hak
        split <;> rename_i hv
        · rw [hv]; exact Memory.read_below _ _ hlt
        · simp [Memory.read]
      · rename_i h1 h2
        simp only [Memory.read, if_neg (Ne.symm h2)]
        exact ih hr

/-- Every other byte reads as before. -/
theorem Memory.read_write_ne (m : List Host.Cell) (a b : Nat) (v : Byte) (h : Memory.wf m = true) (hb : b ≠ a) :
    Memory.read (Memory.write m a v) b = Memory.read m b := by
  induction m with
  | nil =>
    simp only [Memory.write]
    split
    · rfl
    · simp [Memory.read, Ne.symm hb]
  | cons c rest ih =>
    obtain ⟨k, w⟩ := c
    obtain ⟨_, _, hr, hlt⟩ := (Memory.wf_cons k w rest).1 h
    simp only [Memory.write]
    split
    · split
      · rfl
      · simp [Memory.read, Ne.symm hb]
    · split
      · rename_i hak
        subst hak
        split
        · simp [Memory.read, Ne.symm hb]
        · simp [Memory.read, Ne.symm hb]
      · simp only [Memory.read]
        split
        · rfl
        · exact ih hr

theorem Memory.byteAddr_lt (addr : Word) (i : Nat) : byteAddr addr i < 2 ^ 32 := Nat.mod_lt _ (by decide)

/-- Writing a run of bytes keeps the canonical form. -/
theorem Memory.wf_writeFrom (bytes : List Byte) (m : List Host.Cell) (addr : Word) (i : Nat)
    (h : Memory.wf m = true) : Memory.wf (Memory.writeFrom m addr i bytes) = true := by
  induction bytes generalizing m i with
  | nil => exact h
  | cons b rest ih => exact ih _ _ (Memory.wf_write m _ b h (Memory.byteAddr_lt addr i))

theorem Memory.wf_writeBytes (m : List Host.Cell) (addr : Word) (bytes : List Byte) (h : Memory.wf m = true) :
    Memory.wf (Memory.writeBytes m addr bytes) = true := Memory.wf_writeFrom bytes m addr 0 h

/-- The host's own stores keep the canonical form. -/
theorem Memory.wf_hostStores (stores : List (Nat × Byte)) (m : List Host.Cell) (h : Memory.wf m = true) :
    Memory.wf (Memory.hostStores m stores) = true := by
  induction stores generalizing m with
  | nil => exact h
  | cons c rest ih => exact ih _ (Memory.wf_write m _ _ h (Nat.mod_lt _ (by decide)))

/-- A run of bytes leaves every address outside it as it was. -/
theorem Memory.read_writeFrom_ne (bytes : List Byte) (m : List Host.Cell) (addr : Word) (i a : Nat)
    (h : Memory.wf m = true) (ha : ∀ j, i ≤ j → j < i + bytes.length → a ≠ byteAddr addr j) :
    Memory.read (Memory.writeFrom m addr i bytes) a = Memory.read m a := by
  induction bytes generalizing m i with
  | nil => rfl
  | cons b rest ih =>
    have hw := Memory.wf_write m (byteAddr addr i) b h (Memory.byteAddr_lt addr i)
    rw [Memory.writeFrom, ih _ _ hw ?_, Memory.read_write_ne _ _ _ _ h (ha i (Nat.le_refl i) (by simp))]
    intro j h1 h2
    exact ha j (by omega) (by simp only [List.length_cons]; omega)

/-- Byte `k` of a run reads back as written. -/
theorem Memory.read_writeFrom_same (bytes : List Byte) (m : List Host.Cell) (addr : Word) (i k : Nat)
    (h : Memory.wf m = true) (hlen : bytes.length ≤ 2 ^ 32) (hk : k < bytes.length) :
    Memory.read (Memory.writeFrom m addr i bytes) (byteAddr addr (i + k)) = bytes[k] := by
  induction bytes generalizing m i k with
  | nil => simp at hk
  | cons b rest ih =>
    have hw := Memory.wf_write m (byteAddr addr i) b h (Memory.byteAddr_lt addr i)
    simp only [List.length_cons] at hlen hk
    cases k with
    | zero =>
      rw [Memory.writeFrom, Memory.read_writeFrom_ne _ _ _ _ _ hw ?_]
      · exact Memory.read_write_same _ _ _ h
      · intro j h1 h2
        simp only [byteAddr]
        omega
    | succ k =>
      have := ih (Memory.write m (byteAddr addr i) b) (i + 1) k hw (by omega) (by omega)
      rw [show i + (k + 1) = i + 1 + k by omega]
      simpa [Memory.writeFrom] using this

theorem Memory.read_writeBytes_same (m : List Host.Cell) (addr : Word) (bytes : List Byte) (k : Nat)
    (h : Memory.wf m = true) (hlen : bytes.length ≤ 2 ^ 32) (hk : k < bytes.length) :
    Memory.read (Memory.writeBytes m addr bytes) (byteAddr addr k) = bytes[k] := by
  simpa [Memory.writeBytes] using Memory.read_writeFrom_same bytes m addr 0 k h hlen hk

theorem Memory.read_writeBytes_ne (m : List Host.Cell) (addr : Word) (bytes : List Byte) (a : Nat)
    (h : Memory.wf m = true) (ha : ∀ j < bytes.length, a ≠ byteAddr addr j) :
    Memory.read (Memory.writeBytes m addr bytes) a = Memory.read m a :=
  Memory.read_writeFrom_ne bytes m addr 0 a h fun j _ hj => ha j (by omega)

/-- The reset memory has the canonical form. -/
theorem Memory.wf_reset : Memory.wf State.reset.mem = true := rfl

end Sys2Proof.Machine
end

