-- ==== Sys2Proof/Laws/Operands.lean ====
section
/-! SUPPORT. The operand checks of the records the KM840 reads, in the form the statements use. -/

namespace Sys2Proof.Machine

theorem byte_eq_ofNat (x : Byte) (k : Nat) (h : k < 256) : x = BitVec.ofNat 8 k ↔ x.toNat = k := by
  constructor
  · rintro rfl; simp; omega
  · intro e; subst e; simp

/-- R179. -/
theorem admRefused_iff (r : List Byte) : admRefused r = true ↔ OperandsRefused r := by
  simp only [OperandsRefused, byte_eq_ofNat _ 7 (by omega), byte_eq_ofNat _ 9 (by omega),
    byte_eq_ofNat _ 10 (by omega), byte_eq_ofNat _ 11 (by omega), byte_eq_ofNat _ 12 (by omega),
    byte_eq_ofNat _ 13 (by omega), byte_eq_ofNat _ 0 (by omega), byte_eq_ofNat _ 1 (by omega)]
  simp only [admRefused, admNamesLine, Bool.or_eq_true, Bool.and_eq_true, decide_eq_true_eq]
  simp only [admOpcode, admLine, admA, admB]
  omega

/-- R126, R172. -/
theorem lpbInRange_iff (b : List Byte) : lpbInRange b = true ↔ LineBlockInRange b := by
  have hg : ∀ k, k < 256 → (byteAt b 27 = BitVec.ofNat 8 k ↔ lpbBqGiven b = k) := fun k h => byte_eq_ofNat _ k h
  have h1 : byteAt b 27 = 1#8 ↔ lpbBqGiven b = 1 := hg 1 (by omega)
  have h2 : (byteAt b 27).toNat = lpbBqGiven b := rfl
  simp only [lpbInRange, LineBlockInRange, h1, h2]
  generalize lpbBqGiven b = g
  simp only [Bool.or_eq_true, Bool.and_eq_true, decide_eq_true_eq, Bool.not_eq_true', Bool.and_eq_false_imp,
    decide_eq_false_iff_not, and_assoc]
  refine and_congr_right fun _ => and_congr_right fun _ => and_congr_right fun _ => and_congr_right fun _ =>
    and_congr_right fun _ => and_congr_right fun _ => and_congr_right fun _ => and_congr_right fun _ =>
    and_congr_right fun _ => and_congr_right fun _ => and_congr_right fun _ => and_congr_right fun _ =>
    and_congr_right fun _ => and_congr_right fun _ => and_congr_right fun _ => and_congr_right fun _ =>
    and_congr_right fun _ => and_congr_right fun _ => and_congr_right fun _ => and_congr_right fun _ =>
    and_congr_right fun _ => ?_
  rcases g with _ | _ | g
  · simp
  · simp
  · omega

/-- R4, R18, R127. -/
theorem lpbConfig_eq (b : List Byte) (k : CqId) (h : k.val = (byteAt b 26).toNat) :
    lpbConfig b = storedParameters b k := by
  have hk : (Fin.ofNat 9 (lpbLineCq b) : CqId) = k := by
    apply Fin.ext; simp [lpbLineCq, ← h]
  have h1 : byteAt b 27 = 1#8 ↔ lpbBqGiven b = 1 := byte_eq_ofNat _ 1 (by omega)
  simp only [lpbConfig, storedParameters, hk, h1, Config.defaultGap]

/-- R93, R173. -/
theorem pebInRange_iff (b : List Byte) : pebInRange b = true ↔ PollBlockInRange b := by
  simp only [pebInRange, PollBlockInRange, Bool.and_eq_true, decide_eq_true_eq, and_assoc]

/-- R46, R166. -/
theorem subMalformed_iff (r : List Byte) (q : Option Bq) : subMalformed r q.isSome = true ↔ RecordMalformed r q := by
  have h3 : (byteAt r 1) >>> 3 ≠ 0#8 ↔ 8 ≤ (byteAt r 1).toNat := by
    rw [ne_eq, ← BitVec.toNat_inj]
    simp [BitVec.toNat_ushiftRight, Nat.shiftRight_eq_div_pow]
  have hq : q.isSome = false ↔ q = none := by cases q <;> simp
  simp only [subMalformed, RecordMalformed, Bool.or_eq_true, Bool.and_eq_true, decide_eq_true_eq, h3,
    Bool.not_eq_true', hq, or_assoc]
  rfl

end Sys2Proof.Machine
end

