-- ==== Sys2Proof/Laws/Stations.lean ====
section
/-! SUPPORT. The station table (file 04): what finding and obtaining an entry does. -/

namespace Sys2Proof.Machine

/-- An index found holds an entry of the address. -/
theorem entryIdx_spec {l : Line} {a : Byte} {i : StationIdx} (h : l.entryIdx a = some i) :
    ∃ e, l.stations[i] = some e ∧ e.address = a := by
  have := List.find?_some h
  revert this
  cases hs : l.stations[i] with
  | none => simp
  | some e => intro he; exact ⟨e, rfl, by simpa using he⟩

theorem entry_some_iff (l : Line) (a : Byte) (e : StationEntry) :
    l.entry a = some e ↔ ∃ i, l.entryIdx a = some i ∧ l.stations[i] = some e := by
  unfold Line.entry
  cases l.entryIdx a <;> simp

theorem entry_none_iff (l : Line) (a : Byte) : l.entry a = none ↔ l.entryIdx a = none := by
  unfold Line.entry
  cases h : l.entryIdx a with
  | none => simp
  | some i => obtain ⟨e, he, -⟩ := entryIdx_spec h; simp [he]

/-- R77: entry `i` may be replaced. -/
def Replaceable (l : Line) (i : StationIdx) : Prop :=
  ∃ e, l.stations[i] = some e ∧ l.pins e.address = 0

/-- R77: `b` is, of the indices of `is`, the replaceable one that is oldest, and the first of equals. -/
def OldestOf (l : Line) (now : Word) (is : List StationIdx) : Option StationIdx → Prop
  | none => ∀ i ∈ is, ¬Replaceable l i
  | some b => b ∈ is ∧ ∃ e, l.stations[b] = some e ∧ l.pins e.address = 0
      ∧ ∀ k ∈ is, ∀ f, l.stations[k] = some f → l.pins f.address = 0 → f.age now < e.age now ∨ (f.age now = e.age now ∧ b ≤ k)

theorem oldest_step (l : Line) (now : Word) (is : List StationIdx) (best : Option StationIdx) (i : StationIdx)
    (h : OldestOf l now is best) (hi : ∀ k ∈ is, k ≤ i) : OldestOf l now (is ++ [i]) (l.older now best i) := by
  unfold Line.older
  cases hs : l.stations[i] with
  | none =>
    cases best with
    | none =>
      intro k hk
      rcases List.mem_append.1 hk with hk | hk
      · exact h k hk
      · obtain rfl := List.mem_singleton.1 hk
        rintro ⟨e, he, -⟩; simp [hs] at he
    | some b =>
      obtain ⟨hb, e, he, hp, ho⟩ := h
      refine ⟨List.mem_append_left _ hb, e, he, hp, fun k hk f hf hpf => ?_⟩
      rcases List.mem_append.1 hk with hk | hk
      · exact ho k hk f hf hpf
      · obtain rfl := List.mem_singleton.1 hk
        simp [hs] at hf
  | some ei =>
    dsimp only
    by_cases hpi : l.pins ei.address = 0
    · rw [if_neg (by simpa using hpi)]
      cases best with
      | none =>
        refine ⟨by simp, ei, hs, hpi, fun k hk f hf hpf => ?_⟩
        rcases List.mem_append.1 hk with hk | hk
        · exact absurd ⟨f, hf, hpf⟩ (h k hk)
        · obtain rfl := List.mem_singleton.1 hk
          simp [hs] at hf; subst hf; exact .inr ⟨rfl, le_refl _⟩
      | some b =>
        obtain ⟨hb, e, he, hp, ho⟩ := h
        simp only [he]
        split
        · rename_i hlt
          refine ⟨by simp, ei, hs, hpi, fun k hk f hf hpf => ?_⟩
          rcases List.mem_append.1 hk with hk | hk
          · rcases ho k hk f hf hpf with h1 | ⟨h1, -⟩ <;> exact .inl (by omega)
          · obtain rfl := List.mem_singleton.1 hk
            simp [hs] at hf; subst hf; exact .inr ⟨rfl, le_refl _⟩
        · rename_i hlt
          refine ⟨List.mem_append_left _ hb, e, he, hp, fun k hk f hf hpf => ?_⟩
          rcases List.mem_append.1 hk with hk | hk
          · exact ho k hk f hf hpf
          · obtain rfl := List.mem_singleton.1 hk
            simp [hs] at hf; subst hf
            rcases Nat.lt_or_ge (ei.age now) (e.age now) with h1 | h1
            · exact .inl h1
            · exact .inr ⟨by omega, hi b hb⟩
    · rw [if_pos hpi]
      have hno : ¬Replaceable l i := by rintro ⟨e, he, hp⟩; rw [hs] at he; cases he; exact hpi hp
      cases best with
      | none =>
        intro k hk
        rcases List.mem_append.1 hk with hk | hk
        · exact h k hk
        · obtain rfl := List.mem_singleton.1 hk; exact hno
      | some b =>
        obtain ⟨hb, e, he, hp, ho⟩ := h
        refine ⟨List.mem_append_left _ hb, e, he, hp, fun k hk f hf hpf => ?_⟩
        rcases List.mem_append.1 hk with hk | hk
        · exact ho k hk f hf hpf
        · obtain rfl := List.mem_singleton.1 hk
          exact absurd ⟨f, hf, hpf⟩ hno

theorem oldest_foldl (l : Line) (now : Word) (rest : List StationIdx) : ∀ (is : List StationIdx) (best : Option StationIdx),
    OldestOf l now is best → (is ++ rest).Pairwise (· ≤ ·) → OldestOf l now (is ++ rest) (rest.foldl (l.older now) best) := by
  induction rest with
  | nil => intro is best h _; simpa using h
  | cons i rest ih =>
    intro is best h hs
    have hs' : ((is ++ [i]) ++ rest).Pairwise (· ≤ ·) := by simpa using hs
    have := ih (is ++ [i]) _ (oldest_step l now is best i h fun k hk =>
      (List.pairwise_append.1 hs).2.2 k hk i (by simp)) hs'
    simpa using this

/-- R77: the entry replaced is the oldest that is not pinned, the lowest-numbered among equals. -/
theorem replaceable_spec (l : Line) (now : Word) : OldestOf l now (List.finRange 64) (l.replaceable now) := by
  have := oldest_foldl l now (List.finRange 64) [] none (by intro i hi; simp at hi) (by
    simpa using (List.pairwise_lt_finRange 64).imp fun h => le_of_lt h)
  simpa [Line.replaceable] using this

/-- R76: the empty entry taken is the lowest one. -/
theorem emptyStation_spec (l : Line) :
    (∀ i, l.emptyStation = some i → l.stations[i] = none ∧ ∀ k, k < i → l.stations[k] ≠ none)
      ∧ (l.emptyStation = none → ∀ k : StationIdx, l.stations[k] ≠ none) := by
  unfold Line.emptyStation
  refine ⟨fun i h => ?_, fun h k => ?_⟩
  · obtain ⟨hp, as, bs, hl, ha⟩ := List.find?_eq_some_iff_append.1 h
    refine ⟨by simpa using hp, fun k hk => ?_⟩
    have hk' : k ∈ as := by
      have hm : k ∈ List.finRange 64 := List.mem_finRange k
      rw [hl] at hm
      rcases List.mem_append.1 hm with hm | hm
      · exact hm
      · have hs := List.pairwise_lt_finRange 64
        rw [hl] at hs
        rcases List.mem_cons.1 hm with rfl | hm
        · exact absurd hk (lt_irrefl _)
        · exact absurd hk (not_lt.2 (le_of_lt ((List.pairwise_cons.1 (List.pairwise_append.1 hs).2.1).1 k hm)))
    have := ha k hk'
    intro hn; simp [hn] at this
  · simpa using List.find?_eq_none.1 h k (List.mem_finRange k)

/-- R76 to R78: obtaining an entry answers exactly when one can be had, and changes only the table, as `Obtained` says. -/
theorem obtain_spec (l : Line) (a : Byte) (now : Word) (touch : Bool) :
    (∀ m, l.obtain a now touch = some m →
        { m with stations := l.stations } = l ∧ Obtained l a now touch m.stations)
      ∧ ((l.obtain a now touch).isSome = true ↔ Obtainable l a) := by
  unfold Line.obtain
  cases hi : l.entryIdx a with
  | some i =>
    obtain ⟨e, he, ha⟩ := entryIdx_spec hi
    have hent : l.entry a = some e := (entry_some_iff l a e).2 ⟨i, hi, he⟩
    refine ⟨fun m hm => ?_, by simp [Obtainable, hent]⟩
    have : m = if touch then l.modEntry a fun e => { e with lastUsed := now } else l := by simpa using hm.symm
    subst this
    cases touch
    · exact ⟨rfl, fun e' h' => by simp, fun h' => by simp [hent] at h'⟩
    · have hmod : l.modEntry a (fun e => { e with lastUsed := now }) = l.setStation i { e with lastUsed := now } := by
        simp [Line.modEntry, hi, he]
      simp only [if_true, hmod]
      refine ⟨rfl, fun e' h' => ?_, fun h' => by simp [hent] at h'⟩
      rw [hent] at h'; cases h'
      exact ⟨i, he, ha, rfl⟩
  | none =>
    have hent : l.entry a = none := (entry_none_iff l a).2 hi
    obtain ⟨hsome, hnone⟩ := emptyStation_spec l
    have hold := replaceable_spec l now
    cases hem : l.emptyStation with
    | some i =>
      obtain ⟨h0, hlow⟩ := hsome i hem
      refine ⟨fun m hm => ?_, by simp [Obtainable]; exact .inr (.inl ⟨i, h0⟩)⟩
      have : m = l.setStation i (newEntry a now) := by simpa using hm.symm
      subst this
      exact ⟨rfl, fun e' h' => by simp [hent] at h', fun _ => ⟨i, rfl, .inl ⟨h0, hlow⟩⟩⟩
    | none =>
      have hall := hnone hem
      cases hr : l.replaceable now with
      | some i =>
        rw [hr] at hold
        obtain ⟨-, e, he, hp, ho⟩ := hold
        refine ⟨fun m hm => ?_, by simp [Obtainable]; exact .inr (.inr ⟨i, e, he, hp⟩)⟩
        have : m = l.setStation i (newEntry a now) := by simpa using hm.symm
        subst this
        exact ⟨rfl, fun e' h' => by simp [hent] at h', fun _ =>
          ⟨i, rfl, .inr ⟨hall, e, he, hp, fun k f hf hpf => ho k (List.mem_finRange k) f hf hpf⟩⟩⟩
      | none =>
        rw [hr] at hold
        refine ⟨fun m hm => by simp at hm, ?_⟩
        simp only [Option.isSome_none, Bool.false_eq_true, false_iff]
        rintro (⟨e, he⟩ | ⟨j, hj⟩ | ⟨j, e, he, hp⟩)
        · simp [hent] at he
        · exact hall j hj
        · exact hold j (List.mem_finRange j) ⟨e, he, hp⟩

end Sys2Proof.Machine
end

