-- ==== Sys2Proof/WellFormed.lean ====
section
/-! DEFINITION. Which commands the outside world can send. Most operands are typed so that every value is one the
part can meet; the checks here are for the three operands written as plain numbers. -/

namespace Sys2Proof

/-- A transfer is at most 256 bytes at any alignment, so it has at most 65 beats (R200). -/
def BusAnswer.wellFormed : BusAnswer → Bool
  | .completes => true
  | .errorAt beat => beat < 65
  | .silentAt beat => beat < 65

/-- The window is base to base + 23 hex (the register map of file 11). -/
def RegAccess.wellFormed (a : RegAccess) : Bool := a.offset < 36

/-- Every host address is 32 bits wide. -/
def hostStoresWellFormed (stores : List (Nat × Byte)) : Bool := stores.all fun c => c.1 < 2 ^ 32

/-- The check of a command's operands. -/
def Instr.wellFormed : Instr → Bool
  | .registerWrite access => access.wellFormed
  | .portGrant stores answer => hostStoresWellFormed stores && answer.wellFormed
  | .powerOn | .softReset _ _ | .run _ | .runClear _ | .intEnable _ _ | .adminSetupWrite _ _ | .postSq _ _
  | .postBq _ _ | .ack _ _ | .statusRead | .beatTimeout | .adminFetchStart | .adminFetchComplete
  | .badCommand | .parameterBlockReadDone | .createCq | .deleteCq | .createSq | .deleteSq | .configureLine
  | .startLine | .stopLine | .setPoll | .pollEnable | .pollDisable | .pollClear | .stationReset
  | .stationRead | .setFilter | .abortSqAndTag | .abortLineAndStation | .abortWholeSq | .readCounters _
  | .resultWriteDone | .stopComplete _ | .sqDeletionDone _ | .fetchGrant _ | .fetchComplete
  | .requestDataReadDone | .descriptorReadComplete | .bufferPromise _ | .payloadWriteDone
  | .monitorDataWriteDone | .slotGrant _ | .completionWriteDone | .delayTimerExpiry _ | .sendOrder _
  | .idleRequirementMet _ _ | .rdyAsserted _ | .notReady _ | .leadEnd _ | .sendEnd _ | .holdEnd _
  | .characterReceived _ _ | .noiseStart _ _ | .echoMissing _ | .startSeen _ _ | .noStart _ | .blockEnd _
  | .settleEnd _ | .holdOffExpiry _ _ | .pollDue _ _ | .carDeasserted _ | .carReasserted _ | .quiet _
  | .qualifiedStartBit _ _ | .rxdFallingEdge _ | .rxdReturnToMark _ | .contentionStop _ | .resetNRelease => true

end Sys2Proof
end

