-- ==== Sys2Proof/Tests/Slice0.lean ====
section
/-! SUPPORT. Tests of the model against the manual's own tables and worked numbers, the refusals of ill-formed commands,
and for every statement with hypotheses a concrete state that meets them. -/

namespace Sys2Proof.Tests

open Sys2Proof Sys2Proof.Machine

/-! ## Ill-formed commands are refused -/

theorem test_offset_outside_window :
    (Instr.registerWrite { write := true, offset := 36, enables := 0xF, data := 0 }).wellFormed = false := by decide

theorem test_offset_at_window_end :
    (Instr.registerWrite { write := false, offset := 35, enables := 0xF, data := 0 }).wellFormed = true := by decide

theorem test_host_store_outside_memory : (Instr.portGrant [(4294967296, 1)] .completes).wellFormed = false := by decide

theorem test_error_beat_past_transfer : (Instr.portGrant [] (.errorAt 65)).wellFormed = false := by decide

theorem test_silent_beat_past_transfer : (Instr.portGrant [] (.silentAt 65)).wellFormed = false := by decide

/-! ## The manual's numbers -/

set_option maxRecDepth 20000 in
/-- R11: the check value of the CRC-16 over the nine characters "123456789" (file 01). -/
theorem test_crc_check_value :
    crc16 [0x31, 0x32, 0x33, 0x34, 0x35, 0x36, 0x37, 0x38, 0x39] = 0x906E#16 := by decide

/-- R97: the three rows of the table of reached times. -/
theorem test_reached_rows :
    reached 4294800000 4294900000 = false ∧ reached 4294900000 4294900000 = true
      ∧ reached 100000 4294900000 = true := by decide

/-- R97: the note below the table: 4,294,900,000 plus 1000 ms is 932,704. -/
theorem test_due_wraps : afterMs 4294900000 1000 = 932704 := by decide

/-- R148: the five lendings of the table, by the ids of each priority and the pointer before. -/
theorem test_round_robin_table :
    roundRobin [2, 5, 9] none = some 2 ∧ roundRobin [2, 5, 9] (some 2) = some 5 ∧ roundRobin [7] none = some 7
      ∧ roundRobin [2, 9] (some 5) = some 9 ∧ roundRobin [2, 9] (some 9) = some 2 := by decide

/-- R144: the distance between two indices wraps with the ring. -/
theorem test_ring_wraps : ringDist 8 1 6 = 3 ∧ ringNext 8 7 = 0 ∧ ringNext 8 6 = 7 := by decide

/-- R18: the default gap. -/
theorem test_default_gap : (lpbConfig (List.replicate 40 0)).gap = 28 := by decide

/-- The register map: the identification word. -/
theorem test_ident : State.reset.readRegister 0 = 0x1D784001 := by decide

/-- R3: character times of 10, 11 and 12 bits. -/
def format (p : Parity) (two : Bool) : LineConfig :=
  { mode := .master, parity := p, twoStops := two, echo := false, divider := 16, gap := 16, lead := 0, hold := 0
    retryLimit := 1, window := 1, retryDelay := 0, contentionLimit := 2, waitLimit := 2, holdOff := 1, probe := 10
    readyTimeout := 1, settle := 1, silentThreshold := 2, pollReserve := 0, lineCq := 1, bufferQueue := none }

set_option maxRecDepth 8000 in
/-- The worked block of file 01: 7 characters, the first five as listed, and the check of R12. -/
theorem test_worked_block :
    requestBlock 0x11 false 3 [0x05, 0x00] = [0x11, 0x03, 0x02, 0x05, 0x00] ++ halfBytes (crc16 [0x11, 0x03, 0x02, 0x05, 0x00])
      ∧ (requestBlock 0x11 false 3 [0x05, 0x00]).length = 7 := by decide

theorem test_character_times :
    (format .none false).charTime = 10 ∧ (format .even false).charTime = 11
      ∧ (format .odd true).charTime = 12 := by decide

/-! ## Small states -/

def master : LineConfig := format .none false

def monitor : LineConfig := { master with mode := .monitor, bufferQueue := some (0, 4) }

/-- A line with its carrier present. -/
def lineIn (st : LineState) (cfg : LineConfig) : Line := { Line.reset true true true with state := st, config := some cfg }

def aCq : Cq := newCq 0 4 1 5 true

def aSq : Sq := newSq 64 4 (some { line := 0, cq := 1, priority := .normal })

def aBq : Bq :=
  { base := 0, size := 4, head := 0, tail := 2, state := .active, promises := [], requests := [] }

/-- RUNNING, with both admin rings and CQ 1. -/
def running : State :=
  (({ State.reset with part := .running }.setSq 0 (some (newSq 0 4 none))).setCq 0 (some (newCq 0 4 1 0 true))).setCq 1
    (some aCq)

/-- The same with a line 0, and SQ 1 bound to it. -/
def withLine (l : Line) : State := (running.setLine 0 l).setSq 1 (some aSq)

/-- The same with a transfer on the host bus. -/
def onBus (s : State) (use : TransferUse) (o : TransferOutcome) : State :=
  { s with port := { s.port with
      current := some { requester := 0, transfer := { addr := 0, kind := .read 32, use := use }, outcome := o } } }

/-- An administration record with opcode, line byte and the operand bytes of offsets 4 to 6. -/
def admRecord (op line a b c : Byte) : List Byte := [op, line, 0, 0, a, b, c] ++ List.replicate 25 0

def handOf (r block : List Byte) : Hand := { record := r, block := block, writes := [], resultA := 0, resultB := 0 }

/-- A command in hand, to be executed. -/
def executing (s : State) (h : Hand) : State := { s with admin := { s.admin with phase := .executing, hand := some h } }

/-- A context from SQ 1, for a station, in a state. -/
def aCtx (station : Byte) (st : CtxState) : Ctx :=
  { freshCtx (.host 1 0) 0 with station := station, state := st, dest := .host 0 4, retryLimit := 1 }

/-- A line with context 0 in its table and work list. -/
def lineWith (st : LineState) (cfg : LineConfig) (c : Ctx) : Line := (lineIn st cfg).joinWork 0 c

def anOrder (station : Byte) : Order :=
  { ctx := 0, block := [station, 0, 0, 0, 0], idle := 16, broadcast := decide (station = 0) }

/-- A line whose transmitter holds the order of context 0 in a phase. -/
def transmitting (p : TxPhase) (c : Ctx) (cfg : LineConfig) : Line :=
  { lineWith .ready cfg c with
    tx := { Transmitter.reset with phase := p, order := some (anOrder c.station)
                                   de := decide (p = .lead ∨ p = .send ∨ p = .hold) } }

/-! ## States that meet the hypotheses of the statements: registers and memory port -/

/-- No command waiting: with RESET_N asserted, STOPPED, RUNNING at the slowest clock with the microsecond full and one
period short of it; an unconfigured line, one whose character ends nominally, one whose gap timer counts, and one that
sends. -/
theorem witness_StepRunsTheFrontCommand :
    ∃ s t u v w : State, (State.reset.powerOn).pending = [] ∧ State.reset.powerOn.held = true
      ∧ (s.pending = [] ∧ s.held = false ∧ s.part = .stopped ∧ (s.line 7).config = none)
      ∧ (t.pending = [] ∧ t.held = false ∧ t.part ≠ .stopped ∧ t.adminSize.toNat / 65536 = 8000
        ∧ 8000 ≤ t.fraction + 1000)
      ∧ (u.part ≠ .stopped ∧ u.adminSize.toNat / 65536 = 8000 ∧ u.fraction + 1000 < 8000)
      ∧ (t.line 0).config = some master ∧ (t.line 0).rx.tail = some 159 ∧ 159 + 1 = master.charTime * master.divider
      ∧ (u.line 0).rx.tail = some 158 ∧ 158 + 1 ≠ master.charTime * master.divider
      ∧ (v.line 0).config = some master ∧ (v.line 0).rx.tail = none ∧ (v.line 0).rx.state = .hunting
      ∧ (v.line 0).rx.mark = true ∧ (v.line 0).tx.phase ≠ .lead ∧ (v.line 0).tx.phase ≠ .send
      ∧ (w.line 0).config = some master ∧ (w.line 0).tx.phase = .send := by
  let l := lineIn .ready master
  let ran : Nat → Nat → State := fun f a =>
    { withLine { l with rx := { l.rx with tail := some a } } with adminSize := 0x1F400404, fraction := f }
  exact ⟨State.reset, ran 7000 159, ran 6000 158,
    withLine { l with rx := { l.rx with state := .hunting, mark := true } },
    withLine (transmitting .send (aCtx 5 .talking) master), rfl, rfl, by decide, by decide, by decide, rfl, rfl,
    by decide, rfl, by decide, rfl, rfl, rfl, rfl, by decide, by decide, rfl, rfl⟩

theorem witness_PowerOnHoldsUntilRelease : State.reset.powerOn.held = true := rfl

theorem witness_SoftResetClearsThePart : running.held = false := rfl

/-- The smallest and the largest admin setup. -/
theorem witness_RunStartsThePart :
    ∃ s t : State, (s.held = false ∧ s.part = .stopped ∧ s.asqBase.toNat % 32 = 0 ∧ s.acqBase.toNat % 32 = 0
        ∧ s.adminSize.toNat % 256 = 4 ∧ s.adminSize.toNat / 256 % 256 = 4 ∧ s.adminSize.toNat / 65536 = 8000)
      ∧ (t.held = false ∧ t.part = .stopped ∧ t.asqBase.toNat % 32 = 0 ∧ t.acqBase.toNat % 32 = 0
        ∧ t.adminSize.toNat % 256 = 64 ∧ t.adminSize.toNat / 256 % 256 = 64 ∧ t.adminSize.toNat / 65536 = 40000) :=
  ⟨{ State.reset with asqBase := 32, acqBase := 64, adminSize := 0x1F400404 },
    { State.reset with asqBase := 32, acqBase := 64, adminSize := 0x9C404040 }, by decide, by decide⟩

theorem witness_ControlWriteSetsIntEnable :
    ∃ s t u : State, (s.held = false ∧ s.part = .stopped ∧ s.setupValid = false)
      ∧ (t.held = false ∧ t.part = .running) ∧ (u.held = false ∧ u.part = .halted) :=
  ⟨State.reset, running, { running with part := .halted }, by decide, by decide, by decide⟩

theorem witness_SetupWriteStoredOnlyInStopped :
    State.reset.held = false ∧ State.reset.part = .stopped ∧ running.held = false ∧ running.part ≠ .stopped := by decide

/-- SQ 0 and SQ 1 with the tail at its last value; a number that names no SQ; BQ 0; a DELETING SQ. -/
theorem witness_PostChecksTheTail :
    ∃ (s : State) (q r : Sq) (b : Bq), s.held = false ∧ s.part = .running ∧ s.sqs[(0 : SqId)] = some q
      ∧ s.sqs[(16 : SqId)] = some r ∧ r.state = .deleting ∧ s.bqs[(7 : LineId)] = some b
      ∧ (3#9).toNat < q.size ∧ (3 + q.size - q.tail) % q.size + (q.tail + q.size - q.head) % q.size < q.size
      ∧ (3 + b.size - b.tail) % b.size + (b.tail + b.size - b.head) % b.size < b.size
      ∧ (∀ i : SqId, i.val = (31#5).toNat → s.sqs[i] = none) ∧ (∀ n : LineId, n.val = (8#5).toNat → s.bqs[n] = none) :=
  ⟨((running.setSq 16 (some { aSq with state := .deleting })).setBq 7 (some aBq)), newSq 0 4 none,
    { aSq with state := .deleting }, aBq, by decide, rfl, rfl, rfl, rfl, rfl, by decide, by decide, by decide, by decide,
    by decide⟩

/-- An ACK that empties the CQ, one that leaves N entries, one that leaves fewer, and one that releases too many. -/
theorem witness_AckReleasesEntries :
    ∃ (s : State) (q : Cq), s.held = false ∧ s.part = .running ∧ s.cqs[(8 : CqId)] = some q ∧ q.unacked = 3
      ∧ (3 + q.size - q.head) % q.size = q.unacked
      ∧ q.threshold ≤ q.unacked - (1 + q.size - q.head) % q.size ∧ (1 + q.size - q.head) % q.size ≠ q.unacked
      ∧ q.unacked - (2 + q.size - q.head) % q.size < q.threshold ∧ (2 + q.size - q.head) % q.size ≠ q.unacked
      ∧ (∀ i : CqId, i.val = (15#4).toNat → s.cqs[i] = none) :=
  ⟨running.setCq 8 (some { newCq 0 4 2 5 true with tail := 3, unacked := 3 }),
    { newCq 0 4 2 5 true with tail := 3, unacked := 3 }, by decide, rfl, rfl, by decide, by decide, by decide, by decide,
    by decide, by decide, by decide⟩

theorem witness_StatusReadClearsHostError : State.reset.held = false := rfl

/-- Each clause at an offset of its own, the last byte of the window among them. -/
theorem witness_TargetPortAnswersEveryAccess :
    State.reset.held = false ∧ (35 < 36 ∧ 35 % 4 ≠ 0) ∧ (0x02000000#32).extractLsb' 24 2 = 2#2
      ∧ (0x01000000#32).extractLsb' 24 2 = 1#2 ∧ (0x00000002#32).getLsbD 1 = true
      ∧ (0x00000005#32).getLsbD 1 = false := by decide

/-- Every register's own offset is in the window and aligned. -/
theorem witness_TargetPortAnswersEveryAccess_offsets :
    ∀ o ∈ [0, 4, 8, 12, 16, 20, 24, 28, 32], o < 36 ∧ o % 4 = 0 := by decide

def waitingTransfer : Transfer := { addr := 1, kind := .write [1, 2, 3, 4, 5], use := .resultWrite }

/-- A write of five bytes at a misaligned address waits at the last requester; its third beat does not exist, its second
faults. -/
theorem witness_PortGrantIsRoundRobin :
    ∃ s : State, s.held = false ∧ s.port.current = none ∧ Memory.wf s.mem = true
      ∧ s.port.queues[(9 : ReqId)] = [waitingTransfer] ∧ (∀ q : ReqId, q ≠ 9 → s.port.queues[q] = [])
      ∧ 4 * 1 < (1#32).toNat % 4 + 5 ∧ (1#32).toNat % 4 + 5 ≤ 4 * 2 :=
  ⟨running.issue 9 waitingTransfer, rfl, rfl, rfl, rfl, by decide, by decide, by decide⟩

/-- A read of a record waits, with host memory listing bytes; the part is held; the bus is taken; nothing waits. -/
theorem witness_PortGrantIsRoundRobin_reads :
    ∃ s t : State, s.held = false ∧ s.port.current = none ∧ s.port.queues[(1 : ReqId)]
          = [{ addr := 4294967280, kind := .read 32, use := .adminFetch }]
      ∧ Memory.hostStores s.mem [(4294967295, 7)] = [(4294967295, 7)] ∧ State.reset.powerOn.held = true
      ∧ t.port.current ≠ none ∧ (∀ r : ReqId, State.reset.port.queues[r] = []) :=
  ⟨running.issue 1 { addr := 4294967280, kind := .read 32, use := .adminFetch }, onBus running .adminFetch .fault, rfl,
    rfl, rfl, by decide, rfl, by decide, by decide⟩

/-- The same transfer alone, on memory that lists nothing. -/
theorem witness_FaultedWriteStopsAtItsBeat :
    ∃ (s : State) (bytes : List Byte), s.held = false ∧ s.port.current = none ∧ Memory.wf s.mem = true
      ∧ bytes.length ≤ 256 ∧ s.port.queues[(9 : ReqId)] = { addr := 1, kind := .write bytes, use := .resultWrite } :: []
      ∧ (∀ q : ReqId, q ≠ 9 → s.port.queues[q] = []) ∧ 1 ≤ bytes.length
      ∧ 4 * 1 < (1#32).toNat % 4 + bytes.length ∧ ¬4 * 2 < (1#32).toNat % 4 + bytes.length :=
  ⟨running.issue 9 waitingTransfer, [1, 2, 3, 4, 5], rfl, rfl, rfl, by decide, rfl, by decide, by decide, by decide,
    by decide⟩

/-- A beat waiting for 64 µs, and one waiting for 63. -/
theorem witness_BeatTimeoutIsABusFault :
    ∃ (s : State) (u v : UnderWay), s.port.current = some u ∧ u.outcome = .unanswered 0
      ∧ (s.timebase - (0 + 64)).toNat < 2 ^ 31 ∧ v.outcome = .unanswered 1
      ∧ 2 ^ 31 ≤ (s.timebase - (1 + 64)).toNat :=
  ⟨{ onBus running .adminFetch (.unanswered 0) with timebase := 64 },
    { requester := 0, transfer := { addr := 0, kind := .read 32, use := .adminFetch }, outcome := .unanswered 0 },
    { requester := 0, transfer := { addr := 0, kind := .read 32, use := .adminFetch }, outcome := .unanswered 1 },
    rfl, rfl, by decide, rfl, by decide⟩

/-! ### The admin unit -/

theorem witness_AdminFetchStartsInIdle :
    ∃ (s t : State) (q : Sq), s.sqs[(0 : SqId)] = some q ∧ s.part = .running ∧ s.admin.phase = .idle
      ∧ s.admin.pendingList.length < 4 ∧ 1 ≤ (q.tail + q.size - q.head) % q.size
      ∧ t.sqs[(0 : SqId)] = some q ∧ t.part ≠ .running :=
  ⟨running.setSq 0 (some { newSq 0 4 none with tail := 1 }),
    { running.setSq 0 (some { newSq 0 4 none with tail := 1 }) with part := .halted }, { newSq 0 4 none with tail := 1 },
    rfl, rfl, rfl, by decide, by decide, rfl, by decide⟩

theorem ended_onBus_done (s : State) (use : TransferUse) (b : List Byte) :
    (onBus s use (.done b)).Ended use (some b) := ⟨_, rfl, rfl, rfl⟩

theorem ended_onBus_fault (s : State) (use : TransferUse) : (onBus s use .fault).Ended use none := ⟨_, rfl, rfl, rfl⟩

theorem refused {r : List Byte} (h : admRefused r = true) : OperandsRefused r := (admRefused_iff r).1 h

theorem notRefused {r : List Byte} (h : admRefused r = false) : ¬OperandsRefused r := fun k =>
  absurd ((admRefused_iff r).2 k) (by simp [h])

/-- A record of each kind: with a block, of an unknown opcode at both ends, refused, and ready. -/
theorem witness_AdminFetchTakesTheCommand :
    ∃ (s : State) (q : Sq) (c : Cq) (r : List Byte), s.Ended .adminFetch (some r) ∧ s.sqs[(0 : SqId)] = some q
      ∧ s.cqs[(0 : CqId)] = some c ∧ c.state = .active ∧ byteAt r 0 = 5#8
      ∧ OperandsRefused (admRecord 6 8 0 0 0) ∧ OperandsRefused (admRecord 13 0 0 2 0)
      ∧ OperandsRefused (admRecord 9 0 0 3 0) ∧ OperandsRefused (admRecord 10 0 240 1 0)
      ∧ OperandsRefused (admRecord 10 0 0 0 0) ∧ ¬OperandsRefused (admRecord 13 7 0 1 0)
      ∧ ¬OperandsRefused (admRecord 12 8 0 0 0) ∧ byteAt (admRecord 14 0 0 0 0) 0 = 14#8 :=
  ⟨onBus running .adminFetch (.done (admRecord 5 0 0 0 0)), newSq 0 4 none, newCq 0 4 1 0 true, _,
    ended_onBus_done _ _ _, rfl, rfl, rfl, by decide, refused (by decide), refused (by decide), refused (by decide),
    refused (by decide), refused (by decide), notRefused (by decide), notRefused (by decide), by decide⟩

theorem witness_AdminRingFaultHaltsThePart :
    ∃ (s t : State) (q : Cq) (w : Waiter), s.Ended .adminFetch none ∧ t.Ended (.completion 0 w) none
      ∧ t.cqs[(0 : CqId)] = some q :=
  ⟨onBus running .adminFetch .fault,
    onBus running (.completion 0 { poster := .command, record := .notice { event := .lineUp 0, time := 0 } }) .fault,
    newCq 0 4 1 0 true, _, ended_onBus_fault _ _, ended_onBus_fault _ _, rfl⟩

theorem witness_CommandStepsOfTheAdminUnit :
    ∃ (s : State) (h : Hand) (q : Cq) (b : List Byte), s.admin.hand = some h ∧ s.cqs[(0 : CqId)] = some q
      ∧ q.state = .active ∧ s.admin.phase = .executing ∧ byteAt h.record 0 = 0#8
      ∧ (onBus s .blockRead (.done b)).Ended .blockRead (some b) ∧ (onBus s .blockRead .fault).Ended .blockRead none
      ∧ (onBus s .resultWrite (.done [])).Ended .resultWrite (some [])
      ∧ (onBus s .resultWrite .fault).Ended .resultWrite none ∧ h.writes = [] ∧ ¬OperandsRefused h.record
      ∧ OperandsRefused (admRecord 5 8 0 0 0) :=
  ⟨executing running (handOf (admRecord 0 0 0 0 0) []), handOf (admRecord 0 0 0 0 0) [], newCq 0 4 1 0 true, [1], rfl, rfl,
    rfl, rfl, by decide, ended_onBus_done _ _ _, ended_onBus_fault _ _, ended_onBus_done _ _ _, ended_onBus_fault _ _,
    rfl, notRefused (by decide), refused (by decide)⟩

theorem executing_is (s : State) (op : Nat) (h : Hand) (q : Cq) (ho : admOpcode h.record = op)
    (hq : s.cqs[(0 : CqId)] = some q) (ha : q.state = .active) : (executing s h).Executing op h q :=
  ⟨rfl, rfl, ho, hq, ha⟩

/-- A ring record: the base, size and last operand at offsets 8 to 15. -/
def ringRecord (op line a b c : Byte) (size : Half) : List Byte :=
  [op, line, 0, 0, a, b, c, 0, 32, 0, 0, 0] ++ halfBytes size ++ List.replicate 18 0

/-- Ids 0, 1, 8 and 9; sizes 3, 4, 256 and 257. -/
theorem witness_CreateCqChecksInOrder :
    ∃ (s : State) (h : Hand) (q : Cq), s.Executing 1 h q ∧ s.cqs[(1 : CqId)] ≠ none ∧ s.cqs[(8 : CqId)] = none
      ∧ admA h.record = 8 ∧ admB h.record ≤ 1 ∧ 1 ≤ admC h.record ∧ (admAddr h.record).toNat % 32 = 0
      ∧ admSize h.record = 4 ∧ admSize (ringRecord 1 0 1 1 1 256) = 256 ∧ admSize (ringRecord 1 0 1 1 1 257) = 257
      ∧ admA (ringRecord 1 0 9 1 1 3) = 9 ∧ admSize (ringRecord 1 0 0 1 1 3) = 3 :=
  ⟨executing running (handOf (ringRecord 1 0 8 1 1 4) []), handOf (ringRecord 1 0 8 1 1 4) [], newCq 0 4 1 0 true,
    executing_is _ _ _ _ (by decide) rfl rfl, by decide, by decide, by decide, by decide, by decide, by decide, by decide,
    by decide, by decide, by decide, by decide⟩

/-- CQ 1 in use by SQ 1, and CQ 8 in use by none. -/
theorem witness_DeleteCqRefusesAQueueInUse :
    ∃ (s : State) (h g : Hand) (q0 q : Cq), s.Executing 2 h q0 ∧ admA h.record = 1 ∧ admA g.record = 8
      ∧ s.cqs[(1 : CqId)] = some q ∧ s.cqs[(8 : CqId)] = some q
      ∧ (∃ v b, s.sqs[(1 : SqId)] = some v ∧ v.binding = some b ∧ b.cq = 1)
      ∧ (∀ j : SqId, sqBoundTo 8 s.sqs[j] = false) ∧ (∀ n, lineNames 8 (s.line n) = false) :=
  ⟨executing ((withLine (lineIn .off master)).setCq 8 (some aCq)) (handOf (admRecord 2 0 1 0 0) []),
    handOf (admRecord 2 0 1 0 0) [], handOf (admRecord 2 0 8 0 0) [], newCq 0 4 1 0 true, aCq,
    executing_is _ _ _ _ (by decide) rfl rfl, by decide, by decide, rfl, rfl, ⟨aSq, _, rfl, rfl, rfl⟩, by decide,
    by decide⟩

/-- SQ 16 free, SQ 1 existing, CQ 1 ACTIVE and CQ 8 absent. -/
theorem witness_CreateSqChecksInOrder :
    ∃ (s : State) (h : Hand) (q0 q : Cq) (v : Sq), s.Executing 3 h q0 ∧ admA h.record = 16 ∧ s.sqs[(16 : SqId)] = none
      ∧ s.sqs[(1 : SqId)] = some v ∧ admLine h.record = 7 ∧ admB h.record ≤ 1 ∧ (admAddr h.record).toNat % 32 = 0
      ∧ admSize h.record = 256 ∧ admC h.record = 1 ∧ s.cqs[(1 : CqId)] = some q ∧ q.state = .active
      ∧ s.cqs[(8 : CqId)] = none :=
  ⟨executing (withLine (lineIn .off master)) (handOf (ringRecord 3 7 16 1 1 256) []),
    handOf (ringRecord 3 7 16 1 1 256) [], newCq 0 4 1 0 true, aCq, aSq, executing_is _ _ _ _ (by decide) rfl rfl,
    by decide, by decide, rfl, by decide, by decide, by decide, by decide, by decide, rfl, rfl, by decide⟩

/-- SQ 1 quiet on line 0, and SQ 1 with a context there; a DELETING one whose pending entry waits. -/
theorem witness_DeleteSqWaitsForItsContexts :
    ∃ (s t u : State) (h : Hand) (q0 : Cq) (q r : Sq) (b : SqBinding) (e : PendingEntry), s.Executing 4 h q0
      ∧ admA h.record = 1 ∧ s.sqs[(1 : SqId)] = some q ∧ q.binding = some b ∧ q.state ≠ .deleting
      ∧ (∀ j, ctxFromSq 1 ((s.line b.line).ctx j) = false) ∧ (s.line b.line).arbiter.inFlight ≠ some 1
      ∧ (∃ c, (t.line b.line).ctx 0 = some c ∧ c.origin = .host 1 0)
      ∧ u.sqs[(1 : SqId)] = some r ∧ r.state = .deleting ∧ r.binding = some b ∧ u.admin.pendingList = [] ++ e :: []
      ∧ e.work = .deleteSq 1 ∧ e.finished = false :=
  ⟨executing (withLine (lineIn .ready master)) (handOf (admRecord 4 0 1 0 0) []),
    withLine (lineWith .ready master (aCtx 5 .queued)),
    { (withLine (lineIn .ready master)).setSq 1 (some { aSq with state := .deleting }) with
      admin := { Admin.reset with
        pendingList := [{ work := .deleteSq 1, opcode := 4, tag := 0, lineByte := 0, finished := false }] } },
    handOf (admRecord 4 0 1 0 0) [], newCq 0 4 1 0 true, aSq, { aSq with state := .deleting }, _, _,
    executing_is _ _ _ _ (by decide) rfl rfl, by decide, rfl, rfl, by decide, by decide, by decide, ⟨_, rfl, rfl⟩, rfl,
    rfl, rfl, rfl, rfl, rfl⟩

/-! ### Line, poll, station and filter commands -/

/-- A line parameter block with this gap and line CQ; the other fields at an end of their range. -/
def aLpb (gap cq : Byte) : List Byte :=
  [0, 0, 1, 0, 16, 0, gap, 31, 31, 7, 1, 0, 0xFF, 3, 15, 1, 1, 0, 1, 0, 0, 0, 0, 0, 1, 8, cq, 0]
    ++ List.replicate 12 0

theorem inRange {b : List Byte} (h : lpbInRange b = true) : LineBlockInRange b := (lpbInRange_iff b).1 h

/-- Line 7 OFF with CQ 1, with CQ 0 and with CQ 8, which does not exist; a gap of 15 bit times; line 0 not OFF. -/
theorem witness_ConfigureLineStoresTheParameters :
    ∃ (s : State) (h : Hand) (q0 c : Cq), s.Executing 5 h q0 ∧ 7 = admLineId h.record ∧ (s.line 7).state = .off
      ∧ LineBlockInRange h.block ∧ (1 : CqId) ≠ 0 ∧ (1 : CqId).val = (byteAt h.block 26).toNat
      ∧ s.cqs[(1 : CqId)] = some c ∧ c.state = .active ∧ LineBlockInRange (aLpb 16 0)
      ∧ byteAt (aLpb 16 0) 26 = 0#8 ∧ LineBlockInRange (aLpb 255 8) ∧ s.cqs[(8 : CqId)] = none
      ∧ ¬LineBlockInRange (aLpb 15 1) ∧ (s.line 0).state ≠ .off :=
  ⟨executing (withLine (lineIn .fault master)) (handOf (admRecord 5 7 0 0 0) (aLpb 0 1)),
    handOf (admRecord 5 7 0 0 0) (aLpb 0 1), newCq 0 4 1 0 true, aCq, executing_is _ _ _ _ (by decide) rfl rfl, by decide,
    by decide, inRange (by decide), by decide, by decide, rfl, rfl, inRange (by decide), by decide, inRange (by decide),
    by decide, fun h => absurd ((lpbInRange_iff _).2 h) (by decide), by decide⟩

def aPoll (run : PollRun) : PollEntry :=
  { station := 5, function := 1, payload := [1], period := 10, offset := 4, mode := .onChange, quiet := 3
    retryLimit := 1, tag := 7, run := run, digest := none, lastStatus := none, suppressed := 0, skips := 0
    inFlight := none }

/-- A line with an ENABLED entry at index 31. -/
def polled (st : LineState) : Line := (lineIn st master).setPoll 31 (some (aPoll (.enabled 5)))

/-- A MASTER line with an ENABLED poll entry, and a MONITOR line with and without a descriptor to promise; an
unconfigured line and one that is not OFF. -/
theorem witness_StartLineMovesToStarting :
    ∃ (s t u : State) (h : Hand) (q0 : Cq) (l1 : Line) (q : Bq), s.Executing 6 h q0 ∧ 0 = admLineId h.record
      ∧ (s.line 0).config = some master ∧ (s.line 0).state = .off ∧ l1.state = .starting
      ∧ l1.rx = (if (s.line 0).carrier then (s.line 0).rx.start else (s.line 0).rx.stop)
      ∧ (∀ e, l1.poll e = match (s.line 0).poll e with
          | none => none
          | some p => match p.run with
            | .enabled _ => some { p with run := .enabled (s.timebase + BitVec.ofNat 32 (1000 * p.offset)) }
            | .disabled => some p)
      ∧ { l1 with state := (s.line 0).state, rx := (s.line 0).rx, polls := (s.line 0).polls } = s.line 0
      ∧ t.Executing 6 h q0 ∧ (t.line 0).config = some monitor ∧ monitor.mode = .monitor ∧ (t.line 0).mon.list = []
      ∧ (t.line 0).mon.slot = .empty ∧ t.bqs[(0 : LineId)] = some q ∧ q.state = .active
      ∧ q.promises.length < (q.tail + q.size - q.head) % q.size
      ∧ ({ q with tail := 0 } : Bq).promises.length = (({ q with tail := 0 } : Bq).tail + q.size - q.head) % q.size
      ∧ (u.line 0).config ≠ none ∧ (u.line 0).state ≠ .off ∧ (u.line 1).config = none :=
  ⟨executing (withLine (polled .off)) (handOf (admRecord 6 0 0 0 0) []),
    executing ((withLine (lineIn .off monitor)).setBq 0 (some aBq)) (handOf (admRecord 6 0 0 0 0) []),
    withLine (lineIn .ready master), handOf (admRecord 6 0 0 0 0) [], newCq 0 4 1 0 true,
    { (lineIn .starting master).setPoll 31 (some (aPoll (.enabled 4000))) with
      rx := (Receiver.reset true).start },
    aBq, executing_is _ _ _ _ (by decide) rfl rfl, by decide, rfl, rfl, rfl, by decide, by decide, by decide,
    executing_is _ _ _ _ (by decide) rfl rfl, rfl, rfl, rfl, rfl, rfl, rfl, by decide, by decide, by decide, by decide,
    by decide⟩

def aMonBlock : MonBlock :=
  { chars := [5, 64, 0, 1, 2], start := 0, crcBad := true, charErr := false, overlong := false, lost := 0
    buffer := some { addr := 256, capacity := 8 }, truncated := false, status := .ok }

/-- A drain and an immediate stop of a READY line, an OFF line, a DRAINING one with a context, and one whose stop is
done. -/
theorem witness_StopLineDrainsToOff :
    ∃ (s t u : State) (h g : Hand) (q0 : Cq) (e : PendingEntry), s.Executing 7 h q0 ∧ 0 = admLineId h.record
      ∧ admB h.record = 0 ∧ admB g.record ≠ 0 ∧ (s.line 0).config = some master ∧ master.mode = .master
      ∧ (s.line 0).carrier = true ∧ (s.line 0).state = .ready ∧ (s.line 7).state = .off
      ∧ (t.line 0).state = .draining ∧ (∃ c, (t.line 0).ctx 0 = some c) ∧ (u.line 0).state = .draining
      ∧ (∀ i, (u.line 0).ctx i = none) ∧ (u.line 0).exch.lent = none ∧ (u.line 0).mon.settlement = .settled
      ∧ u.admin.pendingList = [] ++ e :: [] ∧ e.work = .stopLine 0 ∧ e.finished = false ∧ u.cqs[(0 : CqId)] = some q0
      ∧ q0.state = .active :=
  ⟨executing (withLine (lineWith .ready master (aCtx 5 .queued))) (handOf (admRecord 7 0 0 0 0) []),
    withLine (lineWith .draining master (aCtx 5 .queued)),
    { withLine { lineIn .draining master with
        stop := some .drain, mon := { Monitor.reset with settlement := .settled } } with
      admin := { Admin.reset with
        pendingList := [{ work := .stopLine 0, opcode := 7, tag := 0, lineByte := 0, finished := false }] } },
    handOf (admRecord 7 0 0 0 0) [], handOf (admRecord 7 0 0 1 0) [], newCq 0 4 1 0 true, _,
    executing_is _ _ _ _ (by decide) rfl rfl, by decide, by decide, by decide, rfl, rfl, rfl, rfl, by decide, rfl,
    ⟨_, rfl⟩, rfl, by decide, rfl, rfl, rfl, rfl, rfl, rfl, rfl⟩

/-- A capturing line's stop: a held buffer, a waiting request, a promised one, and a head block with no descriptor
left. -/
theorem witness_StopLineDrainsToOff_settles :
    ∃ (s t u v : State) (h : Hand) (q0 c : Cq) (b r p e : Bq) (d : Descriptor) (head : MonBlock),
      s.Executing 7 h q0 ∧ 0 = admLineId h.record
      ∧ (s.line 0).config = some monitor ∧ monitor.mode = .monitor ∧ (s.line 0).state = .ready
      ∧ (s.line 0).exch.work = [] ∧ s.cqs[monitor.lineCq] = some c ∧ c.state = .active ∧ monitor.lineCq ≠ 0
      ∧ (s.bqs[(0 : LineId)] = some b ∧ (s.line 0).mon.list = [] ∧ (s.line 0).mon.slot = .held d ∧ .staged ∉ b.requests)
      ∧ (t.bqs[(0 : LineId)] = some r ∧ (t.line 0).mon.list = [] ∧ (t.line 0).mon.slot = .requested
        ∧ .staged ∈ r.requests)
      ∧ (u.bqs[(0 : LineId)] = some p ∧ (u.line 0).mon.list = [] ∧ (u.line 0).mon.slot = .requested
        ∧ .staged ∉ p.requests ∧ p.promises = [.staged])
      ∧ (v.bqs[(0 : LineId)] = some e ∧ (v.line 0).mon.list = [head] ∧ (v.line 0).mon.slot = .requested
        ∧ .staged ∈ e.requests ∧ (v.line 0).mon.phase = .bufferWait
        ∧ (e.tail + e.size - e.head) % e.size ≤ e.promises.length) := by
  let m := fun (list : List MonBlock) (slot : StagedSlot) (phase : DeliveryPhase) =>
    { lineIn .ready monitor with mon := { Monitor.reset with list := list, slot := slot, phase := phase } }
  exact ⟨executing ((withLine (m [] (.held { addr := 8, capacity := 4 }) .idle)).setBq 0 (some aBq))
      (handOf (admRecord 7 0 0 0 0) []),
    (withLine (m [] .requested .idle)).setBq 0 (some { aBq with tail := 0, requests := [.staged] }),
    (withLine (m [] .requested .idle)).setBq 0 (some { aBq with promises := [.staged] }),
    (withLine (m [aMonBlock] .requested .bufferWait)).setBq 0 (some { aBq with tail := 0, requests := [.staged] }),
    handOf (admRecord 7 0 0 0 0) [], newCq 0 4 1 0 true, aCq, aBq, { aBq with tail := 0, requests := [.staged] },
    { aBq with promises := [.staged] }, { aBq with tail := 0, requests := [.staged] }, { addr := 8, capacity := 4 },
    aMonBlock, executing_is _ _ _ _ (by decide) rfl rfl, by decide, rfl, rfl, rfl, rfl, rfl, rfl, by decide,
    ⟨rfl, rfl, rfl, by decide⟩, ⟨rfl, rfl, rfl, by decide⟩, ⟨rfl, rfl, rfl, by decide, rfl⟩,
    ⟨rfl, rfl, rfl, by decide, rfl, by decide⟩⟩

/-- A poll entry block with this station and period. -/
def aPeb (station : Byte) (period : Byte) : List Byte :=
  [station, 31, 16, 1, period, 0, 4, 0, 3, 7, 7, 0, 0, 0, 0, 0] ++ List.replicate 16 9

theorem pollInRange {b : List Byte} (h : pebInRange b = true) : PollBlockInRange b := (pebInRange_iff b).1 h

theorem notPollInRange {b : List Byte} (h : pebInRange b = false) : ¬PollBlockInRange b := fun k =>
  absurd ((pebInRange_iff b).2 k) (by simp [h])

/-- Entries 0, 31 and 32; stations 0, 239 and 240; a period of 0; an entry that is ENABLED, a MONITOR line, an
unconfigured line and one without a buffer queue. -/
theorem witness_SetPollWritesADisabledEntry :
    ∃ (s t : State) (h : Hand) (q0 : Cq) (p : PollEntry), s.Executing 8 h q0 ∧ 0 = admLineId h.record
      ∧ (s.line 0).config = some master ∧ s.bqs[(0 : LineId)] ≠ none ∧ PollBlockInRange h.block
      ∧ (0 : PollId).val = admA h.record ∧ (s.line 0).poll 0 = none ∧ (s.line 0).poll 31 = some p ∧ p.run ≠ .disabled
      ∧ admA (admRecord 8 0 32 0 0) = 32 ∧ PollBlockInRange (aPeb 239 1) ∧ ¬PollBlockInRange (aPeb 240 1)
      ∧ ¬PollBlockInRange (aPeb 0 1) ∧ ¬PollBlockInRange (aPeb 1 0) ∧ (s.line 7).config = none
      ∧ (t.line 0).config = some monitor ∧ t.bqs[(0 : LineId)] = none :=
  ⟨executing ((withLine (polled .ready)).setBq 0 (some aBq)) (handOf (admRecord 8 0 0 0 0) (aPeb 1 1)),
    withLine (lineIn .ready monitor), handOf (admRecord 8 0 0 0 0) (aPeb 1 1), newCq 0 4 1 0 true, aPoll (.enabled 5),
    executing_is _ _ _ _ (by decide) rfl rfl, by decide, rfl, by decide, pollInRange (by decide), by decide, by decide,
    by decide, by decide, by decide, pollInRange (by decide), notPollInRange (by decide), notPollInRange (by decide),
    notPollInRange (by decide), by decide, rfl, by decide⟩

def aStation (a : Byte) : StationEntry :=
  { address := a, health := .unknown, failures := 0, seq := true, lastUsed := 0, lastSuccess := none, exchangesOk := 0
    exchangesFailed := 0 }

/-- The line with entry `i` of its station table OCCUPIED. -/
def known (l : Line) (i : StationIdx) (e : StationEntry) : Line := { l with stations := l.stations.set i (some e) }

/-- A line whose station table has no entry for station 5 and none that may be replaced. A run never pins more than 48
entries, so all 64 are given one address, which an ENABLED poll entry pins. -/
def crowded (l : Line) : Line :=
  { l with stations := Vector.replicate 64 (some (aStation 6))
           polls := l.polls.set 30 (some { aPoll (.enabled 0) with station := 6 }) }

theorem crowded_full (l : Line) (e : StationEntry) (he : e = aStation 6) (hp : (crowded l).pins e.address ≠ 0) :
    ∀ i : StationIdx, ∃ se, (crowded l).stations[i] = some se ∧ (crowded l).pins se.address ≠ 0 := by
  intro i
  exact ⟨e, by simp [crowded, he], hp⟩

/-- A station table full of entries that nothing pins. -/
def unpinned (l : Line) : Line := { l with stations := Vector.replicate 64 (some (aStation 6)) }

/-- The three ways an entry is obtained: found, in an empty place, and by replacement. -/
theorem obtainable_each :
    Obtainable (known (polled .ready) 63 (aStation 5)) 5 ∧ Obtainable (polled .ready) 5
      ∧ (Obtainable (unpinned (polled .ready)) 5 ∧ (∀ k : StationIdx, (unpinned (polled .ready)).stations[k] ≠ none)
        ∧ (unpinned (polled .ready)).entry 5 = none) :=
  ⟨.inl ⟨aStation 5, by decide⟩, .inr (.inl ⟨0, by decide⟩), .inr (.inr ⟨63, aStation 6, by simp [unpinned], by decide⟩),
    fun k => by simp [unpinned], by decide⟩

/-- The three operations; an EMPTY entry, an ENABLED one, one with an instance in flight, and a full station table. -/
theorem witness_PollControlActsOnTheEntry :
    ∃ (s t u : State) (h : Hand) (q0 : Cq) (p r : PollEntry), s.Executing 9 h q0 ∧ 0 = admLineId h.record
      ∧ (s.line 0).config = some master ∧ (31 : PollId).val = admA h.record ∧ (s.line 0).poll 31 = some p
      ∧ (s.line 0).poll 0 = none ∧ admB h.record = 0 ∧ admB (admRecord 9 0 31 1 0) = 1
      ∧ admB (admRecord 9 0 31 2 0) = 2 ∧ (s.line 0).stations[(0 : StationIdx)] = none ∧ p.inFlight = none
      ∧ (t.line 0).poll 31 = some r ∧ r.inFlight ≠ none ∧ u.Executing 9 h q0 ∧ (u.line 0).poll 31 = some p
      ∧ (u.line 0).entry p.station = none
      ∧ ∀ i : StationIdx, ∃ se, (u.line 0).stations[i] = some se ∧ (u.line 0).pins se.address ≠ 0 :=
  ⟨executing (withLine (polled .ready)) (handOf (admRecord 9 0 31 0 0) []),
    withLine ((lineIn .ready master).setPoll 31 (some { aPoll .disabled with inFlight := some 0 })),
    executing (withLine (crowded (polled .ready))) (handOf (admRecord 9 0 31 0 0) []),
    handOf (admRecord 9 0 31 0 0) [], newCq 0 4 1 0 true, aPoll (.enabled 5), { aPoll .disabled with inFlight := some 0 },
    executing_is _ _ _ _ (by decide) rfl rfl, by decide, rfl, by decide, by decide, by decide, by decide, by decide,
    by decide, by decide, rfl, by decide, by decide, executing_is _ _ _ _ (by decide) rfl rfl, by decide, by decide,
    crowded_full (polled .ready) (aStation 6) rfl (by decide)⟩

/-- Stations 1 and 239 known, one with a TALKING context, one with a QUEUED context whose order waits; 5 unknown. -/
theorem witness_StationResetNeedsAnIdleStation :
    ∃ (s t : State) (h : Hand) (q0 : Cq) (e : StationEntry) (o : Order) (c : Ctx), s.Executing 10 h q0
      ∧ admB h.record = 0 ∧ 0 = admLineId h.record ∧ byteAt h.record 4 = 239#8 ∧ (s.line 0).entry 239 = some e
      ∧ (∀ i, i ≠ 0 → (s.line 0).ctx i = none) ∧ (s.line 0).ctx 0 = some c ∧ c.attempts = 0 ∧ c.station = 239#8 ∧ (s.line 0).config = some master
      ∧ (s.line 0).tx.order = some o ∧ (s.line 0).tx.waiting = true ∧ o.ctx = 0 ∧ (s.line 0).entry 5 = none
      ∧ (t.line 0).entry 1 = some (aStation 1)
      ∧ (∃ d, (t.line 0).ctx 0 = some d ∧ d.station = 1#8 ∧ d.state.active = true) :=
  ⟨executing (withLine (known (transmitting .gapWait (aCtx 239 .queued) master) 63 (aStation 239)))
      (handOf (admRecord 10 0 239 0 0) []),
    withLine (known (lineWith .ready master (aCtx 1 .talking)) 0 (aStation 1)), handOf (admRecord 10 0 239 0 0) [],
    newCq 0 4 1 0 true, aStation 239, anOrder 239, aCtx 239 .queued, executing_is _ _ _ _ (by decide) rfl rfl, by decide,
    by decide, by decide, by decide, by decide, rfl, rfl, rfl, rfl, rfl, by decide, rfl, by decide, by decide,
    _, rfl, rfl, rfl⟩

/-- A record of the read commands: a report buffer of this length. -/
def readRecord (op a b : Byte) (len : Half) : List Byte := ringRecord op 0 a b 0 len

/-- One report of two that fit, a length of 15 and of 16, an empty table, a station unknown, a MONITOR line and an
unconfigured one, and the counters with and without the clear. -/
theorem witness_ReadsWriteTheirBlocks :
    ∃ (s t u : State) (h g k : Hand) (q0 : Cq) (b : List Byte) (e : StationEntry), s.Executing 10 h q0
      ∧ admB h.record = 1 ∧ 0 = admLineId h.record ∧ byteAt h.record 4 = 0#8 ∧ (s.line 0).allReports = b :: []
      ∧ 16 ≤ admSize h.record ∧ admSize (readRecord 10 0 1 15) < 16 ∧ (s.line 1).allReports = []
      ∧ (s.line 0).entryIdx 9 = some 63 ∧ (s.line 0).stations[(63 : StationIdx)] = some e
      ∧ (s.line 0).entry 5 = none ∧ (s.line 0).config = some master ∧ master.mode = .master ∧ u.Executing 10 k q0
      ∧ admB k.record = 1 ∧ 0 = admLineId k.record ∧ (u.line 0).config = some monitor ∧ monitor.mode = .monitor
      ∧ byteAt k.record 4 = 9#8 ∧ (u.line 7).config = none ∧ 7 = admLineId (ringRecord 10 7 9 1 0 16) ∧ t.Executing 13 g q0 ∧ 0 = admLineId g.record ∧ admB g.record = 1
      ∧ admB (readRecord 13 0 0 80) = 0 :=
  ⟨executing (withLine (known (lineIn .ready master) 63 (aStation 9))) (handOf (readRecord 10 0 1 16) []),
    executing (withLine (lineIn .ready master)) (handOf (readRecord 13 0 1 80) []),
    executing (withLine (lineIn .ready monitor)) (handOf (ringRecord 10 0 9 1 0 16) []), handOf (readRecord 10 0 1 16) [],
    handOf (readRecord 13 0 1 80) [], handOf (ringRecord 10 0 9 1 0 16) [], newCq 0 4 1 0 true, stationReport 63 (aStation 9), aStation 9,
    executing_is _ _ _ _ (by decide) rfl rfl, by decide, by decide, by decide, by decide, by decide, by decide,
    by decide, by decide, by decide, by decide, rfl, rfl, executing_is _ _ _ _ (by decide) rfl rfl, by decide, by decide,
    rfl, rfl, by decide, by decide, by decide, executing_is _ _ _ _ (by decide) rfl rfl, by decide, by decide, by decide⟩

/-- Lists of 0, 1, 16 and 17 addresses and no list; a MONITOR line, a MASTER line and an unconfigured one. -/
theorem witness_SetFilterReplacesTheFilter :
    ∃ (s t : State) (h : Hand) (q0 : Cq), s.Executing 11 h q0 ∧ 0 = admLineId h.record ∧ admB h.record = 0
      ∧ admC h.record = 16 ∧ (s.line 0).config = some monitor ∧ monitor.mode = .monitor
      ∧ admC (admRecord 11 0 0 0 1) = 1 ∧ admC (admRecord 11 0 0 0 0) = 0 ∧ admC (admRecord 11 0 0 0 17) = 17
      ∧ admB (admRecord 11 0 0 1 0) ≠ 0 ∧ (t.line 0).config = some master ∧ (t.line 7).config = none :=
  ⟨executing (withLine (lineIn .ready monitor)) (handOf (admRecord 11 0 0 0 16) []), withLine (lineIn .ready master),
    handOf (admRecord 11 0 0 0 16) [], newCq 0 4 1 0 true, executing_is _ _ _ _ (by decide) rfl rfl, by decide,
    by decide, by decide, rfl, rfl, by decide, by decide, by decide, by decide, rfl, by decide⟩

/-- The three modes; SQ 16 absent; stations 0, 239 and 240. -/
theorem witness_AbortActsOnTheContextsNamed :
    ∃ (s : State) (h g k : Hand) (q0 : Cq) (q : Sq) (b : SqBinding), s.Executing 12 h q0
      ∧ (1 : SqId).val = admA h.record ∧ s.sqs[(1 : SqId)] = some q ∧ q.binding = some b ∧ admB h.record = 0
      ∧ admA g.record = 16 ∧ s.sqs[(16 : SqId)] = none ∧ admB g.record = 2 ∧ admB k.record = 1
      ∧ 0 = admLineId k.record ∧ admC k.record = 239 ∧ admC (admRecord 12 0 0 1 240) = 240 :=
  ⟨executing (withLine (lineWith .ready master (aCtx 5 .queued))) (handOf (admRecord 12 0 1 0 0) []),
    handOf (admRecord 12 0 1 0 0) [], handOf (admRecord 12 0 16 2 0) [], handOf (admRecord 12 0 0 1 239) [],
    newCq 0 4 1 0 true, aSq, _, executing_is _ _ _ _ (by decide) rfl rfl, by decide, rfl, rfl, by decide, by decide,
    by decide, by decide, by decide, by decide, by decide, by decide⟩

/-! ### Fetches and buffers -/

/-- SQ `i` bound to line 0 with this priority and one record waiting. -/
def waitingSq (p : Priority) : Sq := { newSq 64 4 (some { line := 0, cq := 1, priority := p }) with tail := 1 }

/-- The bindings of the SQs with records of a state, by priority. -/
def prioritiesOf (s : State) (i : SqId) : Option Priority :=
  match s.sqs[i] with
  | some q => match q.binding with
    | some b => if 1 ≤ (q.tail + q.size - q.head) % q.size then some b.priority else none
    | none => none
  | none => none

theorem prioritiesOf_candidate (s : State) (n : LineId) (p : Priority) (i : SqId) (h : s.Candidate n p i) :
    prioritiesOf s i = some p := by
  obtain ⟨q, b, c, hq, hb, -, hp, -, hr, -⟩ := h
  simp [prioritiesOf, hq, hb, hr, hp]

theorem not_candidate {s : State} {n : LineId} {p : Priority} (h : ∀ j, prioritiesOf s j ≠ some p) :
    ∀ j, ¬s.Candidate n p j := fun j hj => h j (prioritiesOf_candidate s n p j hj)

theorem lowest_candidate {s : State} {n : LineId} {p : Priority} {i : SqId}
    (h : ∀ j, prioritiesOf s j = some p → i ≤ j) : ∀ j, s.Candidate n p j → i ≤ j :=
  fun j hj => h j (prioritiesOf_candidate s n p j hj)

def readyQueues : State := withLine (lineIn .ready master)

/-- A NORMAL SQ alone with the pointer none, and above a pointer; a HIGH SQ 16 with the pointer at 16; no record. -/
theorem witness_FetchGrantIsRoundRobinByPriority :
    ∃ (s t u : State) (q r : Sq), (s.line 0).config = some master ∧ s.part = .running ∧ (s.line 0).state = .ready
      ∧ (s.line 0).exch.lent = none ∧ (s.line 0).arbiter.inFlight = none
      ∧ master.pollReserve < ((List.finRange 16).countP fun j => ((s.line 0).ctx j).isNone)
      ∧ (∀ e, (s.line 0).poll e = none) ∧ s.sqs[(1 : SqId)] = some q ∧ (∀ j, ¬s.Candidate 0 .high j)
      ∧ RoundRobinPick (s.Candidate 0 .normal) (s.line 0).arbiter.normalPointer 1
      ∧ t.sqs[(16 : SqId)] = some r ∧ RoundRobinPick (t.Candidate 0 .high) (some 16) 16
      ∧ ∀ p j, ¬u.Candidate 0 p j :=
  ⟨readyQueues.setSq 1 (some (waitingSq .normal)), readyQueues.setSq 16 (some (waitingSq .high)), readyQueues,
    waitingSq .normal, waitingSq .high, rfl, rfl, rfl, rfl, rfl, by decide, by decide, rfl,
    not_candidate (by decide), ⟨⟨_, _, _, rfl, rfl, rfl, rfl, rfl, by decide, rfl, rfl⟩,
      .inr ⟨(by intro k hk; cases hk), lowest_candidate (by decide)⟩⟩, rfl,
    ⟨⟨_, _, _, rfl, rfl, rfl, rfl, rfl, by decide, rfl, rfl⟩,
      .inr ⟨(by rintro k ⟨⟩ j -; exact Fin.le_last j), lowest_candidate (by decide)⟩⟩,
    fun p => by cases p <;> exact not_candidate (by decide)⟩

/-- A submission record. -/
def aSub (kind flags station len : Byte) : List Byte :=
  [kind, flags, 0, 0, station, 1, len, 8] ++ List.replicate 24 0

def fetching (l : Line) (o : TransferOutcome) : State := onBus (withLine l) (.sqFetch 1 0 0) o

theorem hostOn_withLine (l : Line) (c : Ctx) (hc : c.origin = .host 1 0) : HostOn (withLine l) c 1 aCq :=
  ⟨by decide, rfl, rfl, 1, 0, aSq, _, hc, rfl, rfl, rfl⟩

theorem malformed {r : List Byte} (q : Option Bq) (h : subMalformed r q.isSome = true) : RecordMalformed r q :=
  (subMalformed_iff r q).1 h

theorem wellMade {r : List Byte} (q : Option Bq) (h : subMalformed r q.isSome = false) : ¬RecordMalformed r q := fun k =>
  absurd ((subMalformed_iff r q).2 k) (by simp [h])

/-- A record of kind 2; stations 239 and 240; a MONITOR line; a full station table; request data to be read; a
broadcast; a station known; and a bus fault. -/
theorem witness_FetchCompleteAdmitsTheRecord :
    ∃ (s t u v : State) (c : Ctx) (cq : Cq) (r : List Byte), s.Ended (.sqFetch 1 0 0) (some r)
      ∧ (s.line 0).config = some master ∧ c = hostCtx 1 r master s.timebase ∧ HostOn s c 1 cq
      ∧ byteAt r 0 = 1#8 ∧ ¬RecordMalformed r s.bqs[(0 : LineId)] ∧ (s.line 0).stop = none
      ∧ (byteAt r 1).getLsbD 0 = true ∧ c.station = 239#8 ∧ (∃ se, (s.line 0).entry c.station = some se)
      ∧ byteAt (aSub 2 0 1 0) 0 ≠ 1#8 ∧ RecordMalformed (aSub 1 1 240 0) (some aBq)
      ∧ ¬RecordMalformed (aSub 1 0 1 200) none ∧ RecordMalformed (aSub 1 0 1 201) none
      ∧ RecordMalformed (aSub 1 2 1 0) none ∧ (byteAt (aSub 1 0 1 200) 1).getLsbD 0 = false
      ∧ (hostCtx 1 (aSub 1 0 0 0) master 0).station = 0#8 ∧ (t.line 0).config = some monitor
      ∧ (u.line 0).entry 239 = none ∧ (u.line 0).ctx 0 = none
      ∧ (∀ j : StationIdx, ∃ se, (u.line 0).stations[j] = some se ∧ (u.line 0).pins se.address ≠ 0)
      ∧ v.Ended (.sqFetch 1 0 0) none :=
  ⟨fetching (known (lineIn .ready master) 0 (aStation 239)) (.done (aSub 1 1 239 16)),
    fetching (lineIn .ready monitor) (.done (aSub 1 1 239 16)),
    fetching (crowded (lineIn .ready master)) (.done (aSub 1 1 239 16)), fetching (lineIn .ready master) .fault,
    hostCtx 1 (aSub 1 1 239 16) master 0, aCq, aSub 1 1 239 16, ended_onBus_done _ _ _, rfl, rfl,
    ⟨by decide, rfl, rfl, 1, 0, aSq, _, by decide, rfl, rfl, rfl⟩, by decide, wellMade none (by decide), rfl, by decide,
    by decide, ⟨aStation 239, by decide⟩, by decide, malformed (some aBq) (by decide), wellMade none (by decide),
    malformed none (by decide), malformed none (by decide), by decide, by decide, rfl,
    by decide, by decide, crowded_full (lineIn .ready master) (aStation 6) rfl (by decide), ended_onBus_fault _ _⟩

/-- A station unknown, with an empty place and with every place taken by an entry nothing pins; the context lent is
FREE. -/
theorem witness_FetchCompleteAdmitsTheRecord_obtains :
    ∃ (s t : State) (r : List Byte), s.Ended (.sqFetch 1 0 0) (some r) ∧ t.Ended (.sqFetch 1 0 0) (some r)
      ∧ (hostCtx 1 r master 0).station = 5#8 ∧ (byteAt r 1).getLsbD 0 = true
      ∧ (s.line 0).ctx 0 = none ∧ (s.line 0).entry 5 = none ∧ Obtainable (s.line 0) 5
      ∧ (t.line 0).ctx 0 = none ∧ (t.line 0).entry 5 = none ∧ Obtainable (t.line 0) 5 :=
  ⟨fetching (polled .ready) (.done (aSub 1 1 5 16)), fetching (unpinned (polled .ready)) (.done (aSub 1 1 5 16)),
    aSub 1 1 5 16, ended_onBus_done _ _ _, ended_onBus_done _ _ _, by decide, by decide, by decide, by decide,
    obtainable_each.2.1, by decide, by decide, obtainable_each.2.2.1⟩

/-- A station known, a broadcast, and a bus fault. -/
theorem witness_RequestDataReadQueuesTheContext :
    ∃ (s t : State) (c d : Ctx) (q : Cq), s.Ended (.requestData 0 0) (some [1, 2]) ∧ (s.line 0).ctx 0 = some c
      ∧ (s.line 0).stop = none ∧ c.abortAtAdmission = false ∧ (∃ se, (s.line 0).entry c.station = some se)
      ∧ t.Ended (.requestData 0 0) none ∧ (t.line 0).ctx 0 = some d ∧ d.station = 0#8 ∧ HostOn t d 1 q :=
  ⟨onBus (withLine (known (lineWith .ready master (aCtx 5 .admission)) 0 (aStation 5))) (.requestData 0 0) (.done [1, 2]),
    onBus (withLine (lineWith .ready master (aCtx 0 .admission))) (.requestData 0 0) .fault, aCtx 5 .admission,
    aCtx 0 .admission, aCq, ended_onBus_done _ _ _, rfl, rfl, rfl, ⟨aStation 5, by decide⟩, ended_onBus_fault _ _, rfl,
    rfl, hostOn_withLine _ _ rfl⟩

/-- A station that has no entry yet, in a table with an empty place. -/
theorem witness_RequestDataReadQueuesTheContext_obtains :
    ∃ (s : State) (c : Ctx), s.Ended (.requestData 0 0) (some [1, 2]) ∧ (s.line 0).ctx 0 = some c
      ∧ (s.line 0).stop = none ∧ c.abortAtAdmission = false ∧ c.station = 5#8 ∧ (s.line 0).entry 5 = none
      ∧ Obtainable (s.line 0) 5 :=
  ⟨onBus (withLine (lineWith .ready master (aCtx 5 .admission))) (.requestData 0 0) (.done [1, 2]), aCtx 5 .admission,
    ended_onBus_done _ _ _, rfl, rfl, rfl, rfl, by decide, .inr (.inl ⟨0, by decide⟩)⟩

/-- A descriptor of one byte at this address. -/
def aDescriptor (capacity : Half) : List Byte := [0, 1, 0, 0] ++ halfBytes capacity ++ [0, 0]

def okResult (len : Nat) : Result :=
  { status := .ok, replyFunction := some 1, replyLength := len, endTime := 0, abortLate := false, truncated := false
    healthAfter := none, healthChanged := false }

def postingCtx : Ctx :=
  { aCtx 5 .posting with dest := .bufferQueue, store := [1, 2, 3], result := some (okResult 3) }

/-- Takers of both kinds with capacities 1 and 0; a bus fault; a stale read; a request that can be promised and one that
cannot. -/
theorem witness_DescriptorsGoToTheirTakers :
    ∃ (s t : State) (q r w : Bq) (b : List Byte) (c : Ctx) (d : Result), s.Ended (.descriptor 0) (some b)
      ∧ s.bqs[(0 : LineId)] = some q ∧ (half b 4).toNat = 1 ∧ half (aDescriptor 0) 4 = 0#16
      ∧ q.promises = .ctx 0 :: [] ∧ (s.line 0).ctx 0 = some c ∧ c.origin = .host 1 0 ∧ c.dest = .bufferQueue
      ∧ c.result = some d ∧ d.status = .ok ∧ c.store.take (min d.replyLength 1) ≠ []
      ∧ t.Ended (.descriptor 0) none ∧ t.bqs[(0 : LineId)] = some r ∧ r.promises = .staged :: []
      ∧ (t.line 0).mon.list = [] ∧ (t.line 0).state ≠ .draining
      ∧ (onBus s .staleDescriptor .fault).Ended .staleDescriptor none
      ∧ (running.setBq 7 (some w)).bqs[(7 : LineId)] = some w ∧ w.requests = .staged :: [] ∧ w.state = .active
      ∧ w.promises.length < (w.tail + w.size - w.head) % w.size
      ∧ (({ w with tail := 0 } : Bq).tail + w.size - w.head) % w.size = w.promises.length :=
  ⟨onBus ((withLine (lineWith .ready master postingCtx)).setBq 0 (some { aBq with promises := [.ctx 0] }))
      (.descriptor 0) (.done (aDescriptor 1)),
    onBus ((withLine (lineIn .ready monitor)).setBq 0 (some { aBq with promises := [.staged] })) (.descriptor 0) .fault,
    { aBq with promises := [.ctx 0] }, { aBq with promises := [.staged] }, { aBq with requests := [.staged] },
    aDescriptor 1, postingCtx, okResult 3, ended_onBus_done _ _ _, rfl, by decide, by decide, rfl, rfl, rfl, rfl, rfl,
    rfl, by decide, ended_onBus_fault _ _, rfl, rfl, rfl, by decide, ended_onBus_fault _ _, by decide, rfl, rfl,
    by decide, by decide⟩

/-- A poll instance of entry 31, of station 5. -/
def pollCtx (st : CtxState) : Ctx := { freshCtx (.poll 31) 0 with station := 5, state := st, dest := .bufferQueue }

/-- A line with that instance in flight, and its entry in a report mode. -/
def pollLine (mode : ReportMode) (c : Ctx) : Line :=
  (lineWith .ready master c).setPoll 31 (some { aPoll (.enabled 5) with mode := mode, inFlight := some 0 })

theorem pollOn_pollLine (mode : ReportMode) (c : Ctx) (h : c.origin = .poll 31) :
    PollOn (withLine (pollLine mode c)) 0 0 c 31 { aPoll (.enabled 5) with mode := mode, inFlight := some 0 } 1 aCq :=
  ⟨by decide, rfl, rfl, h, rfl, rfl, master, rfl, rfl⟩

/-- The entry after the delivery of a good result and of a failure, in both modes. -/
theorem afterReport_each (p : PollEntry) (c : Ctx) (r : Result) : ∃ p', AfterReport p p' c r := by
  by_cases hm : p.mode = .every
  · exact ⟨_, fun _ => rfl, fun h => (by simp [hm] at h), fun h => (by simp [hm] at h)⟩
  · by_cases hg : r.isGood
    · exact ⟨_, fun h => absurd h hm, fun _ _ => rfl, fun _ h => absurd hg h⟩
    · exact ⟨_, fun h => absurd h hm, fun _ h => absurd h hg, fun _ _ => rfl⟩

/-- A poll instance with a result of three characters promised a descriptor, whose read completes and faults; a host
context promised one alone. -/
theorem witness_DescriptorsGoToTheirTakers_polls :
    ∃ (s t u : State) (q : Bq) (c d : Ctx) (p : PollEntry), s.Ended (.descriptor 0) (some (aDescriptor 1))
      ∧ t.Ended (.descriptor 0) none ∧ s.bqs[(0 : LineId)] = some q ∧ t.bqs[(0 : LineId)] = some q
      ∧ q.promises = [.ctx 0] ∧ (s.line 0).ctx 0 = some c ∧ c.origin = .poll 31 ∧ (s.line 0).poll 31 = some p
      ∧ c.dest = .bufferQueue ∧ c.result = some (okResult 3) ∧ (okResult 3).isGood
      ∧ c.store.take (min 3 1) ≠ [] ∧ (∃ p', AfterReport p p' c (okResult 3))
      ∧ (t.line 0).ctx 0 = some c ∧ c.state = .posting ∧ PollOn t 0 0 c 31 p 1 aCq
      ∧ (∀ cfg, (t.line 0).config = some cfg → cfg.mode = .master)
      ∧ u.Ended (.descriptor 0) none ∧ (u.line 0).ctx 0 = some d ∧ d.state = .posting ∧ d.result = some (okResult 3)
      ∧ HostOn u d 1 aCq ∧ (∀ cfg, (u.line 0).config = some cfg → cfg.mode = .master) := by
  let c := { pollCtx .posting with store := [1, 2, 3], result := some (okResult 3) }
  let on : Line → TransferOutcome → State := fun l o =>
    onBus ((withLine l).setBq 0 (some { aBq with promises := [.ctx 0] })) (.descriptor 0) o
  exact ⟨on (pollLine .onChange c) (.done (aDescriptor 1)), on (pollLine .onChange c) .fault,
    on (lineWith .ready master postingCtx) .fault, { aBq with promises := [.ctx 0] }, c, postingCtx,
    { aPoll (.enabled 5) with mode := .onChange, inFlight := some 0 }, ended_onBus_done _ _ _, ended_onBus_fault _ _,
    rfl, rfl, rfl, rfl, rfl, rfl, rfl, rfl, .inl rfl, by decide, afterReport_each _ _ _, rfl, rfl,
    pollOn_pollLine .onChange c rfl, by rintro cfg ⟨⟩; rfl, ended_onBus_fault _ _, rfl, rfl, rfl,
    hostOn_withLine _ _ rfl, by rintro cfg ⟨⟩; rfl⟩

def capturing : Line := { lineIn .ready monitor with mon := { Monitor.reset with list := [aMonBlock], phase := .writing } }

theorem witness_DataWritesLeadToTheWaiterList :
    ∃ (s t : State) (c : Ctx) (r : Result) (q : Cq) (b : MonBlock), (s.line 0).ctx 0 = some c ∧ c.state = .posting
      ∧ c.result = some r ∧ HostOn s c 1 q ∧ (onBus s (.payload 0 0) (.done [])).Ended (.payload 0 0) (some [])
      ∧ (onBus s (.payload 0 0) .fault).Ended (.payload 0 0) none
      ∧ (onBus t (.monitorData 0) (.done [])).Ended (.monitorData 0) (some [])
      ∧ (onBus t (.monitorData 0) .fault).Ended (.monitorData 0) none ∧ (t.line 0).config = some monitor
      ∧ (t.line 0).mon.list = b :: [] ∧ t.cqs[monitor.lineCq] = some q ∧ q.state = .active :=
  ⟨withLine (lineWith .ready master postingCtx), withLine capturing, postingCtx, okResult 3, aCq, aMonBlock, rfl, rfl, rfl,
    hostOn_withLine _ _ rfl, ended_onBus_done _ _ _, ended_onBus_fault _ _, ended_onBus_done _ _ _,
    ended_onBus_fault _ _, rfl, rfl, rfl, rfl⟩

/-- A poll instance whose payload is written, in both report modes. -/
theorem witness_DataWritesLeadToTheWaiterList_polls :
    ∀ mode, ∃ (s : State) (c : Ctx) (p : PollEntry), (s.line 0).ctx 0 = some c ∧ c.state = .posting
      ∧ c.result = some (okResult 3) ∧ PollOn s 0 0 c 31 p 1 aCq ∧ p.mode = mode
      ∧ (onBus s (.payload 0 0) (.done [])).Ended (.payload 0 0) (some [])
      ∧ (onBus s (.payload 0 0) .fault).Ended (.payload 0 0) none := by
  intro mode
  let c := { pollCtx .posting with store := [1, 2, 3], result := some (okResult 3) }
  exact ⟨withLine (pollLine mode c), c, _, rfl, rfl, rfl, pollOn_pollLine mode c rfl, rfl, ended_onBus_done _ _ _,
    ended_onBus_fault _ _⟩

/-! ### Completion queues -/

def noticeWaiter : Waiter := { poster := .notice, record := .notice { event := .lineUp 0, time := 0 } }

/-- A waiter at a CQ with room, the last slot of the ring among its places; a full CQ and a FAULTED one. -/
theorem witness_SlotGrantTakesTheTail :
    ∃ (s : State) (q : Cq) (w : Waiter), s.cqs[(8 : CqId)] = some q ∧ q.waiters = w :: [] ∧ q.state = .active
      ∧ q.unacked < q.size ∧ ¬q.tail + 1 < q.size ∧ (({ q with unacked := 4 } : Cq).size ≤ 4)
      ∧ ({ q with state := .faulted } : Cq).state = .faulted :=
  ⟨running.setCq 8 (some { aCq with tail := 3, unacked := 3, waiters := [noticeWaiter] }),
    { aCq with tail := 3, unacked := 3, waiters := [noticeWaiter] }, noticeWaiter, rfl, rfl, rfl, by decide, by decide,
    by decide, rfl⟩

/-- A record of each kind that a waiter may carry, from an SQ and from none, with and without a reply function and a
health; a notice; and the answer of a command. -/
theorem witness_SlotGrantTakesTheTail_records :
    ∃ (s : State) (r m p : LineRecord) (a : AdminRecord) (q v : Sq), r.kind = .exchange ∧ r.sq = some 1
      ∧ s.sqs[(1 : SqId)] = some q ∧ r.replyFunction = some 31 ∧ r.health = some .silent ∧ m.kind = .monitor
      ∧ m.sq = none ∧ m.replyFunction = none ∧ m.health = none ∧ p.kind = .poll ∧ a.resultA = 4294967295
      ∧ s.sqs[(0 : SqId)] = some v
      ∧ ∀ x ∈ [Completion.line r, .line m, .line p, .admin a], ∃ t : State, ∃ c : Cq, ∃ w : Waiter,
          t.sqs = s.sqs ∧ t.cqs[(1 : CqId)] = some c ∧ c.waiters = [w] ∧ w.record = x ∧ c.state = .active
          ∧ c.unacked < c.size := by
  let r : LineRecord :=
    { kind := .exchange, status := .ok, tag := 1, source := 1, line := 0, station := 5, replyFunction := some 31
      replyLength := 200, attempts := 1, waits := 0, health := some .silent, flags := {}, lost := 0, buffer := none
      timestamp := 0, sq := some 1 }
  let m : LineRecord := { r with kind := .monitor, replyFunction := none, health := none, sq := none }
  refine ⟨withLine (lineIn .ready master), r, m, { m with kind := .poll },
    { status := .ok, tag := 0, opcode := 13, lineByte := 0, resultA := 4294967295, resultB := 0, resultC := 0 }, aSq,
    newSq 0 4 none, rfl, rfl, rfl, rfl, rfl, rfl, rfl, rfl, rfl, rfl, rfl, rfl, fun x _ => ?_⟩
  exact ⟨(withLine (lineIn .ready master)).setCq 1 (some { aCq with waiters := [⟨.exchange 0 0, x⟩] }),
    { aCq with waiters := [⟨.exchange 0 0, x⟩] }, ⟨.exchange 0 0, x⟩, rfl, rfl, rfl, rfl, rfl, (by decide : 0 < 4)⟩

/-- The lines of `withLine l`: line 0 is `l`, the others are as reset. -/
theorem lines_withLine (P : Line → Prop) (l : Line) (h : P l) (hr : P (Line.reset false false true)) :
    ∀ n, P ((withLine l).line n) := by
  intro n
  by_cases hn : n = 0
  · subst hn; exact h
  · have h0 : (0 : Nat) ≠ n.val := fun e => hn (Fin.ext e.symm)
    have h1 : (withLine l).line n = running.lines[n] := Vector.getElem_set_ne (by decide) _ h0
    have h2 : ∀ m : LineId, running.lines[m] = Line.reset false false true := by decide
    rw [h1, h2]; exact hr

def exchangeWaiter : Waiter := { poster := .exchange 0 0, record := .notice { event := .lineUp 0, time := 0 } }

/-- The write of each kind of poster, and its bus fault on an I/O CQ; a pending entry that is over; a delay timer that
has expired, one that runs, and one that is stopped. -/
theorem witness_PostingFreesThePoster :
    ∃ (s : State) (q : Cq) (e : PendingEntry), (onBus s (.completion 1 exchangeWaiter) (.done [])).Ended
        (.completion 1 exchangeWaiter) (some [])
      ∧ (onBus s (.completion 1 exchangeWaiter) .fault).Ended (.completion 1 exchangeWaiter) none
      ∧ s.cqs[(1 : CqId)] = some q ∧ q.state = .active
      ∧ (∀ x ∈ exchangeWaiter :: q.waiters, x.poster.line ≠ none) ∧ s.admin.pendingList = [] ++ e :: []
      ∧ e.work = .stopLine 0 ∧ e.finished = true
      ∧ (({ q with timer := some 0 } : Cq).timer = some 0 ∧ (s.timebase - 0).toNat < 2 ^ 31
        ∧ 2 ^ 31 ≤ (s.timebase - 1).toNat) ∧ q.timer = none :=
  ⟨{ withLine (lineWith .ready master postingCtx) with
      admin := { Admin.reset with
        pendingList := [{ work := .stopLine 0, opcode := 7, tag := 0, lineByte := 0, finished := true }] } },
    aCq, _, ended_onBus_done _ _ _, ended_onBus_fault _ _, rfl, rfl, by decide, rfl, rfl, rfl, by decide, rfl⟩

/-- A captured block with and without one behind it, a buffer handed back, and a fault on a CQ where an exchange and a
captured block wait. -/
theorem witness_PostingFreesThePoster_monitor :
    ∃ (s t u v : State) (l m : Line) (q : Cq) (w x : Waiter), w.poster = .monitorBlock 0 ∧ x.poster = .bufferReturn 0
      ∧ (onBus s (.completion 1 w) (.done [])).Ended (.completion 1 w) (some []) ∧ s.cqs[(1 : CqId)] = some aCq
      ∧ s.line 0 = l ∧ l.config = some monitor ∧ monitor.mode = .monitor ∧ l.state ≠ .draining
      ∧ l.mon.slot = .requested ∧ l.mon.list = aMonBlock :: []
      ∧ (t.line 0).mon.list = aMonBlock :: [aMonBlock] ∧ (t.line 0).mon.slot = .requested
      ∧ (onBus u (.completion 1 x) (.done [])).Ended (.completion 1 x) (some []) ∧ u.line 0 = m ∧ m.state = .draining
      ∧ m.mon.list = [] ∧ (onBus v (.completion 1 exchangeWaiter) .fault).Ended (.completion 1 exchangeWaiter) none
      ∧ v.cqs[(1 : CqId)] = some q ∧ q.waiters = [exchangeWaiter]
      ∧ (∀ y ∈ exchangeWaiter :: q.waiters, y.poster.line ≠ none)
      ∧ (∀ n cfg, (v.line n).config = some cfg → cfg.mode = .master)
      ∧ (exchangeWaiter :: q.waiters).countP (fun y => decide (y.poster.line = some 0)) = 2
      ∧ (exchangeWaiter :: q.waiters).countP (fun y => decide (y.poster.line = some 7)) = 0 := by
  let l := fun (list : List MonBlock) =>
    { lineIn .ready monitor with mon := { Monitor.reset with list := list, slot := .requested, phase := .recording } }
  let m := { lineIn .draining monitor with mon := { Monitor.reset with settlement := .returning } }
  refine ⟨withLine (l [aMonBlock]), withLine (l [aMonBlock, aMonBlock]), withLine m,
    (withLine (lineWith .ready master postingCtx)).setCq 1 (some { aCq with waiters := [exchangeWaiter] }),
    l [aMonBlock], m, { aCq with waiters := [exchangeWaiter] }, { noticeWaiter with poster := .monitorBlock 0 },
    { noticeWaiter with poster := .bufferReturn 0 }, rfl, rfl, ended_onBus_done _ _ _, rfl, rfl, rfl, rfl, by decide,
    rfl, rfl, rfl, rfl, ended_onBus_done _ _ _, rfl, rfl, rfl, ended_onBus_fault _ _, rfl, rfl, by decide, ?_,
    by decide, by decide⟩
  exact lines_withLine (fun l => ∀ cfg, l.config = some cfg → cfg.mode = .master) _ (by rintro cfg ⟨⟩; rfl)
    (by rintro cfg ⟨⟩)

/-! ### Orders and transmission -/

theorem first_of_lineWith (st : LineState) (cfg : LineConfig) (c : Ctx) (hc : c.state = .queued) :
    FirstEligible (lineWith st cfg c) 0 :=
  ⟨[], [], rfl, by simp, ⟨c, rfl, hc, by simp⟩, by simp⟩

theorem none_eligible (l : Line) (h : l.exch.work = []) : ∀ i, ¬FirstEligible l i := by
  rintro i ⟨a, b, hw, -⟩
  simp [h] at hw

/-- A QUEUED context to send, an empty work list, a MONITOR line, an order held and a context active. -/
theorem witness_SendOrderTakesTheFirstEligible :
    ∃ (s t u : State) (c : Ctx), (s.line 0).config = some master ∧ master.mode = .master ∧ (s.line 0).state = .draining
      ∧ (s.line 0).tx.order = none ∧ (s.line 0).exch.work = [0] ∧ (s.line 0).ctx 0 = some c ∧ c.state.active = false
      ∧ FirstEligible (s.line 0) 0 ∧ (t.line 0).state = .ready ∧ (∀ i, ¬FirstEligible (t.line 0) i)
      ∧ monitor.mode = .monitor ∧ (u.line 0).tx.order ≠ none ∧ (s.line 7).state ≠ .ready ∧ (s.line 7).state ≠ .draining
      ∧ ∃ d, (u.line 0).ctx 0 = some d ∧ d.state.active = true :=
  ⟨withLine (lineWith .draining master (aCtx 5 .queued)), withLine (lineIn .ready master),
    withLine (transmitting .lead (aCtx 5 .talking) master), aCtx 5 .queued, rfl, rfl, rfl, rfl, rfl, rfl, rfl,
    first_of_lineWith _ _ _ rfl, rfl, none_eligible _ rfl, rfl, by decide, by decide, by decide, _, rfl, rfl⟩

/-- The line with its gap timer and the block in progress. -/
def gapped (l : Line) (gap : Nat) (b : Option RxBlock) : Line :=
  { l with rx := { l.rx with state := .hunting, idle := true, gap := gap, block := b } }

/-- The gap timer at the idle requirement of 16 bit times of 16 REFCLK periods, and one period short; READY_WAIT; and an
idle transmitter. -/
theorem witness_LeadBeginsWhenIdleAndReady :
    ∃ (s t u v : State) (o : Order) (c : Ctx), (s.line 0).config = some master ∧ (s.line 0).state = .ready
      ∧ (s.line 0).tx.order = some o ∧ (s.line 0).ctx o.ctx = some c ∧ (s.line 0).tx.phase = .gapWait
      ∧ (s.line 0).rx.block = none ∧ o.idle * master.divider ≤ (s.line 0).rx.gap
      ∧ (t.line 0).tx.phase = .gapWait ∧ (t.line 0).rx.gap < o.idle * master.divider
      ∧ (u.line 0).tx.phase = .readyWait ∧ (u.line 0).tx.order = some o ∧ (u.line 0).ctx o.ctx = some c
      ∧ (v.line 0).tx.phase ≠ .readyWait :=
  ⟨withLine (gapped (transmitting .gapWait (aCtx 5 .queued) master) 256 none),
    withLine (gapped (transmitting .gapWait (aCtx 5 .queued) master) 255 none),
    withLine (transmitting .readyWait (aCtx 5 .queued) master), withLine (lineIn .ready master), anOrder 5,
    aCtx 5 .queued, rfl, rfl, rfl, rfl, rfl, rfl, by decide, rfl, by decide, rfl, rfl, rfl, by decide⟩

/-- The ready timer expiring at the present microsecond, and one microsecond ahead. -/
theorem witness_ReadyTimeoutEndsTheOrder :
    ∃ (s : State) (o : Order) (c : Ctx) (q : Cq), (s.line 0).tx.phase = .readyWait ∧ (s.line 0).tx.readyTimer = some 0
      ∧ (s.line 0).tx.order = some o ∧ (s.line 0).ctx o.ctx = some c ∧ (s.timebase - 0).toNat < 2 ^ 31
      ∧ 2 ^ 31 ≤ (s.timebase - 1).toNat ∧ HostOn s c 1 q :=
  ⟨withLine { transmitting .readyWait (aCtx 5 .queued) master with
      tx := { (transmitting .readyWait (aCtx 5 .queued) master).tx with readyTimer := some 0 } },
    anOrder 5, aCtx 5 .queued, aCq, rfl, rfl, rfl, rfl, by decide, by decide, hostOn_withLine _ _ rfl⟩

/-- A poll instance ordered, in both report modes. -/
theorem witness_ReadyTimeoutEndsTheOrder_polls :
    ∀ mode, ∃ (s : State) (c : Ctx) (o : Order) (p : PollEntry), (s.line 0).tx.phase = .readyWait
      ∧ (s.line 0).tx.readyTimer = some 0 ∧ (s.line 0).tx.order = some o ∧ (s.line 0).ctx o.ctx = some c
      ∧ (s.timebase - 0).toNat < 2 ^ 31 ∧ PollOn s 0 o.ctx c 31 p 1 aCq ∧ p.mode = mode := by
  intro mode
  exact ⟨withLine { pollLine mode (pollCtx .queued) with
      tx := { Transmitter.reset with phase := .readyWait, order := some (anOrder 5), readyTimer := some 0 } },
    pollCtx .queued, anOrder 5, _, rfl, rfl, rfl, rfl, (by decide : ((0 : Word) - 0).toNat < 2 ^ 31), ⟨by decide, rfl, rfl, rfl, rfl, rfl, master, rfl, rfl⟩,
    rfl⟩

/-- The transmitter of a line at an age, with a contention judged or not. -/
def aged (l : Line) (age : Nat) (stop : Option Nat) : Line := { l with tx := { l.tx with age := age, stopAt := stop } }

/-- Times of 0 and 7 bits: LEAD at its end and before it, and SEND of five characters of ten bits at its end, a REFCLK
period before it, and with a contention judged. -/
theorem witness_LeadAndSendRunTheirTimes :
    ∃ (s t u v w : State) (cfg : LineConfig) (o : Order), (s.line 0).config = some master ∧ (s.line 0).tx.phase = .lead
      ∧ master.lead * master.divider ≤ (s.line 0).tx.age ∧ (t.line 0).config = some cfg ∧ (t.line 0).tx.phase = .lead
      ∧ (t.line 0).tx.age < cfg.lead * cfg.divider ∧ (u.line 0).tx.phase = .send ∧ (u.line 0).tx.order = some o
      ∧ (u.line 0).tx.stopAt = none ∧ o.block.length * master.charTime * master.divider ≤ (u.line 0).tx.age
      ∧ (v.line 0).tx.age < o.block.length * master.charTime * master.divider ∧ (w.line 0).tx.stopAt ≠ none :=
  ⟨withLine (transmitting .lead (aCtx 5 .talking) master),
    withLine (aged (transmitting .lead (aCtx 5 .talking) { master with lead := 7 }) 111 none),
    withLine (aged (transmitting .send (aCtx 5 .talking) master) 800 none),
    withLine (aged (transmitting .send (aCtx 5 .talking) master) 799 none),
    withLine (aged (transmitting .send (aCtx 5 .talking) master) 160 (some 160)), { master with lead := 7 }, anOrder 5,
    rfl, rfl, by decide, rfl, rfl, by decide, rfl, rfl, rfl, by decide, by decide, by decide⟩

/-- A line sending the block of `anOrder` with even parity, `n` bit times into it. -/
def sendingAt (n : Nat) : Line :=
  aged (transmitting .send (aCtx 5 .talking) { format .even false with divider := 16 }) (n * 16) none

/-- The start bit, both ends of the data, the parity bit, the stop bit, the last bit of the block, its end, and a
contention's end. -/
theorem witness_LeadAndSendRunTheirTimes_levels :
    ∀ n ∈ [0, 1, 8, 9, 10, 54, 55], ∃ s : State, (s.line 0).config = some (format .even false)
      ∧ (s.line 0).tx.phase = .send ∧ (s.line 0).tx.order = some (anOrder 5)
      ∧ n / 11 = (s.line 0).tx.age / 16 / (format .even false).charTime
      ∧ n % 11 = (s.line 0).tx.age / 16 % (format .even false).charTime ∧ (s.line 0).tx.stopAt = none
      ∧ (∃ x, (aged (s.line 0) 176 (some 176)).tx.stopAt = some x ∧ x ≤ 176) := by
  intro n hn
  refine ⟨withLine (sendingAt n), rfl, rfl, rfl, ?_, ?_, rfl, 176, rfl, Nat.le_refl _⟩ <;> revert n <;> decide

/-- R2, R7: station 5 (00000101) with even parity: start 0, bits 1 0 1 0 0 0 0 0, parity 0, stop 1. -/
theorem test_txd_levels :
    (List.range 11).map (fun n => (sendingAt n).txd)
      = [false, true, false, true, false, false, false, false, false, false, true] := by decide

/-- A station, a broadcast with and without a settle time, and a hold time not yet over. -/
theorem witness_HoldEndReleasesTheLine :
    ∃ (s t u : State) (o p : Order) (c d : Ctx) (q : Cq) (cfg : LineConfig), (s.line 0).config = some master
      ∧ (s.line 0).tx.phase = .hold ∧ (s.line 0).tx.order = some o ∧ (s.line 0).ctx o.ctx = some c
      ∧ master.hold * master.divider ≤ (s.line 0).tx.age ∧ c.station ≠ 0#8 ∧ (t.line 0).config = some cfg
      ∧ (t.line 0).tx.phase = .hold ∧ (t.line 0).tx.order = some p ∧ (t.line 0).ctx p.ctx = some d
      ∧ cfg.hold * cfg.divider ≤ (t.line 0).tx.age ∧ d.station = 0#8 ∧ cfg.settle = 0 ∧ HostOn t d 1 q
      ∧ master.settle ≠ 0 ∧ (u.line 0).config = some { master with hold := 1 } ∧ (u.line 0).tx.age < 1 * 16 :=
  ⟨withLine (transmitting .hold (aCtx 5 .talking) master),
    withLine (aged (transmitting .hold (aCtx 0 .talking) { master with settle := 0, hold := 1 }) 16 none),
    withLine (aged (transmitting .hold (aCtx 5 .talking) { master with hold := 1 }) 15 none), anOrder 5, anOrder 0,
    aCtx 5 .talking, aCtx 0 .talking, aCq, { master with settle := 0, hold := 1 }, rfl, rfl, rfl, rfl, by decide,
    by decide, rfl, rfl, rfl, rfl, by decide, rfl, rfl, hostOn_withLine _ _ rfl, by decide, rfl, by decide⟩

/-- A reply that ended within HOLD is kept. -/
theorem witness_HoldEndReleasesTheLine_early :
    ∃ (s : State) (o : Order) (c : Ctx) (b : RxBlock), (s.line 0).config = some master ∧ (s.line 0).tx.phase = .hold
      ∧ (s.line 0).tx.order = some o ∧ (s.line 0).ctx o.ctx = some c ∧ c.station ≠ 0#8
      ∧ master.hold * master.divider ≤ (s.line 0).tx.age ∧ (s.line 0).rx.early = some (b, 4294967295)
      ∧ (s.line 0).rx.armed = false ∧ (withLine (transmitting .hold (aCtx 5 .talking) master)).line 0 =
          { s.line 0 with rx := { (s.line 0).rx with early := none } } := by
  let l := transmitting .hold (aCtx 5 .talking) master
  let b : RxBlock :=
    { chars := [5, 64, 0, 1, 2], count := 5, framing := false, parity := false, brk := false, start := 0, reply := true }
  exact ⟨withLine { l with rx := { l.rx with early := some (b, 4294967295) } }, anOrder 5, aCtx 5 .talking, b, rfl, rfl,
    rfl, rfl, by decide, by decide, rfl, rfl, rfl⟩

/-! ### Reception -/

def aBlock (reply : Bool) : RxBlock :=
  { chars := [5, 64, 0, 1, 2], count := 5, framing := false, parity := false, brk := false, start := 0, reply := reply }

/-- A line assembling a character, in a block or the echo of a sent one. -/
def assemblingLine (echo : Bool) : Line :=
  let l := transmitting (if echo then .send else .idle) (aCtx 5 .talking) { master with echo := echo }
  { l with rx := { l.rx with state := .assembling, age := some 153, echo := echo
                             block := if echo then none else some (aBlock false) } }

/-- A character at its last sample, nine and nine sixteenths of a bit of 16 REFCLK periods after its start, in a block
and as an echo that matches. -/
theorem witness_CharactersJoinTheBlock :
    ∃ (s t : State) (cfg : LineConfig) (o : Order) (e : Byte), (s.line 0).config = some master
      ∧ (s.line 0).rx.state = .assembling ∧ (s.line 0).rx.age = some 153
      ∧ (16 * (if master.parity = .none then 9 else 10) + 9) * master.divider ≤ 16 * 153
      ∧ (s.line 0).rx.echo = false ∧ (s.line 0).rx.block = some (aBlock false) ∧ (t.line 0).config = some cfg
      ∧ (t.line 0).rx.state = .assembling ∧ (t.line 0).rx.age = some 153 ∧ cfg.divider = 16
      ∧ (t.line 0).rx.echo = true ∧ (t.line 0).tx.phase = .send ∧ (t.line 0).tx.stopAt = none
      ∧ (t.line 0).tx.order = some o ∧ o.block[(t.line 0).tx.echoMatched]? = some e :=
  ⟨withLine (assemblingLine false), withLine (assemblingLine true), { master with echo := true }, anOrder 5, 5, rfl, rfl,
    rfl, by decide, rfl, rfl, rfl, rfl, rfl, rfl, rfl, rfl, rfl, rfl, rfl⟩

/-- The echo of the last character completing in HOLD. -/
theorem witness_CharactersJoinTheBlock_hold :
    ∃ (s : State) (cfg : LineConfig) (o : Order) (c : Ctx), (s.line 0).config = some cfg
      ∧ (s.line 0).rx.state = .assembling ∧ (s.line 0).rx.age = some 153 ∧ cfg.divider = 16
      ∧ (s.line 0).rx.echo = true ∧ (s.line 0).tx.phase = .hold ∧ (s.line 0).tx.order = some o
      ∧ (s.line 0).ctx o.ctx = some c ∧ (∃ e, o.block[(s.line 0).tx.echoMatched]? = some e)
      ∧ (s.line 0).tx.echoMatched = 4 := by
  let l := assemblingLine true
  exact ⟨withLine { l with tx := { l.tx with phase := .hold, echoMatched := 4 } }, { master with echo := true }, anOrder 5,
    aCtx 5 .talking, rfl, rfl, rfl, rfl, rfl, rfl, rfl, rfl, ⟨_, rfl⟩, rfl⟩

/-- SEND with an echo missing, without the echo check, and with a contention judged: before and at the end of the
character; a context at the contention limit and one short of it, and one whose abort was asked for. -/
theorem witness_ContentionBacksOff :
    ∃ (s t u : State) (cfg : LineConfig) (o : Order) (c : Ctx) (q : Cq), (s.line 0).config = some cfg
      ∧ (s.line 0).tx.phase = .send ∧ (s.line 0).tx.order = some o ∧ (s.line 0).ctx o.ctx = some c ∧ cfg.echo = true
      ∧ (s.line 0).tx.stopAt = none ∧ 0 = (s.line 0).tx.age / (cfg.charTime * cfg.divider)
      ∧ (s.line 0).tx.echoStarts ≤ 0 ∧ (s.line 0).tx.age < o.block.length * cfg.charTime * cfg.divider
      ∧ (0 * cfg.charTime + 1) * cfg.divider ≤ (s.line 0).tx.age ∧ master.echo = false
      ∧ (t.line 0).tx.stopAt = some 160 ∧ 160 ≤ (t.line 0).tx.age ∧ (t.line 0).ctx o.ctx = some c
      ∧ c.contentions + 1 < master.contentionLimit
      ∧ master.contentionLimit ≤ ({ c with contentions := 1 } : Ctx).contentions + 1 ∧ HostOn t c 1 q
      ∧ ({ c with abortRequested := true } : Ctx).abortRequested = true ∧ (u.line 0).tx.age < 160 :=
  ⟨withLine (aged (transmitting .send (aCtx 5 .talking) { master with echo := true }) 16 none),
    withLine (aged (transmitting .send (aCtx 5 .talking) master) 160 (some 160)),
    withLine (aged (transmitting .send (aCtx 5 .talking) master) 159 (some 160)), { master with echo := true }, anOrder 5,
    aCtx 5 .talking, aCq, rfl, rfl, rfl, rfl, rfl, rfl, by decide, by decide, by decide, by decide, rfl, rfl, by decide,
    rfl, by decide, by decide, hostOn_withLine _ _ rfl, rfl, by decide⟩

/-- A line whose receiver qualifies a start bit, at the third sample. -/
def qualifyingLine (armed idle : Bool) (p : TxPhase) (cfg : LineConfig) : Line :=
  let l := transmitting p (aCtx 5 (if armed then .listening else .talking)) cfg
  { l with rx := { l.rx with state := .qualifying, age := some 9, armed := armed, idle := idle, window := none } }

/-- Noise; the start of a reply; of another block; a start bit on a line that is not idle; of an echo, in SEND and in
LEAD. -/
theorem witness_StartBitsBeginBlocks :
    ∃ (s t u v w : State) (cfg : LineConfig) (x y : BitSamples), (s.line 0).config = some master
      ∧ (s.line 0).rx.state = .qualifying ∧ (s.line 0).rx.age = some 9 ∧ 9 * master.divider ≤ 16 * 9
      ∧ maj3 x.s7 x.s8 x.s9 = true ∧ maj3 y.s7 y.s8 y.s9 = false ∧ (s.line 0).rx.armed = true
      ∧ (s.line 0).rx.block = none ∧ (s.line 0).rx.window = none ∧ (t.line 0).rx.armed = false
      ∧ (t.line 0).rx.idle = true ∧ (t.line 0).rx.block = none ∧ (t.line 0).tx.phase = .idle
      ∧ (u.line 0).rx.idle = false ∧ (v.line 0).config = some cfg ∧ cfg.echo = true ∧ (v.line 0).tx.phase = .send
      ∧ (v.line 0).rx.armed = false ∧ (v.line 0).rx.state = .qualifying ∧ (w.line 0).tx.phase = .lead
      ∧ (w.line 0).config = some cfg ∧ (w.line 0).rx.armed = false ∧ (w.line 0).rx.state = .qualifying :=
  ⟨withLine (qualifyingLine true true .idle master), withLine (qualifyingLine false true .idle master),
    withLine (qualifyingLine false false .idle master), withLine (qualifyingLine false true .send { master with echo := true }),
    withLine (qualifyingLine false true .lead { master with echo := true }), { master with echo := true },
    { s7 := true, s8 := false, s9 := true }, { s7 := true, s8 := false, s9 := false }, rfl, rfl, rfl, by decide, rfl, rfl,
    rfl, rfl, rfl, rfl, rfl, rfl, rfl, rfl, rfl, rfl, rfl, rfl, rfl, rfl, rfl, rfl, rfl⟩

theorem only_context (l : Line) (st : CtxState) (h : ∀ j, j ≠ 0 → l.ctx j = none) :
    ∀ j d, l.ctx j = some d → d.state = st → j = 0 := by
  intro j d hj _
  by_contra hne
  simp [h j hne] at hj

/-- Noise when the reply window has run out. -/
theorem witness_StartBitsBeginBlocks_noStart :
    ∃ (s : State) (c : Ctx), (s.line 0).config = some master ∧ (s.line 0).rx.state = .qualifying
      ∧ (s.line 0).rx.armed = true ∧ (s.line 0).rx.block = none ∧ expired s.timebase (s.line 0).rx.window = true
      ∧ (s.line 0).ctx 0 = some c ∧ c.state = .listening ∧ 0 ∈ (s.line 0).exch.work
      ∧ (∀ j d, (s.line 0).ctx j = some d → d.state = .listening → j = 0) := by
  let l := qualifyingLine true true .idle master
  exact ⟨withLine { l with rx := { l.rx with window := some 0 } }, aCtx 5 .listening, rfl, rfl, rfl, rfl, by decide, rfl,
    rfl, by decide, only_context _ _ (by decide)⟩

/-- A line whose only context is LISTENING, with the reply window ending at `x`, and a block or none. -/
def listening (x : Option Word) (b : Option RxBlock) (c : Ctx) : Line :=
  let l := gapped (lineWith .ready master c) 256 b
  { l with rx := { l.rx with armed := true, window := x } }

/-- A window over, a window running, a retry left and none, and an abort already asked for. -/
theorem witness_NoStartFailsTheAttempt :
    ∃ (s : State) (c : Ctx) (q : Cq), (s.line 0).config = some master ∧ (s.line 0).rx.armed = true
      ∧ (s.line 0).rx.block = none ∧ (s.line 0).rx.window = some 0 ∧ (s.line 0).ctx 0 = some c ∧ c.state = .listening
      ∧ 0 ∈ (s.line 0).exch.work ∧ (∀ j d, (s.line 0).ctx j = some d → d.state = .listening → j = 0)
      ∧ (s.timebase - 0).toNat < 2 ^ 31 ∧ (s.line 0).rx.state ≠ .qualifying ∧ 2 ^ 31 ≤ (s.timebase - 1).toNat
      ∧ c.attempts - c.waits ≤ c.retryLimit ∧ c.retryLimit < ({ c with attempts := 2 } : Ctx).attempts - c.waits
      ∧ HostOn s c 1 q :=
  ⟨withLine (listening (some 0) none { aCtx 5 .listening with attempts := 1 }), { aCtx 5 .listening with attempts := 1 },
    aCq, rfl, rfl, rfl, rfl, rfl, rfl, by decide, only_context _ _ (by decide), by decide, by decide, by decide,
    by decide, by decide, hostOn_withLine _ _ rfl⟩

/-- The same with a block in progress that is no reply. -/
theorem witness_NoStartFailsTheAttempt_inBlock :
    ∃ (s : State) (c : Ctx), (s.line 0).rx.armed = true ∧ (s.line 0).rx.window = some 0
      ∧ (s.line 0).rx.block = some (aBlock false) ∧ (s.line 0).ctx 0 = some c ∧ c.state = .listening
      ∧ 0 ∈ (s.line 0).exch.work ∧ (∀ j d, (s.line 0).ctx j = some d → d.state = .listening → j = 0)
      ∧ (s.timebase - 0).toNat < 2 ^ 31 ∧ (s.line 0).rx.state ≠ .qualifying :=
  ⟨withLine (listening (some 0) (some (aBlock false)) (aCtx 5 .listening)), aCtx 5 .listening, rfl, rfl, rfl, rfl, rfl,
    by decide, only_context _ _ (by decide), by decide, by decide⟩

/-- A poll instance listening, with a retry left and none, in both report modes. -/
theorem witness_NoStartFailsTheAttempt_polls :
    ∀ mode, ∃ (s : State) (c : Ctx) (p : PollEntry), (s.line 0).rx.armed = true ∧ (s.line 0).rx.block = none
      ∧ (s.line 0).rx.window = some 0 ∧ (s.line 0).ctx 0 = some c ∧ c.state = .listening
      ∧ 0 ∈ (s.line 0).exch.work ∧ (∀ j d, (s.line 0).ctx j = some d → d.state = .listening → j = 0)
      ∧ PollOn s 0 0 c 31 p 1 aCq ∧ p.mode = mode ∧ c.retryLimit < c.attempts - c.waits := by
  intro mode
  let c := { pollCtx .listening with attempts := 1 }
  let l := pollLine mode c
  exact ⟨withLine { l with rx := { l.rx with armed := true, window := some 0 } }, c, _, rfl, rfl, rfl, rfl, rfl,
    (by decide : (0 : CtxId) ∈ ([0] : List CtxId)), only_context _ _ (by cases mode <;> decide), ⟨by decide, rfl, rfl, rfl, rfl, rfl, master, rfl, rfl⟩,
    rfl, by decide⟩

/-- A reply of this kind and sequence bit from station 5 without payload, its check composed as R13 says. -/
def replyBlock (control : Byte) : RxBlock :=
  { aBlock true with chars := [5, control, 0] ++ halfBytes (crc16 [5, control, 0]) }

set_option maxRecDepth 4000 in
/-- R57 to R60: replies of every kind, with the check wrong, from another station and with the wrong sequence bit. -/
theorem test_judged_replies :
    judgeReply (replyBlock 0x40) 5 false = .data ∧ judgeReply (replyBlock 0x80) 5 false = .wait
      ∧ judgeReply (replyBlock 0xC0) 5 false = .refuse ∧ judgeReply (replyBlock 0x60) 5 false = .stale
      ∧ judgeReply (replyBlock 0x00) 5 false = .fails .badKind
      ∧ judgeReply (replyBlock 0x40) 6 false = .fails .wrongStation
      ∧ judgeReply (aBlock true) 5 false = .fails .badCheck := by decide

/-- A line of a monitor with a block that its filter accepts, and its pending list. -/
def heard (list : List MonBlock) (phase : DeliveryPhase) (slot : StagedSlot) : Line :=
  let l := gapped (lineIn .ready monitor) 256 (some (aBlock false))
  { l with mon := { l.mon with blockFilter := some (.list [5]), list := list, phase := phase, slot := slot } }

/-- A stray block; a block not accepted, one captured with the pending list short of its four places, one lost with it
full, and one whose delivery begins; a reply of each kind. -/
theorem witness_BlockEndHandsTheBlockOn :
    ∃ (s t u v : State) (b : RxBlock) (c : Ctx) (d : Descriptor) (q : Cq), (s.line 0).config = some master
      ∧ (s.line 0).rx.block = some b ∧ (s.line 0).rx.state = .hunting
      ∧ master.gap * master.divider ≤ (s.line 0).rx.gap ∧ (s.line 0).rx.armed = true ∧ b.reply = true
      ∧ (aBlock false).reply = false ∧ (s.line 0).ctx 0 = some c ∧ c.state = .listening ∧ 0 ∈ (s.line 0).exch.work
      ∧ (∀ j e, (s.line 0).ctx j = some e → e.state = .listening → j = 0) ∧ HostOn s c 1 q
      ∧ (t.line 0).config = some monitor ∧ (t.line 0).rx.block = some (aBlock false)
      ∧ (t.line 0).rx.state = .hunting ∧ monitor.gap * monitor.divider ≤ (t.line 0).rx.gap
      ∧ (t.line 0).mon.blockFilter = some (.list [5]) ∧ (t.line 0).state = .ready
      ∧ (t.line 0).mon.list ≠ [] ∧ (t.line 0).mon.phase = .slotWait ∧ (t.line 0).mon.slot ≠ .empty
      ∧ (Filter.list [5]).accepts 5 = true ∧ (Filter.list [5]).accepts 6 = false
      ∧ (t.line 0).mon.list.length = 3 ∧ (u.line 0).mon.list.length = 4 ∧ (v.line 0).mon.list = []
      ∧ (v.line 0).mon.phase = .idle ∧ (v.line 0).mon.slot = .held d ∧ v.cqs[monitor.lineCq] = some q
      ∧ q.state = .active ∧ v.bqs[(0 : LineId)] ≠ none :=
  ⟨withLine (listening none (some (replyBlock 0x40)) (aCtx 5 .listening)),
    withLine (heard (List.replicate 3 aMonBlock) .slotWait .requested),
    withLine (heard (List.replicate 4 aMonBlock) .slotWait .requested),
    (withLine (heard [] .idle (.held { addr := 8, capacity := 4 }))).setBq 0 (some aBq), replyBlock 0x40,
    aCtx 5 .listening, { addr := 8, capacity := 4 }, aCq, rfl, rfl, rfl, by decide, rfl, rfl, rfl, rfl, rfl, by decide,
    only_context _ _ (by decide), hostOn_withLine _ _ rfl, rfl, rfl, rfl, by decide, rfl, rfl, by decide, rfl, by decide,
    by decide, by decide, rfl, rfl, rfl, rfl, rfl, rfl, rfl, by decide⟩

/-- A reply ending in HOLD; replies of both kinds to a poll instance with a buffer to promise and none. -/
theorem witness_BlockEndHandsTheBlockOn_hold :
    ∃ (s t u : State) (c : Ctx) (p : PollEntry) (q r : Bq), (s.line 0).config = some master
      ∧ (s.line 0).rx.block = some (replyBlock 0x40) ∧ (s.line 0).rx.state = .hunting
      ∧ master.gap * master.divider ≤ (s.line 0).rx.gap ∧ (s.line 0).rx.armed = true
      ∧ (replyBlock 0x40).reply = true ∧ (s.line 0).tx.phase = .hold
      ∧ (∀ j d, (s.line 0).ctx j = some d → d.state ≠ .listening)
      ∧ (t.line 0).rx.block = some (replyBlock 0x40) ∧ (t.line 0).rx.armed = true
      ∧ (t.line 0).ctx 0 = some c ∧ c.state = .listening ∧ 0 ∈ (t.line 0).exch.work ∧ c.dest = .bufferQueue
      ∧ c.buffer = none ∧ PollOn t 0 0 c 31 p 1 aCq ∧ t.bqs[(0 : LineId)] = some q ∧ q.state = .active
      ∧ q.promises.length < (q.tail + q.size - q.head) % q.size ∧ u.bqs[(0 : LineId)] = some r
      ∧ r.state = .faulted := by
  let l := listening none (some (replyBlock 0x40)) (aCtx 5 .talking)
  let m := { pollLine .onChange (pollCtx .listening) with rx := l.rx }
  refine ⟨withLine { l with tx := { Transmitter.reset with phase := .hold, order := some (anOrder 5) } },
    (withLine m).setBq 0 (some aBq), (withLine m).setBq 0 (some { aBq with state := .faulted }), pollCtx .listening, _,
    aBq, { aBq with state := .faulted }, rfl, rfl, rfl, by decide, rfl, rfl, rfl, ?_, rfl, rfl, rfl, rfl, by decide, rfl,
    rfl, ⟨by decide, rfl, rfl, rfl, rfl, rfl, master, rfl, rfl⟩, rfl, rfl, by decide, rfl, rfl⟩
  intro j d hj hl
  have : j = 0 := only_context l .listening (by decide) j d hj hl
  subst this
  cases hj
  cases hl

/-! ### Timers and inputs of a line -/

/-- A settle time over and one running; a hold-off over and one running, with an order of another context waiting. -/
theorem witness_SettleAndHoldOffExpire :
    ∃ (s t : State) (c d e : Ctx) (q : Cq) (o : Order), (s.line 0).ctx 0 = some c ∧ c.state = .settling
      ∧ 0 ∈ (s.line 0).exch.work ∧ (∀ j x, (s.line 0).ctx j = some x → x.state = .settling → j = 0)
      ∧ (s.line 0).exch.settle = some 0 ∧ (s.timebase - 0).toNat < 2 ^ 31 ∧ 2 ^ 31 ≤ (s.timebase - 1).toNat
      ∧ HostOn s c 1 q ∧ (t.line 0).ctx 0 = some d ∧ d.state = .holding 0 ∧ (t.line 0).tx.order = some o
      ∧ (t.line 0).tx.phase = .gapWait ∧ o.ctx = 1 ∧ (t.line 0).ctx 1 = some e ∧ e.state = .queued :=
  ⟨withLine { lineWith .ready master (aCtx 0 .settling) with
      exch := { (lineWith .ready master (aCtx 0 .settling)).exch with settle := some 0 } },
    withLine { (lineWith .ready master (aCtx 5 (.holding 0))).joinWork 1 (aCtx 6 .queued) with
      tx := { Transmitter.reset with phase := .gapWait, order := some { anOrder 6 with ctx := 1 } } },
    aCtx 0 .settling, aCtx 5 (.holding 0), aCtx 6 .queued, aCq, _, rfl, rfl, by decide, only_context _ _ (by decide), rfl,
    by decide, by decide, hostOn_withLine _ _ rfl, rfl, rfl, rfl, rfl, rfl, rfl, rfl⟩

/-- An entry due at the present microsecond on a line in each state, and with an instance in flight; one due later. -/
theorem witness_PollDueAdmitsOrSkips :
    ∃ (s t : State) (p r : PollEntry), (s.line 0).config = some master ∧ (s.line 0).poll 31 = some p
      ∧ p.run = .enabled 5 ∧ (s.timebase - 5).toNat < 2 ^ 31 ∧ (∀ e, e ≠ 31 → (s.line 0).poll e = none)
      ∧ (s.line 0).state = .ready ∧ p.inFlight = none ∧ (s.line 0).ctx 0 = none ∧ (s.line 0).exch.lent ≠ some 0
      ∧ (∃ l, l = polled .starting ∧ l.state = .starting) ∧ (polled .draining).state = .draining
      ∧ (t.line 0).poll 31 = some r ∧ r.inFlight ≠ none ∧ 2 ^ 31 ≤ (t.timebase - 5).toNat :=
  ⟨{ withLine (polled .ready) with timebase := 5 },
    withLine ((lineIn .ready master).setPoll 31 (some { aPoll (.enabled 5) with inFlight := some 0 })),
    aPoll (.enabled 5), { aPoll (.enabled 5) with inFlight := some 0 }, rfl, by decide, rfl, by decide, by decide, rfl,
    rfl, by decide, by decide, ⟨_, rfl, rfl⟩, rfl, by decide, by decide, by decide⟩

/-- The carrier absent, present in OFF, and present on a READY line with a LISTENING context and a QUEUED one and on a
DRAINING line whose stop is a drain. -/
theorem witness_CarrierLossStopsTheLine :
    ∃ (s t : State) (c d : Ctx) (q : Cq), (s.line 0).carrier = true ∧ (s.line 0).state = .ready
      ∧ (s.line 0).ctx 0 = some c ∧ 0 ∈ (s.line 0).exch.work ∧ c.state = .listening ∧ HostOn s c 1 q
      ∧ (s.line 0).ctx 1 = some d ∧ 1 ∈ (s.line 0).exch.work ∧ d.state.active = false ∧ (s.line 7).carrier = false
      ∧ (lineIn .off master).carrier = true ∧ (lineIn .off master).state = .off ∧ (t.line 0).carrier = true
      ∧ (t.line 0).state = .draining ∧ (t.line 0).stop = some .drain :=
  ⟨withLine ((lineWith .ready master (aCtx 5 .listening)).joinWork 1 (aCtx 6 .queued)),
    withLine { lineWith .draining master (aCtx 5 .queued) with stop := some .drain }, aCtx 5 .listening, aCtx 6 .queued,
    aCq, rfl, rfl, rfl, by decide, rfl, hostOn_withLine _ _ rfl, rfl, by decide, rfl, rfl, rfl, rfl, rfl, rfl, rfl⟩

/-- STARTING with the gap timer at G and one REFCLK period short of it; the carrier absent; a receiver in HUNTING. -/
theorem witness_LineInputsAct :
    ∃ s t : State, (s.line 0).config = some master ∧ (s.line 0).state = .starting ∧ (s.line 0).carrier = true
      ∧ master.gap * master.divider ≤ (s.line 0).rx.gap ∧ (s.line 0).rx.state = .hunting
      ∧ (t.line 0).rx.gap < master.gap * master.divider ∧ (s.line 7).carrier = false
      ∧ (s.line 7).rx.state ≠ .hunting :=
  ⟨withLine (gapped (lineIn .starting master) 256 none), withLine (gapped (lineIn .starting master) 255 none), rfl, rfl,
    rfl, by decide, rfl, by decide, rfl, by decide⟩

/-! ### Blocks, reports and laws -/

/-- A request block without payload, and a payload of 200 characters. -/
theorem witness_RequestBlockPassesItsCheck :
    ∃ b c : RxBlock, b.chars = requestBlock 5 true 7 [] ∧ b.count = b.chars.length
      ∧ (List.replicate 200 (0#8)).length = 200
      ∧ c.chars = requestBlock 5 true 7 (List.replicate 200 0) ∧ c.count = c.chars.length :=
  ⟨{ aBlock false with chars := requestBlock 5 true 7 [], count := 5 },
    { aBlock false with chars := requestBlock 5 true 7 (List.replicate 200 0)
                        count := (requestBlock 5 true 7 (List.replicate 200 0)).length }, rfl, rfl,
    List.length_replicate, rfl, rfl⟩

theorem witness_FailuresAreReportedOnceByStatus :
    ∃ (p : PollEntry) (r g : Result), p.mode = .onChange ∧ p.lastStatus = none ∧ r.status ≠ .ok ∧ r.status ≠ .refused
      ∧ g.status = .ok :=
  ⟨aPoll (.enabled 0), { okResult 0 with status := .noReply }, okResult 0, rfl, rfl, by decide, by decide, rfl⟩

/-- A line sending, from which a step leads on. -/
theorem witness_EveryStepKeepsDriverEnableLawful :
    ∃ s t : State, s.deLawful ∧ (s.line 0).tx.de = true ∧ step s = .next t :=
  ⟨withLine (transmitting .send (aCtx 5 .talking) master), _,
    lines_withLine Line.deLawful _ ⟨rfl, fun _ => ⟨.inl rfl, master, rfl, rfl⟩⟩ ⟨rfl, fun h => nomatch h⟩, rfl, rfl⟩

/-- A CQ whose every entry is unacknowledged. -/
theorem witness_EveryStepKeepsCqsWithinSize :
    ∃ (s t : State) (q : Cq), s.cqsWithinSize ∧ s.cqs[(1 : CqId)] = some q ∧ q.unacked = q.size ∧ step s = .next t :=
  ⟨running.setCq 1 (some { aCq with unacked := 4 }), _, { aCq with unacked := 4 },
    fun i => by
      by_cases h : i = 1
      · subst h; exact Nat.le_refl 4
      · by_cases h0 : i = 0
        · subst h0; exact Nat.zero_le 4
        · have : (running.setCq 1 (some { aCq with unacked := 4 })).cqs[i] = none := by revert i; decide
          rw [this]; trivial, rfl, rfl, rfl⟩

/-- A station in SUSPECT health and one in SILENT health. -/
theorem witness_EveryStepKeepsStationsLawful :
    ∃ s t : State, s.stationsLawful ∧ (s.line 0).healthOf 5 = some .suspect ∧ (s.line 0).healthOf 6 = some .silent
      ∧ step s = .next t := by
  refine ⟨withLine (known (known (lineIn .ready master) 0 { aStation 5 with failures := 1, health := .suspect }) 1
      { aStation 6 with failures := 2, health := .silent }), _, lines_withLine Line.stationsLawful _ ?_ ?_, by decide,
    by decide, rfl⟩
  · intro cfg hc
    cases hc
    refine ⟨by decide, fun i => ?_⟩
    by_cases h0 : i = 0
    · subst h0; exact ⟨by decide, by decide, by decide⟩
    · by_cases h1 : i = 1
      · subst h1; exact ⟨by decide, by decide, by decide⟩
      · have : (known (known (lineIn .ready master) 0 { aStation 5 with failures := 1, health := .suspect }) 1
            { aStation 6 with failures := 2, health := .silent }).stations[i] = none := by revert i; decide
        rw [this]; trivial
  · intro cfg hc
    cases hc

/-- A station entry, a poll entry, the counts, a counter and the lists at their bounds, and a byte at the last address
of host memory. -/
def atBounds : Line :=
  { heard (List.replicate 4 aMonBlock) .slotWait .requested with
    pollLost := 255, counters := { attempts := 4294967295 }, stopEnded := 65535
    stations := Vector.replicate 64 (some { aStation 5 with exchangesOk := 65535, exchangesFailed := 65535 })
    polls := Vector.replicate 32 (some { aPoll .disabled with suppressed := 255, skips := 65535 }) }

theorem atBounds_bounded : atBounds.bounded :=
  ⟨⟨by decide, by decide⟩, by decide, by decide, by decide, by decide, trivial,
    fun i => by simp [atBounds, stationBounded], fun e => by simp [atBounds, Line.poll, pollBounded], by decide⟩

theorem reset_line_bounded : (Line.reset false false true).bounded :=
  ⟨trivial, by decide, by decide, by decide, by decide, trivial, fun i => by simp [Line.reset, stationBounded],
    fun e => by simp [Line.reset, Line.poll, pollBounded], by decide⟩

theorem witness_EveryStepKeepsBoundsAndMemory :
    ∃ s t : State, s.noticesBounded ∧ s.linesBounded ∧ s.discardsBounded ∧ s.memCanonical ∧ s.admin.noticeLost = 255
      ∧ (s.line 0).mon.list.length = 4 ∧ s.mem = [(4294967295, 1)] ∧ step s = .next t := by
  let s : State := { withLine atBounds with admin := { Admin.reset with noticeLost := 255 }, mem := [(4294967295, 1)] }
  have hd : ∀ i : CqId, (match s.cqs[i] with
      | some q => q.discards
      | none => 0) ≤ 4294967295 := by decide
  refine ⟨s, _, ⟨by decide, by decide⟩, lines_withLine Line.bounded _ atBounds_bounded reset_line_bounded, ?_, rfl, rfl,
    rfl, rfl, rfl⟩
  intro i q hq
  have := hd i
  rw [hq] at this
  exact this

/-! ## Rows of the manual's worked sequences, one step each -/

/-- The next state of a command, where it has one. -/
def after (c : Instr) (s : State) : Option State :=
  match exec c s with
  | .next t => some t
  | _ => none

/-- CQ 2 of file 08's worked sequence: size 4, N = 3, D = 0. -/
def cqOfFile08 (head tail unacked : Nat) (phase pending : Bool) : Cq :=
  { newCq 0 4 3 0 true with head := head, tail := tail, unacked := unacked, phase := phase, pending := pending }

/-- File 08: "ACK head 2: releases 2; 2 < N". -/
theorem test_ack_releases_two :
    ((after (.ack 2 2) (running.setCq 2 (some (cqOfFile08 0 0 4 false true)))).bind fun t => t.cqs[(2 : CqId)])
      = some (cqOfFile08 2 0 2 false false) := by decide

/-- File 08: "ACK head 1: would release 3 > 2; ignored, BAD_INDEX". -/
theorem test_ack_refused :
    ((after (.ack 2 1) (running.setCq 2 (some (cqOfFile08 2 0 2 false false)))).map fun t =>
      (t.cqs[(2 : CqId)], t.hostError)) = some (some (cqOfFile08 2 0 2 false false), .badIndex) := by decide

/-- File 08: "c4 granted slot 3; tail wraps, phase toggles". -/
theorem test_slot_grant_wraps :
    ((after (.slotGrant 2) (running.setCq 2 (some { cqOfFile08 0 3 3 true true with waiters := [noticeWaiter] }))).bind
      fun t => t.cqs[(2 : CqId)]) = some (cqOfFile08 0 0 4 false true) := by decide

/-- File 11: ADMIN_SIZE with SQ 8, CQ 2, 18432 kHz; RUN 1, INT_ENABLE 1 is refused, and with CQ 8 it is taken. -/
theorem test_refused_start :
    ((after (.run true) { State.reset with adminSize := 0x48000208 }).map fun t => (t.part, t.hostError, t.intEnable))
        = some (.stopped, .badAdminSetup, true)
      ∧ ((after (.run true) { State.reset with adminSize := 0x48000808 }).map fun t => (t.part, t.hostError))
        = some (.running, .none) := by decide

/-- File 04: entries 10, 11, 40 and 52 at a timebase of 1,000,000; entry 11 is pinned by an ENABLED poll entry. -/
def fullTable : Line :=
  let at' := fun (l : Line) (i : StationIdx) (a : Byte) (used : Word) => known l i { aStation a with lastUsed := used }
  (at' (at' (at' (at' (lineIn .ready master) 10 30 200000) 11 31 150000) 40 77 200000) 52 140 4294000000).setPoll 0
    (some { aPoll (.enabled 0) with station := 31 })

/-- File 04: the oldest unpinned entry, and of equals the lower index; entry 52's age is counted across the wrap. -/
theorem test_replacement :
    fullTable.replaceable 1000000 = some 52
      ∧ (known fullTable 52 { aStation 31 with lastUsed := 0 }).replaceable 1000000 = some 10
      ∧ ({ aStation 140 with lastUsed := 4294000000 } : StationEntry).age 1000000 = 1967296 := by decide

/-- File 02: station 13 backs off 5 characters of 11 bits beyond G = 28, an idle requirement of 83. -/
theorem test_contention_in_lead :
    ((after (.qualifiedStartBit 0 { s7 := false, s8 := false, s9 := false })
        (withLine { qualifyingLine false true .lead { format .even false with echo := true, gap := 28 } with
          exch := (lineWith .ready master (aCtx 13 .talking)).exch })).bind fun t =>
      (t.line 0).tx.order.map fun o => (o.idle, (t.line 0).tx.de, (t.line 0).counters.contentions))
      = some (83, false, 1) := by decide

/-- File 03: no reply with a retry left, retry delay 20: the attempt is ordered again with a requirement of G + 20. -/
theorem test_retry_after_no_reply :
    ((after (.noStart 0) (withLine { listening (some 0) none { aCtx 9 .listening with attempts := 1 } with
        config := some { master with gap := 28, retryDelay := 20 } })).bind fun t =>
      (t.line 0).tx.order.map fun o => (o.idle, (t.line 0).counters.noReply)) = some (48, 1) := by decide

/-- File 07: a poll due in STARTING is skipped and keeps its schedule: due 1 ms, next due 501 ms. -/
theorem test_due_in_starting :
    ((after (.pollDue 0 0) { withLine ((lineIn .starting master).setPoll 0
        (some { aPoll (.enabled 1000) with period := 500 })) with timebase := 1000 }).bind fun t =>
      ((t.line 0).poll 0).map fun p => (p.run, p.skips)) = some (.enabled 501000, 1) := by decide

/-- File 06: with the pending list full a fifth block is dropped and counted. -/
theorem test_monitor_list_full :
    ((after (.blockEnd 0) (withLine (heard (List.replicate 4 aMonBlock) .bufferWait .requested))).map fun t =>
      ((t.line 0).mon.list.length, (t.line 0).mon.lost)) = some (4, 1) := by decide

/-- File 07's drain: J and N in POSTING, K HOLDING, L TALKING, M QUEUED, and N waiting at CQ 1. -/
def drainOfFile07 : State :=
  let l := ((((lineWith .draining master (aCtx 3 .posting)).joinWork 1 (aCtx 5 (.holding 0))).joinWork 2
    (aCtx 8 .talking)).joinWork 3 (aCtx 3 .queued)).joinWork 4 (aCtx 9 .posting)
  (withLine { l with stop := some .drain }).setCq 1 (some { aCq with waiters :=
    [{ poster := .exchange 0 4, record := .notice { event := .lineUp 0, time := 0 } }] })

/-- File 07: the loss of the carrier ends K, L and M with an ended count of 3; N, K, L, M wait in that order. -/
theorem test_drain_loses_carrier :
    ((after (.carDeasserted 0) drainOfFile07).map fun t =>
      ((t.line 0).stopEnded, (t.cqs[(1 : CqId)]).map fun q => q.waiters.map (·.poster)))
      = some (3, some [.exchange 0 4, .exchange 0 1, .exchange 0 2, .exchange 0 3]) := by decide

/-- A start bit in a second stop bit, one REFCLK period before the character's nominal end. -/
def noiseInStopBit : State :=
  let l := qualifyingLine false false .idle (format .odd true)
  withLine { l with rx := { l.rx with tail := some 191 } }

/-- R5, R21: noise leaves the nominal end of the character standing, and G is counted from it. -/
theorem test_noise_in_second_stop_bit :
    ((after (.noiseStart 0 { s7 := true, s8 := true, s9 := true }) noiseInStopBit).map fun t =>
      ((t.line 0).rx.tail, (t.line 0).tick.rx.tail, (t.line 0).tick.rx.gap)) = some (some 191, none, 0) := by decide

/-- The samples of a break whose first stop bit is taken as space, with RXD at this level at its third sample. -/
def breakThen (level : Bool) : CharSamples := { s7 := 0, s8 := 0, s9 := if level then 512 else 0 }

/-- R22: the receiver waits for mark while RXD is at space; with RXD back at mark it hunts and the gap timer counts. -/
theorem test_stop_bit_back_at_mark :
    ([true, false].map fun level => (after (.characterReceived 0 (breakThen level))
        (withLine (assemblingLine false))).map fun t =>
      ((t.line 0).rx.state, (t.line 0).counters.breaks, (t.line 0).tick.rx.gap - (t.line 0).rx.gap))
      = [some (.hunting, 1, 1), some (.awaitMark, 1, 0)] := by decide

/-- R187: a read of one address is answered OK on a MONITOR line, whose table is empty, and NOT_FOUND (41) on a MASTER
line that has no entry for it; 0 is OK. -/
theorem test_read_of_one_address :
    ([monitor, master].map fun cfg =>
      (after .stationRead (executing (withLine (lineIn .ready cfg)) (handOf (ringRecord 10 0 9 1 0 16) []))).bind fun t =>
        (t.cqs[(0 : CqId)]).map fun q => q.waiters.map fun w => match w.record with
          | .admin r => (r.status.code, r.resultA, r.resultB)
          | _ => (255, 0, 0)) = [some [(0, 0, 0)], some [(41, 0, 0)]] := by decide

end Sys2Proof.Tests
end

