-- ==== Sys2Proof/Proofs/PollReports.lean ====
section
/-! What an ON_CHANGE poll entry makes of a failure and of a good result with no digest to compare it with (R104, R105,
R107). -/

namespace Sys2Proof.Machine

/-- A failure is compared by status alone: neither the digest nor the quiet limit is looked at. -/
theorem PollEntry.delivers_failure_iff {p : PollEntry} {r : Result} (c : Ctx) (hm : p.mode = .onChange)
    (hf : ¬r.isGood) : p.delivers c r = true ↔ p.lastStatus ≠ some r.status := by
  have hbad : r.status.good ≠ true := mt (good_result_iff r).1 hf
  simp [PollEntry.delivers, hm, hbad]

theorem PollEntry.delivers_good_of_digest_none {p : PollEntry} {g : Result} (d : Ctx) (hm : p.mode = .onChange)
    (hd : p.digest = none) (hg : g.isGood) : p.delivers d g = true := by
  have hgood : g.status.good = true := (good_result_iff g).2 hg
  simp [PollEntry.delivers, hm, hd, hgood]

theorem PollEntry.delivered_failure {p : PollEntry} {r : Result} (c : Ctx) (hm : p.mode = .onChange)
    (hf : ¬r.isGood) :
    p.delivered c r = { p with suppressed := 0, lastStatus := some r.status, digest := none } := by
  have hbad : r.status.good ≠ true := mt (good_result_iff r).1 hf
  simp [PollEntry.delivered, hm, hbad]

/-- Settles O55. A delivered failure leaves its status as the last delivered one and the digest absent: the first
silences its repetition, the second lets any good result through. -/
theorem failuresAreReportedOnceByStatus : Obligations.FailuresAreReportedOnceByStatus := by
  intro p c r hm hok hrefused
  have hf : ¬r.isGood := not_or.2 ⟨hok, hrefused⟩
  have hafter := PollEntry.delivered_failure c hm hf
  refine ⟨?_, ?_, fun d g hg => ?_⟩
  · rw [PollEntry.delivers_failure_iff c hm hf]
    cases p.lastStatus <;> simp
  · rw [hafter]
    exact Bool.eq_false_iff.2 fun h => (PollEntry.delivers_failure_iff c (by exact hm) hf).1 h rfl
  · rw [hafter]
    exact PollEntry.delivers_good_of_digest_none d hm rfl hg

end Sys2Proof.Machine
end

