-- ==== Sys2Proof/Proofs/Acknowledgement.lean ====
section
/-! What a write to ACK does (R146, R158): which CQ it reaches, when it is accepted, and what the released entries make
of the pending flag and the delay timer. -/

namespace Sys2Proof.Machine

/-! ### The CQ a number names -/

theorem State.cqNumbered_of_exists {s : State} {i : CqId} {q : Cq} (h : s.cqs[i] = some q) :
    s.cqNumbered i.val = some (i, q) := by
  have hq : s.cqs[i.val] = some q := h
  simp [State.cqNumbered, hq]

theorem State.cqNumbered_of_absent {s : State} {k : Nat} (h : ∀ i : CqId, i.val = k → s.cqs[i] = none) :
    s.cqNumbered k = none := by
  unfold State.cqNumbered
  split
  · next hk =>
    have hnone : s.cqs[k] = none := h ⟨k, hk⟩ rfl
    rw [hnone]
  · rfl

/-! ### The rows of R158 -/

section
variable {q : Cq} {new : Nat} (now : Word)

theorem Cq.acknowledge_of_emptied (h : q.unacked = ringDist q.size new q.head) :
    q.acknowledge new now = { q with head := new, unacked := 0, pending := false, timer := none } := by
  simp [Cq.acknowledge, Cq.acked, h]

theorem Cq.acknowledge_of_atThreshold (hlt : ringDist q.size new q.head < q.unacked)
    (hn : q.threshold ≤ q.unacked - ringDist q.size new q.head) :
    q.acknowledge new now = { q with head := new, unacked := q.unacked - ringDist q.size new q.head } := by
  have hleft : q.unacked - ringDist q.size new q.head ≠ 0 := by omega
  simp only [Cq.acknowledge, Cq.acked, if_neg hleft, if_pos hn]

theorem Cq.acknowledge_of_belowThreshold (hlt : ringDist q.size new q.head < q.unacked)
    (hn : ¬q.threshold ≤ q.unacked - ringDist q.size new q.head) :
    q.acknowledge new now =
      { q with head := new, unacked := q.unacked - ringDist q.size new q.head, pending := false
               timer := if q.delay = 0 then none else some (after now q.delay) } := by
  have hleft : q.unacked - ringDist q.size new q.head ≠ 0 := by omega
  simp only [Cq.acknowledge, Cq.acked, if_neg hleft, if_neg hn, ne_eq, ite_not]

end

theorem Cq.ackAccepted_iff (q : Cq) (new : Nat) :
    q.ackAccepted new = true ↔ new < q.size ∧ ringDist q.size new q.head ≤ q.unacked := by
  simp [Cq.ackAccepted]

/-! ### The write -/

theorem State.ackWrite_of_exists {s : State} {i : CqId} {q : Cq} (hpart : s.part = .running) (hq : s.cqs[i] = some q)
    (new : Nat) :
    s.ackWrite i.val new =
      if q.ackAccepted new then s.setCq i (some (q.acknowledge new s.timebase)) else s.recordError .badIndex := by
  simp only [State.ackWrite, hpart, State.cqNumbered_of_exists hq]

theorem State.ackWrite_of_unreached {s : State} {k : Nat}
    (h : s.part ≠ .running ∨ ∀ i : CqId, i.val = k → s.cqs[i] = none) (new : Nat) :
    s.ackWrite k new = s.recordError .badIndex := by
  unfold State.ackWrite
  split
  · next hrun hfound =>
    obtain hpart | habsent := h
    · exact absurd hrun hpart
    · rw [State.cqNumbered_of_absent habsent] at hfound
      cases hfound
  · rfl

theorem exec_ack {s : State} (hheld : s.held = false) (k : BitVec 4) (head : BitVec 9) :
    exec (.ack k head) s = .next (State.ackWrite { s with answer := .written } k.toNat head.toNat) := by
  change execAck k head s = _
  simp [execAck, hheld]

/-- Settles O9. An accepted ACK meets one of R158's three rows, told apart by the count it leaves; every other one only
records BAD_INDEX. -/
theorem ackReleasesEntries : Obligations.AckReleasesEntries := by
  refine ⟨fun s i q head hheld hpart hq released hrel => ?_, fun s k head hheld hmiss => ?_⟩
  · have hnum : (BitVec.ofNat 4 i.val).toNat = i.val := by simp; omega
    have hdist : ringDist q.size head.toNat q.head = released := hrel.symm
    rw [exec_ack hheld, hnum,
      State.ackWrite_of_exists (s := { s with answer := .written }) (by exact hpart) (by exact hq)]
    simp only [Cq.ackAccepted_iff, hdist]
    by_cases hacc : head.toNat < q.size ∧ released ≤ q.unacked
    · rw [if_pos hacc, if_pos hacc]
      by_cases hall : q.unacked = released
      · rw [if_pos hall, Cq.acknowledge_of_emptied _ (hall.trans hrel)]
        rfl
      · have hlt : ringDist q.size head.toNat q.head < q.unacked := by omega
        rw [if_neg hall]
        by_cases hn : q.threshold ≤ q.unacked - released
        · rw [if_pos hn, Cq.acknowledge_of_atThreshold _ hlt (hdist ▸ hn), hdist]
          rfl
        · rw [if_neg hn, Cq.acknowledge_of_belowThreshold _ hlt (hdist ▸ hn), hdist]
          rfl
    · rw [if_neg hacc, if_neg hacc]
      rfl
  · rw [exec_ack hheld, State.ackWrite_of_unreached (s := { s with answer := .written }) (by exact hmiss)]
    rfl

end Sys2Proof.Machine
end

