-- ==== Sys2Proof/Proofs/FetchArbitration.lean ====
section
/-! The fetch arbiter of a line (R147, R148): the round robin over a rising list of ids, the candidates, when a context
is lent, and the grant. -/

namespace Sys2Proof.Machine

/-! ### Round robin -/

/-- The first id of a rising list that meets a test is the lowest that does. -/
theorem find?_eq_some_of_lowest {ids : List SqId} (hsorted : ids.Pairwise (· < ·)) {t : SqId → Bool} {i : SqId}
    (hi : i ∈ ids) (ht : t i = true) (hlow : ∀ j ∈ ids, t j = true → i ≤ j) : ids.find? t = some i := by
  induction ids with
  | nil => cases hi
  | cons a rest ih =>
    obtain ⟨habove, hrest⟩ := List.pairwise_cons.1 hsorted
    by_cases ha : t a = true
    · have hle : i ≤ a := hlow a (by simp) ha
      have hai : a = i := by
        obtain rfl | hmem := List.mem_cons.1 hi
        · rfl
        · exact absurd (habove i hmem) (not_lt.2 hle)
      rw [List.find?_cons_of_pos ha, hai]
    · have hmem : i ∈ rest := by
        obtain rfl | hmem := List.mem_cons.1 hi
        · exact absurd ht ha
        · exact hmem
      rw [List.find?_cons_of_neg ha]
      exact ih hrest hmem fun j hj => hlow j (List.mem_cons_of_mem _ hj)

theorem head?_eq_some_of_lowest {ids : List SqId} (hsorted : ids.Pairwise (· < ·)) {i : SqId} (hi : i ∈ ids)
    (hlow : ∀ j ∈ ids, i ≤ j) : ids.head? = some i := by
  cases ids with
  | nil => cases hi
  | cons a rest =>
    obtain rfl | hmem := List.mem_cons.1 hi
    · rfl
    · have habove : a < i := (List.pairwise_cons.1 hsorted).1 i hmem
      exact absurd habove (not_lt.2 (hlow a (by simp)))

theorem roundRobin_eq_some_of_pick {ids : List SqId} (hsorted : ids.Pairwise (· < ·)) {pointer : Option SqId}
    {i : SqId} (h : RoundRobinPick (· ∈ ids) pointer i) : roundRobin ids pointer = some i := by
  obtain ⟨hi, ⟨k, rfl, hki, hlow⟩ | ⟨hnone, hlow⟩⟩ := h
  · have hfind : ids.find? (fun j => decide (k < j)) = some i :=
      find?_eq_some_of_lowest hsorted hi (by simpa using hki) fun j hj hkj => hlow j hj (by simpa using hkj)
    simp only [roundRobin, hfind]
  · have hhead : ids.head? = some i := head?_eq_some_of_lowest hsorted hi hlow
    cases pointer with
    | none => exact hhead
    | some k =>
      have hfind : ids.find? (fun j => decide (k < j)) = none :=
        List.find?_eq_none.2 fun j hj => by simpa using hnone k rfl j hj
      simp only [roundRobin, hfind, hhead]

@[simp] theorem roundRobin_nil (pointer : Option SqId) : roundRobin [] pointer = none := by
  cases pointer <;> rfl

/-! ### The candidates -/

theorem cqActive_iff (q : Option Cq) : cqActive q = true ↔ ∃ c, q = some c ∧ c.state = .active := by
  cases q <;> simp [cqActive]

theorem State.candidate_eq_some_iff (s : State) (n : LineId) (i : SqId) (b : SqBinding) :
    s.candidate n i = some b ↔ ∃ q c, s.sqs[i] = some q ∧ q.binding = some b ∧ b.line = n ∧ q.state = .active
      ∧ 1 ≤ ringDist q.size q.tail q.head ∧ s.cqs[b.cq] = some c ∧ c.state = .active := by
  unfold State.candidate
  cases hq : s.sqs[i] with
  | none => simp
  | some q =>
    cases hb : q.binding with
    | none => simp [hb]
    | some b' =>
      simp only [hb, Option.ite_none_right_eq_some, cqActive_iff, Option.some.injEq]
      constructor
      · rintro ⟨⟨hline, hstate, hrec, c, hc, hactive⟩, rfl⟩
        exact ⟨q, c, rfl, hb, hline, hstate, hrec, hc, hactive⟩
      · rintro ⟨q', c, rfl, hb', hline, hstate, hrec, hc, hactive⟩
        obtain rfl : b' = b := Option.some.inj (hb.symm.trans hb')
        exact ⟨⟨hline, hstate, hrec, c, hc, hactive⟩, rfl⟩

theorem State.mem_candidates_iff (s : State) (n : LineId) (p : Priority) (i : SqId) :
    i ∈ s.candidates n p ↔ s.Candidate n p i := by
  have hmem : i ∈ s.candidates n p ↔ ∃ b, s.candidate n i = some b ∧ b.priority = p := by
    cases h : s.candidate n i <;> simp [State.candidates, h]
  rw [hmem]
  simp only [State.candidate_eq_some_iff]
  constructor
  · rintro ⟨b, ⟨q, c, hq, hb, hline, hstate, hrec, hc, hactive⟩, hprio⟩
    exact ⟨q, b, c, hq, hb, hline, hprio, hstate, hrec, hc, hactive⟩
  · rintro ⟨q, b, c, hq, hb, hline, hprio, hstate, hrec, hc, hactive⟩
    exact ⟨b, ⟨q, c, hq, hb, hline, hstate, hrec, hc, hactive⟩, hprio⟩

theorem State.candidates_sorted (s : State) (n : LineId) (p : Priority) : (s.candidates n p).Pairwise (· < ·) :=
  (List.pairwise_lt_finRange 17).filter _

theorem State.candidates_eq_nil {s : State} {n : LineId} {p : Priority} (h : ∀ j, ¬s.Candidate n p j) :
    s.candidates n p = [] :=
  List.eq_nil_iff_forall_not_mem.2 fun j hj => h j ((s.mem_candidates_iff n p j).1 hj)

theorem State.roundRobin_candidates {s : State} {n : LineId} {p : Priority} {pointer : Option SqId} {i : SqId}
    (h : RoundRobinPick (s.Candidate n p) pointer i) : roundRobin (s.candidates n p) pointer = some i := by
  have hP : s.Candidate n p = (· ∈ s.candidates n p) := by
    funext j
    exact propext (s.mem_candidates_iff n p j).symm
  exact roundRobin_eq_some_of_pick (s.candidates_sorted n p) (hP ▸ h)

/-! ### The choice -/

/-- The pointer the arbiter keeps for a priority. -/
def Arbiter.pointer (a : Arbiter) (p : Priority) : Option SqId := if p = .high then a.highPointer else a.normalPointer

theorem State.fetchChoice_of_pick {s : State} {n : LineId} {p : Priority} {i : SqId}
    (hhigh : p = .normal → ∀ j, ¬s.Candidate n .high j)
    (h : RoundRobinPick (s.Candidate n p) ((s.line n).arbiter.pointer p) i) : s.fetchChoice n = some (i, p) := by
  have hrr := State.roundRobin_candidates h
  cases p with
  | high =>
    have hrr : roundRobin (s.candidates n .high) (s.line n).arbiter.highPointer = some i := hrr
    simp only [State.fetchChoice, hrr]
  | normal =>
    have hrr : roundRobin (s.candidates n .normal) (s.line n).arbiter.normalPointer = some i := hrr
    simp only [State.fetchChoice, State.candidates_eq_nil (hhigh rfl), roundRobin_nil, hrr]

theorem State.fetchChoice_of_no_candidate {s : State} {n : LineId} (h : ∀ p j, ¬s.Candidate n p j) :
    s.fetchChoice n = none := by
  simp only [State.fetchChoice, State.candidates_eq_nil (h _), roundRobin_nil]

theorem Arbiter.grant_eq (a : Arbiter) (i : SqId) (p : Priority) :
    a.grant i p = { highPointer := if p = .high then some i else a.highPointer
                    normalPointer := if p = .high then a.normalPointer else some i
                    inFlight := some i } := by
  cases p <;> rfl

/-! ### The lending -/

theorem LineState.staging_iff (x : LineState) : x.staging = true ↔ x = .starting ∨ x = .ready ∨ x = .fault := by
  cases x <;> simp [LineState.staging]

theorem Line.mem_freeCtxs_iff (l : Line) (k : CtxId) : k ∈ l.freeCtxs ↔ l.ctx k = none ∧ l.exch.lent ≠ some k := by
  simp [Line.freeCtxs]

theorem Line.length_freeCtxs {l : Line} (h : l.exch.lent = none) :
    l.freeCtxs.length = (List.finRange 16).countP fun k => (l.ctx k).isNone := by
  rw [Line.freeCtxs, ← List.countP_eq_length_filter]
  refine List.countP_congr fun k _ => ?_
  simp [h]

theorem reached_iff (now t : Word) : reached now t = true ↔ (now - t).toNat < 2 ^ 31 := by
  simp only [reached, decide_eq_true_eq]

theorem Line.dueClaims_eq_false {l : Line} {now : Word}
    (h : l.state = .ready → ∀ e p due, l.poll e = some p → p.inFlight = none → p.run = .enabled due →
      2 ^ 31 ≤ (now - due).toNat) : l.dueClaims now = false := by
  refine Bool.eq_false_iff.2 fun hclaims => ?_
  simp only [Line.dueClaims, Bool.and_eq_true, decide_eq_true_eq, List.any_eq_true] at hclaims
  obtain ⟨hready, e, -, he⟩ := hclaims
  cases hp : l.poll e with
  | none => simp [hp] at he
  | some p =>
    cases hrun : p.run with
    | disabled => simp [hp, dueAt, hrun] at he
    | enabled due =>
      simp only [hp, dueAt, hrun, Option.isSome_ite, reached_iff, Bool.and_eq_true, decide_eq_true_eq] at he
      obtain ⟨hdue, hidle⟩ := he
      exact absurd hdue (not_lt.2 (h hready e p due hp hidle hrun))

theorem Line.mayLend_eq_true {l : Line} {cfg : LineConfig} {now : Word}
    (hstate : l.state = .starting ∨ l.state = .ready ∨ l.state = .fault) (hlent : l.exch.lent = none)
    (hfetch : l.arbiter.inFlight = none) (hfree : cfg.pollReserve < l.freeCtxs.length)
    (hdue : l.dueClaims now = false) : l.mayLend cfg now = true := by
  simp [Line.mayLend, (LineState.staging_iff _).2 hstate, hlent, hfetch, hfree, hdue]

/-! ### The grant -/

section
variable {s : State} {n : LineId} {cfg : LineConfig} (hcfg : (s.line n).config = some cfg) (hrun : s.part = .running)
  (hmay : (s.line n).mayLend cfg s.timebase = true)
include hcfg hrun hmay

theorem State.grantFetch_of_choice {i : SqId} {p : Priority} {q : Sq} {k : CtxId} {others : List CtxId}
    (hchoice : s.fetchChoice n = some (i, p)) (hfree : (s.line n).freeCtxs = k :: others) (hq : s.sqs[i] = some q) :
    s.grantFetch n =
      (s.modLine n fun l =>
          { l with exch := { l.exch with lent := some k }, arbiter := l.arbiter.grant i p }).issue queueEngine
        { addr := q.base + BitVec.ofNat 32 (32 * q.head), kind := .read 32, use := .sqFetch i n k } := by
  simp only [State.grantFetch, hcfg, hrun, hmay, and_self, if_true, hchoice, hfree, hq]

theorem State.grantFetch_of_no_choice (hchoice : s.fetchChoice n = none) : s.grantFetch n = s := by
  simp only [State.grantFetch, hcfg, hrun, hmay, and_self, if_true, hchoice]

end

theorem exec_fetchGrant (s : State) (n : LineId) : exec (.fetchGrant n) s = .next (s.grantFetch n) := rfl

/-- Settles O33. The conditions let the line lend its lowest FREE context; the candidates stand in rising order, so the
round robin over the list is the pick the statement names. -/
theorem fetchGrantIsRoundRobinByPriority : Obligations.FetchGrantIsRoundRobinByPriority := by
  refine ⟨?_, fun _ _ _ => ⟨rfl, rfl⟩⟩
  rintro s n l cfg rfl hcfg hrun hstate hlent hfetch hreserve hdue
  have hfree : cfg.pollReserve < (s.line n).freeCtxs.length := by rwa [Line.length_freeCtxs hlent]
  have hmay : (s.line n).mayLend cfg s.timebase = true :=
    Line.mayLend_eq_true hstate hlent hfetch hfree (Line.dueClaims_eq_false hdue)
  refine ⟨fun p i q hq hhigh hpick => ?_, fun hnone => ?_⟩
  · obtain ⟨k, others, hlist⟩ := List.exists_cons_of_length_pos (Nat.zero_lt_of_lt hfree)
    have hk : k ∈ (s.line n).freeCtxs := by simp [hlist]
    refine ⟨k, ((s.line n).mem_freeCtxs_iff k |>.1 hk).1, ?_⟩
    rw [exec_fetchGrant,
      State.grantFetch_of_choice hcfg hrun hmay (State.fetchChoice_of_pick hhigh hpick) hlist hq, State.modLine,
      Arbiter.grant_eq]
  · rw [exec_fetchGrant, State.grantFetch_of_no_choice hcfg hrun hmay (State.fetchChoice_of_no_candidate hnone)]

end Sys2Proof.Machine
end

