-- ==== Sys2Proof/Proofs/DriverEnableSteps.lean ====
section
/-! Every step keeps driver enable lawful (R29): the operations of the administration commands and the happenings of the
signalling unit that the shared laws do not speak of, and then one case per command. -/

namespace Sys2Proof.Machine

/-! ### Resets and queue commands -/

theorem lawful_powerOn (s : State) : s.powerOn.deLawful := lawful_of_sameLines (lawful_softReset s) rfl

theorem lawful_answerCommand {s : State} (st : Status) (h : s.deLawful) : (s.answerCommand st).deLawful :=
  lawful_of_posts (posts_answerCommand s st) h

theorem lawful_completeCommand {s : State} (st : Status) (a b c : Nat) (h : s.deLawful) :
    (s.completeCommand st a b c).deLawful := lawful_of_posts (posts_completeCommand s st a b c) h

theorem lawful_answerPoll {s : State} (st : Status) (p : Option PollEntry) (h : s.deLawful) :
    (s.answerPoll st p).deLawful := lawful_of_posts (posts_answerPoll s st p) h

theorem lawful_createCq (s : State) (r : List Byte) (h : s.deLawful) : (s.createCq r).deLawful := by
  unfold State.createCq
  repeat' split
  all_goals exact lawful_answerCommand _ (lawful_of_sameLines h rfl)

theorem lawful_deleteCq (s : State) (r : List Byte) (h : s.deLawful) : (s.deleteCq r).deLawful := by
  unfold State.deleteCq
  repeat' split
  all_goals exact lawful_completeCommand _ _ _ _ (lawful_of_sameLines h rfl)

theorem lawful_createSq (s : State) (r : List Byte) (h : s.deLawful) : (s.createSq r).deLawful := by
  unfold State.createSq
  repeat' split
  all_goals exact lawful_answerCommand _ (lawful_of_sameLines h rfl)

theorem lawful_deleteSq (s : State) (r : List Byte) (h : s.deLawful) : (s.deleteSq r).deLawful := by
  unfold State.deleteSq
  repeat' split
  · exact lawful_answerCommand _ h
  · exact lawful_completeCommand _ _ _ _ (lawful_of_sameLines h rfl)
  · exact lawful_of_posts (posts_pendCommand _ _) (lawful_of_sameLines h rfl)
  · exact lawful_answerCommand _ h

/-! ### Line and table commands -/

/-- Only an OFF line is configured, and its DE is released. -/
theorem lawful_configureLine (s : State) (n : LineId) (b : List Byte) (h : s.deLawful) :
    (s.configureLine n b).deLawful := by
  unfold State.configureLine
  split
  · exact lawful_answerCommand _ h
  · next hoff =>
    have hsending := (released_of_off (h n) (not_not.1 hoff)).2
    repeat' split
    · exact lawful_answerCommand _ h
    · have hline : (s.modLine n (·.configured (lpbConfig b))).deLawful :=
        lawful_modLine s n _ h fun _ => lineLawful_of_released rfl hsending
      exact lawful_answerCommand _ (lawful_of_sameLines hline rfl)
    · exact lawful_answerCommand _ h

theorem lawful_startLine (s : State) (n : LineId) (h : s.deLawful) : (s.startLine n).deLawful := by
  unfold State.startLine
  split
  · exact lawful_answerCommand _ h
  · split
    · exact lawful_answerCommand _ h
    · next hoff =>
      obtain ⟨hde, hsending⟩ := released_of_off (h n) (not_not.1 hoff)
      exact lawful_answerCommand _ (lawful_of_posts (posts_runMonitor _ n)
        (lawful_modLine s n _ h fun _ => lineLawful_of_released hde hsending))

theorem lawful_setPoll (s : State) (n : LineId) (r b : List Byte) (h : s.deLawful) : (s.setPoll n r b).deLawful := by
  unfold State.setPoll
  repeat' split
  all_goals first
    | exact lawful_answerCommand _ h
    | exact lawful_answerCommand _ (lawful_of_posts (posts_modLine s n _ fun l => sameWire_setPoll l _ _) h)

theorem lawful_pollEnable (s : State) (n : LineId) (r : List Byte) (h : s.deLawful) : (s.pollEnable n r).deLawful := by
  unfold State.pollEnable
  split
  · exact lawful_answerCommand _ h
  · split
    · exact lawful_answerPoll _ _ h
    · split
      · exact lawful_answerPoll _ _ h
      · next hl =>
        exact lawful_answerPoll _ _ (lawful_of_posts
          (posts_setLine s n _ ((sameWire_obtain _ _ _ _ _ hl).trans (sameWire_setPoll _ _ _))) h)

theorem lawful_pollDisable (s : State) (n : LineId) (r : List Byte) (h : s.deLawful) :
    (s.pollDisable n r).deLawful := by
  unfold State.pollDisable
  repeat' split
  · exact lawful_answerCommand _ h
  · exact lawful_answerPoll _ _ h
  · exact lawful_answerPoll _ _ (lawful_of_posts (posts_modLine s n _ fun l => sameWire_setPoll l _ _) h)

theorem lawful_pollClear (s : State) (n : LineId) (r : List Byte) (h : s.deLawful) : (s.pollClear n r).deLawful := by
  unfold State.pollClear
  repeat' split
  · exact lawful_answerCommand _ h
  · exact lawful_answerPoll _ _ h
  · exact lawful_answerPoll _ _ h
  · exact lawful_answerPoll _ _ (lawful_of_posts (posts_modLine s n _ fun l => sameWire_setPoll l _ _) h)

theorem lineLawful_reorderAfresh (l : Line) (cfg : LineConfig) (a : Byte) (h : l.deLawful) :
    (l.reorderAfresh cfg a).deLawful := by
  unfold Line.reorderAfresh
  repeat' split
  all_goals first
    | exact h
    | exact lineLawful_giveOrder _ _ _ (lineLawful_withdraw _ _ h)

theorem lawful_stationReset (s : State) (n : LineId) (a : Byte) (h : s.deLawful) : (s.stationReset n a).deLawful := by
  unfold State.stationReset
  repeat' split
  · exact lawful_answerCommand _ h
  · exact lawful_answerCommand _ h
  · refine lawful_answerCommand _ (lawful_modLine s n _ h fun h => ?_)
    have hentry := lineLawful_of_sameWire (sameWire_modEntry (s.line n) a StationEntry.resetHealth) h
    unfold Line.resetStation
    split
    · exact lineLawful_reorderAfresh _ _ _ hentry
    · exact hentry

theorem lawful_stationRead (s : State) (n : LineId) (k : Hand) (h : s.deLawful) : (s.stationRead n k).deLawful := by
  unfold State.stationRead
  dsimp only
  repeat' split
  all_goals first
    | exact lawful_answerCommand _ h
    | exact lawful_of_posts (posts_writeResults s _ _ _ _) h

theorem lawful_setFilter (s : State) (n : LineId) (r : List Byte) (h : s.deLawful) : (s.setFilter n r).deLawful := by
  unfold State.setFilter
  repeat' split
  all_goals first
    | exact lawful_answerCommand _ h
    | exact lawful_answerCommand _ (lawful_of_posts (posts_modLine s n _ fun l => sameWire_setMon l _) h)

theorem lawful_abortSq (s : State) (r : List Byte) (k : Option Half) (h : s.deLawful) : (s.abortSq r k).deLawful := by
  unfold State.abortSq
  split
  · exact lawful_abortLine s _ _ h
  · exact lawful_answerCommand _ h

theorem lawful_abortStation (s : State) (n : LineId) (r : List Byte) (h : s.deLawful) :
    (s.abortStation n r).deLawful := by
  unfold State.abortStation
  split
  · exact lawful_answerCommand _ h
  · exact lawful_abortLine s n _ h

theorem lawful_readCounters (s : State) (n : LineId) (k : Hand) (rdy : Bool) (h : s.deLawful) :
    (s.readCounters n k rdy).deLawful :=
  lawful_of_posts (posts_writeResults _ _ _ _ _) (lawful_modLine s n _ h fun h => lineLawful_of_sameTx h rfl rfl rfl)

/-! ### The memory port -/

theorem lawful_grantPort (s : State) (a : BusAnswer) (h : s.deLawful) : (s.grantPort a).deLawful := by
  unfold State.grantPort
  repeat' split
  all_goals exact lawful_of_sameLines h rfl

theorem lawful_beatTimedOut (s : State) (h : s.deLawful) : s.beatTimedOut.deLawful := by
  unfold State.beatTimedOut
  repeat' split
  all_goals first
    | exact h
    | exact lawful_transferEnded s _ _ h

theorem lawful_startAdminFetch (s : State) (h : s.deLawful) : s.startAdminFetch.deLawful := by
  unfold State.startAdminFetch
  repeat' split
  all_goals exact lawful_of_sameLines h rfl

/-! ### Line happenings -/

theorem lineLawful_fallDue (l : Line) (cfg : LineConfig) (e : PollId) (p : PollEntry) (due now : Word)
    (h : l.deLawful) : (l.fallDue cfg e p due now).deLawful := by
  have hskip : ∀ next, (l.skipDue e p next).deLawful := fun next => lineLawful_of_sameTx h rfl rfl rfl
  unfold Line.fallDue
  dsimp only
  split
  · split
    · exact lineLawful_of_sameWire (sameWire_modEntry _ _ _) (lineLawful_of_sameTx h rfl rfl rfl)
    · exact hskip _
  · exact hskip _
  · exact hskip _
  · exact h
  · exact h

/-- The line becomes READY, where a transmission may already not be under way: it was STARTING. -/
theorem lawful_quietTaken (s : State) (n : LineId) (h : s.deLawful) : (s.quietTaken n).deLawful := by
  refine lawful_of_posts (posts_handNotice _ _) (lawful_modLine s n _ h fun g => ?_)
  obtain ⟨hde, hmaster⟩ := g
  exact ⟨hde, fun hd => ⟨.inl rfl, (hmaster hd).2⟩⟩

/-- Only a FAULT line changes its state with the carrier's return, and its DE is released. -/
theorem lineLawful_carrierBack (l : Line) (h : l.deLawful) : l.carrierBack.deLawful := by
  unfold Line.carrierBack
  split
  · exact lineLawful_of_sameTx h rfl rfl rfl
  · next hfault =>
    obtain ⟨hde, hmaster⟩ := h
    have hreleased : l.tx.de = false := by
      cases hd : l.tx.de with
      | false => rfl
      | true => rcases (hmaster hd).1 with e | e <;> simp [hfault] at e
    exact lineLawful_of_released hreleased (hde.symm.trans hreleased)
  · exact lineLawful_of_sameTx h rfl rfl rfl
  · exact lineLawful_of_sameTx h rfl rfl rfl
  · exact lineLawful_of_sameTx h rfl rfl rfl

/-- R27: activity moves the transmitter between two phases that leave DE released. -/
theorem lineLawful_activity (l : Line) (h : l.deLawful) : l.activity.deLawful := by
  unfold Line.activity
  split
  · next hwait => exact lineLawful_of_samePhase h rfl (by simp [Transmitter.sending, hwait]) rfl rfl
  · exact lineLawful_of_sameTx h rfl rfl rfl

theorem lineLawful_fallingEdge (l : Line) (now : Word) (h : l.deLawful) : (l.fallingEdge now).deLawful := by
  unfold Line.fallingEdge
  split
  · exact lineLawful_of_sameTx (lineLawful_activity l h) rfl rfl rfl
  · exact lineLawful_of_sameTx h rfl rfl rfl

theorem lineLawful_waitReady (l : Line) (cfg : LineConfig) (now : Word) (hgap : l.tx.phase = .gapWait)
    (h : l.deLawful) : (l.waitReady cfg now).deLawful :=
  lineLawful_of_samePhase h rfl (by simp [Line.waitReady, Transmitter.sending, hgap]) rfl rfl

theorem Line.requirementMet_iff (l : Line) (cfg : LineConfig) :
    l.requirementMet cfg = true ↔ ∃ o, l.tx.order = some o ∧ l.tx.phase = .gapWait ∧ l.state.sends = true
      ∧ cfg.mode = .master ∧ l.gapReached cfg o.idle = true ∧ l.rx.block = none := by
  unfold Line.requirementMet
  cases l.tx.order <;> simp [and_assoc]

theorem lawful_idleRequirementMet (s : State) (n : LineId) (rdy : Bool) (cfg : LineConfig)
    (hcfg : (s.line n).config = some cfg) (hmet : (s.line n).requirementMet cfg = true) (h : s.deLawful) :
    (s.modLine n fun l =>
      let l1 := { l with rdy := rdy }
      if rdy then l1.beginLead cfg s.timebase else l1.waitReady cfg s.timebase).deLawful := by
  obtain ⟨-, -, hgap, hsends, hmaster, -, -⟩ := ((s.line n).requirementMet_iff cfg).1 hmet
  refine lawful_modLine s n _ h fun h => ?_
  have hl : ({ s.line n with rdy := rdy } : Line).deLawful := lineLawful_of_sameTx h rfl rfl rfl
  dsimp only
  split
  · exact lineLawful_beginLead _ cfg _ hl hsends hcfg hmaster
  · exact lineLawful_waitReady _ cfg _ hgap hl

theorem lawful_notReady (s : State) (n : LineId) (h : s.deLawful) : (s.notReady n).deLawful := by
  have hreset : (s.modLine n fun l => { l with tx := .reset }).deLawful :=
    lawful_modLine s n _ h fun _ => lineLawful_of_released rfl rfl
  unfold State.notReady
  dsimp only
  split
  · exact lawful_of_posts (posts_endExchange _ _ _ _) hreset
  · exact hreset

/-- A phase of a transmission under way follows another. -/
theorem lineLawful_of_nextPhase {l m : Line} (h : l.deLawful) (hl : l.tx.sending = true) (hm : m.tx.sending = true)
    (hd : m.tx.de = l.tx.de) (hs : m.state = l.state) (hc : m.config = l.config) : m.deLawful :=
  lineLawful_of_samePhase h hd (hm.trans hl.symm) hs hc

theorem lawful_rdyAsserted (s : State) (n : LineId) (h : s.deLawful) {t : State}
    (ht : execRdyAsserted n s = .next t) : t.deLawful := by
  obtain rfl := Host.Outcome.next.inj ht
  refine lawful_modLine s n _ h fun h => ?_
  have hl : ({ s.line n with rdy := true } : Line).deLawful := lineLawful_of_sameTx h rfl rfl rfl
  dsimp only
  split
  · next hcfg =>
    split
    · next hready =>
      obtain ⟨-, hsends, hmaster⟩ := hready
      exact lineLawful_beginLead _ _ _ hl hsends hcfg hmaster
    · exact hl
  · exact hl

/-! ### Every command -/

theorem lawful_exec (c : Instr) {s t : State} (h : s.deLawful) (ht : exec c s = .next t) : t.deLawful := by
  cases c with
  | powerOn => obtain rfl := Host.Outcome.next.inj ht; exact lawful_powerOn s
  | softReset => obtain rfl := Host.Outcome.next.inj ht; split; exacts [h, lawful_softReset s]
  | run => obtain rfl := Host.Outcome.next.inj ht; split; exacts [h, lawful_controlWrite s _ _ h]
  | runClear => obtain rfl := Host.Outcome.next.inj ht; split; exacts [h, lawful_controlWrite s _ _ h]
  | intEnable => obtain rfl := Host.Outcome.next.inj ht; split; exacts [h, lawful_controlWrite s _ _ h]
  | adminSetupWrite =>
    obtain rfl := Host.Outcome.next.inj ht; split
    exacts [h, lawful_setupWrite _ _ _ (lawful_of_sameLines h rfl)]
  | postSq => obtain rfl := Host.Outcome.next.inj ht; split; exacts [h, lawful_postSq _ _ _ (lawful_of_sameLines h rfl)]
  | postBq => obtain rfl := Host.Outcome.next.inj ht; split; exacts [h, lawful_postBq _ _ _ (lawful_of_sameLines h rfl)]
  | ack => obtain rfl := Host.Outcome.next.inj ht; split; exacts [h, lawful_ackWrite _ _ _ (lawful_of_sameLines h rfl)]
  | statusRead => obtain rfl := Host.Outcome.next.inj ht; split; exacts [h, lawful_of_sameLines h rfl]
  | registerWrite => obtain rfl := Host.Outcome.next.inj ht; split; exacts [h, lawful_access s _ h]
  | portGrant => obtain rfl := Host.Outcome.next.inj ht; exact lawful_grantPort _ _ (lawful_of_sameLines h rfl)
  | beatTimeout => obtain rfl := Host.Outcome.next.inj ht; exact lawful_beatTimedOut s h
  | adminFetchStart => obtain rfl := Host.Outcome.next.inj ht; exact lawful_startAdminFetch s h
  | adminFetchComplete =>
    obtain rfl := Host.Outcome.next.inj ht; split
    exacts [lawful_adminFetchEnded _ _ (lawful_of_sameLines h rfl), h]
  | badCommand =>
    obtain rfl := Host.Outcome.next.inj ht; repeat' split
    exacts [lawful_answerCommand _ h, h, h]
  | parameterBlockReadDone =>
    obtain rfl := Host.Outcome.next.inj ht; split
    exacts [lawful_of_posts ((posts_portFree s).trans (posts_blockReadEnded _ _)) h, h]
  | createCq => obtain rfl := Host.Outcome.next.inj ht; split; exacts [lawful_createCq s _ h, h]
  | deleteCq => obtain rfl := Host.Outcome.next.inj ht; split; exacts [lawful_deleteCq s _ h, h]
  | createSq => obtain rfl := Host.Outcome.next.inj ht; split; exacts [lawful_createSq s _ h, h]
  | deleteSq => obtain rfl := Host.Outcome.next.inj ht; split; exacts [lawful_deleteSq s _ h, h]
  | configureLine => obtain rfl := Host.Outcome.next.inj ht; split; exacts [lawful_configureLine s _ _ h, h]
  | startLine => obtain rfl := Host.Outcome.next.inj ht; split; exacts [lawful_startLine s _ h, h]
  | stopLine => obtain rfl := Host.Outcome.next.inj ht; split; exacts [lawful_stopLine s _ _ h, h]
  | setPoll => obtain rfl := Host.Outcome.next.inj ht; split; exacts [lawful_setPoll s _ _ _ h, h]
  | pollEnable => obtain rfl := Host.Outcome.next.inj ht; split; exacts [lawful_pollEnable s _ _ h, h]
  | pollDisable => obtain rfl := Host.Outcome.next.inj ht; split; exacts [lawful_pollDisable s _ _ h, h]
  | pollClear => obtain rfl := Host.Outcome.next.inj ht; split; exacts [lawful_pollClear s _ _ h, h]
  | stationReset => obtain rfl := Host.Outcome.next.inj ht; split; exacts [lawful_stationReset s _ _ h, h]
  | stationRead => obtain rfl := Host.Outcome.next.inj ht; split; exacts [lawful_stationRead s _ _ h, h]
  | setFilter => obtain rfl := Host.Outcome.next.inj ht; split; exacts [lawful_setFilter s _ _ h, h]
  | abortSqAndTag => obtain rfl := Host.Outcome.next.inj ht; split; exacts [lawful_abortSq s _ _ h, h]
  | abortLineAndStation => obtain rfl := Host.Outcome.next.inj ht; split; exacts [lawful_abortStation s _ _ h, h]
  | abortWholeSq => obtain rfl := Host.Outcome.next.inj ht; split; exacts [lawful_abortSq s _ _ h, h]
  | readCounters => obtain rfl := Host.Outcome.next.inj ht; split; exacts [lawful_readCounters s _ _ _ h, h]
  | resultWriteDone =>
    obtain rfl := Host.Outcome.next.inj ht; split
    exacts [lawful_of_posts ((posts_portFree s).trans (posts_resultWriteEnded _ _)) h, h]
  | stopComplete =>
    obtain rfl := Host.Outcome.next.inj ht; split
    exacts [lawful_of_posts (posts_finishPending _ _ _)
      (lawful_modLine s _ _ h fun _ => lineLawful_of_released rfl rfl), h]
  | sqDeletionDone =>
    obtain rfl := Host.Outcome.next.inj ht; repeat' split
    exacts [lawful_of_posts (posts_finishPending _ _ _) (lawful_of_sameLines h rfl), h, h, h]
  | fetchGrant => obtain rfl := Host.Outcome.next.inj ht; exact lawful_grantFetch s _ h
  | fetchComplete =>
    obtain rfl := Host.Outcome.next.inj ht; split
    exacts [lawful_fetchEnded _ _ _ _ _ (lawful_of_sameLines h rfl), h]
  | requestDataReadDone =>
    obtain rfl := Host.Outcome.next.inj ht; split
    exacts [lawful_requestDataEnded _ _ _ _ (lawful_of_sameLines h rfl), h]
  | descriptorReadComplete =>
    obtain rfl := Host.Outcome.next.inj ht; split
    exacts [lawful_of_posts ((posts_portFree s).trans (posts_descriptorEnded _ _ _)) h,
      lawful_of_posts (posts_portFree s) h, h]
  | bufferPromise => obtain rfl := Host.Outcome.next.inj ht; exact lawful_of_posts (posts_promiseWaiting s _) h
  | payloadWriteDone =>
    obtain rfl := Host.Outcome.next.inj ht; split
    exacts [lawful_of_posts ((posts_portFree s).trans (posts_payloadEnded _ _ _ _)) h, h]
  | monitorDataWriteDone =>
    obtain rfl := Host.Outcome.next.inj ht; split
    exacts [lawful_of_posts ((posts_portFree s).trans (posts_monitorDataEnded _ _ _)) h, h]
  | slotGrant => obtain rfl := Host.Outcome.next.inj ht; exact lawful_grantSlot s _ h
  | completionWriteDone =>
    obtain rfl := Host.Outcome.next.inj ht; split
    exacts [lawful_completionEnded _ _ _ _ (lawful_of_sameLines h rfl), h]
  | delayTimerExpiry =>
    obtain rfl := Host.Outcome.next.inj ht; repeat' split
    exacts [lawful_of_sameLines h rfl, h, h]
  | sendOrder n =>
    obtain rfl := Host.Outcome.next.inj ht; repeat' split
    exacts [lawful_modLine s n _ h (lineLawful_giveOrder _ _ _), h, h]
  | idleRequirementMet n rdy =>
    obtain rfl := Host.Outcome.next.inj ht
    split
    · next cfg hcfg =>
      split
      · next hmet => exact lawful_idleRequirementMet s n rdy cfg hcfg hmet h
      · exact h
    · exact h
  | rdyAsserted n => exact lawful_rdyAsserted s n h ht
  | notReady => obtain rfl := Host.Outcome.next.inj ht; split; exacts [lawful_notReady s _ h, h]
  | leadEnd n =>
    obtain rfl := Host.Outcome.next.inj ht
    split
    · split
      · next hlead =>
        exact lawful_modLine s n _ h fun h =>
          lineLawful_of_nextPhase h (by simp [Transmitter.sending, hlead.1]) rfl rfl rfl rfl
      · exact h
    · exact h
  | sendEnd n =>
    obtain rfl := Host.Outcome.next.inj ht
    split
    · split
      · next hsend =>
        exact lawful_modLine s n _ h fun h =>
          lineLawful_of_nextPhase h (by simp [Transmitter.sending, hsend.1]) rfl rfl rfl rfl
      · exact h
    · exact h
  | holdEnd =>
    obtain rfl := Host.Outcome.next.inj ht; repeat' split
    exacts [lawful_holdEnded s _ _ h, h, h]
  | characterReceived =>
    obtain rfl := Host.Outcome.next.inj ht; repeat' split
    exacts [lawful_character s _ _ _ h, h, h]
  | noiseStart n samples =>
    have hnoise : (s.modLine n (·.noise samples)).deLawful :=
      lawful_modLine s n _ h fun h => lineLawful_of_sameTx h rfl rfl rfl
    obtain rfl := Host.Outcome.next.inj ht; dsimp only; repeat' split
    exacts [lawful_reportNoStart _ _ hnoise, hnoise, h, h]
  | echoMissing =>
    obtain rfl := Host.Outcome.next.inj ht; repeat' split
    exacts [lawful_judgeContention s _ _ h, h, h]
  | startSeen n =>
    obtain rfl := Host.Outcome.next.inj ht; repeat' split
    exacts [lawful_modLine s n _ h fun h => lineLawful_of_sameTx h rfl rfl rfl, h, h]
  | noStart => obtain rfl := Host.Outcome.next.inj ht; dsimp only; split; exacts [lawful_reportNoStart s _ h, h]
  | blockEnd =>
    obtain rfl := Host.Outcome.next.inj ht; repeat' split
    exacts [lawful_blockEnded s _ _ _ h, h, h]
  | settleEnd =>
    obtain rfl := Host.Outcome.next.inj ht; repeat' split
    exacts [lawful_settleOver s _ _ h, h, h]
  | holdOffExpiry n i =>
    obtain rfl := Host.Outcome.next.inj ht; repeat' split
    exacts [lawful_modLine s n _ h fun h => lineLawful_reorder _ (lineLawful_of_sameWire (sameWire_setCtx _ _ _) h),
      h, h, h]
  | pollDue n =>
    obtain rfl := Host.Outcome.next.inj ht; split
    exacts [lawful_modLine s n _ h (lineLawful_fallDue _ _ _ _ _ _), h]
  | carDeasserted n =>
    obtain rfl := Host.Outcome.next.inj ht; repeat' split
    exacts [h, lawful_modLine s n _ h fun h => lineLawful_of_sameTx h rfl rfl rfl, lawful_carrierLost s n h]
  | carReasserted n =>
    obtain rfl := Host.Outcome.next.inj ht; split
    exacts [h, lawful_modLine s n _ h (lineLawful_carrierBack _)]
  | quiet =>
    obtain rfl := Host.Outcome.next.inj ht; repeat' split
    exacts [lawful_quietTaken s _ h, h, h]
  | qualifiedStartBit =>
    obtain rfl := Host.Outcome.next.inj ht; repeat' split
    exacts [lawful_startBit s _ _ h, h, h]
  | rxdFallingEdge n =>
    obtain rfl := Host.Outcome.next.inj ht
    exact lawful_modLine s n _ h (lineLawful_fallingEdge _ _)
  | rxdReturnToMark n =>
    obtain rfl := Host.Outcome.next.inj ht
    exact lawful_modLine s n _ h fun h => lineLawful_of_sameTx h rfl rfl rfl
  | contentionStop =>
    obtain rfl := Host.Outcome.next.inj ht; repeat' split
    exacts [lawful_contention s _ h, h, h]
  | resetNRelease =>
    obtain rfl := Host.Outcome.next.inj ht; split
    exacts [lawful_of_sameLines (lawful_powerOn s) rfl, h]

/-- Settles O56: a step is a command, or one REFCLK period. -/
theorem everyStepKeepsDriverEnableLawful : Obligations.EveryStepKeepsDriverEnableLawful := by
  intro s t h ht
  unfold step at ht
  split at ht
  · next rest _ => exact lawful_exec _ (s := { s with pending := rest }) (lawful_of_sameLines h rfl) ht
  · obtain rfl := Host.Outcome.next.inj ht
    exact lawful_tick s h

end Sys2Proof.Machine
end

