-- ==== Sys2Proof/Proofs/MonitorSteps.lean ====
section
/-! What one move of monitor capture can be (R117, R118, R121, R122), and what each of its moves keeps. -/

namespace Sys2Proof.Machine

/-- The moves of monitor capture. -/
inductive State.MonitorStep (s : State) (n : LineId) : State → Prop
  | asksSlot :
    State.MonitorStep s n ((s.modLine n (·.setMon fun m => { m with slot := .requested })).requestStaged n)
  | takes (k : CqId) (head : MonBlock) (d : Descriptor) : State.MonitorStep s n (s.headTakes n k head d)
  | asksHead : State.MonitorStep s n (s.headAsks n)
  | waits : State.MonitorStep s n (s.modLine n (·.setMon fun m => { m with phase := .bufferWait }))
  | settles (k : CqId) : State.MonitorStep s n (s.settleSlot n k)

theorem State.monitorStep_of_move {s t : State} {n : LineId} (h : s.monitorMove n = some t) : s.MonitorStep n t := by
  unfold State.monitorMove at h
  dsimp only at h
  split at h
  · cases h
  split at h
  · cases h
  split at h
  · cases h
    exact .asksSlot
  split at h
  · split at h
    · split at h
      · cases h
        exact .takes _ _ _
      · split at h
        · cases h
          exact .asksHead
        · cases h
      · split at h
        · cases h
          exact .waits
        · cases h
    · cases h
  · split at h
    · cases h
      exact .settles _
    · cases h

/-- What each move keeps, monitor capture moving on keeps. -/
theorem State.runMonitor_induction {n : LineId} {P : State → Prop} {s : State}
    (hstep : ∀ s t, s.MonitorStep n t → P s → P t) (hs : P s) : P (s.runMonitor n) := by
  unfold State.runMonitor
  generalize 16 = k
  induction k generalizing s with
  | zero => exact hs
  | succ k ih =>
    unfold State.runMonitorFor
    split
    · next t h => exact ih (hstep s t (State.monitorStep_of_move h) hs)
    · exact hs

end Sys2Proof.Machine
end

