-- ==== Sys2Proof/Proofs/Keeping.lean ====
section
/-! What no operation breaks: the bounds of a line's lists and counts, its station entries' laws, the room of a CQ and
its discard count, the notice holding list and the form of host memory (R6, R74, R91, R111, R155, R156, R163, R191).
`Keeps s t` says that `t` has each of these laws where `s` has it; like `Posts` it is proved once for every operation and
chained by transitivity. -/

namespace Sys2Proof.Machine

/-- The law of the station entries of a table under a configuration (R74). -/
def TableLawful (config : Option LineConfig) (table : Vector (Option StationEntry) 64) : Prop :=
  ∀ cfg, config = some cfg → 1 ≤ cfg.silentThreshold ∧ ∀ i : StationIdx, stationLawful cfg.silentThreshold table[i]

theorem Line.stationsLawful_iff (l : Line) : l.stationsLawful ↔ TableLawful l.config l.stations := Iff.rfl

/-- `m` has the bounds and the station law where `l` has them. -/
def Line.Keeps (l m : Line) : Prop := (l.bounded → m.bounded) ∧ (l.stationsLawful → m.stationsLawful)

/-- The discard count of a CQ stops at the maximum of 32 bits (R156). -/
def cqDiscardsBounded (q : Option Cq) : Prop := ∀ x, q = some x → x.discards ≤ Config.counterMax

/-- The counters of a line stop at the maximum of 32 bits (R191). -/
def Counters.Bounded (k : Counters) : Prop := ∀ x ∈ k.list, x ≤ Config.counterMax

/-- `r` has the laws of a CQ where `q` has them. -/
def CqKeeps (q r : Option Cq) : Prop :=
  (cqWithinSize q → cqWithinSize r) ∧ (cqDiscardsBounded q → cqDiscardsBounded r)

structure Keeps (s t : State) : Prop where
  lines : ∀ n, (s.line n).Keeps (t.line n)
  cqs : ∀ i : CqId, CqKeeps s.cqs[i] t.cqs[i]
  notices : s.noticesBounded → t.noticesBounded
  memory : s.memCanonical → t.memCanonical

/-! ### Saturating counts -/

theorem bump_le (max n : Nat) : bump max n ≤ max := by
  rw [bump_eq_min]
  omega

theorem tally_le (n : Nat) : tally n ≤ Config.counterMax := bump_le _ _

theorem Counters.bounded_iff (k : Counters) : k.Bounded ↔
    k.attempts ≤ Config.counterMax ∧ k.noReply ≤ Config.counterMax ∧ k.badCheck ≤ Config.counterMax
      ∧ k.charError ≤ Config.counterMax ∧ k.badLength ≤ Config.counterMax ∧ k.wrongStation ≤ Config.counterMax
      ∧ k.badKind ≤ Config.counterMax ∧ k.stale ≤ Config.counterMax ∧ k.lineBreak ≤ Config.counterMax
      ∧ k.contentions ≤ Config.counterMax ∧ k.noiseStarts ≤ Config.counterMax ∧ k.strayBlocks ≤ Config.counterMax
      ∧ k.breaks ≤ Config.counterMax ∧ k.pollSkips ≤ Config.counterMax ∧ k.repliesSuppressed ≤ Config.counterMax
      ∧ k.monitorCaptured ≤ Config.counterMax ∧ k.monitorLost ≤ Config.counterMax
      ∧ k.discarded ≤ Config.counterMax := by
  simp only [Counters.Bounded, Counters.list, List.forall_mem_cons, List.not_mem_nil, false_imp_iff, implies_true, and_true]

/-! ### Lines -/

theorem Line.Keeps.refl (l : Line) : l.Keeps l := ⟨id, id⟩

theorem Line.Keeps.trans {a b c : Line} (h : a.Keeps b) (k : b.Keeps c) : a.Keeps c := ⟨k.1 ∘ h.1, k.2 ∘ h.2⟩

/-- A change of a line keeps the laws when each part it touches keeps its own; the parts not named are untouched. -/
theorem Line.keeps_of {l m : Line}
    (block : blockBounded l.rx.block → blockBounded m.rx.block)
    (list : l.mon.list.length ≤ 4 → m.mon.list.length ≤ 4)
    (lost : l.mon.lost ≤ 255 → m.mon.lost ≤ 255)
    (pollLost : l.pollLost ≤ 255 → m.pollLost ≤ 255)
    (stopEnded : l.stopEnded ≤ 65535 → m.stopEnded ≤ 65535)
    (early : blockBounded (l.rx.early.map Prod.fst) → blockBounded (m.rx.early.map Prod.fst))
    (stations : (∀ i : StationIdx, stationBounded l.stations[i]) → ∀ i : StationIdx, stationBounded m.stations[i])
    (polls : (∀ e : PollId, pollBounded l.polls[e]) → ∀ e : PollId, pollBounded m.polls[e])
    (counters : l.counters.Bounded → m.counters.Bounded)
    (lawful : TableLawful l.config l.stations → TableLawful m.config m.stations) : l.Keeps m := by
  refine ⟨fun h => ?_, lawful⟩
  obtain ⟨h1, h2, h3, h4, h5, h6, h7, h8, h9⟩ := h
  have hmax : Config.counterMax = 4294967295 := rfl
  rw [← hmax] at h9
  unfold Line.bounded
  rw [← hmax]
  exact ⟨block h1, list h2, lost h3, pollLost h4, stopEnded h5, early h6, stations h7, polls h8, counters h9⟩

theorem Line.keeps_setTx (l : Line) (tx : Transmitter) : l.Keeps { l with tx := tx } := by
  apply Line.keeps_of <;> exact id

theorem Line.keeps_setExch (l : Line) (x : ExchangeUnit) : l.Keeps { l with exch := x } := by
  apply Line.keeps_of <;> exact id

theorem Line.keeps_setRx (l : Line) (rx : Receiver) (block : blockBounded l.rx.block → blockBounded rx.block)
    (early : blockBounded (l.rx.early.map Prod.fst) → blockBounded (rx.early.map Prod.fst)) :
    l.Keeps { l with rx := rx } := by
  apply Line.keeps_of (block := block) (early := early) <;> exact id

theorem Line.keeps_setStopEnded (l : Line) (k : Nat) (hk : l.stopEnded ≤ 65535 → k ≤ 65535) :
    l.Keeps { l with stopEnded := k } := by
  apply Line.keeps_of (stopEnded := hk) <;> exact id

theorem Line.keeps_setCtx (l : Line) (i : CtxId) (c : Option Ctx) : l.Keeps (l.setCtx i c) := by
  apply Line.keeps_of <;> exact id

theorem Line.poll_setPoll (l : Line) (e f : PollId) (p : Option PollEntry) :
    (l.setPoll e p).poll f = if f = e then p else l.poll f := by
  by_cases h : f = e
  · subst h; simp [Line.poll]
  · have : (e : Nat) ≠ f := fun k => h (Fin.ext k.symm)
    simp [h, Line.poll, this]

@[simp] theorem Line.poll_setPoll_self (l : Line) (e : PollId) (p : Option PollEntry) : (l.setPoll e p).poll e = p := by
  simp [Line.poll_setPoll]

theorem Line.keeps_setPoll (l : Line) (e : PollId) (p : Option PollEntry)
    (hp : pollBounded (l.poll e) → pollBounded p) : l.Keeps (l.setPoll e p) := by
  have hpolls (h : ∀ f : PollId, pollBounded l.polls[f]) (f : PollId) : pollBounded (l.setPoll e p).polls[f] := by
    have hset := l.poll_setPoll e f p
    simp only [Line.poll] at hset hp
    rw [hset]
    split
    exacts [hp (h e), h f]
  apply Line.keeps_of (polls := hpolls) <;> exact id

/-- A count with one more stops at its maximum, and the others are as before. -/
theorem Line.keeps_count (l : Line) (f : Counters → Counters)
    (hf : ∀ k : Counters, k.Bounded → (f k).Bounded) : l.Keeps (l.count f) := by
  apply Line.keeps_of (counters := hf l.counters) <;> exact id

theorem Counters.failure_bounded (st : Status) (k : Counters) (h : k.Bounded) : (k.failure st).Bounded := by
  rw [Counters.bounded_iff] at h ⊢
  have ht := tally_le
  cases st <;> simp only [Counters.failure, ht, true_and] <;> simp only [h, and_true]

theorem Line.keeps_setMon (l : Line) (f : Monitor → Monitor) (hlist : l.mon.list.length ≤ 4 → (f l.mon).list.length ≤ 4)
    (hlost : l.mon.lost ≤ 255 → (f l.mon).lost ≤ 255) : l.Keeps (l.setMon f) := by
  apply Line.keeps_of (list := hlist) (lost := hlost) <;> exact id

/-! ### Station entries -/

/-- A change of an entry's fields that keeps the entry's laws under a threshold. -/
def EntryKeeps (threshold : Nat) (f : StationEntry → StationEntry) : Prop :=
  ∀ e, e.lawful threshold → (f e).lawful threshold

def EntryBounded (f : StationEntry → StationEntry) : Prop := ∀ e, stationBounded (some e) → stationBounded (some (f e))

theorem forall_set {α : Type} {k : Nat} (v : Vector α k) (i : Fin k) (x : α) (P : α → Prop) (h : ∀ j : Fin k, P v[j])
    (hx : P x) (j : Fin k) : P (v.set i x)[j] := by
  by_cases e : j = i
  · subst e; simpa using hx
  · have : (i : Nat) ≠ j := fun k => e (Fin.ext k.symm)
    simpa [this] using h j

theorem Line.keeps_setStation (l : Line) (i : StationIdx) (e : StationEntry)
    (hb : stationBounded l.stations[i] → stationBounded (some e))
    (hl : ∀ cfg, l.config = some cfg → 1 ≤ cfg.silentThreshold → stationLawful cfg.silentThreshold l.stations[i] →
      e.lawful cfg.silentThreshold) : l.Keeps (l.setStation i e) := by
  have hlawful (h : TableLawful l.config l.stations) : TableLawful l.config (l.setStation i e).stations := by
    intro cfg hcfg
    obtain ⟨hpos, hall⟩ := h cfg hcfg
    exact ⟨hpos, forall_set l.stations i _ (stationLawful _) hall (hl cfg hcfg hpos (hall i))⟩
  apply Line.keeps_of (lawful := hlawful)
    (stations := fun h => forall_set l.stations i _ stationBounded h (hb (h i))) <;> exact id

theorem Line.keeps_modEntry (l : Line) (a : Byte) (f : StationEntry → StationEntry) (hb : EntryBounded f)
    (hl : ∀ cfg, l.config = some cfg → 1 ≤ cfg.silentThreshold → EntryKeeps cfg.silentThreshold f) :
    l.Keeps (l.modEntry a f) := by
  unfold Line.modEntry
  split
  · split
    · next e he =>
      refine Line.keeps_setStation l _ _ (fun h => hb e (by rwa [he] at h)) fun cfg hcfg hpos h => ?_
      exact hl cfg hcfg hpos e (by rwa [he] at h)
    · exact Line.Keeps.refl l
  · exact Line.Keeps.refl l

theorem StationEntry.lawful_of_zero {e : StationEntry} {k : Nat} (hk : 1 ≤ k) (hf : e.failures = 0)
    (hh : e.health = .unknown ∨ e.health = .online) : e.lawful k := by
  rcases hh with hh | hh <;> simp [StationEntry.lawful, hf, hh] <;> omega

theorem lawful_newEntry (a : Byte) (now : Word) {k : Nat} (hk : 1 ≤ k) : (newEntry a now).lawful k :=
  StationEntry.lawful_of_zero hk rfl (.inl rfl)

theorem entryKeeps_good (t : Word) {k : Nat} (hk : 1 ≤ k) : EntryKeeps k (·.good t) := fun _ _ =>
  StationEntry.lawful_of_zero hk rfl (.inr rfl)

theorem entryKeeps_waited {k : Nat} (hk : 1 ≤ k) : EntryKeeps k StationEntry.waited := fun _ _ =>
  StationEntry.lawful_of_zero hk rfl (.inr rfl)

theorem entryKeeps_resetHealth {k : Nat} (hk : 1 ≤ k) : EntryKeeps k StationEntry.resetHealth := fun _ _ =>
  StationEntry.lawful_of_zero hk rfl (.inl rfl)

/-- R82: one more failure, up to the threshold, at which the health turns SILENT. -/
theorem entryKeeps_failed {k : Nat} (hk : 1 ≤ k) : EntryKeeps k (·.failed k) := by
  intro e _
  have hn : bump k e.failures = min k (e.failures + 1) := bump_eq_min _ _
  simp only [StationEntry.lawful, StationEntry.failed, hn]
  by_cases hlt : min k (e.failures + 1) < k
  · simp only [if_pos hlt]
    simp
    omega
  · simp only [if_neg hlt]
    simp
    omega

theorem entryKeeps_used (k : Nat) (now : Word) : EntryKeeps k fun e => { e with lastUsed := now } := fun _ h => h

theorem entryBounded_good (t : Word) : EntryBounded (·.good t) := fun _ ⟨_, h⟩ => ⟨bump_le _ _, h⟩

theorem entryBounded_waited : EntryBounded StationEntry.waited := fun _ h => h

theorem entryBounded_resetHealth : EntryBounded StationEntry.resetHealth := fun _ h => h

theorem entryBounded_failed (k : Nat) : EntryBounded (·.failed k) := fun _ ⟨h, _⟩ => ⟨h, bump_le _ _⟩

theorem entryBounded_used (now : Word) : EntryBounded fun e => { e with lastUsed := now } := fun _ h => h

theorem Line.keeps_used (l : Line) (a : Byte) (now : Word) : l.Keeps (l.modEntry a fun e => { e with lastUsed := now }) :=
  l.keeps_modEntry a _ (entryBounded_used now) fun _ _ _ => entryKeeps_used _ now

theorem Line.keeps_newStation (l : Line) (i : StationIdx) (a : Byte) (now : Word) :
    l.Keeps (l.setStation i (newEntry a now)) :=
  l.keeps_setStation i _ (fun _ => ⟨Nat.zero_le _, Nat.zero_le _⟩) fun _ _ hpos _ => lawful_newEntry a now hpos

theorem Line.keeps_obtain {l m : Line} {a : Byte} {now : Word} {touch : Bool} (h : l.obtain a now touch = some m) :
    l.Keeps m := by
  unfold Line.obtain at h
  split at h
  · cases h
    split
    · exact l.keeps_used a now
    · exact Line.Keeps.refl l
  · split at h
    · cases h; exact l.keeps_newStation _ a now
    · split at h
      · cases h; exact l.keeps_newStation _ a now
      · cases h

/-! ### Contexts, orders and monitor capture of a line -/

theorem Line.keeps_freeCtx (l : Line) (i : CtxId) : l.Keeps (l.freeCtx i) := by
  have hfree : l.Keeps { l with exch := { l.exch with
      contexts := l.exch.contexts.set i none, work := l.exch.work.filter (fun j => decide (j ≠ i)) } } :=
    l.keeps_setExch _
  unfold Line.freeCtx
  dsimp only
  split
  · split
    · split
      · next p hp =>
        split
        · exact hfree.trans (Line.keeps_setPoll _ _ _ fun h => by
            have h : pollBounded (l.poll _) := h
            rw [hp] at h
            exact h)
        · exact hfree
      · exact hfree
    · exact hfree
  · exact hfree

theorem Line.keeps_leaveHead (l : Line) : l.Keeps l.leaveHead := by
  have hlist (h : l.mon.list.length ≤ 4) : l.leaveHead.mon.list.length ≤ 4 := by
    have htail : l.leaveHead.mon.list.length = l.mon.list.length - 1 := List.length_tail
    omega
  apply Line.keeps_of (list := hlist) <;> exact id

theorem Line.keeps_bufferReturned (l : Line) : l.Keeps l.bufferReturned := by
  apply Line.keeps_of <;> exact id

theorem Line.keeps_dropHead (l : Line) : l.Keeps l.dropHead := by
  refine l.keeps_leaveHead.trans ((Line.keeps_setMon _ _ id fun _ => bump_le _ _).trans
    (Line.keeps_count _ _ fun k h => ?_))
  rw [Counters.bounded_iff] at h ⊢
  simp only [tally_le, h, and_self]

theorem Line.keeps_suppress (l : Line) (i : CtxId) (e : PollId) (p : PollEntry) (hp : l.poll e = some p) :
    l.Keeps (l.suppress i e p) := by
  refine ((l.keeps_setPoll e _ fun h => ?_).trans (Line.keeps_count _ _ fun k h => ?_)).trans (Line.keeps_freeCtx _ i)
  · rw [hp] at h
    exact ⟨bump_le _ _, h.2⟩
  · simp_all [Counters.Bounded, Counters.list, tally_le]

theorem Line.keeps_setPollLost (l : Line) (k : Nat) (hk : k ≤ 255) : l.Keeps { l with pollLost := k } := by
  apply Line.keeps_of (pollLost := fun _ => hk) <;> exact id

theorem Line.keeps_losePoll (l : Line) (i : CtxId) : l.Keeps (l.losePoll i) :=
  (l.keeps_setPollLost _ (bump_le _ _)).trans (Line.keeps_freeCtx _ i)

theorem PollEntry.delivered_bounded {p : PollEntry} (c : Ctx) (r : Result) (h : pollBounded (some p)) :
    pollBounded (some (p.delivered c r)) := by
  unfold PollEntry.delivered
  split <;> exact ⟨Nat.zero_le _, h.2⟩

theorem Line.keeps_delivered (l : Line) (e : PollId) (p : PollEntry) (c : Ctx) (r : Result) (hp : l.poll e = some p) :
    l.Keeps (l.setPoll e (some (p.delivered c r))) :=
  l.keeps_setPoll e _ fun h => PollEntry.delivered_bounded c r (by rwa [hp] at h)

theorem Line.keeps_payloadFaulted (l : Line) (c : Ctx) : l.Keeps (l.payloadFaulted c) := by
  unfold Line.payloadFaulted
  split
  · split
    · next p hp =>
      refine l.keeps_setPoll _ _ fun h => ?_
      rw [hp] at h
      unfold PollEntry.payloadFaulted
      split <;> exact h
    · exact Line.Keeps.refl l
  · exact Line.Keeps.refl l

theorem Line.keeps_withdraw (l : Line) (i : CtxId) : l.Keeps (l.withdraw i) := by
  unfold Line.withdraw
  split
  · exact l.keeps_setTx _
  · exact Line.Keeps.refl l

theorem Line.keeps_giveOrder (l : Line) (i : CtxId) (k : Nat) : l.Keeps (l.giveOrder i k) := by
  unfold Line.giveOrder
  split
  · exact l.keeps_setTx _
  · exact Line.Keeps.refl l

theorem Line.keeps_reorder (l : Line) : l.Keeps l.reorder := by
  unfold Line.reorder
  repeat' split
  all_goals first
    | exact l.keeps_withdraw _
    | exact Line.Keeps.refl l

theorem Line.keeps_stopReceiver (l : Line) : l.Keeps { l with rx := l.rx.stop } :=
  l.keeps_setRx _ (fun _ => trivial) fun _ => trivial

theorem Line.keeps_startReceiver (l : Line) : l.Keeps { l with rx := l.rx.start } :=
  l.keeps_setRx _ (fun _ => trivial) fun _ => trivial

theorem Line.keeps_beginLead (l : Line) (cfg : LineConfig) (now : Word) : l.Keeps (l.beginLead cfg now) := by
  unfold Line.beginLead
  split
  · split
    · next o _ c _ =>
      have hlead : ∀ tx, l.Keeps { l with tx := tx, rx := if cfg.echo then { l.rx with gap := 0 } else l.rx.stop } := by
        intro tx
        split
        · exact (l.keeps_setTx tx).trans (Line.keeps_setRx _ _ id id)
        · exact (l.keeps_setTx tx).trans (Line.keeps_stopReceiver _)
      dsimp only
      split
      · exact ((hlead _).trans (Line.keeps_setCtx _ _ _)).trans (Line.keeps_used _ _ now)
      · exact (hlead _).trans (Line.keeps_setCtx _ _ _)
    · exact Line.Keeps.refl l
  · exact Line.Keeps.refl l

theorem RxBlock.join_bounded (b : RxBlock) (c : CharSamples) (cfg : LineConfig) (h : blockBounded (some b)) :
    blockBounded (some (b.join c cfg)) := by
  obtain ⟨hchars, -⟩ := h
  refine ⟨?_, bump_le _ _⟩
  unfold RxBlock.join
  dsimp only
  split
  · next hroom =>
    have : Config.stagingChars = 205 := rfl
    simp
    omega
  · exact hchars

theorem Line.keeps_beginBlock (l : Line) (r : Bool) : l.Keeps (l.beginBlock r) := by
  have hmon : (l.beginBlock r).mon.list = l.mon.list ∧ (l.beginBlock r).mon.lost = l.mon.lost := by
    unfold Line.beginBlock
    dsimp only
    repeat' split
    all_goals exact ⟨rfl, rfl⟩
  have hblock : blockBounded (l.beginBlock r).rx.block := ⟨Nat.zero_le _, Nat.zero_le _⟩
  apply Line.keeps_of (block := fun _ => hblock) (list := fun h => hmon.1 ▸ h)
    (lost := fun h => hmon.2 ▸ h) <;> exact id

theorem Line.keeps_capture (l : Line) (b : RxBlock) : l.Keeps (l.capture b) := by
  unfold Line.capture
  split
  · next hroom =>
    refine Line.Keeps.trans (l.keeps_setMon _ (fun _ => ?_) fun _ => Nat.zero_le _) (Line.keeps_count _ _ fun k h => ?_)
    · simpa [Config.monitorPlaces] using hroom
    · simp_all [Counters.Bounded, Counters.list, tally_le]
  · refine (l.keeps_setMon _ id fun _ => bump_le _ _).trans (Line.keeps_count _ _ fun k h => ?_)
    rw [Counters.bounded_iff] at h ⊢
    simp only [tally_le, h, and_self]

theorem Line.keeps_monitorBlock (l : Line) (b : RxBlock) : l.Keeps (l.monitorBlock b) := by
  have hfilter : l.Keeps (l.setMon fun m => { m with blockFilter := none }) := l.keeps_setMon _ id id
  unfold Line.monitorBlock
  dsimp only
  repeat' split
  · exact hfilter.trans (Line.keeps_capture _ b)
  · exact hfilter
  · exact hfilter

theorem Line.bounded_reset (c r m : Bool) : (Line.reset c r m).bounded := by
  simp [Line.bounded, Line.reset, Receiver.reset, Monitor.reset, blockBounded, stationBounded, pollBounded, Line.poll,
    Counters.list]

theorem Line.keeps_reset (l : Line) (c r m : Bool) : l.Keeps (Line.reset c r m) := by
  refine ⟨fun _ => Line.bounded_reset c r m, fun _ cfg hcfg => ?_⟩
  cases hcfg

/-- R127: the tables of a line just configured are empty, its counts 0. -/
theorem Line.keeps_configured (l : Line) (cfg : LineConfig) (h : 1 ≤ cfg.silentThreshold) :
    l.Keeps (l.configured cfg) := by
  have hstations : ∀ i : StationIdx, stationBounded (l.configured cfg).stations[i] := by
    simp [Line.configured, stationBounded]
  have hpolls : ∀ e : PollId, pollBounded (l.configured cfg).polls[e] := by simp [Line.configured, pollBounded]
  have hcounters : (l.configured cfg).counters.Bounded := by simp [Line.configured, Counters.Bounded, Counters.list]
  have hlawful : TableLawful (l.configured cfg).config (l.configured cfg).stations := by
    intro c hc
    obtain rfl : cfg = c := Option.some.inj hc
    exact ⟨h, by simp [Line.configured, stationLawful]⟩
  apply Line.keeps_of (lost := fun _ => Nat.zero_le _) (pollLost := fun _ => Nat.zero_le _)
    (stations := fun _ => hstations) (polls := fun _ => hpolls) (counters := fun _ => hcounters)
    (lawful := fun _ => hlawful) <;> exact id

theorem Line.keeps_tick (l : Line) : l.Keeps l.tick := by
  unfold Line.tick
  split
  · exact Line.Keeps.refl l
  · exact (l.keeps_setTx _).trans (Line.keeps_setRx _ _ id id)

/-! ### The primitive changes of the part -/

theorem CqKeeps.refl (q : Option Cq) : CqKeeps q q := ⟨id, id⟩

theorem Keeps.refl (s : State) : Keeps s s := ⟨fun _ => Line.Keeps.refl _, fun _ => CqKeeps.refl _, id, id⟩

theorem Keeps.trans {s t u : State} (h : Keeps s t) (k : Keeps t u) : Keeps s u :=
  ⟨fun n => (h.lines n).trans (k.lines n), fun i => ⟨(k.cqs i).1 ∘ (h.cqs i).1, (k.cqs i).2 ∘ (h.cqs i).2⟩,
    k.notices ∘ h.notices, k.memory ∘ h.memory⟩

/-- Nothing the laws speak of has changed. -/
theorem keeps_of_same {s t : State} (hl : t.lines = s.lines) (hc : t.cqs = s.cqs)
    (hn : t.admin.notices = s.admin.notices) (hk : t.admin.noticeLost = s.admin.noticeLost) (hm : t.mem = s.mem) :
    Keeps s t :=
  ⟨fun n => by simp [State.line, hl, Line.Keeps.refl], fun i => by rw [hc]; exact CqKeeps.refl _,
    fun h => by unfold State.noticesBounded; rw [hn, hk]; exact h, fun h => by unfold State.memCanonical; rw [hm]; exact h⟩

theorem keeps_setLine (s : State) (n : LineId) (l : Line) (h : (s.line n).Keeps l) : Keeps s (s.setLine n l) :=
  ⟨fun m => by
    rw [State.line_setLine]
    split
    · next e => subst e; exact h
    · exact Line.Keeps.refl _,
    fun _ => CqKeeps.refl _, id, id⟩

theorem keeps_modLine (s : State) (n : LineId) (f : Line → Line) (h : (s.line n).Keeps (f (s.line n))) :
    Keeps s (s.modLine n f) := keeps_setLine s n _ h

theorem keeps_setCq (s : State) (i : CqId) (q : Option Cq) (h : CqKeeps s.cqs[i] q) : Keeps s (s.setCq i q) :=
  ⟨fun _ => Line.Keeps.refl _, fun j => by
    rw [State.cq_setCq]
    split
    · next e => subst e; exact h
    · exact CqKeeps.refl _,
    id, id⟩

theorem keeps_setSq (s : State) (i : SqId) (q : Option Sq) : Keeps s (s.setSq i q) := keeps_of_same rfl rfl rfl rfl rfl

theorem keeps_setBq (s : State) (n : LineId) (q : Option Bq) : Keeps s (s.setBq n q) :=
  keeps_of_same rfl rfl rfl rfl rfl

theorem keeps_modPort (s : State) (f : Port → Port) : Keeps s (s.modPort f) := keeps_of_same rfl rfl rfl rfl rfl

theorem keeps_issue (s : State) (r : ReqId) (t : Transfer) : Keeps s (s.issue r t) := keeps_modPort s _

theorem keeps_portFree (s : State) : Keeps s s.portFree := keeps_modPort s _

theorem keeps_recordError (s : State) (e : HostError) : Keeps s (s.recordError e) := keeps_of_same rfl rfl rfl rfl rfl

theorem keeps_modAdmin (s : State) (f : Admin → Admin)
    (h : s.noticesBounded → (f s.admin).notices.length ≤ 8 ∧ (f s.admin).noticeLost ≤ 255) : Keeps s (s.modAdmin f) :=
  ⟨fun _ => Line.Keeps.refl _, fun _ => CqKeeps.refl _, h, id⟩

theorem keeps_foldl {α : Type} (f : State → α → State) (h : ∀ s a, Keeps s (f s a)) (l : List α) (s : State) :
    Keeps s (l.foldl f s) := by
  induction l generalizing s with
  | nil => exact Keeps.refl s
  | cons a rest ih => exact (h s a).trans (ih _)

theorem keeps_setCtx (s : State) (n : LineId) (i : CtxId) (c : Ctx) : Keeps s (s.setCtx n i c) :=
  keeps_modLine s n _ (Line.keeps_setCtx _ _ _)

/-! ### Completion queues -/

theorem cqKeeps_of_same {q r : Cq} (hu : r.unacked = q.unacked) (hs : r.size = q.size) (hd : r.discards = q.discards) :
    CqKeeps (some q) (some r) := by
  refine ⟨fun h => ?_, fun h x hx => ?_⟩
  · simpa [cqWithinSize, hu, hs] using h
  · obtain rfl := Option.some.inj hx
    rw [hd]
    exact h q rfl

theorem cqKeeps_new (q : Option Cq) (base : Word) (size n d : Nat) (b : Bool) : CqKeeps q (some (newCq base size n d b)) :=
  ⟨fun _ => Nat.zero_le _, fun _ x hx => by obtain rfl := Option.some.inj hx; exact Nat.zero_le _⟩

theorem cqKeeps_none (q : Option Cq) : CqKeeps q none := ⟨fun _ => trivial, fun _ x hx => by cases hx⟩

theorem cqKeeps_posted (q : Cq) (now : Word) : CqKeeps (some q) (some (q.posted now)) := by
  unfold Cq.posted
  repeat' split
  all_goals exact cqKeeps_of_same rfl rfl rfl

theorem cqKeeps_acknowledge (q : Cq) (new : Nat) (now : Word) : CqKeeps (some q) (some (q.acknowledge new now)) := by
  have hle : CqKeeps (some q) (some { q with head := new, unacked := q.unacked - ringDist q.size new q.head }) :=
    ⟨fun h => (Nat.sub_le _ _).trans h, fun h x hx => by obtain rfl := Option.some.inj hx; exact h q rfl⟩
  have hacked : ∀ r : Cq, CqKeeps (some r) (some (r.acked now)) := fun r => by
    unfold Cq.acked
    repeat' split
    all_goals exact cqKeeps_of_same rfl rfl rfl
  exact ⟨(hacked _).1 ∘ hle.1, (hacked _).2 ∘ hle.2⟩

/-- R155: a slot is granted only where there is room. -/
theorem cqKeeps_granted (q : Cq) (h : q.grantable = true) : CqKeeps (some q) (some q.granted) := by
  have hroom : q.unacked < q.size := by
    simp only [Cq.grantable, Bool.and_eq_true, decide_eq_true_eq] at h
    exact h.1.2
  exact ⟨fun _ => hroom, fun h x hx => by obtain rfl := Option.some.inj hx; exact h q rfl⟩

/-! ### Waiter lists, posters and notices -/

theorem keeps_join (s : State) (i : CqId) (q : Cq) (w : Waiter) (h : s.cqs[i] = some q) :
    Keeps s (s.setCq i (some (q.join w))) := keeps_setCq s i _ (by rw [h]; exact cqKeeps_of_same rfl rfl rfl)

/-- R163: a notice finds a place, or is dropped and counted. -/
theorem keeps_handNotice (s : State) (e : NoticeEvent) : Keeps s (s.handNotice e) := by
  unfold State.handNotice
  split
  · next hroom =>
    have hplace : Keeps s (s.modAdmin fun a => { a with notices := a.notices ++ [⟨e, s.timebase⟩] }) := by
      refine keeps_modAdmin s _ fun h => ⟨?_, h.2⟩
      have : Config.noticePlaces = 8 := rfl
      simp only [List.length_append, List.length_singleton]
      omega
    dsimp only
    split
    · next q hq => exact hplace.trans (keeps_join _ _ q _ hq)
    · exact hplace
  · exact keeps_modAdmin s _ fun h => ⟨h.1, bump_le _ _⟩

theorem keeps_posterDone (s : State) (p : Poster) : Keeps s (s.posterDone p) := by
  unfold State.posterDone
  split
  · exact keeps_modLine s _ _ (Line.keeps_freeCtx _ _)
  · exact keeps_modLine s _ _ (Line.keeps_leaveHead _)
  · exact keeps_modLine s _ _ (Line.keeps_bufferReturned _)
  · exact keeps_modAdmin s _ id
  · exact keeps_modAdmin s _ id
  · refine keeps_modAdmin s _ fun h => ⟨?_, h.2⟩
    rw [List.length_tail]
    exact (Nat.sub_le _ _).trans h.1

theorem keeps_discard (s : State) (i : CqId) (p : Poster) : Keeps s (s.discard i p) := by
  unfold State.discard
  dsimp only
  refine Keeps.trans ?_ (keeps_posterDone _ p)
  have hcount : Keeps s (match s.cqs[i] with
      | some q => s.setCq i (some { q with discards := bump Config.counterMax q.discards })
      | none => s) := by
    split
    · next q hq =>
      refine keeps_setCq s i _ ?_
      rw [hq]
      exact ⟨id, fun _ x hx => by obtain rfl := Option.some.inj hx; exact bump_le _ _⟩
    · exact Keeps.refl s
  split
  · refine hcount.trans (keeps_modLine _ _ _ (Line.keeps_count _ _ fun k h => ?_))
    rw [Counters.bounded_iff] at h ⊢
    simp only [tally_le, h, and_self]
  · exact hcount

theorem keeps_joinCq (s : State) (i : CqId) (w : Waiter) : Keeps s (s.joinCq i w) := by
  unfold State.joinCq
  split
  · next q hq =>
    split
    · exact keeps_join s i q w hq
    · exact keeps_discard s i _
  · exact keeps_posterDone s _

theorem keeps_completeCommand (s : State) (st : Status) (a b c : Nat) : Keeps s (s.completeCommand st a b c) := by
  unfold State.completeCommand
  split
  · exact (keeps_modAdmin s _ id).trans (keeps_joinCq _ _ _)
  · exact Keeps.refl s

theorem keeps_answerCommand (s : State) (st : Status) : Keeps s (s.answerCommand st) := keeps_completeCommand s st 0 0 0

theorem keeps_answerPoll (s : State) (st : Status) (p : Option PollEntry) : Keeps s (s.answerPoll st p) := by
  unfold State.answerPoll
  split <;> exact keeps_completeCommand s st _ _ _

theorem keeps_pendCommand (s : State) (w : PendingWork) : Keeps s (s.pendCommand w) := by
  unfold State.pendCommand
  split
  · exact keeps_modAdmin s _ id
  · exact Keeps.refl s

theorem keeps_finishPending (s : State) (w : PendingWork) (k : Nat) : Keeps s (s.finishPending w k) := by
  unfold State.finishPending
  split
  · exact (keeps_modAdmin s _ id).trans (keeps_joinCq _ _ _)
  · exact Keeps.refl s

/-! ### Buffers and POSTING -/

theorem keeps_promise (s : State) (n : LineId) (q : Bq) (t : Taker) : Keeps s (s.promise n q t) :=
  (keeps_setBq s n _).trans (keeps_issue _ _ _)

theorem keeps_requestBuffer {s t : State} {n : LineId} {k : Taker} (h : s.requestBuffer n k = some t) : Keeps s t := by
  unfold State.requestBuffer at h
  split at h
  · split at h
    · cases h; exact keeps_promise s n _ k
    · cases h
  · cases h

theorem keeps_requestStaged (s : State) (n : LineId) : Keeps s (s.requestStaged n) := by
  unfold State.requestStaged
  split
  · split
    · exact keeps_promise s n _ _
    · exact keeps_setBq s n _
  · exact Keeps.refl s

theorem keeps_readyToComplete (s : State) (n : LineId) (i : CtxId) : Keeps s (s.readyToComplete n i) := by
  unfold State.readyToComplete
  split
  · split
    · exact keeps_joinCq s _ _
    · exact keeps_modLine s n _ (Line.keeps_freeCtx _ i)
  · exact Keeps.refl s

theorem keeps_writeReply (s : State) (n : LineId) (i : CtxId) : Keeps s (s.writeReply n i) := by
  unfold State.writeReply
  split
  · split
    · split
      · dsimp only
        split
        · exact (keeps_setCtx s n i _).trans (keeps_readyToComplete _ n i)
        · exact (keeps_setCtx s n i _).trans (keeps_issue _ _ _)
      · exact keeps_readyToComplete s n i
    · exact keeps_readyToComplete s n i
  · exact Keeps.refl s

theorem keeps_noBuffer (s : State) (n : LineId) (i : CtxId) : Keeps s (s.noBuffer n i) := by
  unfold State.noBuffer
  split
  · split
    · exact (keeps_setCtx s n i _).trans (keeps_readyToComplete _ n i)
    · exact Keeps.refl s
  · exact Keeps.refl s

theorem keeps_settlePoll (s : State) (n : LineId) (i : CtxId) (e : PollId) (c : Ctx) (r : Result) :
    Keeps s (s.settlePoll n i e c r) := by
  unfold State.settlePoll
  split
  · next p hp =>
    split
    · exact keeps_modLine s n _ (Line.keeps_suppress _ i e p hp)
    · split
      · split
        · next h => exact keeps_requestBuffer h
        · exact keeps_modLine s n _ (Line.keeps_losePoll _ i)
      · exact (keeps_modLine s n _ (Line.keeps_delivered _ e p c r hp)).trans (keeps_readyToComplete _ n i)
  · exact keeps_modLine s n _ (Line.keeps_freeCtx _ i)

theorem keeps_enterPosting (s : State) (n : LineId) (i : CtxId) : Keeps s (s.enterPosting n i) := by
  unfold State.enterPosting
  split
  · split
    · split
      · split
        · split
          · next h => exact keeps_requestBuffer h
          · exact keeps_noBuffer s n i
        · exact keeps_writeReply s n i
      · exact keeps_settlePoll s n i _ _ _
    · exact Keeps.refl s
  · exact Keeps.refl s

theorem keeps_bufferArrives (s : State) (n : LineId) (i : CtxId) (d : Descriptor) : Keeps s (s.bufferArrives n i d) := by
  unfold State.bufferArrives
  split
  · dsimp only
    split
    · split
      · next p hp =>
        refine Keeps.trans ((keeps_setCtx s n i _).trans (keeps_modLine _ n _ (Line.keeps_delivered _ _ p _ _ ?_)))
          (keeps_writeReply _ n i)
        simpa [State.setCtx, Line.poll, Line.setCtx] using hp
      · exact (keeps_setCtx s n i _).trans (keeps_writeReply _ n i)
    · exact (keeps_setCtx s n i _).trans (keeps_writeReply _ n i)
  · exact Keeps.refl s

theorem keeps_bufferNone (s : State) (n : LineId) (i : CtxId) : Keeps s (s.bufferNone n i) := by
  unfold State.bufferNone
  split
  · split
    · exact keeps_noBuffer s n i
    · exact keeps_modLine s n _ (Line.keeps_losePoll _ i)
  · exact Keeps.refl s

theorem Line.keeps_resulted (l : Line) (i : CtxId) (c : Ctx) (e : Ending) : l.Keeps (l.resulted i c e) := by
  refine (l.keeps_setCtx i _).trans (Line.keeps_setStopEnded _ _ fun h => ?_)
  split
  · exact bump_le _ _
  · exact h

theorem keeps_endExchange (s : State) (n : LineId) (i : CtxId) (e : Ending) : Keeps s (s.endExchange n i e) := by
  cases hc : (s.line n).ctx i with
  | none => simp only [State.endExchange, hc]; exact Keeps.refl s
  | some c =>
    rw [endExchange_eq hc]
    exact (keeps_setLine s n _ (Line.keeps_resulted _ i c e)).trans (keeps_enterPosting _ n i)

theorem keeps_endByCarrier (s : State) (n : LineId) (i : CtxId) : Keeps s (s.endByCarrier n i) := by
  unfold State.endByCarrier
  split
  · exact keeps_endExchange s n i _
  · exact Keeps.refl s

theorem keeps_tellStation (s : State) (n : LineId) (a : Byte) (f : StationEntry → StationEntry) (hb : EntryBounded f)
    (hl : ∀ cfg, (s.line n).config = some cfg → 1 ≤ cfg.silentThreshold → EntryKeeps cfg.silentThreshold f) :
    Keeps s (s.tellStation n a f) := by
  have hmod : Keeps s (s.modLine n (·.modEntry a f)) := keeps_modLine s n _ (Line.keeps_modEntry _ a f hb hl)
  unfold State.tellStation
  split
  · dsimp only
    split
    · exact hmod.trans (keeps_handNotice _ _)
    · exact hmod
  · exact Keeps.refl s

/-! ### Monitor capture -/

theorem keeps_setMon (s : State) (n : LineId) (f : Monitor → Monitor)
    (hlist : (s.line n).mon.list.length ≤ 4 → (f (s.line n).mon).list.length ≤ 4)
    (hlost : (s.line n).mon.lost ≤ 255 → (f (s.line n).mon).lost ≤ 255) : Keeps s (s.modLine n (·.setMon f)) :=
  keeps_modLine s n _ (Line.keeps_setMon _ f hlist hlost)

theorem keeps_headTakes (s : State) (n : LineId) (i : CqId) (m : MonBlock) (d : Descriptor) :
    Keeps s (s.headTakes n i m d) := by
  unfold State.headTakes
  split
  · exact keeps_discard s i _
  · refine (keeps_setMon s n _ (fun h => ?_) id).trans (keeps_issue _ _ _)
    simp only [List.length_cons, List.length_tail]
    omega

theorem keeps_headAsks (s : State) (n : LineId) : Keeps s (s.headAsks n) := by
  unfold State.headAsks
  split
  · next h => exact (keeps_requestBuffer h).trans (keeps_setMon _ n _ id id)
  · exact keeps_modLine s n _ (Line.keeps_dropHead _)

theorem keeps_settleSlot (s : State) (n : LineId) (i : CqId) : Keeps s (s.settleSlot n i) := by
  unfold State.settleSlot
  split
  · exact (keeps_setMon s n _ id id).trans (keeps_joinCq _ _ _)
  · exact keeps_setMon s n _ id id

theorem keeps_monitorStep {s t : State} {n : LineId} (h : s.MonitorStep n t) : Keeps s t := by
  cases h with
  | asksSlot => exact (keeps_setMon s n _ id id).trans (keeps_requestStaged _ n)
  | takes k head d => exact keeps_headTakes s n k head d
  | asksHead => exact keeps_headAsks s n
  | waits => exact keeps_setMon s n _ id id
  | settles k => exact keeps_settleSlot s n k

theorem keeps_runMonitor (s : State) (n : LineId) : Keeps s (s.runMonitor n) :=
  State.runMonitor_induction (P := Keeps s) (fun _ _ h hs => hs.trans (keeps_monitorStep h)) (Keeps.refl s)

theorem keeps_runMonitors (s : State) : Keeps s s.runMonitors := keeps_foldl State.runMonitor keeps_runMonitor _ s

theorem keeps_runPosterMonitor (s : State) (p : Poster) : Keeps s (s.runPosterMonitor p) := by
  unfold State.runPosterMonitor
  split
  · exact keeps_runMonitor s _
  · exact keeps_runMonitor s _
  · exact Keeps.refl s

theorem keeps_beginSettlement (s : State) (n : LineId) (cfg : LineConfig) : Keeps s (s.beginSettlement n cfg) := by
  unfold State.beginSettlement
  split
  · refine Keeps.trans ?_ ((keeps_setMon _ n _ id id).trans (keeps_runMonitor _ n))
    split
    · split
      · exact (keeps_setBq s n _).trans (keeps_setMon _ n _ id id)
      · exact Keeps.refl s
    · exact Keeps.refl s
  · exact keeps_setMon s n _ id id

end Sys2Proof.Machine
end

