-- ==== Sys2Proof/Proofs/StepsKeep.lean ====
section
/-! Every command keeps the laws of `Keeps` (O57 to O59), by the operations of the administration commands, the exchange
unit, the signalling unit and the memory port. -/

namespace Sys2Proof.Machine

/-! ### Resets and registers -/

theorem keeps_resetBlocks (s : State) : Keeps s s.resetBlocks := by
  refine ⟨fun n => ?_, fun i => ?_, fun _ => ⟨Nat.zero_le _, Nat.zero_le _⟩, id⟩
  · simp [State.resetBlocks, State.line, Line.keeps_reset]
  · simp [State.resetBlocks, cqKeeps_none]

theorem keeps_halt (s : State) (c : HaltCause) : Keeps s (s.halt c) :=
  (keeps_resetBlocks s).trans (keeps_of_same rfl rfl rfl rfl rfl)

theorem keeps_softReset (s : State) : Keeps s s.softReset :=
  (keeps_resetBlocks s).trans (keeps_of_same rfl rfl rfl rfl rfl)

theorem keeps_powerOn (s : State) : Keeps s s.powerOn :=
  (keeps_softReset s).trans (keeps_of_same rfl rfl rfl rfl rfl)

theorem keeps_startRunning (s : State) : Keeps s s.startRunning :=
  ((keeps_setSq s 0 _).trans (keeps_setCq _ 0 _ (cqKeeps_new _ _ _ _ _ _))).trans (keeps_of_same rfl rfl rfl rfl rfl)

theorem keeps_controlWrite (s : State) (r i : Bool) : Keeps s (s.controlWrite r i) := by
  refine Keeps.trans (t := { s with intEnable := i, answer := .written }) (keeps_of_same rfl rfl rfl rfl rfl) ?_
  unfold State.controlWrite State.runWritten
  split
  · split
    · exact keeps_startRunning _
    · exact keeps_recordError _ _
  · exact keeps_recordError _ _
  all_goals exact Keeps.refl _

theorem keeps_setupWrite (s : State) (r : SetupReg) (v : Word) : Keeps s (s.setupWrite r v) := by
  unfold State.setupWrite
  repeat' split
  all_goals exact keeps_of_same rfl rfl rfl rfl rfl

theorem keeps_postSq (s : State) (k m : Nat) : Keeps s (s.postSq k m) := by
  unfold State.postSq
  repeat' split
  all_goals exact keeps_of_same rfl rfl rfl rfl rfl

theorem keeps_postBq (s : State) (k m : Nat) : Keeps s (s.postBq k m) := by
  unfold State.postBq
  repeat' split
  all_goals exact keeps_of_same rfl rfl rfl rfl rfl

theorem State.cqNumbered_eq_some {s : State} {k : Nat} {i : CqId} {q : Cq} (h : s.cqNumbered k = some (i, q)) :
    i.val = k ∧ s.cqs[i] = some q := by
  unfold State.cqNumbered at h
  split at h
  · next hk =>
    split at h
    · next x hx => cases h; exact ⟨rfl, hx⟩
    · cases h
  · cases h

theorem keeps_ackWrite (s : State) (k m : Nat) : Keeps s (s.ackWrite k m) := by
  unfold State.ackWrite
  split
  · next i q _ hq =>
    obtain ⟨-, hq⟩ := State.cqNumbered_eq_some hq
    split
    · exact keeps_setCq s i _ (by rw [hq]; exact cqKeeps_acknowledge q _ _)
    · exact keeps_recordError s _
  · exact keeps_recordError s _

theorem keeps_written (s : State) : Keeps s { s with answer := .written } := keeps_of_same rfl rfl rfl rfl rfl

theorem keeps_writeRegister (s : State) (o : Nat) (d : Word) : Keeps s (s.writeRegister o d) := by
  unfold State.writeRegister
  repeat' split
  exacts [keeps_softReset s, keeps_controlWrite s _ _, keeps_setupWrite s _ _, keeps_setupWrite s _ _,
    keeps_setupWrite s _ _, keeps_postSq s _ _, keeps_postBq s _ _, keeps_recordError s _, keeps_ackWrite s _ _,
    Keeps.refl s]

theorem keeps_access (s : State) (a : RegAccess) : Keeps s (s.access a) := by
  unfold State.access
  repeat' split
  · exact Keeps.refl s
  · exact keeps_of_same rfl rfl rfl rfl rfl
  · exact (keeps_written s).trans (keeps_writeRegister _ _ _)
  · unfold State.readAccess
    split <;> exact keeps_of_same rfl rfl rfl rfl rfl

/-! ### Administration commands -/

theorem keeps_createCq (s : State) (r : List Byte) : Keeps s (s.createCq r) := by
  unfold State.createCq
  repeat' split
  all_goals first
    | exact keeps_answerCommand s _
    | exact (keeps_setCq s _ _ (cqKeeps_new _ _ _ _ _ _)).trans (keeps_answerCommand _ _)

theorem keeps_deleteCq (s : State) (r : List Byte) : Keeps s (s.deleteCq r) := by
  unfold State.deleteCq
  repeat' split
  all_goals first
    | exact keeps_answerCommand s _
    | exact (keeps_setCq s _ _ (cqKeeps_none _)).trans (keeps_completeCommand _ _ _ _ _)

theorem keeps_createSq (s : State) (r : List Byte) : Keeps s (s.createSq r) := by
  unfold State.createSq
  repeat' split
  all_goals first
    | exact keeps_answerCommand s _
    | exact (keeps_setSq s _ _).trans (keeps_answerCommand _ _)

theorem keeps_deleteSq (s : State) (r : List Byte) : Keeps s (s.deleteSq r) := by
  unfold State.deleteSq
  repeat' split
  · exact keeps_answerCommand s _
  · exact (keeps_setSq s _ _).trans (keeps_completeCommand _ _ _ _ _)
  · exact (keeps_setSq s _ _).trans (keeps_pendCommand _ _)
  · exact keeps_answerCommand s _

/-- R172: a block in range has a silent threshold of at least 1. -/
theorem lpbConfig_threshold_pos {b : List Byte} (h : lpbInRange b = true) : 1 ≤ (lpbConfig b).silentThreshold := by
  simp only [lpbInRange, Bool.and_eq_true, decide_eq_true_eq] at h
  change 1 ≤ (byteAt b 24).toNat
  omega

theorem keeps_configureLine (s : State) (n : LineId) (b : List Byte) : Keeps s (s.configureLine n b) := by
  unfold State.configureLine
  split
  · exact keeps_answerCommand s _
  · split
    · exact keeps_answerCommand s _
    · next hrange =>
      split
      · have hpos := lpbConfig_threshold_pos (b := b) (by simpa using hrange)
        exact ((keeps_modLine s n _ (Line.keeps_configured _ _ hpos)).trans (keeps_setBq _ n _)).trans
          (keeps_answerCommand _ _)
      · exact keeps_answerCommand s _

/-- R128: the counts of the poll entries stand. -/
theorem Line.keeps_started (l : Line) (now : Word) : l.Keeps (l.started now) := by
  have hpolls (h : ∀ e : PollId, pollBounded l.polls[e]) (e : PollId) : pollBounded (l.started now).polls[e] := by
    have he : pollBounded l.polls[e] := h e
    simp only [Line.started, Fin.getElem_fin, Vector.getElem_map]
    cases hp : l.polls[e] with
    | none =>
      simp [pollBounded]
    | some p =>
      rw [hp] at he
      cases hrun : p.run <;> simp only [hrun] <;> exact he
  have hrx : blockBounded (l.started now).rx.block ∧ blockBounded ((l.started now).rx.early.map Prod.fst) := by
    simp only [Line.started]
    split <;> exact ⟨trivial, trivial⟩
  apply Line.keeps_of (block := fun _ => hrx.1) (early := fun _ => hrx.2) (polls := hpolls) <;> exact id

theorem keeps_startLine (s : State) (n : LineId) : Keeps s (s.startLine n) := by
  unfold State.startLine
  repeat' split
  · exact keeps_answerCommand s _
  · exact keeps_answerCommand s _
  · exact ((keeps_modLine s n _ (Line.keeps_started _ _)).trans (keeps_runMonitor _ n)).trans (keeps_answerCommand _ _)

theorem keeps_endAborted (s : State) (n : LineId) (i : CtxId) : Keeps s (s.endAborted n i) :=
  (keeps_modLine s n _ (Line.keeps_withdraw _ i)).trans (keeps_endExchange _ n i _)

theorem keeps_abortOne (n : LineId) (s : State) (i : CtxId) : Keeps s (State.abortOne n s i) := by
  unfold State.abortOne
  split
  · split
    · exact keeps_endAborted s n i
    · exact keeps_endAborted s n i
    · exact keeps_endAborted s n i
    · exact keeps_setCtx s n i _
    · exact keeps_setCtx s n i _
    · exact keeps_setCtx s n i _
    · exact keeps_setCtx s n i _
    · exact Keeps.refl s
  · exact Keeps.refl s

theorem keeps_forContexts (s : State) (n : LineId) (sel : Ctx → Bool) (f : State → CtxId → State)
    (h : ∀ s i, Keeps s (f s i)) : Keeps s (s.forContexts n sel f) := keeps_foldl f h _ s

theorem keeps_stopOne (n : LineId) (s : State) (i : CtxId) : Keeps s (State.stopOne n s i) := by
  unfold State.stopOne
  split
  · split
    · exact keeps_setCtx s n i _
    · exact keeps_abortOne n s i
  · exact Keeps.refl s

theorem keeps_endWaiting (s : State) (n : LineId) (sel : CtxState → Bool) : Keeps s (s.endWaiting n sel) :=
  keeps_forContexts s n _ _ fun s i => (keeps_modLine s n _ (Line.keeps_withdraw _ i)).trans (keeps_endByCarrier _ n i)

theorem keeps_acceptStop (s : State) (n : LineId) (cfg : LineConfig) (k : StopKind) : Keeps s (s.acceptStop n cfg k) := by
  have hstop : Keeps s (s.modLine n fun l => { l with state := .draining, stop := some k, stopEnded := 0 }) :=
    keeps_modLine s n _ (Line.keeps_setStopEnded _ 0 fun _ => Nat.zero_le _)
  unfold State.acceptStop
  dsimp only
  refine Keeps.trans ?_ (keeps_beginSettlement _ n cfg)
  split
  · split
    · exact hstop
    · exact hstop.trans (keeps_endWaiting _ n _)
  · exact hstop.trans (keeps_forContexts _ n _ _ (keeps_stopOne n))

theorem keeps_stopLine (s : State) (n : LineId) (k : StopKind) : Keeps s (s.stopLine n k) := by
  unfold State.stopLine
  split
  · exact keeps_answerCommand s _
  · exact keeps_answerCommand s _
  · exact (keeps_acceptStop s n _ k).trans (keeps_pendCommand _ _)
  · exact keeps_answerCommand s _

theorem keeps_modPoll (s : State) (n : LineId) (e : PollId) (p : Option PollEntry)
    (hp : pollBounded ((s.line n).poll e) → pollBounded p) : Keeps s (s.modLine n (·.setPoll e p)) :=
  keeps_modLine s n _ (Line.keeps_setPoll _ e p hp)

theorem pollBounded_pebEntry (b : List Byte) : pollBounded (some (pebEntry b)) := ⟨Nat.zero_le _, Nat.zero_le _⟩

theorem pollBounded_enable (p : PollEntry) (now : Word) : pollBounded (some (p.enable now)) :=
  ⟨Nat.zero_le _, Nat.zero_le _⟩

theorem keeps_setPoll (s : State) (n : LineId) (r b : List Byte) : Keeps s (s.setPoll n r b) := by
  unfold State.setPoll
  split
  · exact keeps_answerCommand s _
  · split
    · split
      · exact keeps_answerCommand s _
      · split
        · exact keeps_answerCommand s _
        · exact (keeps_modPoll s n _ _ fun _ => pollBounded_pebEntry b).trans (keeps_answerCommand _ _)
    · exact keeps_answerCommand s _

theorem keeps_pollEnable (s : State) (n : LineId) (r : List Byte) : Keeps s (s.pollEnable n r) := by
  unfold State.pollEnable
  split
  · exact keeps_answerCommand s _
  · split
    · exact keeps_answerPoll s _ _
    · split
      · exact keeps_answerPoll s _ _
      · next hl =>
        exact (keeps_setLine s n _ ((Line.keeps_obtain hl).trans
          (Line.keeps_setPoll _ _ _ fun _ => pollBounded_enable _ _))).trans (keeps_answerPoll _ _ _)

theorem keeps_pollDisable (s : State) (n : LineId) (r : List Byte) : Keeps s (s.pollDisable n r) := by
  unfold State.pollDisable
  split
  · exact keeps_answerCommand s _
  · split
    · exact keeps_answerPoll s _ _
    · next p hp =>
      exact (keeps_modPoll s n _ _ fun h => by rw [hp] at h; exact h).trans (keeps_answerPoll _ _ _)

theorem keeps_pollClear (s : State) (n : LineId) (r : List Byte) : Keeps s (s.pollClear n r) := by
  unfold State.pollClear
  split
  · exact keeps_answerCommand s _
  · split
    · exact keeps_answerPoll s _ _
    · split
      · exact keeps_answerPoll s _ _
      · exact (keeps_modPoll s n _ none fun _ => trivial).trans (keeps_answerPoll _ _ _)

theorem Line.keeps_reorderAfresh (l : Line) (cfg : LineConfig) (a : Byte) : l.Keeps (l.reorderAfresh cfg a) := by
  unfold Line.reorderAfresh
  split
  · split
    · split
      · exact (l.keeps_withdraw _).trans (Line.keeps_giveOrder _ _ _)
      · exact Line.Keeps.refl l
    · exact Line.Keeps.refl l
  · exact Line.Keeps.refl l

theorem Line.keeps_resetStation (l : Line) (a : Byte) : l.Keeps (l.resetStation a) := by
  have hreset : l.Keeps (l.modEntry a StationEntry.resetHealth) :=
    l.keeps_modEntry a _ entryBounded_resetHealth fun _ _ hpos => entryKeeps_resetHealth hpos
  unfold Line.resetStation
  split
  · exact hreset.trans (Line.keeps_reorderAfresh _ _ a)
  · exact hreset

theorem keeps_stationReset (s : State) (n : LineId) (a : Byte) : Keeps s (s.stationReset n a) := by
  unfold State.stationReset
  repeat' split
  · exact keeps_answerCommand s _
  · exact keeps_answerCommand s _
  · exact (keeps_modLine s n _ (Line.keeps_resetStation _ a)).trans (keeps_answerCommand _ _)

theorem keeps_nextResult (s : State) : Keeps s s.nextResult := by
  unfold State.nextResult
  split
  · split
    · exact (keeps_modAdmin s _ id).trans (keeps_issue _ _ _)
    · exact keeps_completeCommand s _ _ _ _
  · exact Keeps.refl s

theorem keeps_writeResults (s : State) (h : Hand) (w : List (Word × List Byte)) (a b : Nat) :
    Keeps s (s.writeResults h w a b) := (keeps_modAdmin s _ id).trans (keeps_nextResult _)

theorem keeps_stationRead (s : State) (n : LineId) (h : Hand) : Keeps s (s.stationRead n h) := by
  unfold State.stationRead
  dsimp only
  split
  · exact keeps_writeResults s h _ _ _
  · split
    · exact keeps_answerCommand s _
    · exact keeps_writeResults s h _ _ _

theorem keeps_setFilter (s : State) (n : LineId) (r : List Byte) : Keeps s (s.setFilter n r) := by
  unfold State.setFilter
  split
  · exact keeps_answerCommand s _
  · split
    · exact keeps_answerCommand s _
    · split
      · exact keeps_answerCommand s _
      · exact (keeps_setMon s n _ id id).trans (keeps_answerCommand _ _)

theorem keeps_abortLine (s : State) (n : LineId) (sel : Ctx → Bool) : Keeps s (s.abortLine n sel) :=
  ((keeps_forContexts s n sel _ (keeps_abortOne n)).trans (keeps_completeCommand _ _ _ _ _)).trans
    (keeps_modLine _ n _ (Line.keeps_reorder _))

theorem keeps_abortSq (s : State) (r : List Byte) (k : Option Half) : Keeps s (s.abortSq r k) := by
  unfold State.abortSq
  split
  · exact keeps_abortLine s _ _
  · exact keeps_answerCommand s _

theorem keeps_abortStation (s : State) (n : LineId) (r : List Byte) : Keeps s (s.abortStation n r) := by
  unfold State.abortStation
  split
  · exact keeps_answerCommand s _
  · exact keeps_abortLine s n _

theorem Line.keeps_setCounters (l : Line) (k : Counters) (hk : l.counters.Bounded → k.Bounded) :
    l.Keeps { l with counters := k } := by
  apply Line.keeps_of (counters := hk) <;> exact id

theorem Line.keeps_setRdy (l : Line) (b : Bool) : l.Keeps { l with rdy := b } := by
  apply Line.keeps_of <;> exact id

theorem Line.keeps_setArbiter (l : Line) (a : Arbiter) : l.Keeps { l with arbiter := a } := by
  apply Line.keeps_of <;> exact id

theorem Counters.bounded_zero : Counters.Bounded {} := by
  simp [Counters.bounded_iff]

theorem keeps_readCounters (s : State) (n : LineId) (h : Hand) (rdy : Bool) : Keeps s (s.readCounters n h rdy) := by
  refine Keeps.trans (keeps_modLine s n _ ?_) (keeps_writeResults _ _ _ _ _)
  have hcleared : (s.line n).counters.Bounded →
      (if admB h.record = 1 then {} else (s.line n).counters : Counters).Bounded := fun hb => by
    split
    exacts [Counters.bounded_zero, hb]
  exact (Line.keeps_setRdy _ rdy).trans (Line.keeps_setCounters _ _ hcleared)

/-! ### The exchange unit -/

theorem keeps_failAdmission (s : State) (n : LineId) (i : CtxId) (w : Status) : Keeps s (s.failAdmission n i w) := by
  unfold State.failAdmission
  split
  · exact keeps_endExchange s n i _
  · exact Keeps.refl s

theorem keeps_enterQueued (s : State) (n : LineId) (i : CtxId) (c : Ctx) : Keeps s (s.enterQueued n i c) := by
  unfold State.enterQueued
  dsimp only
  split
  · exact (keeps_setCtx s n i _).trans (keeps_endExchange _ n i _)
  · split
    · exact (keeps_setCtx s n i _).trans (keeps_endByCarrier _ n i)
    · exact keeps_setCtx s n i _

theorem keeps_leaveAdmission (s : State) (n : LineId) (i : CtxId) : Keeps s (s.leaveAdmission n i) := by
  unfold State.leaveAdmission
  split
  · split
    · exact keeps_enterQueued s n i _
    · split
      · next h => exact (keeps_setLine s n _ (Line.keeps_obtain h)).trans (keeps_enterQueued _ n i _)
      · exact keeps_failAdmission s n i _
  · exact Keeps.refl s

theorem keeps_checkRecord (s : State) (n : LineId) (i : CtxId) (r : List Byte) (cfg : LineConfig) :
    Keeps s (s.checkRecord n i r cfg) := by
  unfold State.checkRecord
  repeat' split
  all_goals first
    | exact keeps_failAdmission s n i _
    | exact keeps_issue s _ _
    | exact keeps_leaveAdmission s n i

theorem keeps_failAttempt (s : State) (n : LineId) (i : CtxId) (w : Status) : Keeps s (s.failAttempt n i w) := by
  have hcount : Keeps s (s.modLine n (·.count fun k => k.failure w)) :=
    keeps_modLine s n _ (Line.keeps_count _ _ (Counters.failure_bounded w))
  unfold State.failAttempt
  dsimp only
  split
  · next c cfg _ hcfg =>
    split
    · exact hcount.trans (keeps_endExchange _ n i _)
    · split
      · exact hcount.trans (keeps_setLine _ n _ ((Line.keeps_setCtx _ i _).trans (Line.keeps_giveOrder _ i _)))
      · refine hcount.trans ((keeps_tellStation _ n _ _ (entryBounded_failed _) fun cfg' hcfg' hpos => ?_).trans
          (keeps_endExchange _ n i _))
        obtain rfl : cfg = cfg' := Option.some.inj (hcfg.symm.trans hcfg')
        exact entryKeeps_failed hpos
  · exact hcount

theorem keeps_judgeBlock (s : State) (n : LineId) (i : CtxId) (b : RxBlock) (e : Word) :
    Keeps s (s.judgeBlock n i b e) := by
  have hgood : ∀ st, Keeps s (s.replyGood n i b e st) := fun st => by
    unfold State.replyGood
    split
    · exact ((keeps_setCtx s n i _).trans (keeps_tellStation _ n _ _ (entryBounded_good e) fun _ _ hpos =>
        entryKeeps_good e hpos)).trans (keeps_endExchange _ n i _)
    · exact Keeps.refl s
  have hwait : Keeps s (s.replyWait n i e) := by
    unfold State.replyWait
    split
    · have htell := fun c a => (keeps_setCtx s n i c).trans (keeps_tellStation _ n a _ entryBounded_waited
        fun _ _ hpos => entryKeeps_waited hpos)
      dsimp only
      split
      · exact (htell _ _).trans (keeps_endExchange _ n i _)
      · split
        · exact (htell _ _).trans (keeps_endExchange _ n i _)
        · exact (htell _ _).trans (keeps_setCtx _ n i _)
    · exact Keeps.refl s
  have hstale : Keeps s (s.replyStale n i e) := by
    unfold State.replyStale
    split
    · split
      · exact keeps_failAttempt s n i _
      · exact (keeps_setCtx s n i _).trans (keeps_modLine _ n _ (Line.keeps_setRx _ _ id id))
    · exact Keeps.refl s
  unfold State.judgeBlock
  split
  · split
    exacts [keeps_failAttempt s n i _, hstale, hgood _, hgood _, hwait]
  · exact Keeps.refl s

theorem keeps_contention (s : State) (n : LineId) : Keeps s (s.contention n) := by
  have hl : (s.line n).Keeps (({ s.line n with
      tx := .reset, rx := { (s.line n).rx with armed := false, window := none, gap := 0 } } : Line).count
        fun k => { k with contentions := tally k.contentions }) := by
    have hwire : (s.line n).Keeps { s.line n with
        tx := .reset, rx := { (s.line n).rx with armed := false, window := none, gap := 0 } } :=
      ((s.line n).keeps_setTx _).trans (Line.keeps_setRx _ _ id id)
    refine hwire.trans (Line.keeps_count _ _ fun k h => ?_)
    rw [Counters.bounded_iff] at h ⊢
    simp only [tally_le, h, and_self]
  have hset := keeps_setLine s n _ hl
  unfold State.contention
  dsimp only
  split
  · split
    · split
      · exact hset.trans (keeps_endExchange _ n _ _)
      · split
        · exact (hset.trans (keeps_setCtx _ n _ _)).trans (keeps_endExchange _ n _ _)
        · refine hset.trans (keeps_setLine _ n _ ?_)
          rw [State.line_setLine_self]
          exact (Line.keeps_setCtx _ _ _).trans (Line.keeps_giveOrder _ _ _)
    · exact hset
  · exact hset

theorem keeps_settleOver (s : State) (n : LineId) (i : CtxId) : Keeps s (s.settleOver n i) := by
  have hset : Keeps s (s.modLine n fun l => { l with exch := { l.exch with settle := none } }) :=
    keeps_modLine s n _ ((Line.keeps_setExch _ { (s.line n).exch with lent := none }).trans
    (Line.keeps_setArbiter _ { (s.line n).arbiter with inFlight := none }))
  unfold State.settleOver
  dsimp only
  split
  · exact hset.trans (keeps_endExchange _ n i _)
  · exact hset

theorem keeps_reportNoStart (s : State) (n : LineId) : Keeps s (s.reportNoStart n) := by
  have hdisarm : Keeps s (s.modLine n Line.disarm) := keeps_modLine s n _ (Line.keeps_setRx _ _ id id)
  unfold State.reportNoStart
  dsimp only
  split
  · exact hdisarm.trans (keeps_failAttempt _ n _ _)
  · exact hdisarm

/-! ### The signalling unit -/

theorem keeps_notReady (s : State) (n : LineId) : Keeps s (s.notReady n) := by
  have hreset : Keeps s (s.modLine n fun l => { l with tx := .reset }) := keeps_modLine s n _ (Line.keeps_setTx _ _)
  unfold State.notReady
  dsimp only
  split
  · exact hreset.trans (keeps_endExchange _ n _ _)
  · exact hreset

theorem keeps_judgeContention (s : State) (n : LineId) (cfg : LineConfig) : Keeps s (s.judgeContention n cfg) := by
  unfold State.judgeContention
  split
  · exact keeps_modLine s n _ (Line.keeps_setTx _ _)
  · exact keeps_contention s n

theorem Line.keeps_setRx_count (l : Line) (rx : Receiver) (f : Counters → Counters)
    (block : blockBounded l.rx.block → blockBounded rx.block)
    (early : blockBounded (l.rx.early.map Prod.fst) → blockBounded (rx.early.map Prod.fst))
    (hf : ∀ k : Counters, k.Bounded → (f k).Bounded) : l.Keeps (({ l with rx := rx } : Line).count f) :=
  (l.keeps_setRx rx block early).trans (Line.keeps_count _ f hf)

theorem Line.keeps_characterTaken (l : Line) (cfg : LineConfig) (c : CharSamples) :
    l.Keeps (l.characterTaken cfg c) := by
  refine l.keeps_setRx_count _ _ (fun h => ?_) id fun k h => ?_
  · dsimp only
    split
    · exact h
    · split
      · next b hb => rw [hb] at h; exact b.join_bounded c cfg h
      · trivial
  · rw [Counters.bounded_iff] at h ⊢
    split <;> simp only [tally_le, h, and_self]

theorem keeps_character (s : State) (n : LineId) (cfg : LineConfig) (c : CharSamples) :
    Keeps s (s.character n cfg c) := by
  have htaken := keeps_modLine s n (·.characterTaken cfg c) (Line.keeps_characterTaken _ cfg c)
  unfold State.character
  dsimp only
  split
  · split
    · exact htaken.trans (keeps_modLine _ n _ (Line.keeps_setTx _ _))
    · exact htaken.trans (keeps_judgeContention _ n cfg)
  · exact htaken

theorem Line.keeps_assemble (l : Line) (echo : Bool) : l.Keeps (l.assemble echo) := l.keeps_setRx _ id id

theorem Line.keeps_replyBegins (l : Line) : l.Keeps l.replyBegins :=
  ((l.keeps_assemble false).trans (Line.keeps_beginBlock _ true)).trans (Line.keeps_setRx _ _ id id)

theorem Line.keeps_strayStart (l : Line) : l.Keeps l.strayStart := by
  unfold Line.strayStart
  split
  · exact (l.keeps_assemble false).trans (Line.keeps_beginBlock _ false)
  · exact l.keeps_assemble false

theorem keeps_startBit (s : State) (n : LineId) (cfg : LineConfig) : Keeps s (s.startBit n cfg) := by
  unfold State.startBit
  split
  · exact (keeps_modLine s n _ (((s.line n).keeps_assemble false).trans (Line.keeps_beginBlock _ false))).trans
      (keeps_contention _ n)
  · split
    · exact keeps_modLine s n _ (((s.line n).keeps_assemble true).trans (Line.keeps_setTx _ _))
    · exact keeps_modLine s n _ (Line.keeps_strayStart _)

theorem Line.keeps_noise (l : Line) (b : BitSamples) : l.Keeps (l.noise b) := by
  refine l.keeps_setRx_count _ _ id id fun k h => ?_
  rw [Counters.bounded_iff] at h ⊢
  simp only [tally_le, h, and_self]

theorem Line.keeps_stray (l : Line) : l.Keeps l.stray := by
  refine l.keeps_count _ fun k h => ?_
  rw [Counters.bounded_iff] at h ⊢
  simp only [tally_le, h, and_self]

theorem Line.keeps_blockOver (l : Line) : l.Keeps l.blockOver := l.keeps_setRx _ (fun _ => trivial) id

/-- R32: the reply kept from HOLD is the block that was in progress, with its bounds. -/
theorem Line.keeps_keepReply (l : Line) (b : RxBlock) (now : Word) (hb : l.rx.block = some b) :
    l.Keeps (l.blockOver.keepReply b now) := by
  refine ⟨fun h => ?_, id⟩
  obtain ⟨hblock, hlist, hlost, hpoll, hstop, -, hrest⟩ := h
  rw [hb] at hblock
  exact ⟨trivial, hlist, hlost, hpoll, hstop, hblock, hrest⟩

theorem State.modLine_modLine (s : State) (n : LineId) (f g : Line → Line) :
    (s.modLine n f).modLine n g = s.modLine n (g ∘ f) := by
  simp [State.modLine, State.setLine, State.line]

/-- The block that ends is the one in progress, so a reply kept from HOLD has its bounds too. -/
theorem keeps_blockEnded (s : State) (n : LineId) (cfg : LineConfig) (b : RxBlock)
    (hb : (s.line n).rx.block = some b) : Keeps s (s.blockEnded n cfg b) := by
  have hover := keeps_modLine s n Line.blockOver (Line.keeps_blockOver _)
  have hstray := hover.trans (keeps_modLine _ n Line.stray (Line.keeps_stray _))
  have hkept : Keeps s ((s.modLine n Line.blockOver).modLine n (·.keepReply b s.timebase)) := by
    rw [State.modLine_modLine]
    exact keeps_modLine s n _ (Line.keeps_keepReply _ b _ hb)
  unfold State.blockEnded
  dsimp only
  split
  · exact (hover.trans (keeps_modLine _ n _ (Line.keeps_monitorBlock _ b))).trans (keeps_runMonitor _ n)
  · split
    · split
      · exact (hover.trans (keeps_modLine _ n _ (Line.keeps_setRx _ _ id id))).trans (keeps_judgeBlock _ n _ b _)
      · split
        · exact hkept
        · exact hstray
    · exact hstray

theorem Line.keeps_waitReady (l : Line) (cfg : LineConfig) (now : Word) : l.Keeps (l.waitReady cfg now) :=
  l.keeps_setTx _

theorem Line.keeps_endSend (l : Line) (cfg : LineConfig) : l.Keeps (l.endSend cfg) := by
  refine (l.keeps_setTx _).trans (Line.keeps_setRx _ _ (fun h => ?_) fun h => ?_)
  · change blockBounded (if cfg.echo then l.rx else l.rx.start).block
    split
    exacts [h, trivial]
  · change blockBounded ((if cfg.echo then l.rx else l.rx.start).early.map Prod.fst)
    split
    exacts [h, trivial]

theorem Line.keeps_sent (l : Line) (cfg : LineConfig) (now : Word) (i : CtxId) (c : Ctx) :
    l.Keeps (l.sent cfg now i c) := by
  have hcount : ∀ m : Line, m.Keeps (m.count fun k => { k with attempts := tally k.attempts }) := fun m => by
    refine m.keeps_count _ fun k h => ?_
    rw [Counters.bounded_iff] at h ⊢
    simp only [tally_le, h, and_self]
  have hattempt := fun d => ((l.keeps_setTx .reset).trans (Line.keeps_setCtx _ i (some d))).trans (hcount _)
  unfold Line.sent
  dsimp only
  split
  · exact (hattempt _).trans (Line.keeps_setExch _ _)
  · split
    · exact (hattempt _).trans (Line.keeps_setRx _ _ id id)
    · exact hattempt _

theorem Line.keeps_dropEarly (l : Line) : l.Keeps { l with rx := { l.rx with early := none } } :=
  l.keeps_setRx _ id fun _ => trivial

theorem keeps_handEarly (s : State) (n : LineId) (i : CtxId) : Keeps s (s.handEarly n i) := by
  unfold State.handEarly
  split
  · exact (keeps_modLine s n _ (Line.keeps_dropEarly _)).trans (keeps_judgeBlock _ n i _ _)
  · exact Keeps.refl s

theorem keeps_holdEnded (s : State) (n : LineId) (cfg : LineConfig) : Keeps s (s.holdEnded n cfg) := by
  unfold State.holdEnded
  split
  · split
    · next i _ _ c _ =>
      have hsent := keeps_modLine s n (·.sent cfg s.timebase i c) (Line.keeps_sent _ cfg _ i c)
      dsimp only
      split
      · exact hsent.trans (keeps_handEarly _ n _)
      · split
        · exact hsent.trans (keeps_settleOver _ n _)
        · exact hsent
    · exact Keeps.refl s
  · exact Keeps.refl s

/-! ### Line control and dues -/

theorem Line.keeps_setState (l : Line) (x : LineState) : l.Keeps { l with state := x } := by
  apply Line.keeps_of <;> exact id

theorem Line.keeps_setCarrier (l : Line) (b : Bool) : l.Keeps { l with carrier := b } := by
  apply Line.keeps_of <;> exact id

theorem Line.keeps_loseCarrier (l : Line) : l.Keeps l.loseCarrier :=
  (l.keeps_stopReceiver.trans (Line.keeps_setMon _ (fun m => { m with blockFilter := none }) id id)).trans
    (((Line.keeps_setTx _ .reset).trans (Line.keeps_setCarrier _ false)).trans (Line.keeps_setExch _ _))

theorem keeps_endActive (s : State) (n : LineId) : Keeps s (s.endActive n) :=
  keeps_forContexts s n _ _ fun s i => keeps_endByCarrier s n i

theorem keeps_carrierLost (s : State) (n : LineId) : Keeps s (s.carrierLost n) := by
  have hlost : ∀ x, Keeps s (s.setLine n { (s.line n).loseCarrier with state := x }) := fun x =>
    keeps_setLine s n _ ((Line.keeps_loseCarrier _).trans (Line.keeps_setState _ x))
  have hnotice : ∀ x e, Keeps s ((s.setLine n { (s.line n).loseCarrier with state := x }).handNotice e) := fun x e =>
    (hlost x).trans (keeps_handNotice _ e)
  unfold State.carrierLost
  dsimp only
  split
  · exact hnotice _ _
  · exact (hnotice _ _).trans (keeps_endActive _ n)
  · split
    · exact (hnotice _ _).trans (keeps_endWaiting _ n _)
    · exact (hnotice _ _).trans (keeps_endActive _ n)
  · exact hlost _

theorem Line.keeps_setStop (l : Line) (x : Option StopKind) : l.Keeps { l with stop := x } := by
  apply Line.keeps_of <;> exact id

theorem Line.keeps_off (l : Line) : l.Keeps l.off :=
  (l.keeps_stopReceiver.trans (Line.keeps_setTx _ .reset)).trans
    (((Line.keeps_setState _ .off).trans (Line.keeps_setStop _ none)).trans
      (Line.keeps_setMon _ (fun m => { m with settlement := .none, blockFilter := none }) id id))

theorem Line.keeps_skipDue (l : Line) (e : PollId) (p : PollEntry) (next : Word) (hp : l.poll e = some p) :
    l.Keeps (l.skipDue e p next) := by
  refine (l.keeps_setPoll e _ fun h => ?_).trans (Line.keeps_count _ _ fun k h => ?_)
  · rw [hp] at h
    exact ⟨h.1, bump_le _ _⟩
  · rw [Counters.bounded_iff] at h ⊢
    simp only [tally_le, h, and_self]

theorem Line.keeps_admitDue (l : Line) (e : PollId) (p : PollEntry) (next : Word) (i : CtxId) (now : Word)
    (hp : l.poll e = some p) : l.Keeps (l.admitDue e p next i now) :=
  ((l.keeps_setPoll e _ fun h => by rw [hp] at h; exact h).trans (Line.keeps_setExch _ _)).trans
    (Line.keeps_used _ _ now)

theorem Line.keeps_fallDue (l : Line) (cfg : LineConfig) (e : PollId) (p : PollEntry) (due now : Word)
    (hp : l.poll e = some p) : l.Keeps (l.fallDue cfg e p due now) := by
  unfold Line.fallDue
  dsimp only
  split
  · split
    · exact l.keeps_admitDue e p _ _ now hp
    · exact l.keeps_skipDue e p _ hp
  · exact l.keeps_skipDue e p _ hp
  · exact l.keeps_skipDue e p _ hp
  · exact Line.Keeps.refl l
  · exact Line.Keeps.refl l

theorem Line.keeps_carrierBack (l : Line) : l.Keeps l.carrierBack := by
  have hstart := l.keeps_startReceiver.trans (Line.keeps_setCarrier _ true)
  unfold Line.carrierBack
  split
  · exact l.keeps_setCarrier true
  · exact hstart.trans (Line.keeps_setState _ .starting)
  all_goals exact hstart

theorem Line.keeps_activity (l : Line) : l.Keeps l.activity :=
  (l.keeps_setRx _ id id).trans (Line.keeps_setTx _ _)

theorem Line.keeps_fallingEdge (l : Line) (now : Word) : l.Keeps (l.fallingEdge now) := by
  unfold Line.fallingEdge
  split
  · exact l.keeps_activity.trans (Line.keeps_setRx _ _ id id)
  · exact l.keeps_setRx _ id id

theorem keeps_quietTaken (s : State) (n : LineId) : Keeps s (s.quietTaken n) :=
  (keeps_modLine s n _ (Line.keeps_setState _ .ready)).trans (keeps_handNotice _ _)

/-! ### Ends of transfers -/

theorem keeps_handOver (s : State) (n : LineId) (t : Taker) (d : Descriptor) : Keeps s (s.handOver n t d) := by
  unfold State.handOver
  split
  · exact keeps_bufferArrives s n _ d
  · exact (keeps_setMon s n _ id id).trans (keeps_runMonitor _ n)

theorem keeps_answerNone (n : LineId) (s : State) (t : Taker) : Keeps s (State.answerNone n s t) := by
  unfold State.answerNone
  split
  · exact keeps_bufferNone s n _
  · split
    · exact keeps_setMon s n _ id id
    · exact Keeps.refl s

theorem keeps_faultBq (s : State) (n : LineId) (q : Bq) (c : FaultCause) : Keeps s (s.faultBq n q c) :=
  ((((keeps_setBq s n _).trans (keeps_modPort _ _)).trans (keeps_handNotice _ _)).trans
    (keeps_foldl _ (keeps_answerNone n) _ _)).trans (keeps_runMonitor _ n)

theorem keeps_descriptorEnded (s : State) (n : LineId) (d : Option (List Byte)) : Keeps s (s.descriptorEnded n d) := by
  unfold State.descriptorEnded
  split
  · split
    · exact keeps_faultBq s n _ _
    · split
      · exact (keeps_setBq s n _).trans (keeps_handOver _ n _ _)
      · exact Keeps.refl s
  · exact keeps_faultBq s n _ _
  · exact Keeps.refl s

theorem keeps_faultCq (s : State) (i : CqId) (q : Cq) (p : Poster) (hq : s.cqs[i] = some q) :
    Keeps s (s.faultCq i q p) := by
  have hfault : Keeps s (s.setCq i (some { q with state := .faulted, waiters := [] })) :=
    keeps_setCq s i _ (by rw [hq]; exact cqKeeps_of_same rfl rfl rfl)
  unfold State.faultCq
  refine Keeps.trans ?_ (keeps_runMonitors _)
  refine Keeps.trans ?_ (keeps_foldl _ (fun s (w : Waiter) => keeps_discard s i w.poster) _ _)
  exact (hfault.trans (keeps_handNotice _ _)).trans (keeps_discard _ i p)

theorem keeps_fetchOver (s : State) (n : LineId) : Keeps s (s.modLine n Line.fetchOver) :=
  keeps_modLine s n _ ((Line.keeps_setExch _ { (s.line n).exch with lent := none }).trans
    (Line.keeps_setArbiter _ { (s.line n).arbiter with inFlight := none }))

theorem keeps_fetchEnded (s : State) (sq : SqId) (n : LineId) (i : CtxId) (d : Option (List Byte)) :
    Keeps s (s.fetchEnded sq n i d) := by
  have hover := keeps_fetchOver s n
  unfold State.fetchEnded
  dsimp only
  split
  · split
    · exact ((hover.trans (keeps_setSq _ sq _)).trans (keeps_modLine _ n _ (Line.keeps_setExch _ _))).trans
        (keeps_checkRecord _ n i _ _)
    · exact hover.trans (keeps_setSq _ sq _)
  · exact (hover.trans (keeps_setSq _ sq _)).trans (keeps_handNotice _ _)
  · exact hover

theorem keeps_requestDataEnded (s : State) (n : LineId) (i : CtxId) (d : Option (List Byte)) :
    Keeps s (s.requestDataEnded n i d) := by
  unfold State.requestDataEnded
  split
  · exact ((keeps_setCtx s n i _).trans (keeps_leaveAdmission _ n i)).trans (keeps_modLine _ n _ (Line.keeps_reorder _))
  · exact (keeps_failAdmission s n i _).trans (keeps_modLine _ n _ (Line.keeps_reorder _))
  · exact Keeps.refl s

theorem keeps_payloadEnded (s : State) (n : LineId) (i : CtxId) (d : Option (List Byte)) :
    Keeps s (s.payloadEnded n i d) := by
  unfold State.payloadEnded
  split
  · exact keeps_readyToComplete s n i
  · split
    · exact ((keeps_setCtx s n i _).trans (keeps_modLine _ n _ (Line.keeps_payloadFaulted _ _))).trans
        (keeps_readyToComplete _ n i)
    · exact Keeps.refl s
  · exact Keeps.refl s

theorem keeps_monitorDataEnded (s : State) (n : LineId) (d : Option (List Byte)) :
    Keeps s (s.monitorDataEnded n d) := by
  unfold State.monitorDataEnded
  split
  · next head rest cfg hlist _ =>
    dsimp only
    refine ((keeps_setMon s n _ (fun h => ?_) id).trans (keeps_joinCq _ _ _)).trans (keeps_runMonitor _ n)
    rw [hlist] at h
    exact h
  · exact Keeps.refl s

theorem keeps_completionEnded (s : State) (i : CqId) (w : Waiter) (d : Option (List Byte)) :
    Keeps s (s.completionEnded i w d) := by
  unfold State.completionEnded
  split
  · next q _ hq =>
    exact ((keeps_setCq s i _ (by rw [hq]; exact cqKeeps_posted q _)).trans (keeps_posterDone _ _)).trans
      (keeps_runPosterMonitor _ _)
  · next q hq =>
    split
    · exact keeps_halt s _
    · split
      · exact keeps_faultCq s i q _ hq
      · exact (keeps_discard s i _).trans (keeps_runMonitors _)
  · exact Keeps.refl s

theorem keeps_takeCommand (s : State) (r : List Byte) : Keeps s (s.takeCommand r) := by
  have htaken := keeps_modAdmin s (fun a => { a with phase := .executing, hand := some ⟨r, [], [], 0, 0⟩ }) id
  unfold State.takeCommand
  dsimp only
  split
  · exact htaken
  · split
    · exact (htaken.trans (keeps_modAdmin _ _ id)).trans (keeps_issue _ _ _)
    · split
      · exact htaken.trans (keeps_answerCommand _ _)
      · exact htaken

theorem keeps_adminFetchEnded (s : State) (d : Option (List Byte)) : Keeps s (s.adminFetchEnded d) := by
  unfold State.adminFetchEnded
  split
  · exact (keeps_setSq s 0 _).trans (keeps_takeCommand _ _)
  · exact keeps_halt s _
  · exact Keeps.refl s

theorem keeps_blockReadEnded (s : State) (d : Option (List Byte)) : Keeps s (s.blockReadEnded d) := by
  unfold State.blockReadEnded
  split
  · dsimp only
    split
    · exact (keeps_modAdmin s _ id).trans (keeps_answerCommand _ _)
    · exact keeps_modAdmin s _ id
  · exact keeps_answerCommand s _
  · exact Keeps.refl s

theorem keeps_resultWriteEnded (s : State) (d : Option (List Byte)) : Keeps s (s.resultWriteEnded d) := by
  unfold State.resultWriteEnded
  split
  · exact keeps_nextResult s
  · exact keeps_answerCommand s _

theorem keeps_transferEnded (s : State) (use : TransferUse) (d : Option (List Byte)) :
    Keeps s (s.transferEnded use d) := by
  refine (keeps_portFree s).trans ?_
  cases use with
  | sqFetch => exact keeps_fetchEnded _ _ _ _ _
  | descriptor => exact keeps_descriptorEnded _ _ _
  | staleDescriptor => exact Keeps.refl _
  | adminFetch => exact keeps_adminFetchEnded _ _
  | blockRead => exact keeps_blockReadEnded _ _
  | resultWrite => exact keeps_resultWriteEnded _ _
  | completion => exact keeps_completionEnded _ _ _ _
  | requestData => exact keeps_requestDataEnded _ _ _ _
  | payload => exact keeps_payloadEnded _ _ _ _
  | monitorData => exact keeps_monitorDataEnded _ _ _

/-! ### Grants of the port, of slots, fetches and buffers -/

theorem keeps_setMem {s t : State} (hl : t.lines = s.lines) (hc : t.cqs = s.cqs) (ha : t.admin = s.admin)
    (hm : s.memCanonical → t.memCanonical) : Keeps s t :=
  ⟨fun n => by simp [State.line, hl, Line.Keeps.refl], fun i => by rw [hc]; exact CqKeeps.refl _,
    fun h => by unfold State.noticesBounded; rw [ha]; exact h, hm⟩

theorem keeps_carry (s : State) (r : ReqId) (t : Transfer) (a : BusAnswer) : Keeps s (s.carry r t a) := by
  refine keeps_setMem rfl rfl rfl fun h => ?_
  unfold State.memCanonical State.carry
  dsimp only
  split
  · exact h
  · exact Memory.wf_writeBytes _ _ _ h

theorem keeps_grantPort (s : State) (a : BusAnswer) : Keeps s (s.grantPort a) := by
  unfold State.grantPort
  split
  · exact Keeps.refl s
  · split
    · split
      · exact keeps_carry s _ _ a
      · exact Keeps.refl s
    · exact Keeps.refl s

theorem keeps_beatTimedOut (s : State) : Keeps s s.beatTimedOut := by
  unfold State.beatTimedOut
  split
  · split
    · split
      · exact keeps_transferEnded s _ none
      · exact Keeps.refl s
    · exact Keeps.refl s
  · exact Keeps.refl s

theorem keeps_takeCounts (s : State) (w : Waiter) : Keeps s (s.takeCounts w) := by
  unfold State.takeCounts
  split
  · split
    · next r _ _ _ =>
      exact keeps_modLine s r.line (fun l => { l with pollLost := 0 }) (Line.keeps_setPollLost _ 0 (Nat.zero_le _))
    · exact keeps_setMon s _ _ id id
    · exact Keeps.refl s
    · exact Keeps.refl s
  · exact Keeps.refl s
  · exact keeps_modAdmin s _ fun h => ⟨h.1, Nat.zero_le _⟩

@[simp] theorem State.takeCounts_cqs (s : State) (w : Waiter) : (s.takeCounts w).cqs = s.cqs := by
  unfold State.takeCounts
  repeat' split
  all_goals rfl

theorem keeps_grantSlot (s : State) (i : CqId) : Keeps s (s.grantSlot i) := by
  unfold State.grantSlot
  split
  · next q hq =>
    split
    · split
      · next hgrant =>
        refine ((keeps_takeCounts s _).trans (keeps_setCq _ i _ ?_)).trans (keeps_issue _ _ _)
        rw [State.takeCounts_cqs, hq]
        exact cqKeeps_granted q hgrant
      · exact Keeps.refl s
    · exact Keeps.refl s
  · exact Keeps.refl s

theorem keeps_grantFetch (s : State) (n : LineId) : Keeps s (s.grantFetch n) := by
  unfold State.grantFetch
  split
  · split
    · split
      · next i p k _ _ _ =>
        split
        · exact (keeps_modLine s n _ ((Line.keeps_setExch _ { (s.line n).exch with lent := some k }).trans
            (Line.keeps_setArbiter _ ((s.line n).arbiter.grant i p)))).trans (keeps_issue _ _ _)
        · exact Keeps.refl s
      · exact Keeps.refl s
    · exact Keeps.refl s
  · exact Keeps.refl s

theorem keeps_promiseWaiting (s : State) (n : LineId) : Keeps s (s.promiseWaiting n) := by
  unfold State.promiseWaiting
  split
  · split
    · split
      · exact keeps_promise s n _ _
      · exact Keeps.refl s
    · exact Keeps.refl s
  · exact Keeps.refl s

theorem keeps_startAdminFetch (s : State) : Keeps s s.startAdminFetch := by
  unfold State.startAdminFetch
  split
  · split
    · exact (keeps_modAdmin s _ id).trans (keeps_issue _ _ _)
    · exact Keeps.refl s
  · exact Keeps.refl s

/-! ### Every command -/

theorem keeps_exec (c : Instr) {s t : State} (ht : exec c s = .next t) : Keeps s t := by
  cases c with
  | powerOn => obtain rfl := Host.Outcome.next.inj ht; exact keeps_powerOn s
  | softReset => obtain rfl := Host.Outcome.next.inj ht; split; exacts [Keeps.refl s, keeps_softReset s]
  | run => obtain rfl := Host.Outcome.next.inj ht; split; exacts [Keeps.refl s, keeps_controlWrite s _ _]
  | runClear => obtain rfl := Host.Outcome.next.inj ht; split; exacts [Keeps.refl s, keeps_controlWrite s _ _]
  | intEnable => obtain rfl := Host.Outcome.next.inj ht; split; exacts [Keeps.refl s, keeps_controlWrite s _ _]
  | adminSetupWrite =>
    obtain rfl := Host.Outcome.next.inj ht; split
    exacts [Keeps.refl s, (keeps_written s).trans (keeps_setupWrite _ _ _)]
  | postSq =>
    obtain rfl := Host.Outcome.next.inj ht; split
    exacts [Keeps.refl s, (keeps_written s).trans (keeps_postSq _ _ _)]
  | postBq =>
    obtain rfl := Host.Outcome.next.inj ht; split
    exacts [Keeps.refl s, (keeps_written s).trans (keeps_postBq _ _ _)]
  | ack =>
    obtain rfl := Host.Outcome.next.inj ht; split
    exacts [Keeps.refl s, (keeps_written s).trans (keeps_ackWrite _ _ _)]
  | statusRead =>
    obtain rfl := Host.Outcome.next.inj ht; split
    exacts [Keeps.refl s, keeps_of_same rfl rfl rfl rfl rfl]
  | registerWrite => obtain rfl := Host.Outcome.next.inj ht; split; exacts [Keeps.refl s, keeps_access s _]
  | portGrant stores =>
    obtain rfl := Host.Outcome.next.inj ht
    have hstores : Keeps s { s with mem := Memory.hostStores s.mem stores } :=
      keeps_setMem rfl rfl rfl (Memory.wf_hostStores stores s.mem)
    exact hstores.trans (keeps_grantPort _ _)
  | beatTimeout => obtain rfl := Host.Outcome.next.inj ht; exact keeps_beatTimedOut s
  | adminFetchStart => obtain rfl := Host.Outcome.next.inj ht; exact keeps_startAdminFetch s
  | adminFetchComplete =>
    obtain rfl := Host.Outcome.next.inj ht; split
    exacts [(keeps_portFree s).trans (keeps_adminFetchEnded _ _), Keeps.refl s]
  | badCommand =>
    obtain rfl := Host.Outcome.next.inj ht; repeat' split
    exacts [keeps_answerCommand s _, Keeps.refl s, Keeps.refl s]
  | parameterBlockReadDone =>
    obtain rfl := Host.Outcome.next.inj ht; split
    exacts [(keeps_portFree s).trans (keeps_blockReadEnded _ _), Keeps.refl s]
  | createCq => obtain rfl := Host.Outcome.next.inj ht; split; exacts [keeps_createCq s _, Keeps.refl s]
  | deleteCq => obtain rfl := Host.Outcome.next.inj ht; split; exacts [keeps_deleteCq s _, Keeps.refl s]
  | createSq => obtain rfl := Host.Outcome.next.inj ht; split; exacts [keeps_createSq s _, Keeps.refl s]
  | deleteSq => obtain rfl := Host.Outcome.next.inj ht; split; exacts [keeps_deleteSq s _, Keeps.refl s]
  | configureLine => obtain rfl := Host.Outcome.next.inj ht; split; exacts [keeps_configureLine s _ _, Keeps.refl s]
  | startLine => obtain rfl := Host.Outcome.next.inj ht; split; exacts [keeps_startLine s _, Keeps.refl s]
  | stopLine => obtain rfl := Host.Outcome.next.inj ht; split; exacts [keeps_stopLine s _ _, Keeps.refl s]
  | setPoll => obtain rfl := Host.Outcome.next.inj ht; split; exacts [keeps_setPoll s _ _ _, Keeps.refl s]
  | pollEnable => obtain rfl := Host.Outcome.next.inj ht; split; exacts [keeps_pollEnable s _ _, Keeps.refl s]
  | pollDisable => obtain rfl := Host.Outcome.next.inj ht; split; exacts [keeps_pollDisable s _ _, Keeps.refl s]
  | pollClear => obtain rfl := Host.Outcome.next.inj ht; split; exacts [keeps_pollClear s _ _, Keeps.refl s]
  | stationReset => obtain rfl := Host.Outcome.next.inj ht; split; exacts [keeps_stationReset s _ _, Keeps.refl s]
  | stationRead => obtain rfl := Host.Outcome.next.inj ht; split; exacts [keeps_stationRead s _ _, Keeps.refl s]
  | setFilter => obtain rfl := Host.Outcome.next.inj ht; split; exacts [keeps_setFilter s _ _, Keeps.refl s]
  | abortSqAndTag => obtain rfl := Host.Outcome.next.inj ht; split; exacts [keeps_abortSq s _ _, Keeps.refl s]
  | abortLineAndStation =>
    obtain rfl := Host.Outcome.next.inj ht; split
    exacts [keeps_abortStation s _ _, Keeps.refl s]
  | abortWholeSq => obtain rfl := Host.Outcome.next.inj ht; split; exacts [keeps_abortSq s _ _, Keeps.refl s]
  | readCounters => obtain rfl := Host.Outcome.next.inj ht; split; exacts [keeps_readCounters s _ _ _, Keeps.refl s]
  | resultWriteDone =>
    obtain rfl := Host.Outcome.next.inj ht; split
    exacts [(keeps_portFree s).trans (keeps_resultWriteEnded _ _), Keeps.refl s]
  | stopComplete n =>
    obtain rfl := Host.Outcome.next.inj ht; split
    exacts [(keeps_modLine s n Line.off (Line.keeps_off _)).trans (keeps_finishPending _ _ _), Keeps.refl s]
  | sqDeletionDone =>
    obtain rfl := Host.Outcome.next.inj ht; repeat' split
    exacts [(keeps_setSq s _ _).trans (keeps_finishPending _ _ _), Keeps.refl s, Keeps.refl s, Keeps.refl s]
  | fetchGrant => obtain rfl := Host.Outcome.next.inj ht; exact keeps_grantFetch s _
  | fetchComplete =>
    obtain rfl := Host.Outcome.next.inj ht; split
    exacts [(keeps_portFree s).trans (keeps_fetchEnded _ _ _ _ _), Keeps.refl s]
  | requestDataReadDone =>
    obtain rfl := Host.Outcome.next.inj ht; split
    exacts [(keeps_portFree s).trans (keeps_requestDataEnded _ _ _ _), Keeps.refl s]
  | descriptorReadComplete =>
    obtain rfl := Host.Outcome.next.inj ht; split
    exacts [(keeps_portFree s).trans (keeps_descriptorEnded _ _ _), keeps_portFree s, Keeps.refl s]
  | bufferPromise => obtain rfl := Host.Outcome.next.inj ht; exact keeps_promiseWaiting s _
  | payloadWriteDone =>
    obtain rfl := Host.Outcome.next.inj ht; split
    exacts [(keeps_portFree s).trans (keeps_payloadEnded _ _ _ _), Keeps.refl s]
  | monitorDataWriteDone =>
    obtain rfl := Host.Outcome.next.inj ht; split
    exacts [(keeps_portFree s).trans (keeps_monitorDataEnded _ _ _), Keeps.refl s]
  | slotGrant => obtain rfl := Host.Outcome.next.inj ht; exact keeps_grantSlot s _
  | completionWriteDone =>
    obtain rfl := Host.Outcome.next.inj ht; split
    exacts [(keeps_portFree s).trans (keeps_completionEnded _ _ _ _), Keeps.refl s]
  | delayTimerExpiry i =>
    obtain rfl := Host.Outcome.next.inj ht
    split
    · next q hq =>
      split
      · exact keeps_setCq s i _ (by rw [hq]; exact cqKeeps_of_same rfl rfl rfl)
      · exact Keeps.refl s
    · exact Keeps.refl s
  | sendOrder n =>
    obtain rfl := Host.Outcome.next.inj ht; repeat' split
    exacts [keeps_modLine s n _ (Line.keeps_giveOrder _ _ _), Keeps.refl s, Keeps.refl s]
  | idleRequirementMet n rdy =>
    obtain rfl := Host.Outcome.next.inj ht
    split
    · split
      · refine keeps_modLine s n _ ?_
        have hrdy := (s.line n).keeps_setRdy rdy
        dsimp only
        split
        exacts [hrdy.trans (Line.keeps_beginLead _ _ _), hrdy.trans (Line.keeps_waitReady _ _ _)]
      · exact Keeps.refl s
    · exact Keeps.refl s
  | rdyAsserted n =>
    obtain rfl := Host.Outcome.next.inj ht
    refine keeps_modLine s n _ ?_
    have hrdy := (s.line n).keeps_setRdy true
    dsimp only
    repeat' split
    exacts [hrdy.trans (Line.keeps_beginLead _ _ _), hrdy, hrdy]
  | notReady => obtain rfl := Host.Outcome.next.inj ht; split; exacts [keeps_notReady s _, Keeps.refl s]
  | leadEnd n =>
    obtain rfl := Host.Outcome.next.inj ht; repeat' split
    exacts [keeps_modLine s n _ (Line.keeps_setTx _ _), Keeps.refl s, Keeps.refl s]
  | sendEnd n =>
    obtain rfl := Host.Outcome.next.inj ht; repeat' split
    exacts [keeps_modLine s n _ (Line.keeps_endSend _ _), Keeps.refl s, Keeps.refl s]
  | holdEnd =>
    obtain rfl := Host.Outcome.next.inj ht; repeat' split
    exacts [keeps_holdEnded s _ _, Keeps.refl s, Keeps.refl s]
  | characterReceived =>
    obtain rfl := Host.Outcome.next.inj ht; repeat' split
    exacts [keeps_character s _ _ _, Keeps.refl s, Keeps.refl s]
  | noiseStart n samples =>
    have hnoise := keeps_modLine s n (·.noise samples) (Line.keeps_noise _ samples)
    obtain rfl := Host.Outcome.next.inj ht; dsimp only; repeat' split
    exacts [hnoise.trans (keeps_reportNoStart _ n), hnoise, Keeps.refl s, Keeps.refl s]
  | echoMissing =>
    obtain rfl := Host.Outcome.next.inj ht; repeat' split
    exacts [keeps_judgeContention s _ _, Keeps.refl s, Keeps.refl s]
  | startSeen n =>
    obtain rfl := Host.Outcome.next.inj ht; repeat' split
    exacts [keeps_modLine s n _ (Line.keeps_replyBegins _), Keeps.refl s, Keeps.refl s]
  | noStart => obtain rfl := Host.Outcome.next.inj ht; dsimp only; split; exacts [keeps_reportNoStart s _, Keeps.refl s]
  | blockEnd n =>
    obtain rfl := Host.Outcome.next.inj ht
    split
    · next hb =>
      split
      · exact keeps_blockEnded s n _ _ hb
      · exact Keeps.refl s
    · exact Keeps.refl s
  | settleEnd =>
    obtain rfl := Host.Outcome.next.inj ht; repeat' split
    exacts [keeps_settleOver s _ _, Keeps.refl s, Keeps.refl s]
  | holdOffExpiry n i =>
    obtain rfl := Host.Outcome.next.inj ht; repeat' split
    exacts [keeps_modLine s n _ ((Line.keeps_setCtx _ i _).trans (Line.keeps_reorder _)), Keeps.refl s, Keeps.refl s,
      Keeps.refl s]
  | pollDue n e =>
    obtain rfl := Host.Outcome.next.inj ht
    split
    · next hp _ => exact keeps_modLine s n _ (Line.keeps_fallDue _ _ e _ _ _ hp)
    · exact Keeps.refl s
  | carDeasserted n =>
    obtain rfl := Host.Outcome.next.inj ht; repeat' split
    exacts [Keeps.refl s, keeps_modLine s n _ (Line.keeps_setCarrier _ false), keeps_carrierLost s n]
  | carReasserted n =>
    obtain rfl := Host.Outcome.next.inj ht; split
    exacts [Keeps.refl s, keeps_modLine s n _ (Line.keeps_carrierBack _)]
  | quiet =>
    obtain rfl := Host.Outcome.next.inj ht; repeat' split
    exacts [keeps_quietTaken s _, Keeps.refl s, Keeps.refl s]
  | qualifiedStartBit =>
    obtain rfl := Host.Outcome.next.inj ht; repeat' split
    exacts [keeps_startBit s _ _, Keeps.refl s, Keeps.refl s]
  | rxdFallingEdge n =>
    obtain rfl := Host.Outcome.next.inj ht
    exact keeps_modLine s n _ (Line.keeps_fallingEdge _ _)
  | rxdReturnToMark n =>
    obtain rfl := Host.Outcome.next.inj ht
    exact keeps_modLine s n Line.risingEdge (Line.keeps_setRx _ _ id id)
  | contentionStop =>
    obtain rfl := Host.Outcome.next.inj ht; repeat' split
    exacts [keeps_contention s _, Keeps.refl s, Keeps.refl s]
  | resetNRelease =>
    obtain rfl := Host.Outcome.next.inj ht; split
    exacts [(keeps_powerOn s).trans (keeps_of_same rfl rfl rfl rfl rfl), Keeps.refl s]

theorem keeps_tick (s : State) : Keeps s s.tick := by
  have hlines : Keeps s { s with lines := s.lines.map Line.tick } :=
    ⟨fun n => by simpa [State.line] using Line.keeps_tick s.lines[n], fun _ => CqKeeps.refl _, id, id⟩
  unfold State.tick
  dsimp only
  repeat' split
  · exact Keeps.refl s
  · exact hlines
  · exact hlines.trans (keeps_of_same rfl rfl rfl rfl rfl)
  · exact hlines.trans (keeps_of_same rfl rfl rfl rfl rfl)

/-- A step is a command, or one REFCLK period. -/
theorem keeps_step {s t : State} (ht : step s = .next t) : Keeps s t := by
  unfold step at ht
  split at ht
  · next rest _ =>
    have hrest : Keeps s { s with pending := rest } := keeps_of_same rfl rfl rfl rfl rfl
    exact hrest.trans (keeps_exec _ ht)
  · obtain rfl := Host.Outcome.next.inj ht
    exact keeps_tick s

/-! ### The laws -/

/-- Settles O57. -/
theorem everyStepKeepsCqsWithinSize : Obligations.EveryStepKeepsCqsWithinSize :=
  fun _ _ h ht i => ((keeps_step ht).cqs i).1 (h i)

/-- Settles O58. -/
theorem everyStepKeepsStationsLawful : Obligations.EveryStepKeepsStationsLawful :=
  fun _ _ h ht n => ((keeps_step ht).lines n).2 (h n)

theorem State.discardsBounded_iff (s : State) : s.discardsBounded ↔ ∀ i : CqId, cqDiscardsBounded s.cqs[i] := Iff.rfl

/-- Settles O59. -/
theorem everyStepKeepsBoundsAndMemory : Obligations.EveryStepKeepsBoundsAndMemory := by
  intro s t hnotices hlines hdiscards hmem ht
  have hkeeps := keeps_step ht
  rw [State.discardsBounded_iff] at hdiscards ⊢
  exact ⟨hkeeps.notices hnotices, fun n => (hkeeps.lines n).1 (hlines n), fun i => (hkeeps.cqs i).2 (hdiscards i),
    hkeeps.memory hmem⟩

/-- Settles O60: nothing is held yet, and every line is at its reset values. -/
theorem resetIsLawful : Obligations.ResetIsLawful := by
  have hline : ∀ n, State.reset.line n = Line.reset false false true := fun n => by simp [State.reset, State.line]
  have hcq : ∀ i : CqId, State.reset.cqs[i] = none := fun i => by simp [State.reset]
  refine ⟨fun n => ?_, fun i => ?_, fun n => ?_, ⟨Nat.zero_le _, Nat.zero_le _⟩, fun n => ?_, fun i q hq => ?_,
    Memory.wf_reset⟩
  · rw [hline]
    exact lineLawful_reset _ _ _
  · rw [hcq]
    trivial
  · rw [hline]
    intro cfg hcfg
    cases hcfg
  · rw [hline]
    exact Line.bounded_reset _ _ _
  · rw [hcq] at hq
    cases hq

end Sys2Proof.Machine
end

