-- ==== Sys2Proof/Proofs/Clock.lean ====
section
/-! What a step does with no command waiting: one REFCLK period on each line and on the timebase (R16, R21, R24, R202).
-/

namespace Sys2Proof.Machine

/-! ### A line -/

theorem Line.tick_of_unconfigured {l : Line} (h : l.config = none) : l.tick = l := by
  simp [Line.tick, h]

/-- The nominal end of the character last taken falls in the coming REFCLK period (R21). -/
def Line.nominalEnd (l : Line) (cfg : LineConfig) : Bool :=
  decide (l.rx.tail.map (· + 1) = some (cfg.charTime * cfg.divider))

/-- The gap timer runs (R24, log entry 24). -/
def Line.gapRuns (l : Line) : Bool :=
  decide (l.rx.state = .hunting) && l.rx.mark && decide (l.tx.phase ≠ .lead) && decide (l.tx.phase ≠ .send)

theorem Line.nominalEnd_iff (l : Line) (cfg : LineConfig) :
    l.nominalEnd cfg = true ↔ ∃ a, l.rx.tail = some a ∧ a + 1 = cfg.charTime * cfg.divider := by
  cases h : l.rx.tail <;> simp [Line.nominalEnd, h]

theorem Line.gapRuns_iff (l : Line) :
    l.gapRuns = true ↔ l.rx.state = .hunting ∧ l.rx.mark = true ∧ l.tx.phase ≠ .lead ∧ l.tx.phase ≠ .send := by
  simp [Line.gapRuns, and_assoc]

/-- The gap timer after a REFCLK period. -/
def Line.gapAfter (l : Line) (cfg : LineConfig) : Nat :=
  if l.nominalEnd cfg then 0
  else if l.gapRuns then min (l.rx.gap + 1) (65535 * cfg.divider)
  else l.rx.gap

theorem Line.tick_of_configured {l : Line} {cfg : LineConfig} (h : l.config = some cfg) :
    l.tick = { l with
      rx := { l.rx with
        gap := l.gapAfter cfg, age := l.rx.age.map (· + 1)
        tail := if l.nominalEnd cfg then none else l.rx.tail.map (· + 1)
        idle := l.rx.idle || (l.gapRuns && decide (cfg.gap * cfg.divider ≤ l.gapAfter cfg)) }
      tx := if l.tx.sending then { l.tx with age := l.tx.age + 1 } else l.tx } := by
  unfold Line.tick Line.gapAfter Line.nominalEnd
  rw [h]
  cases l.rx.age <;> cases l.rx.tail <;> rfl

theorem Transmitter.sending_iff (t : Transmitter) :
    t.sending = true ↔ t.phase = .lead ∨ t.phase = .send ∨ t.phase = .hold := by
  cases h : t.phase <;> simp [Transmitter.sending, h]

theorem Transmitter.aged_eq (t : Transmitter) :
    (if t.sending then { t with age := t.age + 1 } else t)
      = { t with age := t.age + (if t.phase = .lead ∨ t.phase = .send ∨ t.phase = .hold then 1 else 0) } := by
  by_cases h : t.sending = true
  · rw [if_pos h, if_pos (t.sending_iff.mp h)]
  · rw [if_neg h, if_neg (mt t.sending_iff.mpr h)]
    rfl

/-! ### The timebase -/

theorem State.tick_of_held {s : State} (h : s.held = true) : s.tick = s := by
  simp [State.tick, h]

theorem State.line_tick {s : State} (h : s.held = false) (n : LineId) : s.tick.line n = (s.line n).tick := by
  unfold State.tick
  rw [h]
  dsimp only
  repeat' split
  all_goals simp [State.line] at *

theorem State.tick_frame {s : State} :
    s.tick = { s with lines := s.tick.lines, timebase := s.tick.timebase, fraction := s.tick.fraction } := by
  unfold State.tick
  dsimp only
  repeat' split
  all_goals rfl

theorem State.tick_time_of_stopped {s : State} (h : s.part = .stopped) :
    s.tick.timebase = s.timebase ∧ s.tick.fraction = s.fraction := by
  unfold State.tick
  dsimp only
  rw [if_pos h]
  split <;> exact ⟨rfl, rfl⟩

theorem State.tick_time_of_started {s : State} (hheld : s.held = false) (h : s.part ≠ .stopped) :
    (s.refclkKhz ≤ s.fraction + 1000 →
        s.tick.timebase = s.timebase + 1 ∧ s.tick.fraction = s.fraction + 1000 - s.refclkKhz)
      ∧ (s.fraction + 1000 < s.refclkKhz → s.tick.timebase = s.timebase ∧ s.tick.fraction = s.fraction + 1000) := by
  unfold State.tick
  dsimp only
  rw [hheld, if_neg h]
  constructor <;> intro hf
  · simp [hf]
  · simp [Nat.not_le.mpr hf]

/-- Settles O1: the queue's front command, or one REFCLK period on every line and on the timebase. -/
theorem stepRunsTheFrontCommand : Obligations.StepRunsTheFrontCommand := by
  refine ⟨fun _ _ => rfl, fun s hempty => ?_⟩
  have hstep : step s = .next s.tick := by
    unfold step
    rw [hempty]
  rw [hstep]
  refine ⟨fun hheld => by rw [State.tick_of_held hheld], fun hheld => ⟨s.tick, rfl, State.tick_frame,
    State.tick_time_of_stopped, ?_, ?_⟩⟩
  · rintro hpart khz rfl
    exact State.tick_time_of_started hheld hpart
  · rintro n l rfl
    rw [State.line_tick hheld]
    refine ⟨Line.tick_of_unconfigured, fun cfg ends counts hcfg hends hcounts => ?_⟩
    rw [← Line.nominalEnd_iff] at hends
    rw [← Line.gapRuns_iff] at hcounts
    rw [Line.tick_of_configured hcfg]
    refine ⟨rfl, Transmitter.aged_eq _, rfl, rfl, fun h => ?_, fun h => ?_, fun h hc => ?_, fun h hc => ?_, ?_⟩
    · simp [Line.gapAfter, hends.mp h]
    · simp [mt hends.mpr h]
    · simp [Line.gapAfter, mt hends.mpr h, hcounts.mp hc]
    · simp [Line.gapAfter, mt hends.mpr h, mt hcounts.mpr hc]
    · simp [hcounts]

end Sys2Proof.Machine
end

