-- ==== Sys2Proof/Proofs/Resets.lean ====
section
/-! What power-on, its release, a soft reset and a halt leave (R197 to R199). -/

namespace Sys2Proof.Machine

/-- A state whose blocks are those of `resetBlocks` has every block at its reset values. -/
theorem blocksReset_of {s t : State} (hl : t.lines = s.resetBlocks.lines) (hs : t.sqs = s.resetBlocks.sqs)
    (hc : t.cqs = s.resetBlocks.cqs) (hb : t.bqs = s.resetBlocks.bqs) (ha : t.admin = Admin.reset)
    (hq : t.port.queues = Vector.replicate 10 []) (hp : t.port.current = none) : BlocksReset s t := by
  have hline : ∀ n, t.line n = Line.reset (s.line n).carrier (s.line n).rdy (s.line n).rx.mark := fun n => by
    simp [State.line, hl, State.resetBlocks]
  have hcqs : t.cqs = Vector.replicate 9 none := hc
  refine ⟨hline, fun n => ?_, fun i => ?_, fun i => ?_, fun n => ?_, ha, fun r => ?_, hp, ?_, ?_⟩
  · rw [hline]
    exact ⟨rfl, rfl⟩
  · simp [hs, State.resetBlocks]
  · simp [hcqs]
  · simp [hb, State.resetBlocks]
  · simp [hq]
  · simp [State.int, hcqs, cqAsksInt]
  · unfold State.intPending
    rw [hcqs]
    rfl

theorem haltedFrom_halt (s : State) (cause : HaltCause) : HaltedFrom s (s.halt cause) cause :=
  ⟨rfl, rfl, blocksReset_of rfl rfl rfl rfl rfl rfl rfl, rfl, rfl, rfl, rfl, rfl, rfl, rfl, rfl, rfl, rfl⟩

/-- Giving the port free before a halt leaves what the halt leaves. -/
theorem halt_portFree (s : State) (cause : HaltCause) : s.portFree.halt cause = s.halt cause := rfl

/-- Settles O2: the reset state's own values. -/
theorem resetLeavesThePartStopped : Obligations.ResetLeavesThePartStopped := by
  have hline : ∀ n, State.reset.line n = Line.reset false false true := fun n => by simp [State.line, State.reset]
  have hlines : State.reset.lines = State.reset.resetBlocks.lines := by
    simp [State.reset, State.resetBlocks, Line.reset, Receiver.reset]
  exact ⟨rfl, rfl, rfl, rfl, rfl, by decide, rfl, rfl, rfl, rfl, blocksReset_of hlines rfl rfl rfl rfl rfl rfl, rfl, rfl,
    rfl⟩

/-- Settles O3: power-on, its release, and the accesses the held part does not answer. -/
theorem powerOnHoldsUntilRelease : Obligations.PowerOnHoldsUntilRelease := by
  have hblocks : ∀ s : State, BlocksReset s s.powerOn := fun s => blocksReset_of rfl rfl rfl rfl rfl rfl rfl
  refine ⟨fun s => ?_, fun s hheld => ?_, fun s hheld => ?_⟩
  · exact ⟨s.powerOn, rfl, rfl, hblocks s, rfl, rfl, rfl, rfl, rfl, rfl, rfl, rfl, rfl, rfl, rfl⟩
  · have hrelease : exec .resetNRelease s = .next { s.powerOn with held := false } := by
      change execResetNRelease s = _
      simp [execResetNRelease, hheld]
    exact ⟨_, hrelease, rfl, blocksReset_of rfl rfl rfl rfl rfl rfl rfl, rfl, rfl, rfl, rfl, rfl, rfl, rfl, rfl, rfl, rfl⟩
  · have hkeep : ∀ t : State, (if s.held then s else t) = s := fun t => by rw [hheld, if_pos rfl]
    exact ⟨fun _ _ => congrArg Host.Outcome.next (hkeep _), fun _ => congrArg Host.Outcome.next (hkeep _),
      fun _ => congrArg Host.Outcome.next (hkeep _), fun _ _ => congrArg Host.Outcome.next (hkeep _),
      fun _ _ => congrArg Host.Outcome.next (hkeep _), fun _ _ => congrArg Host.Outcome.next (hkeep _),
      fun _ _ => congrArg Host.Outcome.next (hkeep _), fun _ _ => congrArg Host.Outcome.next (hkeep _),
      congrArg Host.Outcome.next (hkeep _), fun _ => congrArg Host.Outcome.next (hkeep _)⟩

/-- Settles O4: a soft reset keeps the setup registers and the port's position. -/
theorem softResetClearsThePart : Obligations.SoftResetClearsThePart := by
  intro s runBit intBit hheld
  have hreset : exec (.softReset runBit intBit) s = .next s.softReset := by
    change execSoftReset runBit intBit s = _
    simp [execSoftReset, hheld]
  exact ⟨_, hreset, blocksReset_of rfl rfl rfl rfl rfl rfl rfl, rfl, rfl, rfl, rfl, rfl, rfl, rfl, rfl, hheld, rfl, rfl⟩

/-- Settles O18: a bus fault on either admin ring halts the part. -/
theorem adminRingFaultHaltsThePart : Obligations.AdminRingFaultHaltsThePart := by
  refine ⟨fun s hend => ⟨s.halt .adminSq, ?_, haltedFrom_halt s _⟩, fun s q w hend hq =>
    ⟨s.halt .adminCq, ?_, haltedFrom_halt s _⟩⟩
  · change execAdminFetchComplete s = _
    simp only [execAdminFetchComplete, State.endedTransfer_of_ended hend, State.adminFetchEnded, halt_portFree]
  · change execCompletionWriteDone s = _
    have hfree : s.portFree.cqs[(0 : CqId)] = some q := hq
    simp only [execCompletionWriteDone, State.endedTransfer_of_ended hend, State.completionEnded, hfree, if_true,
      halt_portFree]

end Sys2Proof.Machine
end

