-- ==== Sys2Proof/Proofs/Registers.lean ====
section
/-! The register window (R143, R145, R159, R192 to R196): CONTROL, the admin setup registers, POST, STATUS, INT_PENDING
and the answer to any access. -/

namespace Sys2Proof.Machine

/-! ### The accesses of a part that is not held -/

section
variable {s : State} (hheld : s.held = false)
include hheld

theorem State.accessed (t : State) : (if s.held then s else t) = t := by rw [hheld, if_neg Bool.false_ne_true]

theorem exec_softReset (r i : Bool) : exec (.softReset r i) s = .next s.softReset :=
  congrArg Host.Outcome.next (State.accessed hheld _)

theorem exec_intEnable (r i : Bool) : exec (.intEnable r i) s = .next (s.controlWrite r i) :=
  congrArg Host.Outcome.next (State.accessed hheld _)

theorem exec_run (i : Bool) : exec (.run i) s = .next (s.controlWrite true i) :=
  congrArg Host.Outcome.next (State.accessed hheld _)

theorem exec_runClear (i : Bool) : exec (.runClear i) s = .next (s.controlWrite false i) :=
  congrArg Host.Outcome.next (State.accessed hheld _)

theorem exec_adminSetupWrite (r : SetupReg) (v : Word) :
    exec (.adminSetupWrite r v) s = .next (State.setupWrite { s with answer := .written } r v) :=
  congrArg Host.Outcome.next (State.accessed hheld _)

theorem exec_postSq (k : BitVec 5) (v : BitVec 9) :
    exec (.postSq k v) s = .next (State.postSq { s with answer := .written } k.toNat v.toNat) :=
  congrArg Host.Outcome.next (State.accessed hheld _)

theorem exec_postBq (k : BitVec 5) (v : BitVec 9) :
    exec (.postBq k v) s = .next (State.postBq { s with answer := .written } k.toNat v.toNat) :=
  congrArg Host.Outcome.next (State.accessed hheld _)

theorem exec_statusRead : exec .statusRead s = .next s.readStatus :=
  congrArg Host.Outcome.next (State.accessed hheld _)

theorem exec_registerWrite (a : RegAccess) : exec (.registerWrite a) s = .next (s.access a) :=
  congrArg Host.Outcome.next (State.accessed hheld _)

end

/-! ### CONTROL and the admin setup registers (R193, R194) -/

theorem State.setupValid_iff (s : State) : s.setupValid = true ↔
    s.asqBase.toNat % 32 = 0 ∧ s.acqBase.toNat % 32 = 0 ∧ (4 ≤ s.asqSize ∧ s.asqSize ≤ 64)
      ∧ (4 ≤ s.acqSize ∧ s.acqSize ≤ 64) ∧ 8000 ≤ s.refclkKhz ∧ s.refclkKhz ≤ 40000 := by
  simp only [State.setupValid, Bool.and_eq_true, decide_eq_true_eq, and_assoc]

/-- R193: what the RUN bit of a CONTROL write does, in one equation. -/
theorem State.runWritten_eq (s : State) (run : Bool) : s.runWritten run =
    if s.part = .stopped ∧ run = true then (if s.setupValid then s.startRunning else s.recordError .badAdminSetup)
    else if s.part = .running ∧ run = false then s.recordError .runClearIgnored
    else s := by
  unfold State.runWritten
  cases s.part <;> cases run <;> rfl

theorem State.runWritten_of_valid {s : State} (h : s.part = .stopped) (hv : s.setupValid = true) :
    s.runWritten true = s.startRunning := by
  rw [State.runWritten_eq, if_pos ⟨h, rfl⟩, if_pos hv]

theorem State.runWritten_of_invalid {s : State} (h : s.part = .stopped) (hv : s.setupValid = false) :
    s.runWritten true = s.recordError .badAdminSetup := by
  rw [State.runWritten_eq, if_pos ⟨h, rfl⟩, if_neg (by simp [hv])]

theorem State.runWritten_of_started {s : State} (h : s.part ≠ .stopped) : s.runWritten true = s := by
  rw [State.runWritten_eq, if_neg (fun e => h e.1), if_neg (by simp)]

theorem State.runWritten_of_cleared {s : State} (h : s.part = .running) :
    s.runWritten false = s.recordError .runClearIgnored := by
  rw [State.runWritten_eq, if_neg (by simp), if_pos ⟨h, rfl⟩]

theorem State.runWritten_of_notRunning {s : State} (h : s.part ≠ .running) : s.runWritten false = s := by
  rw [State.runWritten_eq, if_neg (by simp), if_neg (fun e => h e.1)]

/-- Settles O5: a valid setup starts the part. -/
theorem runStartsThePart : Obligations.RunStartsThePart := by
  intro s intBit hheld hpart hasq hacq hasq1 hasq2 hacq1 hacq2 hclk1 hclk2
  have hvalid : s.setupValid = true :=
    s.setupValid_iff.mpr ⟨hasq, hacq, ⟨hasq1, hasq2⟩, ⟨hacq1, hacq2⟩, hclk1, hclk2⟩
  rw [exec_run hheld, State.controlWrite, State.runWritten_of_valid (by exact hpart) (by exact hvalid)]
  rfl

/-- Settles O6: the remaining cells of the table of CONTROL writes. -/
theorem controlWriteSetsIntEnable : Obligations.ControlWriteSetsIntEnable := by
  intro s intBit hheld
  rw [exec_run hheld, exec_runClear hheld, exec_intEnable hheld, exec_intEnable hheld]
  unfold State.controlWrite
  refine ⟨fun h hv => ?_, fun h => ?_, fun h => ?_, fun h => ?_, fun h r => ?_, fun h => ?_, fun h => ?_, rfl, rfl⟩
  · rw [State.runWritten_of_invalid (by exact h) (by exact hv)]
    rfl
  · rw [State.runWritten_of_started (by exact h)]
  · rw [State.runWritten_of_cleared (by exact h)]
    rfl
  · rw [State.runWritten_of_notRunning (by exact h)]
  · rw [exec_intEnable hheld, State.controlWrite]
    cases r with
    | true => rw [State.runWritten_of_started (by simp [h])]
    | false => rw [State.runWritten_of_notRunning (by simp [h])]
  · rw [State.runWritten_of_started (by simp [h])]
  · rw [State.runWritten_of_notRunning (by simp [h])]

/-- Settles O7: setup writes in and out of STOPPED. -/
theorem setupWriteStoredOnlyInStopped : Obligations.SetupWriteStoredOnlyInStopped := by
  intro s v hheld
  refine ⟨fun h => ?_, fun h r => ?_⟩
  · simp [exec_adminSetupWrite hheld, State.setupWrite, h]
  · simp [exec_adminSetupWrite hheld, State.setupWrite, h, State.recordError]

/-! ### POST (R145) -/

theorem tailAccepted_iff (size head tail new : Nat) :
    tailAccepted size head tail new = true ↔
      new < size ∧ (new + size - tail) % size + (tail + size - head) % size < size := by
  simp only [tailAccepted, Bool.and_eq_true, decide_eq_true_eq]
  rfl

theorem State.sqNumbered_of_exists {s : State} {i : SqId} {q : Sq} (h : s.sqs[i] = some q) :
    s.sqNumbered i.val = some (i, q) := by
  have hq : s.sqs[i.val] = some q := h
  simp [State.sqNumbered, hq]

theorem State.sqNumbered_of_absent {s : State} {k : Nat} (h : ∀ i : SqId, i.val = k → s.sqs[i] = none) :
    s.sqNumbered k = none := by
  unfold State.sqNumbered
  split
  · next hk =>
    have hnone : s.sqs[k] = none := h ⟨k, hk⟩ rfl
    rw [hnone]
  · rfl

theorem State.bqNumbered_of_exists {s : State} {n : LineId} {q : Bq} (h : s.bqs[n] = some q) :
    s.bqNumbered n.val = some (n, q) := by
  have hq : s.bqs[n.val] = some q := h
  simp [State.bqNumbered, hq]

theorem State.bqNumbered_of_absent {s : State} {k : Nat} (h : ∀ n : LineId, n.val = k → s.bqs[n] = none) :
    s.bqNumbered k = none := by
  unfold State.bqNumbered
  split
  · next hk =>
    have hnone : s.bqs[k] = none := h ⟨k, hk⟩ rfl
    rw [hnone]
  · rfl

theorem State.postSq_of_exists {s : State} {i : SqId} {q : Sq} (hpart : s.part = .running) (hq : s.sqs[i] = some q)
    (new : Nat) : s.postSq i.val new =
      if q.state = .deleting then s
      else if tailAccepted q.size q.head q.tail new then s.setSq i (some { q with tail := new })
      else s.recordError .badIndex := by
  simp only [State.postSq, hpart, State.sqNumbered_of_exists hq]

theorem State.postSq_of_unreached {s : State} {k : Nat}
    (h : s.part ≠ .running ∨ ∀ i : SqId, i.val = k → s.sqs[i] = none) (new : Nat) :
    s.postSq k new = s.recordError .badIndex := by
  unfold State.postSq
  split
  · next hrun hfound =>
    obtain hpart | habsent := h
    · exact absurd hrun hpart
    · rw [State.sqNumbered_of_absent habsent] at hfound
      cases hfound
  · rfl

theorem State.postBq_of_exists {s : State} {n : LineId} {q : Bq} (hpart : s.part = .running) (hq : s.bqs[n] = some q)
    (new : Nat) : s.postBq n.val new =
      if tailAccepted q.size q.head q.tail new then s.setBq n (some { q with tail := new })
      else s.recordError .badIndex := by
  simp only [State.postBq, hpart, State.bqNumbered_of_exists hq]

theorem State.postBq_of_unreached {s : State} {k : Nat}
    (h : s.part ≠ .running ∨ ∀ n : LineId, n.val = k → s.bqs[n] = none) (new : Nat) :
    s.postBq k new = s.recordError .badIndex := by
  unfold State.postBq
  split
  · next hrun hfound =>
    obtain hpart | habsent := h
    · exact absurd hrun hpart
    · rw [State.bqNumbered_of_absent habsent] at hfound
      cases hfound
  · rfl

/-- Settles O8: POST to a queue that exists, by the index checks, and to one that does not. -/
theorem postChecksTheTail : Obligations.PostChecksTheTail := by
  refine ⟨fun s i q tail hheld hpart hq => ?_, fun s k tail hheld hmiss => ?_,
    fun s n q tail hheld hpart hq => ?_, fun s k tail hheld hmiss => ?_⟩
  · have hnum : (BitVec.ofNat 5 i.val).toNat = i.val := by simp; omega
    rw [exec_postSq hheld, hnum,
      State.postSq_of_exists (s := { s with answer := .written }) (by exact hpart) (by exact hq)]
    simp only [tailAccepted_iff]
    split
    · rfl
    · split <;> rfl
  · rw [exec_postSq hheld, State.postSq_of_unreached (s := { s with answer := .written }) (by exact hmiss)]
    rfl
  · have hnum : (BitVec.ofNat 5 n.val).toNat = n.val := by simp; omega
    rw [exec_postBq hheld, hnum,
      State.postBq_of_exists (s := { s with answer := .written }) (by exact hpart) (by exact hq)]
    simp only [tailAccepted_iff]
    split <;> rfl
  · rw [exec_postBq hheld, State.postBq_of_unreached (s := { s with answer := .written }) (by exact hmiss)]
    rfl

/-! ### STATUS, CONTROL and INT_PENDING as read (R159, R195, R196) -/

theorem PartState.code_lt (p : PartState) : p.code < 4 := by cases p <;> decide

theorem HaltCause.code_lt (c : HaltCause) : c.code < 4 := by cases c <;> decide

theorem HostError.code_lt (e : HostError) : e.code < 16 := by cases e <;> decide

/-- Settles O10: the fields of STATUS, and its host error code set to NONE by the read. -/
theorem statusReadClearsHostError : Obligations.StatusReadClearsHostError := by
  intro s hheld
  have hp := s.part.code_lt
  have hc := s.haltCause.code_lt
  have he := s.hostError.code_lt
  have hword : s.statusWord.toNat = s.part.code + 4 * s.haltCause.code + 256 * s.hostError.code := by
    simp only [State.statusWord, BitVec.toNat_ofNat]
    omega
  refine ⟨s.statusWord, exec_statusRead hheld, ?_⟩
  omega

theorem State.controlWord_eq (s : State) : s.controlWord =
    if s.part = .running then (if s.intEnable then 5 else 1) else if s.intEnable then 4 else 0 := by
  unfold State.controlWord
  by_cases hp : s.part = .running <;> cases s.intEnable <;> simp [hp]

/-- INT_PENDING is the word whose bit `i` is the pending flag of CQ `i`. -/
theorem State.intPending_eq (s : State) :
    s.intPending = BitVec.ofNat 32 (Nat.ofBits fun i : Fin 9 => cqPending s.cqs[i]) := by
  unfold State.intPending
  congr 1
  simp [Nat.ofBits, Fin.foldr_succ]
  omega

theorem cqPending_iff (q : Option Cq) : cqPending q = true ↔ ∃ x, q = some x ∧ x.pending = true := by
  cases q <;> simp [cqPending]

theorem cqAsksInt_iff (q : Option Cq) :
    cqAsksInt q = true ↔ ∃ x, q = some x ∧ x.intEnable = true ∧ x.pending = true := by
  cases q <;> simp [cqAsksInt]

theorem State.intPending_bit (s : State) (i : CqId) :
    s.intPending.getLsbD i.val = true ↔ ∃ q, s.cqs[i] = some q ∧ q.pending = true := by
  have hi : i.val < 32 := by omega
  rw [State.intPending_eq, BitVec.getLsbD_ofNat, Nat.testBit_ofBits_lt _ _ i.isLt, ← cqPending_iff]
  simp [hi]

theorem State.intPending_high (s : State) (k : Nat) (h : 9 ≤ k) : s.intPending.getLsbD k = false := by
  rw [State.intPending_eq, BitVec.getLsbD_ofNat, Nat.testBit_ofBits_ge _ _ h, Bool.and_false]

/-- Settles O12: INT and INT_PENDING. -/
theorem intFollowsPendingFlags : Obligations.IntFollowsPendingFlags := by
  refine fun s => ⟨?_, s.intPending_bit, s.intPending_high⟩
  simp only [State.int, Bool.and_eq_true, List.any_eq_true, cqAsksInt_iff]
  refine and_congr_right fun _ => ⟨?_, ?_⟩
  · rintro ⟨x, hx, q, rfl, hq⟩
    obtain ⟨i, hi, hget⟩ := Vector.mem_iff_getElem.mp (Vector.mem_toList_iff.mp hx)
    exact ⟨⟨i, hi⟩, q, hget, hq⟩
  · rintro ⟨i, q, hi, hq⟩
    exact ⟨s.cqs[i], Vector.mem_toList_iff.mpr (Vector.getElem_mem _), q, hi, hq⟩

/-! ### Any access (R192) -/

theorem State.access_of_partial {s : State} {a : RegAccess} (ho : a.offset < 36)
    (h : a.enables ≠ 0xF#4 ∨ a.offset % 4 ≠ 0) : s.access a = { s with answer := .error } := by
  have : ¬Config.windowBytes ≤ a.offset := by simp only [Config.windowBytes]; omega
  rw [State.access, if_neg this, if_pos h]

theorem State.access_of_write {s : State} {a : RegAccess} {k : Nat} (he : a.enables = 0xF#4) (hw : a.write = true)
    (ho : a.offset = k) (hk : k < 36) (h4 : k % 4 = 0) :
    s.access a = State.writeRegister { s with answer := .written } k a.data := by
  subst ho
  have hin : ¬Config.windowBytes ≤ a.offset := by simp only [Config.windowBytes]; omega
  have hwhole : ¬(a.enables ≠ 0xF#4 ∨ a.offset % 4 ≠ 0) := by simp [he, h4]
  rw [State.access, if_neg hin, if_neg hwhole, if_pos hw]

theorem State.access_of_read {s : State} {a : RegAccess} {k : Nat} (he : a.enables = 0xF#4) (hw : a.write = false)
    (ho : a.offset = k) (hk : k < 36) (h4 : k % 4 = 0) : s.access a = s.readAccess k := by
  subst ho
  have hin : ¬Config.windowBytes ≤ a.offset := by simp only [Config.windowBytes]; omega
  have hwhole : ¬(a.enables ≠ 0xF#4 ∨ a.offset % 4 ≠ 0) := by simp [he, h4]
  rw [State.access, if_neg hin, if_neg hwhole, if_neg (by simp [hw])]

/-- Settles O11: the window, offset by offset. -/
theorem targetPortAnswersEveryAccess : Obligations.TargetPortAnswersEveryAccess := by
  intro s a hheld hoff
  rw [exec_registerWrite hheld]
  refine ⟨fun h => by rw [State.access_of_partial hoff h], ?_, ?_, ?_, ?_, ?_, ?_, ?_, ?_, ?_, ?_, ?_, ?_, ?_, ?_, ?_,
    ?_, ?_, ?_⟩
  · rintro he hw (ho | ho | ho) <;> rw [State.access_of_write he hw ho (by decide) (by decide)] <;> rfl
  · rintro he hw (ho | ho) <;> rw [State.access_of_read he hw ho (by decide) (by decide)] <;> rfl
  · intro he hw ho
    rw [State.access_of_read he hw ho (by decide) (by decide)]
    rfl
  · intro he hw ho
    rw [State.access_of_read he hw ho (by decide) (by decide), exec_statusRead hheld]
    rfl
  · intro he hw ho
    rw [State.access_of_read he hw ho (by decide) (by decide), ← State.controlWord_eq]
    rfl
  · intro he hw ho
    rw [State.access_of_read he hw ho (by decide) (by decide)]
    rfl
  · intro he hw ho
    rw [State.access_of_read he hw ho (by decide) (by decide)]
    rfl
  · intro he hw ho
    rw [State.access_of_read he hw ho (by decide) (by decide)]
    rfl
  · intro he hw ho
    rw [State.access_of_read he hw ho (by decide) (by decide)]
    exact ⟨s.intPending, rfl, s.intPending_bit, s.intPending_high⟩
  · intro he hw ho
    rw [State.access_of_write he hw ho (by decide) (by decide), exec_adminSetupWrite hheld]
    rfl
  · intro he hw ho
    rw [State.access_of_write he hw ho (by decide) (by decide), exec_adminSetupWrite hheld]
    rfl
  · intro he hw ho
    rw [State.access_of_write he hw ho (by decide) (by decide), exec_adminSetupWrite hheld]
    rfl
  · intro he hw ho
    rw [State.access_of_write he hw ho (by decide) (by decide), exec_ack hheld]
    rfl
  · intro he hw ho hk
    rw [State.access_of_write he hw ho (by decide) (by decide), exec_postSq hheld]
    simp [State.writeRegister, hk]
  · intro he hw ho hk
    rw [State.access_of_write he hw ho (by decide) (by decide), exec_postBq hheld]
    simp [State.writeRegister, hk]
  · intro he hw ho hk
    have h0 : a.data.extractLsb' 24 2 ≠ 0#2 := fun h => by simp [h] at hk
    have h1 : a.data.extractLsb' 24 2 ≠ 1#2 := fun h => by simp [h] at hk
    rw [State.access_of_write he hw ho (by decide) (by decide)]
    simp [State.writeRegister, h0, h1, State.recordError]
  · intro he hw ho hk
    rw [State.access_of_write he hw ho (by decide) (by decide), exec_softReset hheld, State.writeRegister, hk]
    rfl
  · intro he hw ho hk
    rw [State.access_of_write he hw ho (by decide) (by decide), exec_intEnable hheld, State.writeRegister, hk]
    rfl

end Sys2Proof.Machine
end

