-- ==== Sys2Proof/Proofs/MemoryPort.lean ====
section
/-! The memory port (R200, R201): which requester a grant takes, what its transfer makes of host memory, and which
command takes the end of a transfer. -/

namespace Sys2Proof.Machine

/-! ### The requester granted -/

/-- In a rising list the first element with a property is the least one. -/
theorem find?_least {P : Nat → Bool} : ∀ {l : List Nat} {x y : Nat}, l.Pairwise (· < ·) → l.find? P = some x →
    y ∈ l → P y = true → x ≤ y := by
  intro l
  induction l with
  | nil => simp
  | cons a l ih =>
    intro x y hs hx hy hp
    obtain ⟨ha, hs⟩ := List.pairwise_cons.mp hs
    rw [List.find?_cons] at hx
    split at hx
    · obtain rfl := Option.some.inj hx
      rcases List.mem_cons.mp hy with rfl | hy
      exacts [le_refl _, le_of_lt (ha y hy)]
    · next hna =>
      rcases List.mem_cons.mp hy with rfl | hy
      · rw [hp] at hna
        cases hna
      · exact ih hs hx hy hp

/-- How far a requester lies above the port's position, wrapping from 9 to 0: from 1 to 10. -/
def Port.distance (p : Port) (q : ReqId) : Nat := (q.val + 9 - p.position.val) % 10 + 1

def Port.waits (p : Port) (q : ReqId) : Bool := !(p.queues[q]).isEmpty

/-- Transfers wait in the queue of the requester `d` above the position. -/
def Port.waitsAt (p : Port) (d : Nat) : Bool := p.waits (p.position + Fin.ofNat 10 d)

theorem Port.waits_iff (p : Port) (q : ReqId) : p.waits q = true ↔ p.queues[q] ≠ [] := by
  unfold Port.waits
  cases p.queues[q] <;> simp

theorem Port.position_add_distance (p : Port) (q : ReqId) : (p.position + Fin.ofNat 10 (p.distance q) : ReqId) = q := by
  apply Fin.ext
  simp only [Port.distance, Fin.val_add, Fin.ofNat]
  omega

theorem Port.waitsAt_distance (p : Port) (q : ReqId) : p.waitsAt (p.distance q) = true ↔ p.queues[q] ≠ [] := by
  rw [Port.waitsAt, Port.position_add_distance, Port.waits_iff]

theorem Port.distance_mem (p : Port) (q : ReqId) : p.distance q ∈ [1, 2, 3, 4, 5, 6, 7, 8, 9, 10] := by
  simp only [Port.distance, List.mem_cons, List.not_mem_nil, or_false]
  omega

theorem Port.next_eq (p : Port) : p.next =
    ([1, 2, 3, 4, 5, 6, 7, 8, 9, 10].find? p.waitsAt).map fun d => p.position + Fin.ofNat 10 d := by
  rw [Port.next, List.find?_map]
  rfl

theorem Port.next_eq_none_iff (p : Port) : p.next = none ↔ ∀ q : ReqId, p.queues[q] = [] := by
  rw [Port.next_eq, Option.map_eq_none_iff, List.find?_eq_none]
  constructor
  · intro h q
    exact not_not.mp (mt (p.waitsAt_distance q).mpr (h _ (p.distance_mem q)))
  · intro h d _
    rw [Port.waitsAt, Port.waits_iff, h]
    exact fun hne => hne rfl

/-- R201: the requester granted has a transfer waiting, and no other that has lies nearer above the position. -/
theorem Port.next_spec {p : Port} {r : ReqId} (h : p.next = some r) :
    p.queues[r] ≠ [] ∧ ∀ q : ReqId, p.queues[q] ≠ [] → p.distance r ≤ p.distance q := by
  rw [Port.next_eq, Option.map_eq_some_iff] at h
  obtain ⟨d, hd, hr⟩ := h
  have hrange : 1 ≤ d ∧ d ≤ 10 := by
    have := List.mem_of_find?_eq_some hd
    simp only [List.mem_cons, List.not_mem_nil, or_false] at this
    omega
  have hdist : p.distance r = d := by
    rw [← hr]
    simp only [Port.distance, Fin.val_add, Fin.ofNat]
    omega
  refine ⟨(p.waitsAt_distance r).mp (hdist ▸ List.find?_some hd), fun q hq => ?_⟩
  rw [hdist]
  exact find?_least (by decide) hd (p.distance_mem q) ((p.waitsAt_distance q).mpr hq)

/-! ### The transfer carried -/

theorem answerBytes_completes (t : Transfer) : answerBytes .completes t = t.kind.length := rfl

theorem answerOutcome_completes (t : Transfer) (now : Word) (data : List Byte) :
    answerOutcome .completes t now data = .done data := by
  simp [answerOutcome, answerBytes]

section
variable {t : Transfer} {beat : Nat} (now : Word) (data : List Byte) (h1 : 1 ≤ t.kind.length)
  (h : 4 * beat < t.addr.toNat % 4 + t.kind.length)
include h1 h

theorem answerOutcome_errorAt : answerOutcome (.errorAt beat) t now data = .fault := by
  have : ¬t.kind.length ≤ answerBytes (.errorAt beat) t := by
    simp only [answerBytes, bytesBefore]
    omega
  rw [answerOutcome, if_neg this]
  exact fun k hk => BusAnswer.noConfusion hk

theorem answerOutcome_silentAt : answerOutcome (.silentAt beat) t now data = .unanswered now := by
  have : ¬t.kind.length ≤ answerBytes (.silentAt beat) t := by
    simp only [answerBytes, bytesBefore]
    omega
  rw [answerOutcome, if_neg this]

end

theorem exec_portGrant (stores : List (Nat × Byte)) (answer : BusAnswer) (s : State) :
    exec (.portGrant stores answer) s =
      .next (State.grantPort { s with mem := Memory.hostStores s.mem stores } answer) := rfl

theorem State.grantPort_of_none {s : State} (h : s.held = true ∨ s.port.current ≠ none ∨ s.port.next = none)
    (answer : BusAnswer) : s.grantPort answer = s := by
  unfold State.grantPort
  rcases h with h | h | h
  · rw [if_pos (.inl h)]
  · rw [if_pos (.inr h)]
  · rw [h]
    split <;> rfl

theorem State.grantPort_of_some {s : State} {r : ReqId} {x : Transfer} {rest : List Transfer} (hheld : s.held = false)
    (hfree : s.port.current = none) (hr : s.port.next = some r) (hq : s.port.queues[r] = x :: rest) (answer : BusAnswer) :
    s.grantPort answer = s.carry r x answer := by
  have hgo : ¬(s.held = true ∨ s.port.current ≠ none) := by simp [hheld, hfree]
  rw [State.grantPort, if_neg hgo, hr]
  dsimp only
  rw [hq]

/-- The transfer under way after its grant. -/
def State.carried (s : State) (r : ReqId) (x : Transfer) (answer : BusAnswer) : UnderWay :=
  { requester := r, transfer := x
    outcome := answerOutcome answer x s.timebase (match x.kind with
      | .read n => Memory.readBytes s.mem x.addr n
      | .write _ => []) }

/-- Host memory after the grant of a transfer. -/
def State.memAfter (s : State) (x : Transfer) (answer : BusAnswer) : List Host.Cell :=
  match x.kind with
  | .read _ => s.mem
  | .write bytes => Memory.writeBytes s.mem x.addr (bytes.take (answerBytes answer x))

theorem State.carry_eq (s : State) (r : ReqId) (x : Transfer) (answer : BusAnswer) :
    s.carry r x answer = { s with
      mem := s.memAfter x answer
      port := { queues := s.port.queues.set r (s.port.queues[r]).tail, current := some (s.carried r x answer)
                position := r } } := by
  unfold State.carry State.memAfter State.carried
  cases x.kind <;> rfl

/-- Settles O13: the grant and its transfer; with no grant only the host's own stores happen. -/
theorem portGrantIsRoundRobin : Obligations.PortGrantIsRoundRobin := by
  refine ⟨fun s stores answer before hheld hfree hwait hbefore => ?_, fun s stores answer h => ?_⟩
  · subst hbefore
    obtain ⟨r, hr⟩ : ∃ r, s.port.next = some r := by
      rw [← Option.ne_none_iff_exists', ne_eq, Port.next_eq_none_iff]
      exact not_forall.mpr hwait
    obtain ⟨hne, hleast⟩ := Port.next_spec hr
    obtain ⟨x, rest, hq⟩ := List.exists_cons_of_ne_nil hne
    let s1 : State := { s with mem := Memory.hostStores s.mem stores }
    refine ⟨r, x, rest, s1.carried r x answer, s1.memAfter x answer, hq,
      fun q h => Nat.le_of_succ_le_succ (hleast q h), ?_, rfl, rfl, fun n hk => ?_, fun bytes hk => ?_,
      fun beat hlen hbeat => ⟨?_, ?_⟩⟩
    · rw [exec_portGrant, State.grantPort_of_some (s := s1) hheld hfree hr hq, State.carry_eq]
      simp only [s1, hq, List.tail_cons]
    · refine ⟨by simp [State.memAfter, hk, s1], ?_⟩
      rintro rfl
      simp [State.carried, hk, answerOutcome_completes, s1]
    · refine ⟨by simp [State.memAfter, hk, s1], ?_⟩
      rintro rfl
      have hmem : s1.memAfter x .completes = Memory.writeBytes s1.mem x.addr bytes := by
        have hall : bytes.take (answerBytes .completes x) = bytes := by
          simp [answerBytes_completes, hk, TransferKind.length]
        simp only [State.memAfter, hk, hall]
      refine ⟨by simp [State.carried, hk, answerOutcome_completes], hmem, fun hwf hsize => ?_⟩
      have hwf1 : Memory.wf s1.mem = true := Memory.wf_hostStores stores s.mem hwf
      rw [hmem]
      refine ⟨fun j hj => ?_, fun a ha => Memory.read_writeBytes_ne _ _ _ _ hwf1 ha⟩
      rw [show byteAt bytes j = bytes[j] from List.getD_eq_getElem _ _ hj]
      exact Memory.read_writeBytes_same _ _ _ j hwf1 (by omega) hj
    · rintro rfl
      exact answerOutcome_errorAt (t := x) s.timebase _ hlen hbeat
    · rintro rfl
      exact answerOutcome_silentAt (t := x) s.timebase _ hlen hbeat
  · rw [exec_portGrant, State.grantPort_of_none]
    rcases h with h | h | h
    exacts [.inl h, .inr (.inl h), .inr (.inr ((Port.next_eq_none_iff _).mpr h))]

/-- Settles O14: of a write that faults the bytes before the faulting beat are stored. -/
theorem faultedWriteStopsAtItsBeat : Obligations.FaultedWriteStopsAtItsBeat := by
  intro s r addr bytes use rest beat hheld hfree hwf hsize hq halone
  have hr : s.port.next = some r := by
    cases hn : s.port.next with
    | none =>
      have hnil := (Port.next_eq_none_iff _).mp hn r
      rw [hq] at hnil
      cases hnil
    | some k =>
      by_cases hk : k = r
      · rw [hk]
      · exact absurd (halone k hk) (Port.next_spec hn).1
  let x : Transfer := { addr := addr, kind := .write bytes, use := use }
  have hcount (j : Nat) (hj : j < bytes.length) :
      addr.toNat % 4 + j < 4 * beat ↔ j < answerBytes (.errorAt beat) x := by
    simp only [answerBytes, x, TransferKind.length, bytesBefore]
    omega
  refine ⟨s.carry r x (.errorAt beat), ?_, ?_, ?_, fun hlen hbeat => ⟨_, rfl, answerOutcome_errorAt (t := x) s.timebase _ hlen hbeat⟩⟩
  · have hstores : exec (.portGrant [] (.errorAt beat)) s = .next (s.grantPort (.errorAt beat)) := rfl
    rw [hstores, State.grantPort_of_some hheld hfree hr hq]
  · intro j hj hbeat
    have hj' : j < (bytes.take (answerBytes (.errorAt beat) x)).length := by
      rw [List.length_take]
      have := (hcount j hj).mp hbeat
      omega
    have hread := Memory.read_writeBytes_same s.mem addr _ j hwf (by rw [List.length_take]; omega) hj'
    rw [List.getElem_take] at hread
    rw [show byteAt bytes j = bytes[j] from List.getD_eq_getElem _ _ hj]
    exact hread
  · intro a ha
    refine Memory.read_writeBytes_ne s.mem addr _ a hwf fun j hj => ?_
    rw [List.length_take] at hj
    exact ha j (by omega) ((hcount j (by omega)).mpr (by omega))

/-! ### The end of a transfer -/

/-- The command that takes the end of a transfer does what its requester does at that end. -/
theorem exec_taker {s : State} {use : TransferUse} {data : Option (List Byte)} (h : s.Ended use data) :
    exec use.taker s = .next (s.transferEnded use data) := by
  have hend := State.endedTransfer_of_ended h
  cases use with
  | sqFetch sq n i => change execFetchComplete s = _; simp only [execFetchComplete, hend, State.transferEnded]
  | descriptor n =>
    change execDescriptorReadComplete s = _; simp only [execDescriptorReadComplete, hend, State.transferEnded]
  | staleDescriptor =>
    change execDescriptorReadComplete s = _; simp only [execDescriptorReadComplete, hend, State.transferEnded]
  | adminFetch => change execAdminFetchComplete s = _; simp only [execAdminFetchComplete, hend, State.transferEnded]
  | blockRead =>
    change execParameterBlockReadDone s = _; simp only [execParameterBlockReadDone, hend, State.transferEnded]
  | resultWrite => change execResultWriteDone s = _; simp only [execResultWriteDone, hend, State.transferEnded]
  | completion i w =>
    change execCompletionWriteDone s = _; simp only [execCompletionWriteDone, hend, State.transferEnded]
  | requestData n i =>
    change execRequestDataReadDone s = _; simp only [execRequestDataReadDone, hend, State.transferEnded]
  | payload n i => change execPayloadWriteDone s = _; simp only [execPayloadWriteDone, hend, State.transferEnded]
  | monitorData n =>
    change execMonitorDataWriteDone s = _; simp only [execMonitorDataWriteDone, hend, State.transferEnded]

/-- What the end of a transfer does to its requester does not depend on how the port stood but for its queues. -/
theorem State.transferEnded_setCurrent (s : State) (u : Option UnderWay) (use : TransferUse)
    (data : Option (List Byte)) :
    State.transferEnded { s with port := { s.port with current := u } } use data = s.transferEnded use data := by
  cases use <;> rfl

/-- Settles O15: the expiry of the 64 µs and an error response end a transfer alike. -/
theorem beatTimeoutIsABusFault : Obligations.BeatTimeoutIsABusFault := by
  intro s u since hu hsilent
  have htimeout : exec .beatTimeout s = .next
      (if reached s.timebase (since + 64) then s.transferEnded u.transfer.use none else s) := by
    change execBeatTimeout s = _
    simp only [execBeatTimeout, State.beatTimedOut, hu, hsilent]
    rfl
  rw [htimeout]
  refine ⟨fun h => ?_, fun h => ?_⟩
  · rw [if_pos ((reached_iff _ _).mpr h)]
    refine ⟨_, rfl, ?_⟩
    have hend : State.Ended { s with port := { s.port with current := some { u with outcome := .fault } } }
        u.transfer.use none := ⟨{ u with outcome := .fault }, rfl, rfl, rfl⟩
    rw [exec_taker hend, State.transferEnded_setCurrent]
  · rw [if_neg (by rw [reached_iff]; omega)]

end Sys2Proof.Machine
end

