-- ==== Sys2Proof/Proofs/AdminUnit.lean ====
section
/-! The admin unit (R150, R167, R177 to R182): fetching and taking a command, its blocks and result writes, and the
command in hand that its owner block answers. -/

namespace Sys2Proof.Machine

/-! ### The command in hand -/

section
variable {s : State} {op : Nat} {h : Hand} {q0 : Cq} (hx : s.Executing op h q0)
include hx

theorem State.Executing.completes (st : Status) (a b c : Nat) : s.completeCommand st a b c = s.answered h q0 st a b c := by
  obtain ⟨hhand, -, -, hcq, hact⟩ := hx
  exact State.completeCommand_eq_answered hhand hcq hact st a b c

theorem State.Executing.answers (st : Status) : s.answerCommand st = s.answered h q0 st 0 0 0 := hx.completes st 0 0 0

theorem State.Executing.pends (w : PendingWork) : s.pendCommand w = s.pended h w :=
  State.pendCommand_eq_pended hx.1 w

/-- The command stays in hand in a state with the same admin unit and admin CQ. -/
theorem State.Executing.of_same {t : State} (ha : t.admin = s.admin) (hc : t.cqs[(0 : CqId)] = s.cqs[(0 : CqId)]) :
    t.Executing op h q0 := by
  obtain ⟨hhand, hphase, hop, hcq, hact⟩ := hx
  exact ⟨by rw [ha, hhand], by rw [ha, hphase], hop, hc.trans hcq, hact⟩

theorem State.Executing.setCq {i : CqId} (hi : i ≠ 0) (q : Option Cq) : (s.setCq i q).Executing op h q0 :=
  hx.of_same rfl (by rw [State.cq_setCq, if_neg (Ne.symm hi)])

theorem State.Executing.setSq (i : SqId) (q : Option Sq) : (s.setSq i q).Executing op h q0 := hx.of_same rfl rfl

theorem State.Executing.setBq (n : LineId) (q : Option Bq) : (s.setBq n q).Executing op h q0 := hx.of_same rfl rfl

theorem State.Executing.setLine (n : LineId) (l : Line) : (s.setLine n l).Executing op h q0 := hx.of_same rfl rfl

theorem State.Executing.issue (r : ReqId) (t : Transfer) : (s.issue r t).Executing op h q0 := hx.of_same rfl rfl

end

/-! ### Fetching a command (R150, R177, R179) -/

/-- Settles O16: the fetch of the record at the admin SQ's head. -/
theorem adminFetchStartsInIdle : Obligations.AdminFetchStartsInIdle := by
  intro s q hq
  have hexec : exec .adminFetchStart s = .next s.startAdminFetch := rfl
  rw [hexec, State.startAdminFetch, hq]
  refine ⟨fun hpart hphase hplaces hrecords => ?_, fun hno => ?_⟩
  · exact congrArg Host.Outcome.next (if_pos ⟨hpart, hphase, hplaces, hrecords⟩)
  · refine congrArg Host.Outcome.next (if_neg ?_)
    rintro ⟨hpart, hphase, hplaces, hrecords⟩
    have hplaces : s.admin.pendingList.length < 4 := hplaces
    have hrecords : 1 ≤ (q.tail + q.size - q.head) % q.size := hrecords
    rcases hno with hno | hno | hno | hno
    exacts [hno hpart, hno hphase, by omega, by omega]

/-- R167, R177 to R179: a record taken, by its opcode and operands. -/
theorem State.takeCommand_eq (s : State) (r : List Byte) : s.takeCommand r =
    let s1 := s.modAdmin fun a =>
      { a with phase := .executing
               hand := some { record := r, block := [], writes := [], resultA := 0, resultB := 0 } }
    if admOpcode r = 0 ∨ 14 ≤ admOpcode r then s1
    else if admOpcode r = 5 ∨ admOpcode r = 8 then
      (s1.modAdmin fun a => { a with phase := .reading }).issue adminUnit
        { addr := admAddr r, kind := .read (if admOpcode r = 5 then 40 else 32), use := .blockRead }
    else if admRefused r then s1.answerCommand .badParameter else s1 := by
  have hunknown : admUnknown r = true ↔ admOpcode r = 0 ∨ 14 ≤ admOpcode r := by
    simp only [admUnknown, Bool.or_eq_true, decide_eq_true_eq]
    omega
  have hlen : admBlockLength r = if admOpcode r = 5 ∨ admOpcode r = 8 then
      some (if admOpcode r = 5 then 40 else 32) else none := by
    unfold admBlockLength
    split_ifs <;> first | rfl | omega
  unfold State.takeCommand
  dsimp only
  simp only [hunknown]
  split
  · rfl
  · rw [hlen]
    by_cases hblock : admOpcode r = 5 ∨ admOpcode r = 8
    · rw [if_pos hblock, if_pos hblock]
    · rw [if_neg hblock, if_neg hblock]

/-- Settles O17: the record taken reads its block, is refused, or is ready to be executed. -/
theorem adminFetchTakesTheCommand : Obligations.AdminFetchTakesTheCommand := by
  intro s s1 q c r h hend hq hc hact hh hs1
  have h0 : byteAt r 0 = 0#8 ↔ admOpcode r = 0 := byte_eq_ofNat _ 0 (by omega)
  have h5 : byteAt r 0 = 5#8 ↔ admOpcode r = 5 := byte_eq_ofNat _ 5 (by omega)
  have h8 : byteAt r 0 = 8#8 ↔ admOpcode r = 8 := byte_eq_ofNat _ 8 (by omega)
  have hop : (byteAt r 0).toNat = admOpcode r := rfl
  have hadvance : q.advance = { q with head := if q.head + 1 < q.size then q.head + 1 else 0 } := rfl
  have hexec : exec .adminFetchComplete s = .next ((s.portFree.setSq 0 (some q.advance)).takeCommand r) := by
    have hfree : s.portFree.sqs[(0 : SqId)] = some q := hq
    refine (exec_taker hend).trans (congrArg Host.Outcome.next ?_)
    change s.portFree.adminFetchEnded (some r) = _
    unfold State.adminFetchEnded
    rw [hfree]
  have htaken : (s.portFree.setSq 0 (some q.advance)).modAdmin (fun a =>
      { a with phase := .executing
               hand := some { record := r, block := [], writes := [], resultA := 0, resultB := 0 } }) = s1 := by
    rw [hs1, hh, hadvance]
    rfl
  have hrefused : s1.answerCommand .badParameter = s1.answered h c .badParameter 0 0 0 :=
    State.answerCommand_eq_answered (by rw [hs1]) (by rw [hs1]; exact hc) hact _
  rw [hexec, State.takeCommand_eq, htaken, ← hrefused]
  refine ⟨fun hblock => ?_, fun hunknown => ?_, fun hge hle hn5 hn8 => ?_⟩
  · have hblock' : admOpcode r = 5 ∨ admOpcode r = 8 := hblock.imp h5.mp h8.mp
    have hlen : (if byteAt r 0 = 5#8 then 40 else 32) = if admOpcode r = 5 then 40 else 32 := if_congr h5 rfl rfl
    rw [if_neg (by omega), if_pos hblock', hlen]
    rfl
  · have hunknown' : admOpcode r = 0 ∨ 14 ≤ admOpcode r := hunknown.imp h0.mp id
    rw [if_pos hunknown']
  · have hknown : ¬(admOpcode r = 0 ∨ 14 ≤ admOpcode r) := by omega
    rw [if_neg hknown, if_neg (by rintro (h | h); exacts [hn5 (h5.mpr h), hn8 (h8.mpr h)]), ← admRefused_iff]
    exact ⟨fun href => by rw [if_pos href], fun href => by rw [if_neg href]⟩

/-! ### The command's blocks and results (R167, R178, R181) -/

section
variable {s : State} {h : Hand} (hhand : s.admin.hand = some h)
include hhand

theorem State.blockReadEnded_some (b : List Byte) : s.blockReadEnded (some b) =
    let s1 := s.modAdmin fun a => { a with phase := .executing, hand := some { h with block := b } }
    if admRefused h.record then s1.answerCommand .badParameter else s1 := by
  unfold State.blockReadEnded
  rw [hhand]

theorem State.blockReadEnded_none : s.blockReadEnded none = s.answerCommand .busFault := by
  unfold State.blockReadEnded
  rw [hhand]

theorem State.nextResult_of_nil (hw : h.writes = []) :
    s.nextResult = s.completeCommand .ok h.resultA h.resultB 0 := by
  rw [State.nextResult, hhand]
  dsimp only
  rw [hw]

theorem State.nextResult_of_cons {a : Word} {b : List Byte} {rest : List (Word × List Byte)}
    (hw : h.writes = (a, b) :: rest) : s.nextResult =
      (s.modAdmin fun ad => { ad with phase := .writing, hand := some { h with writes := rest } }).issue adminUnit
        { addr := a, kind := .write b, use := .resultWrite } := by
  rw [State.nextResult, hhand]
  dsimp only
  rw [hw]

end

/-- Settles O19: the ends of the command's own transfers, and a command of no known opcode. -/
theorem commandStepsOfTheAdminUnit : Obligations.CommandStepsOfTheAdminUnit := by
  intro s h q hhand hcq hact
  have hfree : s.portFree.admin.hand = some h := hhand
  have hanswer (st : Status) (a b : Nat) : s.portFree.completeCommand st a b 0 = s.portFree.answered h q st a b 0 :=
    State.completeCommand_eq_answered (s := s.portFree) hfree hcq hact st a b 0
  have hread (data : Option (List Byte)) (hend : s.Ended .blockRead data) :
      exec .parameterBlockReadDone s = .next (s.portFree.blockReadEnded data) := exec_taker hend
  have hwrite (data : Option (List Byte)) (hend : s.Ended .resultWrite data) :
      exec .resultWriteDone s = .next (s.portFree.resultWriteEnded data) := exec_taker hend
  refine ⟨fun b s1 hend hs1 => ?_, fun hend => ?_, fun hend => ?_, fun d hend hnone => ?_,
    fun d a b rest hend hsome => ?_, fun hphase hop => ?_⟩
  · have hready : s.portFree.modAdmin (fun a => { a with phase := .executing, hand := some { h with block := b } }) = s1 := by
      rw [hs1]
      rfl
    have hrefused : s1.answerCommand .badParameter = s1.answered { h with block := b } q .badParameter 0 0 0 :=
      State.answerCommand_eq_answered (by rw [hs1]) (by rw [hs1]; exact hcq) hact _
    rw [hread _ hend, ← hrefused, ← admRefused_iff, State.blockReadEnded_some hfree, hready]
    exact ⟨fun href => by rw [if_pos href], fun href => by rw [if_neg href]⟩
  · exact (hread _ hend).trans (congrArg Host.Outcome.next ((State.blockReadEnded_none hfree).trans (hanswer _ _ _)))
  · exact (hwrite _ hend).trans (congrArg Host.Outcome.next (hanswer _ _ _))
  · exact (hwrite _ hend).trans
      (congrArg Host.Outcome.next ((State.nextResult_of_nil hfree hnone).trans (hanswer _ _ _)))
  · exact (hwrite _ hend).trans (congrArg Host.Outcome.next (State.nextResult_of_cons hfree hsome))
  · have hunknown : admUnknown h.record = true := by
      rw [admUnknown, Bool.or_eq_true, decide_eq_true_eq, decide_eq_true_eq]
      exact hop.imp (byte_eq_ofNat _ 0 (by omega)).mp id
    change execBadCommand s = _
    simp only [execBadCommand, hhand, hphase, hunknown, and_self, if_true]
    rw [State.answerCommand_eq_answered hhand hcq hact]

/-! ### Queue commands (R184 to R186, R160) -/

theorem ringInRange_iff (base : Word) (size : Nat) :
    ringInRange base size = true ↔ base.toNat % 32 = 0 ∧ 4 ≤ size ∧ size ≤ 256 := by
  simp only [ringInRange, Bool.and_eq_true, decide_eq_true_eq, and_assoc]

theorem createCqInRange_iff (r : List Byte) : createCqInRange r = true ↔
    admB r ≤ 1 ∧ 1 ≤ admC r ∧ (admAddr r).toNat % 32 = 0 ∧ 4 ≤ admSize r ∧ admSize r ≤ 256 := by
  simp only [createCqInRange, Bool.and_eq_true, decide_eq_true_eq, ringInRange_iff, and_assoc]

theorem createSqInRange_iff (r : List Byte) : createSqInRange r = true ↔
    admLine r ≤ 7 ∧ admB r ≤ 1 ∧ (admAddr r).toNat % 32 = 0 ∧ 4 ≤ admSize r ∧ admSize r ≤ 256 := by
  simp only [createSqInRange, Bool.and_eq_true, decide_eq_true_eq, ringInRange_iff, and_assoc]

theorem State.createCq_of_badId {s : State} {r : List Byte} (h : admA r = 0 ∨ 8 < admA r) :
    s.createCq r = s.answerCommand .badQueueId := by
  unfold State.createCq
  split
  · rfl
  · rw [dif_neg (by omega)]

theorem State.createCq_of_id {r : List Byte} {i : CqId} (hi : i.val = admA r) (h0 : i ≠ 0) (s : State) :
    s.createCq r =
      if (s.cqs[i]).isSome then s.answerCommand .queueExists
      else if !createCqInRange r then s.answerCommand .badParameter
      else (s.setCq i (some (newCq (admAddr r) (admSize r) (admC r) (admD r).toNat (decide (admB r = 1))))).answerCommand
        .ok := by
  have hk : admA r < 9 := hi ▸ i.isLt
  obtain rfl : i = ⟨admA r, hk⟩ := Fin.ext hi
  have hne : admA r ≠ 0 := fun h => h0 (Fin.ext h)
  rw [State.createCq, if_neg hne, dif_pos hk]
  rfl

/-- Settles O20: the checks of CREATE_CQ in order, and the new CQ. -/
theorem createCqChecksInOrder : Obligations.CreateCqChecksInOrder := by
  intro s h q0 hx
  have hexec : exec .createCq s = .next (s.createCq h.record) := by
    change execCreateCq s = _
    rw [execCreateCq, State.inHand_of_executing hx]
  rw [hexec]
  refine ⟨fun hid => ?_, fun i hi h0 => ⟨fun hex => ?_, fun hnone hbad => ?_, fun hnone hb hc haddr hmin hmax => ?_⟩⟩
  · rw [State.createCq_of_badId hid, hx.answers]
  · rw [State.createCq_of_id hi h0, if_pos (Option.isSome_iff_ne_none.mpr hex), hx.answers]
  · have hrange : (!createCqInRange h.record) = true := by
      rw [Bool.not_eq_true', ← Bool.not_eq_true, createCqInRange_iff]
      omega
    rw [State.createCq_of_id hi h0, if_neg (by simp [hnone]), if_pos hrange, hx.answers]
  · have hrange : createCqInRange h.record = true := (createCqInRange_iff _).mpr ⟨hb, hc, haddr, hmin, hmax⟩
    rw [State.createCq_of_id hi h0, if_neg (by simp [hnone]), if_neg (by simp [hrange]), (hx.setCq h0 _).answers]
    rfl

theorem sqBoundTo_iff (i : CqId) (q : Option Sq) :
    sqBoundTo i q = true ↔ ∃ v b, q = some v ∧ v.binding = some b ∧ b.cq = i := by
  unfold sqBoundTo
  cases q with
  | none => simp
  | some v => cases hb : v.binding <;> simp [hb]

theorem lineNames_iff (i : CqId) (l : Line) :
    lineNames i l = true ↔ ∃ cfg, l.config = some cfg ∧ cfg.lineCq = i := by
  unfold lineNames
  cases l.config <;> simp

theorem Vector.toList_any_iff {α : Type} {k : Nat} (v : Vector α k) (P : α → Bool) :
    v.toList.any P = true ↔ ∃ i : Fin k, P v[i] = true := by
  rw [List.any_eq_true]
  constructor
  · rintro ⟨x, hx, hp⟩
    obtain ⟨i, hi, rfl⟩ := Vector.mem_iff_getElem.mp (Vector.mem_toList_iff.mp hx)
    exact ⟨⟨i, hi⟩, hp⟩
  · rintro ⟨i, hp⟩
    exact ⟨v[i], Vector.mem_toList_iff.mpr (Vector.getElem_mem _), hp⟩

theorem State.cqInUse_iff (s : State) (i : CqId) : s.cqInUse i = true ↔
    (∃ (j : SqId) (v : Sq) (b : SqBinding), s.sqs[j] = some v ∧ v.binding = some b ∧ b.cq = i)
      ∨ ∃ (n : LineId) (cfg : LineConfig), (s.line n).config = some cfg ∧ cfg.lineCq = i := by
  simp only [State.cqInUse, Bool.or_eq_true, Vector.toList_any_iff, sqBoundTo_iff, lineNames_iff]
  rfl

theorem State.deleteCq_of_id {s : State} {r : List Byte} {i : CqId} {q : Cq} (hi : i.val = admA r) (h0 : i ≠ 0)
    (hq : s.cqs[i] = some q) : s.deleteCq r =
      if s.cqInUse i then s.answerCommand .queueInUse else (s.setCq i none).completeCommand .ok q.discards 0 0 := by
  have hne : admA r ≠ 0 := fun h => h0 (Fin.ext (hi.trans h))
  rw [State.deleteCq, if_neg hne, ← hi, State.cqNumbered_of_exists hq]

/-- Settles O21: a CQ bound or named is in use; another goes with its discard count answered. -/
theorem deleteCqRefusesAQueueInUse : Obligations.DeleteCqRefusesAQueueInUse := by
  intro s h q0 hx
  have hexec : exec .deleteCq s = .next (s.deleteCq h.record) := by
    change execDeleteCq s = _
    rw [execDeleteCq, State.inHand_of_executing hx]
  rw [hexec]
  refine ⟨fun hid => ?_, fun i q hi h0 hq => ⟨fun huse => ?_, fun hsq hline => ?_⟩⟩
  · rw [← hx.answers, State.deleteCq]
    split
    · rfl
    · next hne => rw [State.cqNumbered_of_absent (hid.resolve_left hne)]
  · rw [State.deleteCq_of_id hi h0 hq, if_pos ((s.cqInUse_iff i).mpr huse), hx.answers]
  · have hfree : ¬s.cqInUse i = true := by
      rw [State.cqInUse_iff]
      rintro (⟨j, v, b, hj, hb, hcq⟩ | ⟨n, cfg, hcfg, hcq⟩)
      exacts [hsq j v b hj hb hcq, hline n cfg hcfg hcq]
    rw [State.deleteCq_of_id hi h0 hq, if_neg hfree, (hx.setCq h0 _).completes]
    rfl

theorem State.createSq_of_badId {s : State} {r : List Byte} (h : admA r = 0 ∨ 16 < admA r) :
    s.createSq r = s.answerCommand .badQueueId := by
  unfold State.createSq
  split
  · rfl
  · rw [dif_neg (by omega)]

theorem State.createSq_of_exists {s : State} {r : List Byte} {i : SqId} {v : Sq} (hi : i.val = admA r) (h0 : i ≠ 0)
    (hv : s.sqs[i] = some v) :
    s.createSq r = s.answerCommand (if v.state = .deleting then .queueInUse else .queueExists) := by
  have hk : admA r < 17 := hi ▸ i.isLt
  obtain rfl : i = ⟨admA r, hk⟩ := Fin.ext hi
  have hne : admA r ≠ 0 := fun h => h0 (Fin.ext h)
  have hv : s.sqs[admA r] = some v := hv
  rw [State.createSq, if_neg hne, dif_pos hk, hv]

section
variable {s : State} {r : List Byte} {i : SqId} (hi : i.val = admA r) (h0 : i ≠ 0) (hv : s.sqs[i] = none)
include hi h0 hv

theorem State.createSq_of_outOfRange (hrange : createSqInRange r = false) :
    s.createSq r = s.answerCommand .badParameter := by
  have hk : admA r < 17 := hi ▸ i.isLt
  obtain rfl : i = ⟨admA r, hk⟩ := Fin.ext hi
  have hne : admA r ≠ 0 := fun h => h0 (Fin.ext h)
  have hv : s.sqs[admA r] = none := hv
  rw [State.createSq, if_neg hne, dif_pos hk, hv]
  exact if_pos (by rw [hrange, Bool.not_false])

theorem State.createSq_of_noCq (hrange : createSqInRange r = true) (hcq : s.activeCq (admC r) = none) :
    s.createSq r = s.answerCommand .badQueueId := by
  have hk : admA r < 17 := hi ▸ i.isLt
  obtain rfl : i = ⟨admA r, hk⟩ := Fin.ext hi
  have hne : admA r ≠ 0 := fun h => h0 (Fin.ext h)
  have hv : s.sqs[admA r] = none := hv
  rw [State.createSq, if_neg hne, dif_pos hk, hv]
  dsimp only
  rw [if_neg (by simp [hrange]), hcq]

theorem State.createSq_of_cq {k : CqId} (hrange : createSqInRange r = true) (hcq : s.activeCq (admC r) = some k) :
    s.createSq r = (s.setSq i (some (newSq (admAddr r) (admSize r)
      (some { line := admLineId r, cq := k, priority := if admB r = 1 then .high else .normal })))).answerCommand .ok := by
  have hk : admA r < 17 := hi ▸ i.isLt
  obtain rfl : i = ⟨admA r, hk⟩ := Fin.ext hi
  have hne : admA r ≠ 0 := fun h => h0 (Fin.ext h)
  have hv : s.sqs[admA r] = none := hv
  rw [State.createSq, if_neg hne, dif_pos hk, hv]
  dsimp only
  rw [if_neg (by simp [hrange]), hcq]

end

theorem State.activeCq_of_active {s : State} {m : Nat} {k : CqId} {c : Cq} (hk : k.val = m) (h0 : k ≠ 0)
    (hc : s.cqs[k] = some c) (hact : c.state = .active) : s.activeCq m = some k := by
  subst hk
  have hne : k.val ≠ 0 := fun h => h0 (Fin.ext h)
  rw [State.activeCq, if_neg hne, State.cqNumbered_of_exists hc]
  exact if_pos hact

theorem State.activeCq_of_none {s : State} {m : Nat}
    (h : m = 0 ∨ ∀ (k : CqId) (c : Cq), k.val = m → s.cqs[k] = some c → c.state ≠ .active) : s.activeCq m = none := by
  unfold State.activeCq
  split
  · rfl
  · next hne =>
    split
    · next k c hnum =>
      obtain ⟨hk, hc⟩ := State.cqNumbered_eq_some hnum
      exact if_neg (h.resolve_left hne k c hk hc)
    · rfl

/-- Settles O22: the checks of CREATE_SQ in order, and the new SQ. -/
theorem createSqChecksInOrder : Obligations.CreateSqChecksInOrder := by
  intro s h q0 hx
  have hexec : exec .createSq s = .next (s.createSq h.record) := by
    change execCreateSq s = _
    rw [execCreateSq, State.inHand_of_executing hx]
  rw [hexec]
  refine ⟨fun hid => ?_, fun i hi h0 => ⟨fun v hv => ?_, fun hnone hbad => ?_,
    fun hnone hb haddr hmin hmax n hn => ⟨fun hcq => ?_, fun k c hk hk0 hc hact => ?_⟩⟩⟩
  · rw [State.createSq_of_badId hid, hx.answers]
  · rw [State.createSq_of_exists hi h0 hv, hx.answers]
  · have hrange : createSqInRange h.record = false := by
      rw [← Bool.not_eq_true, createSqInRange_iff]
      omega
    rw [State.createSq_of_outOfRange hi h0 hnone hrange, hx.answers]
  all_goals
    have hrange : createSqInRange h.record = true :=
      (createSqInRange_iff _).mpr ⟨by omega, hb, haddr, hmin, hmax⟩
  · rw [State.createSq_of_noCq hi h0 hnone hrange (State.activeCq_of_none hcq), hx.answers]
  · have hline : admLineId h.record = n := by
      apply Fin.ext
      simp only [admLineId, Fin.ofNat, ← hn]
      omega
    rw [State.createSq_of_cq hi h0 hnone hrange (State.activeCq_of_active hk hk0 hc hact), hline]
    exact congrArg Host.Outcome.next ((hx.setSq _ _).answers _)

end Sys2Proof.Machine
end

