-- ==== Sys2Proof/Proofs/QueueDeletion.lean ====
section
/-! DELETE_SQ and the pending list (R160, R182): an SQ in use waits, and its entry is answered when its work is over. -/

namespace Sys2Proof.Machine

/-! ### The pending list -/

/-- No entry of the list is of this work and not yet over. -/
def NonePending (w : PendingWork) (es : List PendingEntry) : Prop := ∀ x ∈ es, x.work ≠ w ∨ x.finished = true

theorem NonePending.cons {w : PendingWork} {x : PendingEntry} {es : List PendingEntry} (h : NonePending w (x :: es)) :
    ¬(x.work = w ∧ x.finished = false) ∧ NonePending w es := by
  obtain ⟨hx, hes⟩ := List.forall_mem_cons.mp h
  refine ⟨fun ⟨hw, hf⟩ => ?_, hes⟩
  rcases hx with hx | hx
  · exact hx hw
  · rw [hf] at hx
    cases hx

theorem finishFirst_append {w : PendingWork} {e : PendingEntry} (hw : e.work = w) (hf : e.finished = false)
    (later : List PendingEntry) : ∀ before, NonePending w before →
      finishFirst w (before ++ e :: later) = before ++ { e with finished := true } :: later
  | [], _ => by rw [List.nil_append, List.nil_append, finishFirst, if_pos ⟨hw, hf⟩]
  | x :: before, h => by
    rw [List.cons_append, finishFirst, if_neg h.cons.1, finishFirst_append hw hf later before h.cons.2, List.cons_append]

theorem find?_pending {w : PendingWork} {e : PendingEntry} (hw : e.work = w) (hf : e.finished = false)
    (later : List PendingEntry) : ∀ before, NonePending w before →
      (before ++ e :: later).find? (fun e => decide (e.work = w) && !e.finished) = some e
  | [], _ => by simp [hw, hf]
  | x :: before, h => by
    have hx : (decide (x.work = w) && !x.finished) = false := by
      have := h.cons.1
      simp only [Bool.and_eq_false_imp, decide_eq_true_eq, Bool.not_eq_false']
      intro hxw
      cases hxf : x.finished
      exacts [absurd ⟨hxw, hxf⟩ this, rfl]
    rw [List.cons_append, List.find?_cons_of_neg (by simp [hx]), find?_pending hw hf later before h.cons.2]

/-- R182: the first entry of a work not yet over is answered with the count. -/
theorem State.finishPending_eq_pendingOver {s : State} {w : PendingWork} {before later : List PendingEntry}
    {e : PendingEntry} {q0 : Cq} (hcq : s.cqs[(0 : CqId)] = some q0) (hact : q0.state = .active)
    (hlist : s.admin.pendingList = before ++ e :: later) (hw : e.work = w) (hf : e.finished = false)
    (hbefore : NonePending w before) (k : Nat) : s.finishPending w k = s.pendingOver before later e q0 k := by
  subst hw
  unfold State.finishPending
  rw [hlist, find?_pending rfl hf later before hbefore]
  dsimp only
  rw [State.joinCq, State.modAdmin_cqs, hcq]
  dsimp only
  rw [hact]
  simp only [State.modAdmin, hlist, finishFirst_append rfl hf later before hbefore]
  rfl

/-! ### SQs still in use (R160) -/

theorem ctxFromSq_iff (i : SqId) (x : Option Ctx) :
    ctxFromSq i x = true ↔ ∃ c tag, x = some c ∧ c.origin = .host i tag := by
  unfold ctxFromSq
  cases x with
  | none => simp
  | some c => cases ho : c.origin <;> simp [ho]

/-- A context of the SQ remains on its line, or a fetch from it is in flight. -/
def State.SqInUse (s : State) (i : SqId) (b : SqBinding) : Prop :=
  (∃ j c tag, (s.line b.line).ctx j = some c ∧ c.origin = .host i tag) ∨ (s.line b.line).arbiter.inFlight = some i

theorem State.sqQuiet_iff (s : State) (i : SqId) (b : SqBinding) : s.sqQuiet i b = true ↔ ¬s.SqInUse i b := by
  have hctx : (s.line b.line).exch.contexts.toList.any (ctxFromSq i) = true ↔
      ∃ j c tag, (s.line b.line).ctx j = some c ∧ c.origin = .host i tag := by
    rw [Vector.toList_any_iff]
    simp only [ctxFromSq_iff]
    rfl
  rw [State.SqInUse, ← hctx, not_or]
  simp only [State.sqQuiet, Bool.and_eq_true, Bool.not_eq_true', Bool.not_eq_true, decide_eq_true_eq, ne_eq]

theorem State.not_sqInUse {s : State} {i : SqId} {b : SqBinding}
    (hctx : ∀ j c tag, (s.line b.line).ctx j = some c → c.origin ≠ .host i tag)
    (hfetch : (s.line b.line).arbiter.inFlight ≠ some i) : ¬s.SqInUse i b := by
  rintro (⟨j, c, tag, hc, ho⟩ | h)
  exacts [hctx j c tag hc ho, hfetch h]

theorem State.ioSq_of_exists {s : State} {k : Nat} {i : SqId} {q : Sq} {b : SqBinding} (hi : i.val = k) (h0 : i ≠ 0)
    (hq : s.sqs[i] = some q) (hb : q.binding = some b) : s.ioSq k = some (i, q, b) := by
  subst hi
  have hne : i.val ≠ 0 := fun h => h0 (Fin.ext h)
  unfold State.ioSq
  rw [if_neg hne, State.sqNumbered_of_exists hq]
  dsimp only
  rw [hb]

theorem State.ioSq_of_absent {s : State} {k : Nat} (h : k = 0 ∨ ∀ i : SqId, i.val = k → s.sqs[i] = none) :
    s.ioSq k = none := by
  unfold State.ioSq
  split
  · rfl
  · next hne => rw [State.sqNumbered_of_absent (h.resolve_left hne)]

/-! ### DELETE_SQ -/

theorem State.deleteSq_of_exists {s : State} {r : List Byte} {i : SqId} {q : Sq} {b : SqBinding} (hi : i.val = admA r)
    (h0 : i ≠ 0) (hq : s.sqs[i] = some q) (hb : q.binding = some b) : s.deleteSq r =
      if q.state = .deleting then s.answerCommand .queueInUse
      else if s.sqQuiet i b then (s.setSq i none).completeCommand .ok q.abandoned 0 0
      else (s.setSq i (some { q with state := .deleting })).pendCommand (.deleteSq i) := by
  unfold State.deleteSq
  rw [State.ioSq_of_exists hi h0 hq hb]

/-- Settles O23: DELETE_SQ at once or when nothing of the SQ is left. -/
theorem deleteSqWaitsForItsContexts : Obligations.DeleteSqWaitsForItsContexts := by
  refine ⟨fun s h q0 hx => ?_, fun s i q b hq hb hdel => ?_⟩
  · have hexec : exec .deleteSq s = .next (s.deleteSq h.record) := by
      change execDeleteSq s = _
      rw [execDeleteSq, State.inHand_of_executing hx]
    rw [hexec]
    refine ⟨fun habsent => ?_, fun i q b hi h0 hq hb => ?_⟩
    · rw [← hx.answers, State.deleteSq, State.ioSq_of_absent habsent]
    · rw [State.deleteSq_of_exists hi h0 hq hb]
      refine ⟨fun hdel => ?_, fun hdel hctx hfetch => ?_, fun hdel huse => ?_⟩
      · rw [if_pos hdel, hx.answers]
      · rw [if_neg hdel, if_pos ((s.sqQuiet_iff i b).mpr (State.not_sqInUse hctx hfetch))]
        exact congrArg Host.Outcome.next ((hx.setSq _ _).completes _ _ _ _)
      · have hbusy : ¬s.sqQuiet i b = true := fun hquiet => (s.sqQuiet_iff i b).mp hquiet huse
        rw [if_neg hdel, if_neg hbusy]
        exact congrArg Host.Outcome.next ((hx.setSq _ _).pends _)
  · have hexec : exec (.sqDeletionDone i) s = .next
        (if q.state = .deleting ∧ s.sqQuiet i b = true then (s.setSq i none).finishPending (.deleteSq i) q.abandoned
         else s) := by
      change execSqDeletionDone i s = _
      unfold execSqDeletionDone
      rw [hq]
      dsimp only
      rw [hb]
    rw [hexec]
    refine ⟨fun q0 before later e hcq hact hlist hw hf hbefore hctx hfetch => ?_, fun huse => ?_⟩
    · rw [if_pos ⟨hdel, (s.sqQuiet_iff i b).mpr (State.not_sqInUse hctx hfetch)⟩]
      exact congrArg Host.Outcome.next
        (State.finishPending_eq_pendingOver (s := s.setSq i none) hcq hact hlist hw hf hbefore _)
    · rw [if_neg fun hboth => (s.sqQuiet_iff i b).mp hboth.2 huse]

end Sys2Proof.Machine
end

