-- ==== Sys2Proof/Proofs/MonitorMoves.lean ====
section
/-! Monitor capture moving on (R117, R118, R121, R122): where it stands still and what one move is. -/

namespace Sys2Proof.Machine

theorem State.modLine_setLine (s : State) (n : LineId) (l : Line) (f : Line → Line) :
    (s.setLine n l).modLine n f = s.setLine n (f l) := by
  simp [State.modLine, State.setLine, State.line]

theorem State.modLine_setBq (s : State) (n : LineId) (q : Option Bq) (f : Line → Line) :
    (s.setBq n q).modLine n f = (s.modLine n f).setBq n q := rfl

theorem Bq.promisable_iff (q : Bq) :
    q.promisable = true ↔ q.state = .active ∧ q.promises.length < (q.tail + q.size - q.head) % q.size := by
  rw [Bq.promisable, Bool.and_eq_true, decide_eq_true_eq, decide_eq_true_eq]
  rfl

/-! ### Moves -/

theorem State.runMonitorFor_of_stands {s : State} {n : LineId} (h : s.monitorMove n = none) :
    ∀ k, State.runMonitorFor k n s = s
  | 0 => rfl
  | k + 1 => by rw [State.runMonitorFor, h]

theorem State.runMonitorFor_of_moves {s t : State} {n : LineId} (h : s.monitorMove n = some t) (k : Nat) :
    State.runMonitorFor (k + 1) n s = State.runMonitorFor k n t := by
  rw [State.runMonitorFor, h]

theorem State.runMonitor_of_stands {s : State} {n : LineId} (h : s.monitorMove n = none) : s.runMonitor n = s :=
  State.runMonitorFor_of_stands h 16

/-- Monitor capture that stands still after one move. -/
theorem State.runMonitor_of_one_move {s t : State} {n : LineId} (h : s.monitorMove n = some t)
    (ht : t.monitorMove n = none) : s.runMonitor n = t :=
  (State.runMonitorFor_of_moves h 15).trans (State.runMonitorFor_of_stands ht 15)

/-- Monitor capture that stands still after two moves. -/
theorem State.runMonitor_of_two_moves {s t u : State} {n : LineId} (h : s.monitorMove n = some t)
    (ht : t.monitorMove n = some u) (hu : u.monitorMove n = none) : s.runMonitor n = u :=
  (State.runMonitorFor_of_moves h 15).trans
    ((State.runMonitorFor_of_moves ht 14).trans (State.runMonitorFor_of_stands hu 14))

theorem State.monitorMove_of_notMonitor {s : State} {n : LineId}
    (h : ∀ cfg, (s.line n).config = some cfg → cfg.mode ≠ .monitor) : s.monitorMove n = none := by
  unfold State.monitorMove
  dsimp only
  split
  · rfl
  · next cfg hcfg => exact if_pos (h cfg hcfg)

/-- The move a head block makes, by its phase and the slot (R118, R121). -/
def State.headMove (s : State) (n : LineId) (cq : CqId) (head : MonBlock) : Option State :=
  if (s.line n).mon.phase = .idle ∨ (s.line n).mon.phase = .bufferWait then
    match (s.line n).mon.slot with
    | .held d => some (s.headTakes n cq head d)
    | .empty => if (s.line n).state = .draining then some (s.headAsks n) else none
    | .requested =>
      if (s.line n).mon.phase = .idle then some (s.modLine n (·.setMon fun m => { m with phase := .bufferWait })) else none
  else none

section
variable {s : State} {n : LineId} {cfg : LineConfig} (hcfg : (s.line n).config = some cfg) (hmode : cfg.mode = .monitor)
include hcfg hmode

/-- R117: an EMPTY slot of a line that keeps it filled is asked for. -/
theorem State.monitorMove_of_staging (hstate : (s.line n).state.staging = true) (hslot : (s.line n).mon.slot = .empty) :
    s.monitorMove n = some ((s.modLine n (·.setMon fun m => { m with slot := .requested })).requestStaged n) := by
  unfold State.monitorMove
  dsimp only
  rw [hcfg]
  exact (if_neg (not_not.mpr hmode)).trans (if_pos ⟨hstate, hslot⟩)

/-- With nothing to deliver monitor capture moves only to settle. -/
theorem State.monitorMove_of_nil (hslot : ¬((s.line n).state.staging = true ∧ (s.line n).mon.slot = .empty))
    (hlist : (s.line n).mon.list = []) : s.monitorMove n =
      if (s.line n).state = .draining ∧ (s.line n).mon.settlement = .settling ∧ (s.line n).mon.slot ≠ .requested then
        some (s.settleSlot n cfg.lineCq)
      else none := by
  unfold State.monitorMove
  dsimp only
  rw [hcfg]
  dsimp only
  rw [if_neg (not_not.mpr hmode), if_neg hslot, hlist]

/-- With a head block monitor capture moves by its phase and the slot. -/
theorem State.monitorMove_of_cons {head : MonBlock} {rest : List MonBlock}
    (hslot : ¬((s.line n).state.staging = true ∧ (s.line n).mon.slot = .empty))
    (hlist : (s.line n).mon.list = head :: rest) : s.monitorMove n = s.headMove n cfg.lineCq head := by
  unfold State.monitorMove
  dsimp only
  rw [hcfg]
  dsimp only
  rw [if_neg (not_not.mpr hmode), if_neg hslot, hlist]
  rfl

end

theorem LineState.not_staging_of_draining {x : LineState} (h : x = .draining) : ¬x.staging = true := by
  rw [h]
  exact Bool.false_ne_true

theorem LineState.not_draining_of_staging {x : LineState} (h : x.staging = true) : x ≠ .draining := by
  rintro rfl
  cases h

theorem State.line_requestStaged (s : State) (n m : LineId) : (s.requestStaged n).line m = s.line m := by
  unfold State.requestStaged
  split
  · split <;> rfl
  · rfl

theorem State.requestStaged_eq {s : State} {n : LineId} {q : Bq} (hq : s.bqs[n] = some q) : s.requestStaged n =
    if q.state = .active ∧ q.promises.length < (q.tail + q.size - q.head) % q.size then s.promise n q .staged
    else s.setBq n (some { q with requests := q.requests ++ [.staged] }) := by
  unfold State.requestStaged
  rw [hq]
  exact if_congr q.promisable_iff rfl rfl

end Sys2Proof.Machine
end

