-- ==== Sys2Proof/Proofs/LineCommands.lean ====
section
/-! The administration commands on lines, poll entries and filters (R93 to R96, R124, R126 to R128). -/

namespace Sys2Proof.Machine

/-! ### CONFIGURE_LINE -/

theorem newBq_storedParameters (b : List Byte) (k : CqId) : newBq (storedParameters b k).bufferQueue =
    if byteAt b 27 = 1#8 then
      some { base := word b 28, size := (half b 32).toNat, head := 0, tail := 0, state := .active, promises := []
             requests := [] }
    else none := by
  simp only [storedParameters]
  split <;> rfl

/-- Settles O24: the checks of CONFIGURE_LINE in order, and the line as configured. -/
theorem configureLineStoresTheParameters : Obligations.ConfigureLineStoresTheParameters := by
  intro s h q0 n hx hn
  have hexec : exec .configureLine s = .next (s.configureLine n h.block) := by
    change execConfigureLine s = _
    rw [execConfigureLine, State.inHand_of_executing hx, hn]
  have hid : byteAt h.block 26 = 0#8 ↔ lpbLineCq h.block = 0 := byte_eq_ofNat _ 0 (by omega)
  rw [hexec, State.configureLine]
  refine ⟨fun hoff => ?_, fun hoff hrange => ?_, fun hoff hrange hcq => ?_, fun k c hoff hrange hk0 hk hc hact => ?_⟩
  · rw [if_pos hoff, hx.answers]
  · rw [if_neg (not_not.mpr hoff), if_pos (by rw [← lpbInRange_iff] at hrange; simp [hrange]), hx.answers]
  · have hnone : s.activeCq (lpbLineCq h.block) = none := State.activeCq_of_none (hcq.imp hid.mp id)
    rw [if_neg (not_not.mpr hoff), if_neg (by simp [(lpbInRange_iff _).mpr hrange]), hnone]
    exact congrArg Host.Outcome.next (hx.answers _)
  · have hsome : s.activeCq (lpbLineCq h.block) = some k := State.activeCq_of_active hk hk0 hc hact
    rw [if_neg (not_not.mpr hoff), if_neg (by simp [(lpbInRange_iff _).mpr hrange]), hsome, lpbConfig_eq _ k hk,
      newBq_storedParameters]
    exact congrArg Host.Outcome.next (((hx.setLine n _).setBq n _).answers _)

/-! ### START_LINE -/

theorem Line.poll_started (l : Line) (now : Word) (e : PollId) : (l.started now).poll e = match l.poll e with
    | none => none
    | some p => match p.run with
      | .enabled _ => some { p with run := .enabled (now + BitVec.ofNat 32 (1000 * p.offset)) }
      | .disabled => some p := by
  simp only [Line.poll, Line.started, Fin.getElem_fin, Vector.getElem_map]
  cases l.polls[e.val] with
  | none => rfl
  | some p => cases hrun : p.run <;> rfl

/-- A line that differs from `l` as a started one does, field by field, is `l` started. -/
theorem Line.eq_started {l l1 : Line} {now : Word} (hstate : l1.state = .starting)
    (hrx : l1.rx = if l.carrier then l.rx.start else l.rx.stop) (hpolls : ∀ e, l1.poll e = (l.started now).poll e)
    (hrest : { l1 with state := l.state, rx := l.rx, polls := l.polls } = l) : l1 = l.started now := by
  have hp : l1.polls = (l.started now).polls := Vector.ext fun i hi => hpolls ⟨i, hi⟩
  calc l1 = { { l1 with state := l.state, rx := l.rx, polls := l.polls } with
                state := l1.state, rx := l1.rx, polls := l1.polls } := rfl
    _ = l.started now := by rw [hrest, hstate, hrx, hp]; rfl

/-- R117: START_LINE asks for the staged buffer of a MONITOR line and waits for it. -/
theorem State.runMonitor_of_started {s : State} {n : LineId} {l : Line} {cfg : LineConfig} {q : Bq}
    (hcfg : l.config = some cfg) (hmode : cfg.mode = .monitor) (hstate : l.state = .starting) (hlist : l.mon.list = [])
    (hslot : l.mon.slot = .empty) (hq : s.bqs[n] = some q) : (s.setLine n l).runMonitor n =
      if q.state = .active ∧ q.promises.length < (q.tail + q.size - q.head) % q.size then
        (s.setLine n { l with mon := { l.mon with slot := .requested } }).promise n q .staged
      else
        (s.setLine n { l with mon := { l.mon with slot := .requested } }).setBq n
          (some { q with requests := q.requests ++ [.staged] }) := by
  have hstaging : l.state.staging = true := by rw [hstate]; rfl
  have hmove := State.monitorMove_of_staging (s := s.setLine n l) (n := n) (by rw [State.line_setLine_self]; exact hcfg)
    hmode (by rw [State.line_setLine_self]; exact hstaging) (by rw [State.line_setLine_self]; exact hslot)
  rw [State.modLine_setLine] at hmove
  let l1 : Line := { l with mon := { l.mon with slot := .requested } }
  have hline : ((s.setLine n l1).requestStaged n).line n = l1 := by
    rw [State.line_requestStaged, State.line_setLine_self]
  have hstands : ((s.setLine n l1).requestStaged n).monitorMove n = none := by
    rw [State.monitorMove_of_nil (cfg := cfg) (by rw [hline]; exact hcfg) hmode
      (by rw [hline]; rintro ⟨-, hempty⟩; cases hempty) (by rw [hline]; exact hlist), hline]
    exact if_neg fun hdrain => LineState.not_draining_of_staging hstaging hdrain.1
  rw [State.runMonitor_of_one_move hmove hstands]
  exact State.requestStaged_eq hq

/-- Settles O25: START_LINE on an OFF line, MASTER or MONITOR. -/
theorem startLineMovesToStarting : Obligations.StartLineMovesToStarting := by
  rintro s h q0 n l hx hn rfl
  have hexec : exec .startLine s = .next (s.startLine n) := by
    change execStartLine s = _
    rw [execStartLine, State.inHand_of_executing hx, hn]
  rw [hexec, State.startLine]
  refine ⟨fun hcfg => ?_, fun hcfg hoff => ?_, fun cfg l1 hcfg hoff hstate hrx hpolls hrest => ?_⟩
  · rw [if_pos hcfg, hx.answers]
  · rw [if_neg hcfg, if_pos hoff, hx.answers]
  · have hl1 : l1 = (s.line n).started s.timebase :=
      Line.eq_started hstate hrx (fun e => (hpolls e).trans ((s.line n).poll_started s.timebase e).symm) hrest
    have hcfg1 : l1.config = some cfg := by rw [hl1]; exact hcfg
    have hmon : l1.mon = (s.line n).mon := by rw [hl1]; rfl
    rw [if_neg (by rw [hcfg]; exact Option.some_ne_none cfg), if_neg (not_not.mpr hoff), State.modLine, ← hl1]
    refine ⟨fun hmode => ?_, fun hmode hlist hslot q hq => ?_⟩
    · have hstands : (s.setLine n l1).monitorMove n = none := State.monitorMove_of_notMonitor fun c hc => by
        rw [State.line_setLine_self, hcfg1] at hc
        obtain rfl := Option.some.inj hc
        rw [hmode]
        exact Mode.noConfusion
      rw [State.runMonitor_of_stands hstands, (hx.setLine n l1).answers]
    · rw [State.runMonitor_of_started hcfg1 hmode hstate (hmon ▸ hlist) (hmon ▸ hslot) hq, hmon]
      split
      · exact congrArg Host.Outcome.next ((((hx.setLine n _).setBq n _).issue _ _).answers _)
      · exact congrArg Host.Outcome.next (((hx.setLine n _).setBq n _).answers _)

/-! ### SET_POLL -/

theorem Line.notMaster_of_unconfigured {l : Line} (h : l.config = none) : l.notMaster = some .notConfigured := by
  rw [Line.notMaster, h]

theorem Line.notMaster_of_monitor {l : Line} {cfg : LineConfig} (h : l.config = some cfg) (hmode : cfg.mode = .monitor) :
    l.notMaster = some .wrongMode := by
  rw [Line.notMaster, h]
  exact if_pos hmode

theorem Line.notMaster_of_master {l : Line} {cfg : LineConfig} (h : l.config = some cfg) (hmode : cfg.mode = .master) :
    l.notMaster = none := by
  rw [Line.notMaster, h]
  exact if_neg (by rw [hmode]; exact Mode.noConfusion)

theorem pollBusy_iff (p : Option PollEntry) :
    pollBusy p = true ↔ ∃ x, p = some x ∧ (x.run ≠ .disabled ∨ x.inFlight ≠ none) := by
  unfold pollBusy
  cases p with
  | none => simp
  | some x => simp [Option.isSome_iff_ne_none]

/-- Settles O27: the checks of SET_POLL in order, and the entry written. -/
theorem setPollWritesADisabledEntry : Obligations.SetPollWritesADisabledEntry := by
  intro s h q0 n hx hn
  have hexec : exec .setPoll s = .next (s.setPoll n h.record h.block) := by
    change execSetPoll s = _
    rw [execSetPoll, State.inHand_of_executing hx, hn]
  rw [hexec, State.setPoll]
  refine ⟨fun hcfg => ?_, fun cfg hcfg => ⟨fun hmode => ?_, fun hmode hbad => ?_, fun hmode hbq hrange e he => ?_⟩⟩
  · rw [Line.notMaster_of_unconfigured hcfg]
    exact congrArg Host.Outcome.next (hx.answers _)
  · rw [Line.notMaster_of_monitor hcfg hmode]
    exact congrArg Host.Outcome.next (hx.answers _)
  · rw [Line.notMaster_of_master hcfg hmode]
    dsimp only
    split
    · next hidx =>
      rw [if_pos, hx.answers]
      rw [Bool.or_eq_true, Bool.not_eq_true', ← Bool.not_eq_true, pebInRange_iff, Option.isNone_iff_eq_none]
      exact hbad.resolve_left (not_le.mpr hidx)
    · rw [hx.answers]
  · have hidx : admA h.record < 32 := he ▸ e.isLt
    obtain rfl : e = ⟨admA h.record, hidx⟩ := Fin.ext he
    have hgood : ¬(!pebInRange h.block || (s.bqs[n]).isNone) = true := by
      rw [Bool.or_eq_true, Bool.not_eq_true', ← Bool.not_eq_true, pebInRange_iff, Option.isNone_iff_eq_none]
      exact not_or.mpr ⟨not_not.mpr hrange, hbq⟩
    rw [Line.notMaster_of_master hcfg hmode]
    dsimp only
    rw [dif_pos hidx, if_neg hgood]
    refine ⟨fun p hp hbusy => ?_, fun hidle => ?_⟩
    · rw [if_pos ((pollBusy_iff _).mpr ⟨p, hp, hbusy⟩), hx.answers]
    · have hnot : ¬pollBusy ((s.line n).poll ⟨admA h.record, hidx⟩) = true := by
        rw [pollBusy_iff]
        rintro ⟨p, hp, hbusy⟩
        obtain ⟨hrun, hnone⟩ := hidle p hp
        exact hbusy.elim (absurd hrun) (absurd hnone)
      rw [if_neg hnot]
      exact congrArg Host.Outcome.next ((hx.setLine n _).answers _)

/-! ### POLL_CONTROL -/

theorem Line.entryIdx_eq_none_iff (l : Line) (a : Byte) :
    l.entryIdx a = none ↔ ∀ (i : StationIdx) (e : StationEntry), l.stations[i] = some e → e.address ≠ a := by
  unfold Line.entryIdx
  rw [List.find?_eq_none]
  constructor
  · intro h i e he ha
    have := h i (List.mem_finRange i)
    rw [he] at this
    exact this (decide_eq_true ha)
  · intro h i _
    cases he : l.stations[i] with
    | none => exact Bool.false_ne_true
    | some e => simpa using h i e he

/-- The table with the entry of an address obtained holds one for it. -/
theorem Obtained.entry_ne_none {l m : Line} {a : Byte} {now : Word} (h : Obtained l a now false m.stations) :
    m.entry a ≠ none := by
  rw [ne_eq, entry_none_iff, Line.entryIdx_eq_none_iff]
  intro hnone
  obtain ⟨hfound, hmade⟩ := h
  cases hl : l.entry a with
  | some e =>
    obtain ⟨i, hi, he⟩ := (entry_some_iff l a e).mp hl
    obtain ⟨e', he', ha⟩ := entryIdx_spec hi
    have hsame : m.stations = l.stations := hfound e hl
    exact hnone i e' (by rw [hsame]; exact he') ha
  | none =>
    obtain ⟨j, hset, -⟩ := hmade hl
    exact hnone j _ (by rw [hset]; exact Vector.getElem_set_self j.isLt) rfl

theorem Line.pollNamed_of_master {l : Line} {cfg : LineConfig} {r : List Byte} {e : PollId} (h : l.config = some cfg)
    (hmode : cfg.mode = .master) (he : e.val = admA r) : l.pollNamed r = .ok e := by
  have hidx : admA r < 32 := he ▸ e.isLt
  obtain rfl : e = ⟨admA r, hidx⟩ := Fin.ext he
  rw [Line.pollNamed, Line.notMaster_of_master h hmode]
  exact dif_pos hidx

section
variable {s : State} {n : LineId} {r : List Byte} {e : PollId} (he : (s.line n).pollNamed r = .ok e)
include he

theorem State.pollControl_of_empty (hp : (s.line n).poll e = none) :
    s.pollEnable n r = s.answerCommand .notFound ∧ s.pollDisable n r = s.answerCommand .notFound
      ∧ s.pollClear n r = s.answerCommand .ok := by
  unfold State.pollEnable State.pollDisable State.pollClear
  rw [he]
  dsimp only
  rw [hp]
  exact ⟨rfl, rfl, rfl⟩

theorem State.pollEnable_of_obtained {p : PollEntry} {l1 : Line} (hp : (s.line n).poll e = some p)
    (hl1 : (s.line n).obtain p.station s.timebase false = some l1) :
    s.pollEnable n r = (s.setLine n (l1.setPoll e (some (p.enable s.timebase)))).completeCommand .ok p.skips p.suppressed
      (pollStateCode (some p)) := by
  unfold State.pollEnable
  rw [he]
  dsimp only
  rw [hp]
  dsimp only
  rw [hl1]
  rfl

theorem State.pollEnable_of_full {p : PollEntry} (hp : (s.line n).poll e = some p)
    (hfull : (s.line n).obtain p.station s.timebase false = none) :
    s.pollEnable n r = s.completeCommand .stationTableFull p.skips p.suppressed (pollStateCode (some p)) := by
  unfold State.pollEnable
  rw [he]
  dsimp only
  rw [hp]
  dsimp only
  rw [hfull]
  rfl

theorem State.pollDisable_of_some {p : PollEntry} (hp : (s.line n).poll e = some p) :
    s.pollDisable n r = (s.setLine n ((s.line n).setPoll e (some { p with run := .disabled }))).completeCommand .ok
      p.skips p.suppressed (pollStateCode (some p)) := by
  unfold State.pollDisable
  rw [he]
  dsimp only
  rw [hp]
  rfl

theorem State.pollClear_of_some {p : PollEntry} (hp : (s.line n).poll e = some p) :
    s.pollClear n r =
      if p.inFlight.isSome then s.completeCommand .entryBusy p.skips p.suppressed (pollStateCode (some p))
      else (s.setLine n ((s.line n).setPoll e none)).completeCommand .ok p.skips p.suppressed
        (pollStateCode (some p)) := by
  unfold State.pollClear
  rw [he]
  dsimp only
  rw [hp]
  rfl

end

/-- Settles O28: enable, disable and clear, on an empty and on an occupied place. -/
theorem pollControlActsOnTheEntry : Obligations.PollControlActsOnTheEntry := by
  intro s h q0 n cfg e hx hn hcfg hmode he
  have hnamed := Line.pollNamed_of_master hcfg hmode he
  have henable (hb : admB h.record = 0) : exec .pollEnable s = .next (s.pollEnable n h.record) := by
    change execPollEnable s = _
    rw [execPollEnable, State.inHand_operation_of_executing hx hb, hn]
  have hdisable (hb : admB h.record = 1) : exec .pollDisable s = .next (s.pollDisable n h.record) := by
    change execPollDisable s = _
    rw [execPollDisable, State.inHand_operation_of_executing hx hb, hn]
  have hclear (hb : admB h.record = 2) : exec .pollClear s = .next (s.pollClear n h.record) := by
    change execPollClear s = _
    rw [execPollClear, State.inHand_operation_of_executing hx hb, hn]
  refine ⟨fun hp => ?_, fun p code hp hcode => ?_⟩
  · obtain ⟨h0, h1, h2⟩ := State.pollControl_of_empty hnamed hp
    exact ⟨fun hb => by rw [henable hb, h0, hx.answers], fun hb => by rw [hdisable hb, h1, hx.answers],
      fun hb => by rw [hclear hb, h2, hx.answers]⟩
  · have hcode' : pollStateCode (some p) = code := hcode.symm
    obtain ⟨hobtained, hisSome⟩ := obtain_spec (s.line n) p.station s.timebase false
    refine ⟨fun hb hobtain => ?_, fun hb hnone hpinned => ?_, fun hb => ?_, fun hb hflight => ?_, fun hb hidle => ?_⟩
    · obtain ⟨l1, hl1⟩ := Option.isSome_iff_exists.mp (hisSome.mpr hobtain)
      obtain ⟨hframe, hob⟩ := hobtained l1 hl1
      refine ⟨l1, ?_, hframe, hob.entry_ne_none, hob⟩
      rw [henable hb, State.pollEnable_of_obtained hnamed hp hl1, hcode', (hx.setLine n _).completes]
      rfl
    · have hfull : (s.line n).obtain p.station s.timebase false = none := by
        rw [← Option.not_isSome_iff_eq_none, hisSome]
        rintro (⟨se, hse⟩ | ⟨j, hj⟩ | ⟨j, se, hj, hpins⟩)
        · rw [hnone] at hse
          cases hse
        · obtain ⟨se, hse, -⟩ := hpinned j
          rw [hj] at hse
          cases hse
        · obtain ⟨se', hse', hpins'⟩ := hpinned j
          rw [hj] at hse'
          cases hse'
          exact hpins' hpins
      rw [henable hb, State.pollEnable_of_full hnamed hp hfull, hcode', hx.completes]
    · rw [hdisable hb, State.pollDisable_of_some hnamed hp, hcode', (hx.setLine n _).completes]
    · rw [hclear hb, State.pollClear_of_some hnamed hp, hcode', if_pos (Option.isSome_iff_ne_none.mpr hflight),
        hx.completes]
    · rw [hclear hb, State.pollClear_of_some hnamed hp, hcode', if_neg (by simp [hidle]), (hx.setLine n _).completes]

/-! ### SET_FILTER -/

/-- Settles O31: the checks of SET_FILTER in order, and the filter replaced. -/
theorem setFilterReplacesTheFilter : Obligations.SetFilterReplacesTheFilter := by
  intro s h q0 n hx hn
  have hexec : exec .setFilter s = .next (s.setFilter n h.record) := by
    change execSetFilter s = _
    rw [execSetFilter, State.inHand_of_executing hx, hn]
  rw [hexec, State.setFilter]
  refine ⟨fun hb hc => ?_, fun hlist => ?_⟩
  · rw [if_pos ⟨hb, hc⟩, hx.answers]
  · rw [if_neg (by omega)]
    refine ⟨fun hcfg => ?_, fun cfg hcfg => ?_⟩
    · rw [hcfg]
      exact congrArg Host.Outcome.next (hx.answers _)
    · rw [hcfg]
      dsimp only
      refine ⟨fun hmode => ?_, fun hmode => ?_⟩
      · rw [if_pos hmode, hx.answers]
      · rw [if_neg (by rw [hmode]; exact Mode.noConfusion)]
        exact congrArg Host.Outcome.next ((hx.setLine n _).answers _)

end Sys2Proof.Machine
end

