-- ==== Sys2Proof/Proofs/StationCommands.lean ====
section
/-! The administration commands on the station table and the counters (R87 to R90, R174, R175, R187, R189). -/

namespace Sys2Proof.Machine

/-! ### Changing an entry -/

theorem Line.modEntry_of_none {l : Line} {a : Byte} (h : l.entryIdx a = none) (f : StationEntry → StationEntry) :
    l.modEntry a f = l := by
  rw [Line.modEntry, h]

theorem Line.modEntry_of_some {l : Line} {a : Byte} {i : StationIdx} {e : StationEntry} (h : l.entryIdx a = some i)
    (he : l.stations[i] = some e) (f : StationEntry → StationEntry) : l.modEntry a f = l.setStation i (f e) := by
  rw [Line.modEntry, h]
  dsimp only
  rw [he]

/-- Only the station table of the line changes. -/
theorem Line.modEntry_eq (l : Line) (a : Byte) (f : StationEntry → StationEntry) :
    l.modEntry a f = { l with stations := (l.modEntry a f).stations } := by
  unfold Line.modEntry
  split
  · split <;> rfl
  · rfl

theorem Line.entryIdx_setStation {l : Line} {i : StationIdx} {e e' : StationEntry} (he : l.stations[i] = some e)
    (ha : e'.address = e.address) (b : Byte) : (l.setStation i e').entryIdx b = l.entryIdx b := by
  unfold Line.entryIdx
  congr 1
  funext j
  by_cases hj : j = i
  · subst hj
    simp [he, ha]
  · have hne : (i : Nat) ≠ j := fun h => hj (Fin.ext h.symm)
    simp [hne]

theorem Line.entry_modEntry (l : Line) (a : Byte) {f : StationEntry → StationEntry}
    (hf : ∀ e, (f e).address = e.address) (b : Byte) :
    (l.modEntry a f).entry b = if b = a then (l.entry a).map f else l.entry b := by
  cases hi : l.entryIdx a with
  | none =>
    rw [Line.modEntry_of_none hi]
    split
    · next hb => rw [hb, (entry_none_iff l a).mpr hi]; rfl
    · rfl
  | some i =>
    obtain ⟨e, he, hea⟩ := entryIdx_spec hi
    rw [Line.modEntry_of_some hi he, (entry_some_iff l a e).mpr ⟨i, hi, he⟩]
    unfold Line.entry
    rw [Line.entryIdx_setStation he (hf e)]
    by_cases hb : b = a
    · rw [if_pos hb, hb, hi]
      simp
    · rw [if_neg hb]
      cases hj : l.entryIdx b with
      | none => rfl
      | some j =>
        have hji : (i : Nat) ≠ j := fun h => by
          obtain ⟨e', he', hb'⟩ := entryIdx_spec hj
          obtain rfl : i = j := Fin.ext h
          rw [he] at he'
          obtain rfl := Option.some.inj he'
          exact hb (hb'.symm.trans hea)
        simp [hji]

theorem Line.entry_modEntry_self {l : Line} {a : Byte} {e : StationEntry} {f : StationEntry → StationEntry}
    (hf : ∀ e, (f e).address = e.address) (he : l.entry a = some e) : (l.modEntry a f).entry a = some (f e) := by
  rw [Line.entry_modEntry l a hf, if_pos rfl, he]
  rfl

/-! ### STATION_CONTROL reset -/

theorem ctxHoldsReset_iff (a : Byte) (x : Option Ctx) : ctxHoldsReset a x = true ↔ ∃ c, x = some c ∧ c.station = a
    ∧ (c.state.active = true ∨ (∃ t, c.state = .holding t) ∨ (c.state = .queued ∧ 1 ≤ c.attempts)) := by
  cases x with
  | none => simp [ctxHoldsReset]
  | some c =>
    simp only [ctxHoldsReset, Option.some.injEq, exists_eq_left', Bool.and_eq_true, decide_eq_true_eq]
    refine and_congr_right fun _ => ?_
    cases c.state <;> simp [CtxState.active]
    omega

/-- Only the transmitter changes when an order is given again. -/
theorem Line.reorderAfresh_eq (l : Line) (cfg : LineConfig) (a : Byte) :
    l.reorderAfresh cfg a = { l with tx := (l.reorderAfresh cfg a).tx } := by
  unfold Line.reorderAfresh Line.withdraw Line.giveOrder
  repeat' split
  all_goals rfl

theorem Line.reorderAfresh_of_other {l : Line} {a : Byte} (cfg : LineConfig)
    (h : ∀ o, l.tx.order = some o → l.tx.waiting = true → ∀ c, l.ctx o.ctx = some c → c.station ≠ a) :
    l.reorderAfresh cfg a = l := by
  unfold Line.reorderAfresh Line.ordered
  cases ho : l.tx.order with
  | none => rfl
  | some o =>
    dsimp only
    split
    · next c hc => exact if_neg fun hw => h o ho hw.1 c hc hw.2.2
    · rfl

/-- R88: the order of a QUEUED context of the station is given again. -/
theorem Line.reorderAfresh_of_waiting {l : Line} {a : Byte} {cfg : LineConfig} {o : Order} {c : Ctx}
    (ho : l.tx.order = some o) (hw : l.tx.waiting = true) (hc : l.ctx o.ctx = some c) (hq : c.state = .queued)
    (ha : c.station = a) : (l.reorderAfresh cfg a).tx =
      { Transmitter.reset with
        phase := .gapWait
        order := some { ctx := o.ctx, block := l.requestFor c, idle := cfg.gap, broadcast := decide (c.station = 0) } } := by
  have hord : l.ordered = some o.ctx := by rw [Line.ordered, ho]
  have hwithdraw : l.withdraw o.ctx = { l with tx := .reset } := if_pos ⟨hw, hord⟩
  have hctx : Line.ctx { l with tx := .reset } o.ctx = some c := hc
  unfold Line.reorderAfresh
  rw [hord]
  dsimp only
  rw [hc]
  dsimp only
  rw [if_pos ⟨hw, hq, ha⟩, hwithdraw, Line.giveOrder, hctx]
  rfl

/-- The entry of a station whose health is reset has sequence bit 0, which the order composed afresh carries. -/
theorem Line.requestFor_of_seq_zero {l : Line} {c : Ctx} {e : StationEntry} (he : l.entry c.station = some e)
    (hseq : e.seq = false) :
    l.requestFor c = requestBlock c.station false c.function (c.store.take c.requestLength) := by
  rw [Line.requestFor, Line.seqOf, he]
  dsimp only
  rw [hseq, ite_self]

theorem Line.resetStation_of_unconfigured {l : Line} (h : l.config = none) (a : Byte) :
    l.resetStation a = l.modEntry a StationEntry.resetHealth := by
  rw [Line.resetStation, h]

theorem Line.resetStation_of_configured {l : Line} {cfg : LineConfig} (h : l.config = some cfg) (a : Byte) :
    l.resetStation a = (l.modEntry a StationEntry.resetHealth).reorderAfresh cfg a := by
  rw [Line.resetStation, h]

/-- Settles O29: a reset of an idle station, with the order waiting for one of its contexts. -/
theorem stationResetNeedsAnIdleStation : Obligations.StationResetNeedsAnIdleStation := by
  intro s h q0 n addr hx hb hn haddr
  have hexec : exec .stationReset s = .next (s.stationReset n addr) := by
    change execStationReset s = _
    rw [execStationReset, State.inHand_operation_of_executing hx hb, hn, haddr]
  have hbusy : (s.line n).exch.contexts.toList.any (ctxHoldsReset addr) = true ↔
      ∃ i c, (s.line n).ctx i = some c ∧ c.station = addr
        ∧ (c.state.active = true ∨ (∃ t, c.state = .holding t) ∨ (c.state = .queued ∧ 1 ≤ c.attempts)) := by
    rw [Vector.toList_any_iff]
    simp only [ctxHoldsReset_iff]
    rfl
  rw [hexec, State.stationReset]
  refine ⟨fun hnone => ?_, fun e he => ⟨fun hheld => ?_, fun hidle => ?_⟩⟩
  · rw [hnone]
    exact congrArg Host.Outcome.next (hx.answers _)
  · rw [he]
    dsimp only
    rw [if_pos (hbusy.mpr hheld), hx.answers]
  · have hfree : ¬(s.line n).exch.contexts.toList.any (ctxHoldsReset addr) = true := by
      rw [hbusy]
      rintro ⟨i, c, hc, ha, hstate⟩
      rcases hidle i c hc ha with hs | hs | ⟨hs, h0⟩ <;> simp [hs, CtxState.active] at hstate
      omega
    have hentry (b : Byte) := Line.entry_modEntry (s.line n) addr (f := StationEntry.resetHealth) (fun _ => rfl) b
    have hself : ((s.line n).modEntry addr StationEntry.resetHealth).entry addr = some e.resetHealth :=
      Line.entry_modEntry_self (fun _ => rfl) he
    have hmod := (s.line n).modEntry_eq addr StationEntry.resetHealth
    generalize hm : (s.line n).modEntry addr StationEntry.resetHealth = m at hentry hself hmod
    have hother (b : Byte) (hb : b ≠ addr) : m.entry b = (s.line n).entry b := (hentry b).trans (if_neg hb)
    have htx : m.tx = (s.line n).tx := by rw [hmod]
    have hctx (i : CtxId) : m.ctx i = (s.line n).ctx i := by rw [hmod]; rfl
    refine ⟨(s.line n).resetStation addr, ?_, ?_⟩
    · rw [he]
      dsimp only
      rw [if_neg hfree]
      exact congrArg Host.Outcome.next ((hx.setLine n _).answers _)
    · cases hcfg : (s.line n).config with
      | none =>
        rw [Line.resetStation_of_unconfigured hcfg, hm]
        refine ⟨hself, hother, ?_, fun _ => htx, fun cfg o c hsome => by cases hsome⟩
        rw [hmod]
      | some cfg =>
        rw [Line.resetStation_of_configured hcfg, hm]
        have hre := m.reorderAfresh_eq cfg addr
        refine ⟨?_, fun b hb => ?_, ?_, fun hno => ?_, fun cfg' o c hsome ho hw hc ha hq h0 => ?_⟩
        · rw [hre]
          exact hself
        · rw [hre]
          exact hother b hb
        · rw [hre, hmod]
        · rw [Line.reorderAfresh_of_other cfg (by rw [htx]; simpa only [hctx] using hno), htx]
        · obtain rfl := Option.some.inj hsome
          have htold := Line.reorderAfresh_of_waiting (l := m) (cfg := cfg) (by rw [htx]; exact ho) (by rw [htx]; exact hw)
            ((hctx _).trans hc) hq ha
          rw [htold, Line.requestFor_of_seq_zero (e := e.resetHealth) (by rw [ha]; exact hself) rfl, ha]
          have hne : addr ≠ 0 := h0
          rw [decide_eq_false hne]
          exact ⟨rfl, rfl⟩

/-! ### STATION_CONTROL read and READ_COUNTERS -/

theorem placeReports_eq (addr : Word) (capacity : Nat) (reports : List (List Byte)) :
    placeReports addr capacity reports = (List.range (min (capacity / 16) reports.length)).map
      fun k => (addr + BitVec.ofNat 32 (16 * k), reports.getD k []) := by
  refine List.ext_getElem (by simp [placeReports]) fun k hk _ => ?_
  have hk' : k < reports.length := by
    simp only [placeReports, List.length_mapIdx, List.length_take] at hk
    omega
  simp [placeReports, hk']

theorem length_placeReports (addr : Word) (capacity : Nat) (reports : List (List Byte)) :
    (placeReports addr capacity reports).length = min (capacity / 16) reports.length := by
  rw [placeReports_eq, List.length_map, List.length_range]

/-- R174: the first report goes to the buffer's address. -/
theorem placeReports_of_cons {addr : Word} {capacity : Nat} {b : List Byte} {rest : List (List Byte)}
    (h : 16 ≤ capacity) :
    ∃ writes, placeReports addr capacity (b :: rest) = (addr, b) :: writes := by
  cases hp : placeReports addr capacity (b :: rest) with
  | nil =>
    have hlen := length_placeReports addr capacity (b :: rest)
    rw [hp, List.length_nil, List.length_cons] at hlen
    omega
  | cons x writes =>
    have hx : (placeReports addr capacity (b :: rest))[0]? = some x := by rw [hp]; rfl
    have hpos : 0 < min (capacity / 16) (rest.length + 1) := by omega
    rw [placeReports_eq] at hx
    simp [hpos] at hx
    exact ⟨writes, by rw [hx]⟩

section
variable {s : State} {op : Nat} {h : Hand} {q0 : Cq} (hx : s.Executing op h q0) (a b : Nat)
include hx

/-- R178 step 4: with nothing to write the command completes with its results. -/
theorem State.Executing.writeResults_of_nil : s.writeResults h [] a b = State.answered
    { s with admin := { s.admin with hand := some { h with writes := [], resultA := a, resultB := b } } }
    h q0 .ok a b 0 := by
  obtain ⟨-, -, -, hcq, hact⟩ := hx
  let s1 := s.modAdmin fun ad => { ad with hand := some { h with writes := [], resultA := a, resultB := b } }
  have hnext : s1.nextResult = s1.completeCommand .ok a b 0 := State.nextResult_of_nil (s := s1) rfl rfl
  exact hnext.trans (State.completeCommand_eq_answered (s := s1) rfl hcq hact _ _ _ _)

omit hx in
/-- R178 step 4: the first of the writes is issued. -/
theorem State.writeResults_of_cons (addr : Word) (data : List Byte) (rest : List (Word × List Byte)) :
    s.writeResults h ((addr, data) :: rest) a b = State.issue
      { s with admin := { s.admin with
          phase := .writing, hand := some { h with writes := rest, resultA := a, resultB := b } } }
      adminUnit { addr := addr, kind := .write data, use := .resultWrite } :=
  State.nextResult_of_cons (s := s.modAdmin fun ad =>
    { ad with hand := some { h with writes := (addr, data) :: rest, resultA := a, resultB := b } }) rfl rfl

end

theorem Line.keepsStations_of_master {l : Line} {cfg : LineConfig} (h : l.config = some cfg)
    (hmode : cfg.mode = .master) : l.keepsStations = true := by
  rw [Line.keepsStations, h]
  exact decide_eq_true hmode

theorem Line.keepsStations_of_not_master {l : Line}
    (h : l.config = none ∨ ∃ cfg, l.config = some cfg ∧ cfg.mode = .monitor) : l.keepsStations = false := by
  unfold Line.keepsStations
  rcases h with h | ⟨cfg, h, hmode⟩
  · rw [h]
  · rw [h]
    exact decide_eq_false (by rw [hmode]; exact Mode.noConfusion)

theorem Line.oneReport_of_some {l : Line} {a : Byte} {i : StationIdx} {e : StationEntry} (hi : l.entryIdx a = some i)
    (he : l.stations[i] = some e) : l.oneReport a = [stationReport i e] := by
  have hreport : l.reportAt i = some (stationReport i e) := by rw [Line.reportAt, he]
  rw [Line.oneReport, hi]
  dsimp only
  rw [hreport]

/-- R89: the reports a read asks for. -/
def Line.reportsFor (l : Line) (addr : Byte) : List (List Byte) := if addr = 0 then l.allReports else l.oneReport addr

theorem State.stationRead_of_found {s : State} {n : LineId} {h : Hand} (hkeeps : (s.line n).keepsStations = true)
    (hfound : ¬(byteAt h.record 4 ≠ 0 ∧ ((s.line n).entry (byteAt h.record 4)).isNone = true)) :
    s.stationRead n h = s.writeResults h
      (placeReports (admAddr h.record) (admSize h.record) ((s.line n).reportsFor (byteAt h.record 4)))
      (s.line n).allReports.length
      (min (admSize h.record / 16) ((s.line n).reportsFor (byteAt h.record 4)).length) := by
  unfold State.stationRead
  dsimp only
  rw [if_neg (by rw [hkeeps]; exact Bool.noConfusion), if_neg hfound, ← length_placeReports (admAddr h.record)]
  rfl

/-- Settles O30: station reads by the number of reports that fit, and READ_COUNTERS. -/
theorem readsWriteTheirBlocks : Obligations.ReadsWriteTheirBlocks := by
  refine ⟨fun s h q0 n reports hx hb hn => ?_, fun s h q0 n rdy hx hn => ?_⟩
  · have hexec : exec .stationRead s = .next (s.stationRead n h) := by
      change execStationRead s = _
      rw [execStationRead, State.inHand_operation_of_executing hx hb, hn]
    rw [hexec]
    refine ⟨fun hno => ?_, fun cfg hcfg hmode => ⟨fun h0 hnone => ?_, fun hreports => ?_⟩⟩
    · rw [State.stationRead, if_pos (Line.keepsStations_of_not_master hno), hx.writeResults_of_nil]
    · rw [State.stationRead, if_neg (by rw [Line.keepsStations_of_master hcfg hmode]; exact Bool.noConfusion),
        if_pos ⟨h0, by rw [hnone]; rfl⟩, hx.answers]
    · have hfor : (s.line n).reportsFor (byteAt h.record 4) = reports := by
        rcases hreports with ⟨h0, hr⟩ | ⟨i, e, h0, hi, he, hr⟩
        · rw [hr]
          exact if_pos h0
        · rw [hr, ← Line.oneReport_of_some hi he]
          exact if_neg h0
      have hfound : ¬(byteAt h.record 4 ≠ 0 ∧ ((s.line n).entry (byteAt h.record 4)).isNone = true) := by
        rintro ⟨hne, hnone⟩
        rcases hreports with ⟨h0, -⟩ | ⟨i, e, -, hi, he, -⟩
        · exact hne h0
        · rw [(entry_some_iff _ _ e).mpr ⟨i, hi, he⟩] at hnone
          cases hnone
      rw [State.stationRead_of_found (Line.keepsStations_of_master hcfg hmode) hfound, hfor]
      refine ⟨fun hnil => ?_, fun b rest hcons hsize => ?_⟩
      · have hmin : min (admSize h.record / 16) reports.length = 0 := by
          rcases hnil with rfl | hlt
          · exact Nat.min_zero _
          · omega
        have hplace : placeReports (admAddr h.record) (admSize h.record) reports = [] := by
          rw [← List.length_eq_zero_iff, length_placeReports, hmin]
        rw [hplace, hmin, hx.writeResults_of_nil]
      · obtain ⟨writes, hwrites⟩ := placeReports_of_cons (addr := admAddr h.record) (b := b) (rest := rest) hsize
        rw [← hcons] at hwrites
        refine ⟨writes, ?_, ?_⟩
        · rw [← hwrites, placeReports_eq]
        · rw [hwrites, State.writeResults_of_cons]
  · change execReadCounters rdy s = _
    rw [execReadCounters, State.inHand_of_executing hx]
    dsimp only
    rw [State.readCounters, ← hn]
    exact congrArg Host.Outcome.next (State.writeResults_of_cons 0 0 _ _ _)

end Sys2Proof.Machine
end

