-- ==== Sys2Proof/Proofs/Signalling.lean ====
section
/-! The request block, the inputs of a line and the phases of a transmission (R9 to R14, R20 to R30, R38, R51 to R54,
R129, R131). -/

namespace Sys2Proof.Machine

/-! ### The request block -/

/-- R12: a 16-bit value sent low byte first reads back. -/
theorem half_append_halfBytes (l : List Byte) (v : Half) : half (l ++ halfBytes v) l.length = v := by
  have h0 : byteAt (l ++ halfBytes v) l.length = v.extractLsb' 0 8 := by simp [byteAt, halfBytes]
  have h1 : byteAt (l ++ halfBytes v) (l.length + 1) = v.extractLsb' 8 8 := by simp [byteAt, halfBytes]
  rw [half, h0, h1]
  refine BitVec.eq_of_getLsbD_eq fun i hi => ?_
  rw [BitVec.getLsbD_append, BitVec.getLsbD_extractLsb', BitVec.getLsbD_extractLsb']
  by_cases h : i < 8
  · simp [h]
  · have hk : i - 8 < 8 := by omega
    simp [h, hk, show 8 + (i - 8) = i by omega]

theorem controlKind_requestControl (seq : Bool) (f : BitVec 5) : controlKind (requestControl seq f) = .request := by
  revert seq f
  decide

theorem controlSeq_requestControl (seq : Bool) (f : BitVec 5) : controlSeq (requestControl seq f) = seq := by
  revert seq f
  decide

theorem controlFunction_requestControl (seq : Bool) (f : BitVec 5) : controlFunction (requestControl seq f) = f := by
  revert seq f
  decide

/-- Settles O54: the check is that of the characters before it, by the layout of the block. -/
theorem requestBlockPassesItsCheck : Obligations.RequestBlockPassesItsCheck := by
  unfold Obligations.RequestBlockPassesItsCheck
  intro a seq f payload b hlen hchars hcount
  have hlen5 : b.chars.length = payload.length + 5 := by
    rw [hchars]; simp [requestBlock, halfBytes]
  have h0 : byteAt b.chars 0 = a := by rw [hchars]; rfl
  have h1 : byteAt b.chars 1 = requestControl seq f := by rw [hchars]; rfl
  have h2 : (byteAt b.chars 2).toNat = payload.length := by
    rw [hchars]
    exact Nat.mod_eq_of_lt (show payload.length < 2 ^ 8 by omega)
  refine ⟨?_, ?_, ?_, h0, ?_, ?_, ?_, hlen5⟩
  · simp only [RxBlock.consistent, hcount, hlen5, h2, Bool.and_eq_true, decide_eq_true_eq, and_true]
    omega
  · have hcovered : (requestBlock a seq f payload).length - 2
        = ([a, requestControl seq f, BitVec.ofNat 8 payload.length] ++ payload).length := by
      simp [requestBlock, halfBytes]
    have htake : (requestBlock a seq f payload).take ((requestBlock a seq f payload).length - 2)
        = [a, requestControl seq f, BitVec.ofNat 8 payload.length] ++ payload := by
      rw [hcovered, requestBlock, List.take_left]
    have hhalf : half (requestBlock a seq f payload) ((requestBlock a seq f payload).length - 2)
        = crc16 ([a, requestControl seq f, BitVec.ofNat 8 payload.length] ++ payload) := by
      rw [hcovered, requestBlock, half_append_halfBytes]
    have hshort : b.chars.length ≤ Config.stagingChars := by rw [hlen5]; show _ ≤ 205; omega
    simp only [RxBlock.checkPasses, hcount, Bool.and_eq_true, decide_eq_true_eq]
    exact ⟨⟨by omega, hshort⟩, by rw [hchars, htake, hhalf]⟩
  · rw [RxBlock.payload, h2, hchars]
    simp [requestBlock]
  · rw [h1, controlKind_requestControl]
  · rw [h1, controlSeq_requestControl]
  · rw [h1, controlFunction_requestControl]

/-! ### The inputs of a line -/

theorem Line.carrierBack_eq (l : Line) : l.carrierBack = if l.state = .off then { l with carrier := true }
    else { l with carrier := true, state := if l.state = .fault then .starting else l.state, rx := l.rx.start } := by
  unfold Line.carrierBack
  obtain ⟨state⟩ := l
  cases state <;> rfl

theorem Line.fallingEdge_of_hunting {l : Line} (h : l.rx.state = .hunting) (now : Word) : l.fallingEdge now =
    { l with rx := { l.rx with state := .qualifying, edge := now, age := some 0, gap := 0, mark := false }
             tx := { l.tx with phase := if l.tx.phase = .readyWait then .gapWait else l.tx.phase } } := by
  simp only [Line.fallingEdge, Line.activity, if_pos h]
  split <;> rfl

theorem Line.fallingEdge_of_other {l : Line} (h : l.rx.state ≠ .hunting) (now : Word) :
    l.fallingEdge now = { l with rx := { l.rx with mark := false } } := by
  rw [Line.fallingEdge, if_neg h]

/-- R163: a notice handed over is no matter of the lines, the memory port or the BQs. -/
theorem State.handNotice_frame (s : State) (e : NoticeEvent) :
    (s.handNotice e).lines = s.lines ∧ (s.handNotice e).port = s.port ∧ (s.handNotice e).bqs = s.bqs := by
  unfold State.handNotice
  split
  · dsimp only
    split <;> exact ⟨rfl, rfl, rfl⟩
  · exact ⟨rfl, rfl, rfl⟩

theorem State.line_handNotice (s : State) (e : NoticeEvent) (n : LineId) : (s.handNotice e).line n = s.line n :=
  congrArg (fun v => v[n]) (s.handNotice_frame e).1

theorem Line.gapReached_iff (l : Line) (cfg : LineConfig) (bits : Nat) :
    l.gapReached cfg bits = true ↔ bits * cfg.divider ≤ l.rx.gap := decide_eq_true_iff

/-- Settles O53. -/
theorem lineInputsAct : Obligations.LineInputsAct := by
  unfold Obligations.LineInputsAct
  rintro s n l rfl
  refine ⟨fun hcar => ?_, fun hcar => ?_, fun cfg hcfg => ⟨fun hst hcar hgap => ?_, fun hno => ?_⟩, fun hhunt => ?_,
    fun hhunt => ?_, rfl⟩
  · exact congrArg Host.Outcome.next (if_pos hcar)
  · refine congrArg Host.Outcome.next ((if_neg (by rw [hcar]; exact Bool.false_ne_true)).trans ?_)
    exact congrArg (s.setLine n) (s.line n).carrierBack_eq
  · have hq : exec (.quiet n) s = .next (s.quietTaken n) := by
      change execQuiet n s = _
      unfold execQuiet
      rw [hcfg]
      exact congrArg Host.Outcome.next (if_pos ⟨hst, hcar, (Line.gapReached_iff _ _ _).2 hgap⟩)
    have hposts := posts_handNotice (s.modLine n fun l => { l with state := .ready }) (.lineUp n)
    obtain ⟨-, hport, hbqs⟩ := State.handNotice_frame (s.modLine n fun l => { l with state := .ready }) (.lineUp n)
    exact ⟨_, hq, (State.line_handNotice _ _ _).trans (State.line_modLine_self ..),
      noticed_handNotice (s.modLine n fun l => { l with state := .ready }) (.lineUp n),
      ⟨hposts.window, hposts.host, fun m hm => (State.line_handNotice _ _ _).trans (State.line_modLine_ne _ _ hm),
        hposts.sqs, hposts.cqs⟩, hport, hbqs⟩
  · change execQuiet n s = _
    unfold execQuiet
    rw [hcfg]
    refine congrArg Host.Outcome.next (if_neg ?_)
    rintro ⟨h1, h2, h3⟩
    have h3 := (Line.gapReached_iff _ _ _).1 h3
    rcases hno with hno | hno | hno
    · exact hno h1
    · exact Bool.noConfusion (hno.symm.trans h2)
    · omega
  · exact congrArg (fun l => Host.Outcome.next (s.setLine n l)) (Line.fallingEdge_of_hunting hhunt _)
  · exact congrArg (fun l => Host.Outcome.next (s.setLine n l)) (Line.fallingEdge_of_other hhunt _)

/-! ### LEAD, SEND and TXD -/

theorem Line.txd_of_notSend {l : Line} (h : l.tx.phase ≠ .send) : l.txd = true := by
  unfold Line.txd
  split
  · exact absurd ‹_› h
  · rfl

section
variable {l : Line} {cfg : LineConfig} {o : Order}

/-- R7, R36: after the block, and from a contention's stop on, the line rests at mark. -/
theorem Line.txd_of_over (hcfg : l.config = some cfg) (hphase : l.tx.phase = .send) (ho : l.tx.order = some o)
    (h : o.block.length ≤ l.tx.age / cfg.divider / cfg.charTime ∨ ∃ x, l.tx.stopAt = some x ∧ x ≤ l.tx.age) :
    l.txd = true := by
  rw [Line.txd, hphase, ho, hcfg]
  rcases h with h | ⟨x, hx, hle⟩
  · simp [List.getElem?_eq_none h]
  · dsimp only
    rw [hx]
    cases o.block[l.tx.age / cfg.divider / cfg.charTime]? with
    | none => rfl
    | some c => exact if_pos hle

/-- R1, R7: the level of the bit of the character being sent. -/
theorem Line.txd_of_sending (hcfg : l.config = some cfg) (hphase : l.tx.phase = .send) (ho : l.tx.order = some o)
    (hindex : l.tx.age / cfg.divider / cfg.charTime < o.block.length) (hstop : ∀ x, l.tx.stopAt = some x → l.tx.age < x) :
    l.txd = charLevel cfg (byteAt o.block (l.tx.age / cfg.divider / cfg.charTime))
      (l.tx.age / cfg.divider % cfg.charTime) := by
  rw [Line.txd, hphase, ho, hcfg, byteAt, List.getD_eq_getElem?_getD]
  dsimp only
  rw [List.getElem?_eq_getElem hindex]
  cases h : l.tx.stopAt with
  | none => rfl
  | some x => exact if_neg (Nat.not_le.2 (hstop x h))

end

/-- Folding the exclusive or of bits gives the parity of their number. -/
theorem foldl_xor_toNat (f : Nat → Bool) (ks : List Nat) (b : Bool) :
    (ks.foldl (fun p i => p != f i) b).toNat = (b.toNat + ks.countP f) % 2 := by
  induction ks generalizing b with
  | nil => cases b <;> rfl
  | cons k ks ih =>
    rw [List.foldl_cons, ih, List.countP_cons]
    cases b <;> cases f k <;> simp <;> omega

/-- R2: the parity bit makes the number of ones among data and parity bits even or odd. -/
theorem countP_parityBit {p : Parity} (h : p ≠ .none) (v : Byte) :
    ((List.range 8).countP (fun k => v.getLsbD k) + (parityBit p v).toNat) % 2 = if p = .even then 0 else 1 := by
  have hodd := foldl_xor_toNat (fun k => v.getLsbD k) (List.range 8) false
  change (oddOnes v).toNat = _ at hodd
  rw [Bool.toNat_false, Nat.zero_add] at hodd
  cases p with
  | none => exact absurd rfl h
  | even =>
    change (_ + (oddOnes v).toNat) % 2 = 0
    omega
  | odd =>
    change (_ + (!oddOnes v).toNat) % 2 = 1
    cases hb : oddOnes v <;> simp only [hb, Bool.toNat_false, Bool.toNat_true, Bool.not_false, Bool.not_true] at hodd ⊢ <;> omega

section
variable (cfg : LineConfig) (v : Byte) {bit : Nat}

theorem charLevel_of_data (h1 : 1 ≤ bit) (h8 : bit ≤ 8) : charLevel cfg v bit = v.getLsbD (bit - 1) := by
  rw [charLevel, if_neg (by omega), if_pos h8]

theorem charLevel_of_parity (h : cfg.parity ≠ .none) : charLevel cfg v 9 = parityBit cfg.parity v := by
  rw [charLevel, if_neg (by decide), if_neg (by decide), if_pos ⟨rfl, h⟩]

theorem charLevel_of_stop {cfg : LineConfig} (h9 : 9 ≤ bit) (h : bit ≠ 9 ∨ cfg.parity = .none) :
    charLevel cfg v bit = true := by
  rw [charLevel, if_neg (by omega), if_neg (by omega), if_neg]
  rintro ⟨h1, h2⟩
  exact h.elim (· h1) h2

end

theorem Line.blockBits_of_order {l : Line} {o : Order} (h : l.tx.order = some o) (cfg : LineConfig) :
    l.blockBits cfg = o.block.length * cfg.charTime := by
  rw [Line.blockBits, h]

theorem Line.endSend_of_order {l : Line} {o : Order} (h : l.tx.order = some o) (cfg : LineConfig) : l.endSend cfg =
    { l with
      tx := { l.tx with phase := .hold, age := 0 }
      rx := { (if cfg.echo then l.rx else l.rx.start) with gap := 0, idle := true, armed := !o.broadcast, window := none } } := by
  unfold Line.endSend
  rw [h]

theorem exec_leadEnd {s : State} {n : LineId} {cfg : LineConfig} (hcfg : (s.line n).config = some cfg) :
    exec (.leadEnd n) s = .next (if (s.line n).tx.phase = .lead ∧ cfg.lead * cfg.divider ≤ (s.line n).tx.age then
      s.modLine n Line.beginSend else s) := by
  change execLeadEnd n s = _
  rw [execLeadEnd, hcfg]

theorem exec_sendEnd {s : State} {n : LineId} {cfg : LineConfig} {o : Order} (hcfg : (s.line n).config = some cfg)
    (ho : (s.line n).tx.order = some o) : exec (.sendEnd n) s = .next
      (if (s.line n).tx.phase = .send ∧ (s.line n).tx.stopAt = none
          ∧ o.block.length * cfg.charTime * cfg.divider ≤ (s.line n).tx.age then s.modLine n (·.endSend cfg) else s) := by
  change execSendEnd n s = _
  rw [execSendEnd, hcfg]
  dsimp only
  rw [Line.blockBits_of_order ho]

/-- Settles O43. -/
theorem leadAndSendRunTheirTimes : Obligations.LeadAndSendRunTheirTimes := by
  unfold Obligations.LeadAndSendRunTheirTimes
  rintro s n l cfg rfl hcfg
  refine ⟨Line.txd_of_notSend, fun hphase hage => ?_, fun _ hage => ?_, fun o hphase ho => ⟨fun hstop hage => ?_,
    fun hno => ?_, ?_⟩⟩
  · exact (exec_leadEnd hcfg).trans (congrArg Host.Outcome.next (if_pos ⟨hphase, hage⟩))
  · exact (exec_leadEnd hcfg).trans (congrArg Host.Outcome.next (if_neg fun h => Nat.not_lt.2 h.2 hage))
  · exact (exec_sendEnd hcfg ho).trans (congrArg Host.Outcome.next ((if_pos ⟨hphase, hstop, hage⟩).trans
      (congrArg (s.setLine n) (Line.endSend_of_order ho cfg))))
  · refine (exec_sendEnd hcfg ho).trans (congrArg Host.Outcome.next (if_neg ?_))
    rintro ⟨-, hstop, hage⟩
    exact hno.elim (· hstop) (Nat.not_lt.2 hage)
  · rintro index bit v rfl rfl rfl
    refine ⟨Line.txd_of_over hcfg hphase ho, fun hindex hstop => ?_⟩
    rw [Line.txd_of_sending hcfg hphase ho hindex hstop]
    refine ⟨fun h => by rw [h]; rfl, charLevel_of_data cfg _, fun h hpar => ?_, charLevel_of_stop _⟩
    rw [h, charLevel_of_parity cfg _ hpar]
    exact countP_parityBit hpar _

end Sys2Proof.Machine
end

