-- ==== Sys2Proof/Proofs/SendOrders.lean ====
section
/-! Send orders: the first eligible context, the idle requirement, and the start of an attempt (R26 to R30, R51 to
R54). -/

namespace Sys2Proof.Machine

/-! ### The first eligible context -/

theorem CtxState.blocksLater_eq_false_iff (x : CtxState) :
    x.blocksLater = false ↔ x ≠ .queued ∧ x ≠ .admission ∧ ∀ t, x ≠ .holding t := by
  constructor
  · rintro h
    refine ⟨?_, ?_, fun t => ?_⟩ <;> rintro rfl <;> exact Bool.noConfusion h
  · rintro ⟨hq, ha, hh⟩
    cases x with
    | queued => exact absurd rfl hq
    | admission => exact absurd rfl ha
    | holding t => exact absurd rfl (hh t)
    | _ => rfl

theorem ctxBlocks_eq_false_iff (a : Byte) (x : Option Ctx) : ctxBlocks a x = false ↔
    ∀ d, x = some d → d.station = a → d.state ≠ .queued ∧ d.state ≠ .admission ∧ ∀ t, d.state ≠ .holding t := by
  cases x with
  | none => simp [ctxBlocks]
  | some d =>
    rw [ctxBlocks, Bool.and_eq_false_iff, decide_eq_false_iff_not, CtxState.blocksLater_eq_false_iff]
    exact ⟨fun h e he hst => Option.some.inj he ▸ h.resolve_left fun h => h (Option.some.inj he ▸ hst),
      fun h => (em (d.station = a)).elim (fun hst => .inr (h d rfl hst)) .inl⟩

/-- With fewer contexts before it a context stays eligible. -/
theorem EligibleAfter.mono {l : Line} {a b : List CtxId} {i : CtxId} (h : EligibleAfter l b i) (hsub : ∀ j ∈ a, j ∈ b) :
    EligibleAfter l a i := by
  obtain ⟨c, hc, hq, hblock⟩ := h
  exact ⟨c, hc, hq, fun j hj => hblock j (hsub j hj)⟩

theorem Line.eligible_iff {l : Line} {a b : List CtxId} {i : CtxId} (hwork : l.exch.work = a ++ i :: b) (hi : i ∉ a) :
    l.eligible i = true ↔ EligibleAfter l a i := by
  have hbefore : (l.exch.work.takeWhile fun j => decide (j ≠ i)) = a := by
    rw [hwork, List.takeWhile_append_of_pos fun j hj => decide_eq_true (show j ≠ i from fun h => hi (h ▸ hj))]
    simp
  unfold Line.eligible EligibleAfter
  rw [hbefore]
  cases hc : l.ctx i with
  | none => simp
  | some c =>
    simp only [Bool.and_eq_true, decide_eq_true_eq, List.all_eq_true, Bool.not_eq_true', ctxBlocks_eq_false_iff,
      Option.some.injEq, exists_eq_left']

/-- R53: the model's search finds what the statements call the first eligible context. -/
theorem Line.firstEligible_eq_some_iff (l : Line) (i : CtxId) : l.firstEligible = some i ↔ FirstEligible l i := by
  rw [Line.firstEligible, List.find?_eq_some_iff_append]
  constructor
  · rintro ⟨he, as, bs, hwork, hnone⟩
    have hi : i ∉ as := fun h => by simpa [he] using hnone i h
    refine ⟨as, bs, hwork, hi, (Line.eligible_iff hwork hi).1 he, ?_⟩
    rintro a j b rfl hj
    obtain ⟨a1, b1, ha, hja⟩ := List.eq_append_cons_of_mem (show j ∈ a ++ [j] by simp)
    have hsub : ∀ x ∈ a1, x ∈ a := by
      intro x hx
      have hmem : x ∈ a ++ [j] := ha ▸ List.mem_append_left _ hx
      refine (List.mem_append.1 hmem).resolve_right fun h => ?_
      obtain rfl := List.mem_singleton.1 h
      exact hja hx
    have hw1 : l.exch.work = a1 ++ j :: (b1 ++ (b ++ i :: bs)) :=
      calc l.exch.work = (a ++ [j]) ++ (b ++ i :: bs) := by rw [hwork]; simp
        _ = _ := by rw [ha]; simp
    have := (Line.eligible_iff hw1 hja).2 (hj.mono hsub)
    simpa [this] using hnone j (by simp)
  · rintro ⟨as, bs, hwork, hi, he, hnone⟩
    refine ⟨(Line.eligible_iff hwork hi).2 he, as, bs, hwork, fun j hj => ?_⟩
    obtain ⟨a, b, rfl, hja⟩ := List.eq_append_cons_of_mem hj
    have hw : l.exch.work = a ++ j :: (b ++ i :: bs) := by rw [hwork]; simp
    have hno := mt (Line.eligible_iff hw hja).1 (hnone a j b rfl)
    simpa using hno

/-! ### Giving an order -/

theorem LineState.sends_iff (x : LineState) : x.sends = true ↔ x = .ready ∨ x = .draining := by
  cases x <;> simp [LineState.sends]

theorem Line.activeCtx_isNone_iff (l : Line) : l.activeCtx.isNone = true ↔
    ∀ i ∈ l.exch.work, ∀ c, l.ctx i = some c → c.state.active = false := by
  have hctx : ∀ x, ctxActive x = false ↔ ∀ c, x = some c → c.state.active = false := fun x => by
    cases x <;> simp [ctxActive]
  simp only [Line.activeCtx, Option.isNone_iff_eq_none, List.find?_eq_none, Bool.not_eq_true, hctx]

theorem Line.mayOrder_iff (l : Line) (cfg : LineConfig) : l.mayOrder cfg = true ↔
    cfg.mode = .master ∧ (l.state = .ready ∨ l.state = .draining)
      ∧ (∀ i ∈ l.exch.work, ∀ c, l.ctx i = some c → c.state.active = false) ∧ l.tx.order = none := by
  rw [Line.mayOrder, Bool.and_eq_true, Bool.and_eq_true, Bool.and_eq_true, Line.activeCtx_isNone_iff, decide_eq_true_eq,
    LineState.sends_iff, Option.isNone_iff_eq_none, and_assoc, and_assoc]

theorem Line.giveOrder_of_ctx {l : Line} {i : CtxId} {c : Ctx} (hc : l.ctx i = some c) (idle : Nat) : l.giveOrder i idle =
    { l with tx := { Transmitter.reset with
        phase := .gapWait
        order := some { ctx := i, block := l.requestFor c, idle := idle, broadcast := decide (c.station = 0) } } } := by
  rw [Line.giveOrder, hc]

section
variable {s : State} {n : LineId} {cfg : LineConfig}

theorem exec_sendOrder_of_eligible {i : CtxId} (hcfg : (s.line n).config = some cfg)
    (hfirst : (s.line n).firstEligible = some i) : exec (.sendOrder n) s =
      .next (if (s.line n).mayOrder cfg then s.modLine n (·.giveOrder i cfg.gap) else s) := by
  change execSendOrder n s = _
  rw [execSendOrder, hcfg, hfirst]

theorem exec_sendOrder_of_none (hfirst : (s.line n).firstEligible = none) : exec (.sendOrder n) s = .next s := by
  change execSendOrder n s = _
  rw [execSendOrder, hfirst]
  cases (s.line n).config <;> rfl

end

/-- Settles O40. -/
theorem sendOrderTakesTheFirstEligible : Obligations.SendOrderTakesTheFirstEligible := by
  unfold Obligations.SendOrderTakesTheFirstEligible
  rintro s n l cfg rfl hcfg
  refine ⟨fun hmode hst ho hact => ⟨fun i c hfirst hc => ?_, fun hnone => ?_⟩, fun hno => ?_⟩
  · rw [exec_sendOrder_of_eligible hcfg ((Line.firstEligible_eq_some_iff _ i).2 hfirst),
      if_pos ((Line.mayOrder_iff _ cfg).2 ⟨hmode, hst, hact, ho⟩)]
    exact congrArg (fun l => Host.Outcome.next (s.setLine n l)) (Line.giveOrder_of_ctx hc cfg.gap)
  · refine exec_sendOrder_of_none (Option.eq_none_iff_forall_ne_some.2 fun i hi => hnone i ?_)
    exact (Line.firstEligible_eq_some_iff _ i).1 hi
  · cases hfirst : (s.line n).firstEligible with
    | none => exact exec_sendOrder_of_none hfirst
    | some i =>
      refine (exec_sendOrder_of_eligible hcfg hfirst).trans (congrArg Host.Outcome.next (if_neg fun h => ?_))
      obtain ⟨hmode, hst, hact, ho⟩ := (Line.mayOrder_iff _ cfg).1 h
      rcases hno with hno | ⟨h1, h2⟩ | hno | ⟨j, hj, c, hc, hac⟩
      · exact Mode.noConfusion (hmode.symm.trans hno)
      · exact hst.elim h1 h2
      · exact hno ho
      · exact Bool.noConfusion ((hact j hj c hc).symm.trans hac)

/-! ### The idle requirement and LEAD -/

/-- R29, R54: the line once its ordered context has begun an attempt, before its station's entry is told. -/
def Line.leading (l : Line) (cfg : LineConfig) (o : Order) (c : Ctx) : Line :=
  { l with
    tx := { l.tx with phase := .lead, age := 0, de := true, readyTimer := none, stopAt := none
                      echoStarts := 0, echoMatched := 0 }
    rx := if cfg.echo then { l.rx with gap := 0 } else l.rx.stop
    exch := { l.exch with contexts := l.exch.contexts.set o.ctx (some
      { c with state := .talking, staleSeen := false
               recordedHealth := match c.recordedHealth with
                 | some h => some h
                 | none => if c.hasEntry then l.healthOf c.station else none }) } }

theorem Line.beginLead_of_ctx {l : Line} {o : Order} {c : Ctx} (ho : l.tx.order = some o) (hc : l.ctx o.ctx = some c)
    (cfg : LineConfig) (now : Word) : l.beginLead cfg now =
      if c.hasEntry then (l.leading cfg o c).modEntry c.station fun e => { e with lastUsed := now }
      else l.leading cfg o c := by
  unfold Line.beginLead
  rw [ho]
  dsimp only
  rw [hc]
  rfl

theorem Line.leading_ctx (l : Line) (cfg : LineConfig) (o : Order) (c : Ctx) (j : CtxId) : (l.leading cfg o c).ctx j =
    if j = o.ctx then some
      { c with state := .talking, staleSeen := false
               recordedHealth := match c.recordedHealth with
                 | some h => some h
                 | none => if c.hasEntry then l.healthOf c.station else none }
    else l.ctx j := Line.ctx_setCtx l o.ctx j _

/-- Only the station table differs from the line that leads. -/
theorem Line.beginLead_eq_leading {l : Line} {o : Order} {c : Ctx} (ho : l.tx.order = some o) (hc : l.ctx o.ctx = some c)
    (cfg : LineConfig) (now : Word) :
    l.beginLead cfg now = { l.leading cfg o c with stations := (l.beginLead cfg now).stations } := by
  rw [Line.beginLead_of_ctx ho hc]
  split
  · exact Line.modEntry_eq _ _ _
  · rfl

theorem onlyLine_setLine (s : State) (n : LineId) (l : Line) : OnlyLine n s (s.setLine n l) :=
  ⟨(Posts.refl s).window, ⟨rfl, rfl⟩, fun _ h => State.line_setLine_ne s l h, rfl, fun _ => SameCqIndices.refl _⟩

theorem OnlyLine.trans {n : LineId} {s t u : State} (h : OnlyLine n s t) (k : OnlyLine n t u) : OnlyLine n s u := by
  obtain ⟨hw, hh, ho, hs, hc⟩ := h
  obtain ⟨kw, kh, ko, ks, kc⟩ := k
  exact ⟨hw.trans kw, ⟨kh.1.trans hh.1, kh.2.trans hh.2⟩, fun m hm => (ko m hm).trans (ho m hm), ks.trans hs,
    fun i => (hc i).trans (kc i)⟩

/-- The line may have taken the level of RDY in the same act. -/
theorem leadBegun_beginLead {s : State} {n : LineId} {cfg : LineConfig} {o : Order} {c : Ctx} (rdy : Bool)
    (ho : (s.line n).tx.order = some o) (hc : (s.line n).ctx o.ctx = some c) :
    LeadBegun s (s.setLine n (Line.beginLead { s.line n with rdy := rdy } cfg s.timebase)) n cfg o c
      ∧ ((s.setLine n (Line.beginLead { s.line n with rdy := rdy } cfg s.timebase)).line n).rdy = rdy := by
  have heq := Line.beginLead_eq_leading (l := { s.line n with rdy := rdy }) ho hc cfg s.timebase
  have field {α : Type} (f : Line → α) := congrArg f heq
  unfold LeadBegun
  rw [State.line_setLine_self]
  refine ⟨⟨field Line.tx, field Line.rx, (field (Line.ctx · o.ctx)).trans ?_, fun j hj => (field (Line.ctx · j)).trans ?_,
    ?_, field Line.state, field Line.polls, field (fun l => l.exch.work), field Line.counters,
    onlyLine_setLine s n _, rfl, rfl, rfl, rfl⟩, field Line.rdy⟩
  · exact (Line.leading_ctx _ cfg o c o.ctx).trans (if_pos rfl)
  · exact (Line.leading_ctx _ cfg o c j).trans (if_neg hj)
  · intro hentry e he
    have hled := Line.beginLead_of_ctx (l := { s.line n with rdy := rdy }) ho hc cfg s.timebase
    refine (congrArg (Line.entry · c.station) (hled.trans (if_pos hentry))).trans ?_
    exact Line.entry_modEntry_self (fun _ => rfl) he

theorem Line.requirementMet_iff_of_order {l : Line} {o : Order} (ho : l.tx.order = some o) (cfg : LineConfig) :
    l.requirementMet cfg = true ↔ l.tx.phase = .gapWait ∧ (l.state = .ready ∨ l.state = .draining) ∧ cfg.mode = .master
      ∧ o.idle * cfg.divider ≤ l.rx.gap ∧ l.rx.block = none := by
  simp only [Line.requirementMet, ho, Bool.and_eq_true, decide_eq_true_eq, LineState.sends_iff, Line.gapReached_iff,
    Option.isNone_iff_eq_none, and_assoc]

theorem exec_idleRequirementMet {s : State} {n : LineId} {cfg : LineConfig} (hcfg : (s.line n).config = some cfg)
    (rdy : Bool) : exec (.idleRequirementMet n rdy) s = .next (if (s.line n).requirementMet cfg then
      s.setLine n (if rdy then Line.beginLead { s.line n with rdy := rdy } cfg s.timebase
        else Line.waitReady { s.line n with rdy := rdy } cfg s.timebase)
      else s) := by
  change execIdleRequirementMet n rdy s = _
  unfold execIdleRequirementMet
  split
  · next c hc =>
    obtain rfl : cfg = c := Option.some.inj (hcfg.symm.trans hc)
    rfl
  · next hc => exact absurd (hcfg.symm.trans hc) (Option.some_ne_none cfg)

theorem exec_rdyAsserted {s : State} {n : LineId} {cfg : LineConfig} (hcfg : (s.line n).config = some cfg) :
    exec (.rdyAsserted n) s = .next (s.setLine n
      (if (s.line n).tx.phase = .readyWait ∧ (s.line n).state.sends = true ∧ cfg.mode = .master then
        Line.beginLead { s.line n with rdy := true } cfg s.timebase else { s.line n with rdy := true })) := by
  change execRdyAsserted n s = _
  unfold execRdyAsserted State.modLine
  dsimp only
  split
  · next c hc =>
    obtain rfl : cfg = c := Option.some.inj (hcfg.symm.trans hc)
    rfl
  · next hc => exact absurd (hcfg.symm.trans hc) (Option.some_ne_none cfg)

/-- Settles O41. -/
theorem leadBeginsWhenIdleAndReady : Obligations.LeadBeginsWhenIdleAndReady := by
  unfold Obligations.LeadBeginsWhenIdleAndReady
  refine ⟨?_, fun s n hphase => ?_⟩
  · rintro s n l cfg o c rfl hcfg hmode hst ho hc
    refine ⟨fun hphase hblock hgap => ?_, fun hphase hgap r => ?_, fun hphase => ?_⟩
    · have hmet : (s.line n).requirementMet cfg = true :=
        (Line.requirementMet_iff_of_order ho cfg).2 ⟨hphase, hst, hmode, hgap, hblock⟩
      exact ⟨⟨_, (exec_idleRequirementMet hcfg true).trans (congrArg Host.Outcome.next (if_pos hmet)),
        leadBegun_beginLead true ho hc⟩,
        (exec_idleRequirementMet hcfg false).trans (congrArg Host.Outcome.next (if_pos hmet))⟩
    · refine (exec_idleRequirementMet hcfg r).trans (congrArg Host.Outcome.next (if_neg fun hmet => ?_))
      obtain ⟨-, -, -, hle, -⟩ := (Line.requirementMet_iff_of_order ho cfg).1 hmet
      exact Nat.not_lt.2 hle hgap
    · exact ⟨_, (exec_rdyAsserted hcfg).trans (congrArg (fun l => Host.Outcome.next (s.setLine n l))
        (if_pos ⟨hphase, (LineState.sends_iff _).2 hst, hmode⟩)), leadBegun_beginLead true ho hc⟩
  · cases hcfg : (s.line n).config with
    | none =>
      change execRdyAsserted n s = _
      unfold execRdyAsserted State.modLine
      dsimp only
      split
      · next c hc => exact absurd (hcfg.symm.trans hc) (Option.some_ne_none c).symm
      · rfl
    | some cfg =>
      exact (exec_rdyAsserted hcfg).trans (congrArg (fun l => Host.Outcome.next (s.setLine n l))
        (if_neg fun h => hphase h.1))

end Sys2Proof.Machine
end

