-- ==== Sys2Proof/Proofs/ContextPosting.lean ====
section
/-! What the posting of one context can touch (R71 to R73, R102 to R110, R153): its own context, its line's poll table
and counts, its BQ and CQ; and what becomes of a poll instance's result. -/

namespace Sys2Proof.Machine

/-- The counters but for those of discarded completions and suppressed replies. -/
def Counters.core (k : Counters) : Counters := { k with discarded := 0, repliesSuppressed := 0 }

/-- What the end of context `i` leaves of its line: the other contexts, the station table, the settle timer, the lent
context, monitor capture, and all counters but two. -/
structure OnlyCtx (i : CtxId) (l m : Line) : Prop where
  ctxs : ∀ j, j ≠ i → m.ctx j = l.ctx j
  stations : m.stations = l.stations
  settle : m.exch.settle = l.exch.settle
  lent : m.exch.lent = l.exch.lent
  mon : m.mon = l.mon
  counts : m.counters.core = l.counters.core

/-- What the posting of context `i` of line `n` leaves as it was. -/
structure ActsOn (n : LineId) (i : CtxId) (s t : State) : Prop where
  posts : Posts s t
  others : SameOtherLines n s t
  line : OnlyCtx i (s.line n) (t.line n)

theorem OnlyCtx.refl (i : CtxId) (l : Line) : OnlyCtx i l l := ⟨fun _ _ => rfl, rfl, rfl, rfl, rfl, rfl⟩

theorem OnlyCtx.trans {i : CtxId} {a b c : Line} (h : OnlyCtx i a b) (k : OnlyCtx i b c) : OnlyCtx i a c :=
  ⟨fun j hj => (k.ctxs j hj).trans (h.ctxs j hj), k.stations.trans h.stations, k.settle.trans h.settle,
    k.lent.trans h.lent, k.mon.trans h.mon, k.counts.trans h.counts⟩

theorem OnlyCtx.of_exch {i : CtxId} {l m : Line} (he : m.exch = l.exch) (hs : m.stations = l.stations)
    (hm : m.mon = l.mon) (hk : m.counters.core = l.counters.core) : OnlyCtx i l m :=
  ⟨fun j _ => congrArg (fun x => x.contexts[j]) he, hs, congrArg ExchangeUnit.settle he, congrArg ExchangeUnit.lent he, hm,
    hk⟩

theorem onlyCtx_setCtx (l : Line) (i : CtxId) (c : Option Ctx) : OnlyCtx i l (l.setCtx i c) :=
  ⟨fun j hj => (Line.ctx_setCtx l i j c).trans (if_neg hj), rfl, rfl, rfl, rfl, rfl⟩

/-- Freeing a context is the same change of the exchange unit, whatever its origin, and otherwise one of the poll table. -/
theorem Line.freeCtx_eq (l : Line) (i : CtxId) : l.freeCtx i =
    { l with
      exch := { l.exch with contexts := l.exch.contexts.set i none, work := l.exch.work.filter fun j => decide (j ≠ i) }
      polls := (l.freeCtx i).polls } := by
  unfold Line.freeCtx
  dsimp only
  repeat' split
  all_goals rfl

theorem Line.ctx_freeCtx (l : Line) (i j : CtxId) : (l.freeCtx i).ctx j = if j = i then none else l.ctx j := by
  rw [l.freeCtx_eq i]
  exact Line.ctx_setCtx l i j none

theorem onlyCtx_freeCtx (l : Line) (i : CtxId) : OnlyCtx i l (l.freeCtx i) := by
  refine ⟨fun j hj => (l.ctx_freeCtx i j).trans (if_neg hj), ?_, ?_, ?_, ?_, ?_⟩ <;> rw [l.freeCtx_eq i]

theorem onlyCtx_losePoll (l : Line) (i : CtxId) : OnlyCtx i l (l.losePoll i) :=
  have hcount : OnlyCtx i l { l with pollLost := bump 255 l.pollLost } := .of_exch rfl rfl rfl rfl
  hcount.trans (onlyCtx_freeCtx _ i)

theorem onlyCtx_suppress (l : Line) (i : CtxId) (e : PollId) (p : PollEntry) : OnlyCtx i l (l.suppress i e p) :=
  have hcount : OnlyCtx i l ((l.setPoll e (some { p with suppressed := bump 255 p.suppressed })).count fun k =>
    { k with repliesSuppressed := tally k.repliesSuppressed }) := .of_exch rfl rfl rfl rfl
  hcount.trans (onlyCtx_freeCtx _ i)

section
variable {n : LineId} {i : CtxId}

theorem ActsOn.refl (s : State) : ActsOn n i s s := ⟨Posts.refl s, fun _ _ => rfl, OnlyCtx.refl i _⟩

theorem ActsOn.trans {s t u : State} (h : ActsOn n i s t) (k : ActsOn n i t u) : ActsOn n i s u :=
  ⟨h.posts.trans k.posts, fun m hm => (k.others m hm).trans (h.others m hm), h.line.trans k.line⟩

theorem ActsOn.onlyLine {s t : State} (h : ActsOn n i s t) : OnlyLine n s t :=
  ⟨h.posts.window, h.posts.host, h.others, h.posts.sqs, h.posts.cqs⟩

/-- An operation that changes no line at all. -/
theorem ActsOn.of_lines {s t : State} (h : Posts s t) (hl : t.lines = s.lines) : ActsOn n i s t :=
  ⟨h, fun m _ => congrArg (fun v => v[m]) hl, .of_exch (congrArg (fun v => v[n].exch) hl)
    (congrArg (fun v => v[n].stations) hl) (congrArg (fun v => v[n].mon) hl) (congrArg (fun v => v[n].counters.core) hl)⟩

theorem actsOn_setLine {s : State} {l : Line} (hw : SameWire (s.line n) l) (h : OnlyCtx i (s.line n) l) :
    ActsOn n i s (s.setLine n l) :=
  ⟨posts_setLine s n l hw, fun _ hm => State.line_setLine_ne s l hm, (State.line_setLine_self s n l).symm ▸ h⟩

theorem actsOn_setCtx (s : State) (c : Ctx) : ActsOn n i s (s.setCtx n i c) :=
  actsOn_setLine (sameWire_setCtx _ i _) (onlyCtx_setCtx _ i _)

theorem actsOn_setPoll (s : State) (e : PollId) (p : Option PollEntry) : ActsOn n i s (s.modLine n (·.setPoll e p)) :=
  actsOn_setLine (sameWire_setPoll _ e p) (.of_exch rfl rfl rfl rfl)

theorem actsOn_freeCtx (s : State) : ActsOn n i s (s.modLine n (·.freeCtx i)) :=
  actsOn_setLine (sameWire_freeCtx _ i) (onlyCtx_freeCtx _ i)

/-- R156: a discarded exchange frees its context. -/
theorem actsOn_discard (s : State) (k : CqId) : ActsOn n i s (s.discard k (.exchange n i)) := by
  unfold State.discard
  dsimp only [Poster.line]
  have hcount : ActsOn n i s (match s.cqs[k] with
      | some q => s.setCq k (some { q with discards := bump Config.counterMax q.discards })
      | none => s) := by
    split
    · next q hq => exact .of_lines (posts_setCq s k _ (by rw [hq]; simp [SameCqIndices])) rfl
    · exact .refl s
  exact (hcount.trans (actsOn_setLine (sameWire_count _ _) (.of_exch rfl rfl rfl rfl))).trans (actsOn_freeCtx _)

theorem actsOn_joinCq (s : State) (k : CqId) (r : Completion) :
    ActsOn n i s (s.joinCq k { poster := .exchange n i, record := r }) := by
  unfold State.joinCq
  split
  · next q hq =>
    split
    · exact .of_lines (posts_join s k q _ hq) rfl
    · exact actsOn_discard s k
  · exact actsOn_freeCtx s

theorem actsOn_requestBuffer {s t : State} {m : LineId} {x : Taker} (h : s.requestBuffer m x = some t) : ActsOn n i s t := by
  refine .of_lines (posts_requestBuffer s t m x h) ?_
  unfold State.requestBuffer at h
  split at h
  · split at h
    · cases h; rfl
    · cases h
  · cases h

theorem actsOn_readyToComplete (s : State) : ActsOn n i s (s.readyToComplete n i) := by
  unfold State.readyToComplete
  split
  · split
    · exact actsOn_joinCq s _ _
    · exact actsOn_freeCtx s
  · exact .refl s

theorem actsOn_writeReply (s : State) : ActsOn n i s (s.writeReply n i) := by
  unfold State.writeReply
  split
  · split
    · split
      · dsimp only
        split
        · exact (actsOn_setCtx s _).trans (actsOn_readyToComplete _)
        · exact (actsOn_setCtx s _).trans (.of_lines (posts_issue _ _ _) rfl)
      · exact actsOn_readyToComplete s
    · exact actsOn_readyToComplete s
  · exact .refl s

theorem actsOn_noBuffer (s : State) : ActsOn n i s (s.noBuffer n i) := by
  unfold State.noBuffer
  split
  · split
    · exact (actsOn_setCtx s _).trans (actsOn_readyToComplete _)
    · exact .refl s
  · exact .refl s

theorem actsOn_losePoll (s : State) : ActsOn n i s (s.modLine n (·.losePoll i)) :=
  actsOn_setLine (sameWire_losePoll _ i) (onlyCtx_losePoll _ i)

theorem actsOn_suppress (s : State) (e : PollId) (p : PollEntry) : ActsOn n i s (s.modLine n (·.suppress i e p)) :=
  actsOn_setLine (sameWire_suppress _ i e p) (onlyCtx_suppress _ i e p)

theorem actsOn_settlePoll (s : State) (e : PollId) (c : Ctx) (r : Result) : ActsOn n i s (s.settlePoll n i e c r) := by
  unfold State.settlePoll
  split
  · split
    · exact actsOn_suppress s e _
    · split
      · split
        · next h => exact actsOn_requestBuffer h
        · exact actsOn_losePoll s
      · exact (actsOn_setPoll s e _).trans (actsOn_readyToComplete _)
  · exact actsOn_freeCtx s

theorem actsOn_enterPosting (s : State) : ActsOn n i s (s.enterPosting n i) := by
  unfold State.enterPosting
  split
  · split
    · split
      · split
        · split
          · next h => exact actsOn_requestBuffer h
          · exact actsOn_noBuffer s
        · exact actsOn_writeReply s
      · exact actsOn_settlePoll s _ _ _
    · exact .refl s
  · exact .refl s

theorem onlyCtx_resulted (l : Line) (c : Ctx) (e : Ending) : OnlyCtx i l (l.resulted i c e) :=
  ⟨fun j hj => l.resulted_ctx_ne i j c e hj, rfl, rfl, rfl, rfl, rfl⟩

/-- The end of an exchange is a matter of its context. -/
theorem actsOn_endExchange (s : State) (e : Ending) : ActsOn n i s (s.endExchange n i e) := by
  cases hc : (s.line n).ctx i with
  | none =>
    unfold State.endExchange
    dsimp only
    rw [hc]
    exact .refl s
  | some c =>
    rw [endExchange_eq hc]
    have hset : ActsOn n i s (s.setLine n ((s.line n).resulted i c e)) :=
      actsOn_setLine ⟨rfl, rfl, rfl, rfl, rfl, rfl, rfl, rfl⟩ (onlyCtx_resulted _ c e)
    exact hset.trans (actsOn_enterPosting _)

end

/-! ### What becomes of a poll instance's result -/

/-- R103 to R105: the model's decision is the statements' one. -/
theorem PollEntry.delivers_iff (p : PollEntry) (c : Ctx) (r : Result) : p.delivers c r = true ↔ Reported p c r := by
  have hdigest : replyDigest c r = resultDigest c r := rfl
  have hgood := good_result_iff r
  unfold PollEntry.delivers Reported
  rw [hdigest]
  cases hmode : p.mode with
  | every => exact ⟨fun _ => .inl rfl, fun _ => rfl⟩
  | onChange =>
    by_cases hg : r.status.good = true
    · simp [hg, hgood.1 hg, or_assoc]
    · simp [hg, mt hgood.2 hg]

theorem afterReport_delivered (p : PollEntry) (c : Ctx) (r : Result) : AfterReport p (p.delivered c r) c r := by
  have hgood := good_result_iff r
  unfold PollEntry.delivered
  refine ⟨fun h => by rw [h], fun h hg => ?_, fun h hg => ?_⟩
  · rw [h]
    dsimp only
    rw [if_pos (hgood.2 hg)]
    rfl
  · rw [h]
    dsimp only
    rw [if_neg (mt hgood.1 hg)]

theorem PollEntry.tag_delivered (p : PollEntry) (c : Ctx) (r : Result) : (p.delivered c r).tag = p.tag := by
  unfold PollEntry.delivered
  split <;> rfl

theorem PollEntry.inFlight_delivered (p : PollEntry) (c : Ctx) (r : Result) : (p.delivered c r).inFlight = p.inFlight := by
  unfold PollEntry.delivered
  split <;> rfl

theorem Ctx.needsBuffer_iff (c : Ctx) (r : Result) :
    c.needsBuffer r = true ↔ c.dest = .bufferQueue ∧ r.isGood ∧ 1 ≤ r.replyLength ∧ c.buffer = none := by
  simp only [Ctx.needsBuffer, Bool.and_eq_true, decide_eq_true_eq, good_result_iff, and_assoc]

/-- R73, R106, R108: the instance of a freed context is absent. -/
theorem Line.freeCtx_of_poll {l : Line} {i : CtxId} {c : Ctx} {e : PollId} {p : PollEntry} (hc : l.ctx i = some c)
    (ho : c.origin = .poll e) (hp : l.poll e = some p) (hin : p.inFlight = some i) : l.freeCtx i =
      { l.setPoll e (some { p with inFlight := none }) with exch := (l.freeCtx i).exch } := by
  unfold Line.freeCtx
  rw [hc]
  dsimp only
  rw [ho]
  dsimp only
  rw [hp]
  dsimp only
  rw [if_pos hin]
  rfl

theorem Line.not_mem_work_freeCtx (l : Line) (i : CtxId) : i ∉ (l.freeCtx i).exch.work := by
  rw [l.freeCtx_eq i]
  simp

theorem State.requestBuffer_of_promisable {s : State} {n : LineId} {q : Bq} (hq : s.bqs[n] = some q)
    (h : q.promisable = true) (x : Taker) : s.requestBuffer n x = some (s.promise n q x) := by
  rw [State.requestBuffer, hq]
  exact if_pos h

theorem State.requestBuffer_of_none {s : State} {n : LineId} (h : ∀ q, s.bqs[n] = some q → q.promisable = false)
    (x : Taker) : s.requestBuffer n x = none := by
  unfold State.requestBuffer
  split
  · next q hq => exact if_neg (by rw [h q hq]; exact Bool.false_ne_true)
  · rfl

/-- A descriptor that cannot be promised. -/
theorem Bq.not_promisable {q : Bq} (h : q.state = .faulted ∨ (q.tail + q.size - q.head) % q.size ≤ q.promises.length) :
    q.promisable = false := by
  refine Bool.eq_false_iff.2 fun hp => ?_
  obtain ⟨ha, hlt⟩ := q.promisable_iff.1 hp
  rcases h with h | h
  · rw [h] at ha
    cases ha
  · omega

section
variable {s : State} {n : LineId} {i : CtxId} {c : Ctx} {r : Result} {e : PollId} {p : PollEntry} {k : CqId} {q : Cq}

/-- R106. -/
theorem pollSettled_of_suppressed (hc : (s.line n).ctx i = some { c with state := .posting, result := some r })
    (h : PollOn s n i c e p k q) (hr : ¬Reported p c r) :
    PollSettled s (s.modLine n (·.suppress i e p)) n i e p k q c r (s.line n).counters := by
  obtain ⟨-, hq, -, ho, hp, hin, -⟩ := h
  refine ⟨fun _ => ?_, fun h => absurd h hr⟩
  rw [State.line_modLine_self]
  have hfree := Line.freeCtx_of_poll (l := ((s.line n).setPoll e (some { p with suppressed := bump 255 p.suppressed })).count
    fun k => { k with repliesSuppressed := tally k.repliesSuppressed }) hc ho (Line.poll_setPoll_self _ _ _) hin
  refine ⟨(Line.ctx_freeCtx _ i i).trans (if_pos rfl), Line.not_mem_work_freeCtx _ i,
    (congrArg (Line.poll · e) hfree).trans ((Line.poll_setPoll_self _ _ _).trans ?_), (congrArg Line.counters hfree).trans ?_, hq⟩
  · rw [bump_eq_min]
  · rw [Line.setPoll_counters, Line.count_counters, Line.setPoll_counters, tally_eq_min]

/-- R107, R110: a report that needs no buffer. -/
theorem pollSettled_of_posted (hc : (s.line n).ctx i = some { c with state := .posting, result := some r })
    (h : PollOn s n i c e p k q) (hr : Reported p c r) (hneeds : c.needsBuffer r = false) :
    PollSettled s ((s.modLine n (·.setPoll e (some (p.delivered c r)))).readyToComplete n i) n i e p k q c r
      (s.line n).counters := by
  obtain ⟨hk, hq, hact, ho, hp, hin, hcfg⟩ := h
  have hon : PollOn (s.modLine n (·.setPoll e (some (p.delivered c r)))) n i
      { c with state := .posting, result := some r } e (p.delivered c r) k q :=
    ⟨hk, hq, hact, ho, by rw [State.line_modLine_self]; exact Line.poll_setPoll_self _ _ _,
      (p.inFlight_delivered c r).trans hin, by rw [State.line_modLine_self]; exact hcfg⟩
  have hc1 : ((s.modLine n (·.setPoll e (some (p.delivered c r)))).line n).ctx i
      = some { c with state := .posting, result := some r } := by rw [State.line_modLine_self]; exact hc
  rw [readyToComplete_poll hc1 rfl hon]
  refine ⟨fun h => absurd hr h, fun _ => ⟨?_, fun _ => ⟨?_, ⟨p.delivered c r, afterReport_delivered p c r, ?_⟩, ?_⟩,
    fun hg hlen hdest hbuf => ?_⟩⟩
  · rw [State.line_setCq, State.line_modLine_self]
    rfl
  · rw [State.line_setCq]
    exact hc1
  · rw [State.line_setCq]
    exact hon.2.2.2.2.1
  · refine (State.cq_setCq _ k k _).trans ((if_pos rfl).trans ?_)
    rw [p.tag_delivered]
    rfl
  · exact Bool.noConfusion (hneeds.symm.trans ((c.needsBuffer_iff r).2 ⟨hdest, hg, hlen, hbuf⟩))

/-- R108: a report that needs a buffer is promised one or lost. -/
theorem pollSettled_of_promised {bq : Bq} (hc : (s.line n).ctx i = some { c with state := .posting, result := some r })
    (h : PollOn s n i c e p k q) (hr : Reported p c r) (hneeds : c.needsBuffer r = true) (hbq : s.bqs[n] = some bq)
    (hprom : bq.promisable = true) : PollSettled s (s.promise n bq (.ctx i)) n i e p k q c r (s.line n).counters := by
  obtain ⟨-, hq, -, -, hp, -, -⟩ := h
  obtain ⟨-, hg, hlen, -⟩ := (c.needsBuffer_iff r).1 hneeds
  refine ⟨fun h => absurd hr h, fun _ => ⟨rfl, fun hno => ?_, fun _ _ _ _ b hb => ?_⟩⟩
  · exact (hno.elim (absurd hg) fun h0 => absurd h0 (by omega))
  · obtain rfl := Option.some.inj (hbq.symm.trans hb)
    refine ⟨fun _ _ => ⟨hc, (State.bq_setBq s n n _).trans (if_pos rfl), hp, hq⟩, fun hno => ?_⟩
    exact Bool.noConfusion (hprom.symm.trans (Bq.not_promisable hno))

/-- R108: the loss of a reply for want of a buffer. -/
theorem pollLost_losePoll {d : Ctx} (hd : (s.line n).ctx i = some d) (ho : d.origin = .poll e)
    (hp : (s.line n).poll e = some p) (hin : p.inFlight = some i) : PollLost s (s.modLine n (·.losePoll i)) n i e p := by
  have hfree := Line.freeCtx_of_poll (l := { s.line n with pollLost := bump 255 (s.line n).pollLost }) hd ho hp hin
  unfold PollLost
  rw [State.line_modLine_self]
  refine ⟨(Line.ctx_freeCtx _ i i).trans (if_pos rfl), Line.not_mem_work_freeCtx _ i,
    (congrArg (Line.poll · e) hfree).trans (Line.poll_setPoll_self _ _ _), (congrArg Line.pollLost hfree).trans ?_⟩
  exact bump_eq_min _ _

theorem pollSettled_of_lost (hc : (s.line n).ctx i = some { c with state := .posting, result := some r })
    (h : PollOn s n i c e p k q) (hr : Reported p c r) (hneeds : c.needsBuffer r = true)
    (hno : ∀ q, s.bqs[n] = some q → q.promisable = false) :
    PollSettled s (s.modLine n (·.losePoll i)) n i e p k q c r (s.line n).counters := by
  obtain ⟨-, hq, -, ho, hp, hin, -⟩ := h
  obtain ⟨-, hg, hlen, -⟩ := (c.needsBuffer_iff r).1 hneeds
  have hfree := Line.freeCtx_of_poll (l := { s.line n with pollLost := bump 255 (s.line n).pollLost }) hc ho hp hin
  refine ⟨fun h => absurd hr h, fun _ => ⟨?_, fun hplain => ?_, fun _ _ _ _ b hb => ⟨fun hact hlt => ?_, fun _ => ?_⟩⟩⟩
  · rw [State.line_modLine_self]
    exact (congrArg Line.counters hfree).trans rfl
  · exact hplain.elim (absurd hg) fun h0 => absurd h0 (by omega)
  · exact Bool.noConfusion ((hno b hb).symm.trans (b.promisable_iff.2 ⟨hact, hlt⟩))
  · exact ⟨pollLost_losePoll hc ho hp hin, hq⟩

theorem State.enterPosting_of_poll (hc : (s.line n).ctx i = some { c with state := .posting, result := some r })
    (ho : c.origin = .poll e) :
    s.enterPosting n i = s.settlePoll n i e { c with state := .posting, result := some r } r := by
  unfold State.enterPosting
  rw [hc]
  dsimp only
  rw [ho]

/-- R102 to R108: the result of a poll instance in POSTING is settled as the statements say. -/
theorem pollSettled_enterPosting (hc : (s.line n).ctx i = some { c with state := .posting, result := some r })
    (h : PollOn s n i c e p k q) : PollSettled s (s.enterPosting n i) n i e p k q c r (s.line n).counters := by
  have hp : (s.line n).poll e = some p := h.2.2.2.2.1
  rw [State.enterPosting_of_poll hc h.2.2.2.1, State.settlePoll, hp]
  dsimp only
  have hdelivers : p.delivers { c with state := .posting, result := some r } r = p.delivers c r := rfl
  have hneeds : Ctx.needsBuffer { c with state := .posting, result := some r } r = c.needsBuffer r := rfl
  rw [hdelivers, hneeds]
  by_cases hr : Reported p c r
  · rw [(p.delivers_iff c r).2 hr, Bool.not_true, if_neg Bool.false_ne_true]
    cases hn : c.needsBuffer r with
    | false => exact pollSettled_of_posted hc h hr hn
    | true =>
      rw [if_pos rfl]
      by_cases hb : ∃ bq, s.bqs[n] = some bq ∧ bq.promisable = true
      · obtain ⟨bq, hbq, hprom⟩ := hb
        rw [State.requestBuffer_of_promisable hbq hprom]
        exact pollSettled_of_promised hc h hr hn hbq hprom
      · have hno : ∀ q, s.bqs[n] = some q → q.promisable = false := fun q hq =>
          Bool.eq_false_iff.2 fun hprom => hb ⟨q, hq, hprom⟩
        rw [State.requestBuffer_of_none hno]
        exact pollSettled_of_lost hc h hr hn hno
  · rw [Bool.eq_false_iff.2 (mt (p.delivers_iff c r).1 hr), Bool.not_false, if_pos rfl]
    exact pollSettled_of_suppressed hc h hr

/-- What `PollSettled` reads of the state before are the buffers, and the replies lost so far. -/
theorem PollSettled.of_same {s1 t : State} {ks : Counters} (h : PollSettled s1 t n i e p k q c r ks)
    (hbq : s1.bqs[n] = s.bqs[n]) (hlost : (s1.line n).pollLost = (s.line n).pollLost) :
    PollSettled s t n i e p k q c r ks := by
  unfold PollSettled PollLost at h ⊢
  rw [hbq, hlost] at h
  exact h

theorem PollOn.of_same {s1 : State} {c1 : Ctx} (h : PollOn s n i c e p k q) (hcq : s1.cqs[k] = s.cqs[k])
    (hpoll : (s1.line n).poll e = (s.line n).poll e) (hcfg : (s1.line n).config = (s.line n).config)
    (ho : c1.origin = c.origin) : PollOn s1 n i c1 e p k q := by
  obtain ⟨hk, hq, hact, ho', hp, hin, cfg, hc, hline⟩ := h
  exact ⟨hk, hcq.trans hq, hact, ho.trans ho', hpoll.trans hp, hin, cfg, hcfg.trans hc, hline⟩

theorem HostOn.of_same {s1 : State} {c1 : Ctx} (h : HostOn s c k q) (hcq : s1.cqs[k] = s.cqs[k]) (hsq : s1.sqs = s.sqs)
    (ho : c1.origin = c.origin) : HostOn s1 c1 k q := by
  obtain ⟨hk, hq, hact, sq, tag, v, b, ho', hv, hb, hbk⟩ := h
  exact ⟨hk, hcq.trans hq, hact, sq, tag, v, b, ho.trans ho', hsq ▸ hv, hb, hbk⟩

/-- R102 to R108: a poll instance whose exchange ends is settled with the result the end gives. -/
theorem pollSettled_endExchange (hc : (s.line n).ctx i = some c) (h : PollOn s n i c e p k q) (x : Ending)
    (hr : r = (s.line n).resultOf c x) : PollSettled s (s.endExchange n i x) n i e p k q c r (s.line n).counters := by
  subst hr
  rw [endExchange_eq hc]
  have hon : PollOn (s.setLine n ((s.line n).resulted i c x)) n i c e p k q :=
    h.of_same rfl (by rw [State.line_setLine_self]; rfl) (by rw [State.line_setLine_self]; rfl) rfl
  have hsettled := pollSettled_enterPosting (r := (s.line n).resultOf c x) (s := s.setLine n ((s.line n).resulted i c x))
    (by rw [State.line_setLine_self]; exact Line.resulted_ctx _ i c x) hon
  rw [State.line_setLine_self] at hsettled
  exact hsettled.of_same rfl (by rw [State.line_setLine_self]; rfl)

/-- R63, R85: the result of a poll instance that ends without a reply. -/
theorem pollSettled_ended (hc : (s.line n).ctx i = some c) (h : PollOn s n i c e p k q) (st : Status) (tm : Word)
    {m : Line} (hm : m.stations = (s.line n).stations) :
    PollSettled s (s.endExchange n i { status := st, endTime := tm }) n i e p k q c (c.ended m st tm)
      (s.line n).counters :=
  pollSettled_endExchange hc h _ (resultOf_eq_ended _ m c st tm hm).symm

/-- An exchange of HOST origin that ends without a reply leaves everything of its line but the context and the count of a
stop, and everything else but the waiter list its record joins. -/
theorem endExchange_host_frame (x : Ending) (hc : (s.line n).ctx i = some c) (h : HostOn s c k q)
    (hg : x.status ≠ .ok ∧ x.status ≠ .refused) :
    (s.endExchange n i x).line n = (s.line n).resulted i c x ∧ (s.endExchange n i x).bqs = s.bqs
      ∧ (s.endExchange n i x).port = s.port ∧ (s.endExchange n i x).admin = s.admin := by
  obtain ⟨sq, tag, -, heq⟩ := endExchange_host x hc h hg
  rw [heq]
  exact ⟨(State.line_setCq _ _ _ _).trans (State.line_setLine_self ..), rfl, rfl, rfl⟩

end

end Sys2Proof.Machine
end

