-- ==== Sys2Proof/Proofs/LineTimers.lean ====
section
/-! The timers of a line: the ready timer, the settle time, hold-offs and due times (R28, R44, R50, R55, R62, R65, R97
to R100). -/

namespace Sys2Proof.Machine

/-! ### Endings without a reply -/

theorem Line.healthOf_of_stations {l m : Line} (h : m.stations = l.stations) (a : Byte) : m.healthOf a = l.healthOf a := by
  simp only [Line.healthOf, Line.entry, Line.entryIdx, h]

/-- The result of an ending reads only the station table. -/
theorem Ctx.ended_of_stations {l m : Line} (h : m.stations = l.stations) (c : Ctx) (st : Status) (t : Word) :
    c.ended m st t = c.ended l st t := by
  rw [Ctx.ended, Ctx.ended, Line.healthOf_of_stations h]

/-- R65: an ending that says the abort came too late. -/
theorem resultOf_eq_ended_late (l : Line) (c : Ctx) (st : Status) (t : Word) (late : Bool) :
    l.resultOf c { status := st, endTime := t, abortLate := late } = { c.ended l st t with abortLate := late } :=
  congrArg (fun r => { r with abortLate := late }) (resultOf_eq_ended l l c st t rfl)

section
variable {s : State} {n : LineId} {i : CtxId} {c : Ctx} {k : CqId} {q : Cq}

/-- An exchange of HOST origin that ends without a reply is posted with the result the end gives. -/
theorem postedAs_ending (x : Ending) (hc : (s.line n).ctx i = some c) (h : HostOn s c k q)
    (hg : x.status ≠ .ok ∧ x.status ≠ .refused) :
    PostedAs (s.endExchange n i x) n i k q c ((s.line n).resultOf c x) := by
  obtain ⟨sq, tag, ho, heq⟩ := endExchange_host x hc h hg
  rw [heq]
  refine ⟨?_, fun sq' tag' ho' => (State.cq_setCq _ k k _).trans ((if_pos rfl).trans ?_)⟩
  · rw [State.line_setCq, State.line_setLine_self]
    exact Line.resulted_ctx _ i c x
  · obtain ⟨rfl, rfl⟩ := Origin.host.inj (ho.symm.trans ho')
    rfl

theorem postedAs_ended (hc : (s.line n).ctx i = some c) (h : HostOn s c k q) {st : Status}
    (hg : st ≠ .ok ∧ st ≠ .refused) (tm : Word) {m : Line} (hm : m.stations = (s.line n).stations) :
    PostedAs (s.endExchange n i { status := st, endTime := tm }) n i k q c (c.ended m st tm) :=
  resultOf_eq_ended _ m c st tm hm ▸ postedAs_ending _ hc h hg

end

/-! ### The ready timer -/

theorem expired_iff (now t : Word) : expired now (some t) = true ↔ (now - t).toNat < 2 ^ 31 := reached_iff now t

theorem exec_notReady (s : State) (n : LineId) : exec (.notReady n) s = .next
    (if (s.line n).tx.waiting && expired s.timebase (s.line n).tx.readyTimer then s.notReady n else s) := rfl

/-- Settles O42. -/
theorem readyTimeoutEndsTheOrder : Obligations.ReadyTimeoutEndsTheOrder := by
  unfold Obligations.ReadyTimeoutEndsTheOrder
  rintro s n l o c x rfl hphase htimer ho hc
  have hwait : (s.line n).tx.waiting = true := by
    rw [Transmitter.waiting, Bool.or_eq_true, decide_eq_true_eq, decide_eq_true_eq]
    exact hphase
  have hexec (hlate : (s.timebase - x).toNat < 2 ^ 31) : exec (.notReady n) s = .next
      ((s.modLine n fun l => { l with tx := .reset }).endExchange n o.ctx { status := .notReady, endTime := s.timebase }) := by
    rw [exec_notReady, htimer, hwait, (expired_iff _ _).2 hlate, State.notReady, Line.ordered, ho]
    rfl
  have hline := State.line_modLine_self s n fun l => { l with tx := .reset }
  have hc1 : ((s.modLine n fun l => { l with tx := .reset }).line n).ctx o.ctx = some c := by rw [hline]; exact hc
  have hst : (s.line n).stations = ((s.modLine n fun l => { l with tx := .reset }).line n).stations := by rw [hline]
  have hacts := actsOn_endExchange (n := n) (i := o.ctx) (s.modLine n fun l => { l with tx := .reset })
    { status := .notReady, endTime := s.timebase }
  obtain ⟨htx, hrx, -⟩ := hacts.posts.wires n
  rw [hline] at htx hrx
  have hothers := hacts.line.ctxs
  have hstations := hacts.line.stations
  rw [hline] at hothers hstations
  have hposts := hacts.onlyLine
  have honly := (onlyLine_setLine s n _).trans hposts
  refine ⟨fun hlate k q hon => ⟨_, hexec hlate, ?_, htx, hrx, hothers, hstations, honly⟩,
    fun hlate e p k q hon => ⟨_, hexec hlate, ?_, htx, hrx, hothers, hstations, honly⟩, fun hearly => ?_⟩
  · exact postedAs_ended hc1 (hon.of_same rfl rfl rfl) (by decide) _ hst
  · have hset := pollSettled_ended hc1 (hon.of_same rfl (by rw [hline]; rfl) (by rw [hline]) rfl) .notReady s.timebase hst
    rw [hline] at hset
    exact hset.of_same rfl (by rw [hline])
  · rw [exec_notReady, htimer, Bool.eq_false_iff.2 (mt (expired_iff _ _).1 (Nat.not_lt.2 hearly)), Bool.and_false]
    rfl

/-! ### The settle time and hold-offs -/

/-- The one context in a state is the one the work list's search finds. -/
theorem find?_work_of_only {work : List CtxId} {P : CtxId → Bool} {i : CtxId} (hmem : i ∈ work) (hi : P i = true)
    (honly : ∀ j, P j = true → j = i) : work.find? P = some i := by
  cases h : work.find? P with
  | none => exact absurd hi (List.find?_eq_none.1 h i hmem)
  | some j => rw [honly j (List.find?_some h)]

/-- The context is in a state that passes a test. -/
theorem ctxTest_iff (x : Option Ctx) (st : CtxState) :
    (match x with
      | some c => decide (c.state = st)
      | none => false) = true ↔ ∃ c, x = some c ∧ c.state = st := by
  cases x <;> simp

theorem Line.settling_eq_some {l : Line} {i : CtxId} {c : Ctx} (hc : l.ctx i = some c) (hst : c.state = .settling)
    (hmem : i ∈ l.exch.work) (honly : ∀ j d, l.ctx j = some d → d.state = .settling → j = i) :
    l.settling = some i :=
  find?_work_of_only hmem ((ctxTest_iff _ _).2 ⟨c, hc, hst⟩) fun j hj => by
    obtain ⟨d, hd, hs⟩ := (ctxTest_iff _ _).1 hj
    exact honly j d hd hs

section
variable {s : State} {n : LineId}

theorem exec_settleEnd {i : CtxId} (h : (s.line n).settling = some i) : exec (.settleEnd n) s =
    .next (if expired s.timebase (s.line n).exch.settle then s.settleOver n i else s) := by
  change execSettleEnd n s = _
  rw [execSettleEnd, h]

theorem exec_holdOffExpiry {i : CtxId} {c : Ctx} {t : Word} (hc : (s.line n).ctx i = some c)
    (hst : c.state = .holding t) : exec (.holdOffExpiry n i) s =
      .next (if reached s.timebase t then s.modLine n (·.backToQueue i c) else s) := by
  change execHoldOffExpiry n i s = _
  rw [execHoldOffExpiry, hc]
  dsimp only
  rw [hst]

end

/-- R65: a broadcast of HOST origin whose settle time has run out ends with SENT. -/
theorem settleOver_host {s : State} {n : LineId} {i : CtxId} {c : Ctx} {k : CqId} {q : Cq}
    (hc : (s.line n).ctx i = some c) (h : HostOn s c k q) :
    PostedAs (s.settleOver n i) n i k q c
        { c.ended (s.line n) .sent s.timebase with abortLate := c.abortRequested || c.abortLate }
      ∧ ((s.settleOver n i).line n).exch.settle = none
      ∧ (∀ j, j ≠ i → ((s.settleOver n i).line n).ctx j = (s.line n).ctx j)
      ∧ SameWire (s.line n) ((s.settleOver n i).line n) ∧ OnlyLine n s (s.settleOver n i)
      ∧ ((s.settleOver n i).line n).counters = (s.line n).counters := by
  have hline := State.line_modLine_self s n fun l => { l with exch := { l.exch with settle := none } }
  have hc1 : ((s.modLine n fun l => { l with exch := { l.exch with settle := none } }).line n).ctx i = some c := by
    rw [hline]; exact hc
  have heq : s.settleOver n i = (s.modLine n fun l => { l with exch := { l.exch with settle := none } }).endExchange n i
      { status := .sent, endTime := s.timebase, abortLate := c.abortRequested || c.abortLate } := by
    rw [State.settleOver, hc]
  have hon : HostOn (s.modLine n fun l => { l with exch := { l.exch with settle := none } }) c k q := h.of_same rfl rfl rfl
  have hacts := actsOn_endExchange (n := n) (i := i) (s.modLine n fun l => { l with exch := { l.exch with settle := none } })
      { status := .sent, endTime := s.timebase, abortLate := c.abortRequested || c.abortLate }
  obtain ⟨hframe, -⟩ := endExchange_host_frame
    { status := .sent, endTime := s.timebase, abortLate := c.abortRequested || c.abortLate } hc1 hon ⟨nofun, nofun⟩
  rw [heq]
  have hwire := hacts.posts.wires n
  have hothers := hacts.line.ctxs
  have hsettle := hacts.line.settle
  rw [hline] at hwire hothers hsettle
  refine ⟨?_, hsettle, hothers, hwire, (onlyLine_setLine s n _).trans hacts.onlyLine, ?_⟩
  · have hposted := postedAs_ending
      { status := .sent, endTime := s.timebase, abortLate := c.abortRequested || c.abortLate } hc1 hon ⟨nofun, nofun⟩
    rw [resultOf_eq_ended_late, Ctx.ended_of_stations (l := s.line n) (by rw [hline])] at hposted
    exact hposted
  · rw [hframe, hline]
    rfl

/-- R53: a withdrawal touches the transmitter only. -/
theorem Line.reorder_eq (l : Line) : l.reorder = { l with tx := l.reorder.tx } := by
  unfold Line.reorder Line.withdraw
  repeat' split
  all_goals rfl

theorem Line.reorder_of_no_order {l : Line} (h : l.tx.order = none) : l.reorder = l := by
  rw [Line.reorder, Line.ordered, h]

/-- R25: an order is withdrawn only while it waits. -/
theorem Line.reorder_of_sending {l : Line} (h : l.tx.waiting = false) : l.reorder = l := by
  have hw : ∀ i, l.withdraw i = l := fun i => if_neg fun k => Bool.noConfusion (h.symm.trans k.1)
  unfold Line.reorder
  repeat' split
  all_goals first | rfl | exact hw _

/-- R53: an order for a QUEUED context that is no longer the first eligible one is withdrawn. -/
theorem Line.reorder_of_later {l : Line} {o : Order} {d : Ctx} (ho : l.tx.order = some o) (hw : l.tx.waiting = true)
    (hd : l.ctx o.ctx = some d) (hq : d.state = .queued) (hfirst : l.firstEligible ≠ some o.ctx) :
    l.reorder = { l with tx := .reset } := by
  have hord : l.ordered = some o.ctx := by rw [Line.ordered, ho]
  rw [Line.reorder, hord]
  dsimp only
  rw [hd]
  exact (if_pos ⟨hq, hfirst⟩).trans (if_pos ⟨hw, hord⟩)

/-- Settles O50. -/
theorem settleAndHoldOffExpire : Obligations.SettleAndHoldOffExpire := by
  unfold Obligations.SettleAndHoldOffExpire
  rintro s n l i c x rfl hc
  refine ⟨fun hst hmem honly hx => ?_, fun hst => ⟨fun hearly => ?_, fun hlate => ?_⟩⟩
  · have hexec := exec_settleEnd (Line.settling_eq_some hc hst hmem honly)
    rw [hx] at hexec
    refine ⟨fun hearly => hexec.trans (congrArg Host.Outcome.next (if_neg ?_)), fun hlate k q hon =>
      ⟨_, hexec.trans (congrArg Host.Outcome.next (if_pos ((expired_iff _ _).2 hlate))), ?_⟩⟩
    · exact mt (expired_iff _ _).1 (Nat.not_lt.2 hearly)
    · obtain ⟨hposted, hsettle, hothers, hwire, honly, -⟩ := settleOver_host hc hon
      exact ⟨hposted, hsettle, hothers, hwire, honly⟩
  · exact (exec_holdOffExpiry hc hst).trans
      (congrArg Host.Outcome.next (if_neg (mt (reached_iff _ _).1 (Nat.not_lt.2 hearly))))
  · have hctx : ∀ j, ((s.line n).backToQueue i c).ctx j = if j = i then some { c with state := .queued } else (s.line n).ctx j :=
      fun j => (congrArg (Line.ctx · j) (Line.reorder_eq _)).trans (Line.ctx_setCtx _ i j _)
    have heq := Line.reorder_eq ((s.line n).setCtx i (some { c with state := .queued }))
    refine ⟨_, (exec_holdOffExpiry hc hst).trans (congrArg Host.Outcome.next (if_pos ((reached_iff _ _).2 hlate))), ?_⟩
    rw [State.line_modLine_self]
    refine ⟨(hctx i).trans (if_pos rfl), ?_, fun j hj => (hctx j).trans (if_neg hj), ?_, onlyLine_setLine s n _,
      fun ho => ?_, fun hsending => ?_, fun o d ho hwait hd hq hne hfirst => ?_⟩
    · rw [Line.backToQueue, heq]
      rfl
    · rw [Line.backToQueue, heq]
      rfl
    · rw [Line.backToQueue, Line.reorder_of_no_order (l := (s.line n).setCtx i _) ho]
      rfl
    · have hnw : ((s.line n).setCtx i (some { c with state := .queued })).tx.waiting = false := by
        rw [Line.setCtx_tx, Transmitter.waiting]
        rcases hsending with h | h | h <;> rw [h] <;> rfl
      rw [Line.backToQueue, Line.reorder_of_sending hnw]
      rfl
    · have hw : ((s.line n).setCtx i (some { c with state := .queued })).tx.waiting = true := by
        rw [Line.setCtx_tx, Transmitter.waiting, Bool.or_eq_true, decide_eq_true_eq, decide_eq_true_eq]
        exact hwait
      have hd1 : ((s.line n).setCtx i (some { c with state := .queued })).ctx o.ctx = some d :=
        (Line.ctx_setCtx _ i o.ctx _).trans ((if_neg hne).trans hd)
      have hfirst1 : ((s.line n).setCtx i (some { c with state := .queued })).firstEligible = some i := by
        rw [Line.firstEligible_eq_some_iff]
        rw [Line.backToQueue, heq] at hfirst
        exact hfirst
      have hlater := Line.reorder_of_later (l := (s.line n).setCtx i (some { c with state := .queued })) ho hw hd1 hq
        fun h => hne (Option.some.inj (hfirst1.symm.trans h)).symm
      rw [Line.backToQueue, hlater]

/-! ### Due times -/

theorem dueAt_of_reached {now due : Word} {p : PollEntry} (hrun : p.run = .enabled due) (h : (now - due).toNat < 2 ^ 31) :
    dueAt now (some p) = some due := by
  rw [dueAt, hrun]
  exact if_pos ((reached_iff now due).2 h)

theorem dueAt_of_ahead {now due : Word} {p : PollEntry} (hrun : p.run = .enabled due) (h : 2 ^ 31 ≤ (now - due).toNat) :
    dueAt now (some p) = none := by
  rw [dueAt, hrun]
  exact if_neg (mt (reached_iff now due).1 (Nat.not_lt.2 h))

theorem dueAt_eq_some {now due : Word} {x : Option PollEntry} (h : dueAt now x = some due) :
    ∃ p, x = some p ∧ p.run = .enabled due ∧ (now - due).toNat < 2 ^ 31 := by
  unfold dueAt at h
  split at h
  · next p =>
    split at h
    · next d hrun =>
      split at h
      · next hr =>
        obtain rfl := Option.some.inj h
        exact ⟨p, rfl, hrun, (reached_iff _ _).1 hr⟩
      · cases h
    · cases h
  · cases h

theorem Line.mem_dues_iff (l : Line) (now : Word) (x : PollId × Word) : x ∈ l.dues now ↔ dueAt now (l.poll x.1) = some x.2 := by
  unfold Line.dues
  rw [List.mem_filterMap]
  constructor
  · rintro ⟨e, -, h⟩
    split at h
    · next due hdue =>
      obtain rfl := Option.some.inj h
      exact hdue
    · cases h
  · intro h
    exact ⟨x.1, List.mem_finRange _, by rw [h]⟩

/-- R44: the entry whose due time lies furthest back, and of equals the lowest, is served next. -/
theorem Line.servedNext_of_first {l : Line} {now due : Word} {e : PollId} {p : PollEntry} (hp : l.poll e = some p)
    (hrun : p.run = .enabled due) (hdue : (now - due).toNat < 2 ^ 31)
    (hfirst : ∀ e' p' due', l.poll e' = some p' → p'.run = .enabled due' → (now - due').toNat < 2 ^ 31 →
      (now - due').toNat < (now - due).toNat ∨ (due' = due ∧ e ≤ e')) : l.servedNext now e = some due := by
  have hall : ((l.dues now).all fun x => !dueBefore now x (e, due)) = true := by
    rw [List.all_eq_true]
    intro x hx
    obtain ⟨p', hp', hrun', hdue'⟩ := dueAt_eq_some ((l.mem_dues_iff now x).1 hx)
    have h := hfirst x.1 p' x.2 hp' hrun' hdue'
    rw [Bool.not_eq_true', dueBefore, Bool.or_eq_false_iff, Bool.and_eq_false_iff, decide_eq_false_iff_not,
      decide_eq_false_iff_not, decide_eq_false_iff_not]
    rcases h with h | ⟨h1, h2⟩
    · exact ⟨Nat.not_lt.2 (Nat.le_of_lt h), .inl fun heq => by rw [heq] at h; exact lt_irrefl _ h⟩
    · exact ⟨by rw [h1]; exact lt_irrefl _, .inr (not_lt.2 h2)⟩
  rw [Line.servedNext, hp, dueAt_of_reached hrun hdue]
  exact if_pos hall

theorem Line.servedNext_of_ahead {l : Line} {now due : Word} {e : PollId} {p : PollEntry} (hp : l.poll e = some p)
    (hrun : p.run = .enabled due) (hdue : 2 ^ 31 ≤ (now - due).toNat) : l.servedNext now e = none := by
  rw [Line.servedNext, hp, dueAt_of_ahead hrun hdue]

theorem exec_pollDue_of_due {s : State} {n : LineId} {cfg : LineConfig} {e : PollId} {p : PollEntry} {due : Word}
    (hcfg : (s.line n).config = some cfg) (hp : (s.line n).poll e = some p)
    (hdue : (s.line n).servedNext s.timebase e = some due) :
    exec (.pollDue n e) s = .next (s.modLine n (·.fallDue cfg e p due s.timebase)) := by
  change execPollDue n e s = _
  rw [execPollDue, hcfg, hp, hdue]

theorem exec_pollDue_of_none {s : State} {n : LineId} {e : PollId} (hdue : (s.line n).servedNext s.timebase e = none) :
    exec (.pollDue n e) s = .next s := by
  change execPollDue n e s = _
  unfold execPollDue
  split
  · next h => exact absurd (hdue.symm.trans h) (Option.some_ne_none _).symm
  · rfl

theorem Line.skipDue_eq (l : Line) (e : PollId) (p : PollEntry) (next : Word) : l.skipDue e p next =
    { (l.setPoll e (some { p with run := .enabled next, skips := min 65535 (p.skips + 1) })) with
      counters := { l.counters with pollSkips := min 4294967295 (l.counters.pollSkips + 1) } } := by
  rw [Line.skipDue, bump_eq_min]
  exact congrArg (fun x => { (l.setPoll e (some { p with run := .enabled next, skips := min 65535 (p.skips + 1) })) with
      counters := { l.counters with pollSkips := x } }) (tally_eq_min _)

/-- R98, R100: where a due is skipped. -/
theorem Line.fallDue_of_skipped {l : Line} {p : PollEntry} (cfg : LineConfig) (e : PollId) (due now : Word)
    (h : l.state = .starting ∨ l.state = .fault
      ∨ (l.state = .ready ∧ (p.inFlight ≠ none ∨ ∀ k, l.ctx k ≠ none ∨ l.exch.lent = some k))) :
    l.fallDue cfg e p due now = l.skipDue e p (afterMs due (l.periodUsed cfg p)) := by
  unfold Line.fallDue
  rcases h with h | h | ⟨h, hno⟩ <;> rw [h]
  dsimp only
  split
  · next i rest hin hfree =>
    rcases hno with hno | hno
    · exact absurd hin hno
    · obtain ⟨hc, hl⟩ := (l.mem_freeCtxs_iff i).1 (hfree ▸ List.mem_cons_self)
      exact ((hno i).elim (absurd hc) fun h => absurd h hl)
  · rfl

theorem State.setLine_line (s : State) (n : LineId) : s.setLine n (s.line n) = s := by
  have h : s.lines.set n (s.line n) = s.lines := Vector.set_getElem_self _
  rw [State.setLine, h]

/-- R50, R98: the context a due is admitted to is FREE and not lent. -/
theorem Line.fallDue_of_admitted {l : Line} {p : PollEntry} (cfg : LineConfig) (e : PollId) (due now : Word)
    (hready : l.state = .ready) (hin : p.inFlight = none) (hfree : ∃ j, l.ctx j = none ∧ l.exch.lent ≠ some j) :
    ∃ i, l.ctx i = none ∧ l.exch.lent ≠ some i
      ∧ l.fallDue cfg e p due now = l.admitDue e p (afterMs due (l.periodUsed cfg p)) i now := by
  obtain ⟨j, hj⟩ := hfree
  have hmem := (l.mem_freeCtxs_iff j).2 hj
  cases hf : l.freeCtxs with
  | nil => rw [hf] at hmem; cases hmem
  | cons i rest =>
    obtain ⟨hc, hl⟩ := (l.mem_freeCtxs_iff i).1 (hf ▸ List.mem_cons_self)
    refine ⟨i, hc, hl, ?_⟩
    unfold Line.fallDue
    rw [hready, hin, hf]

/-- Settles O51. -/
theorem pollDueAdmitsOrSkips : Obligations.PollDueAdmitsOrSkips := by
  unfold Obligations.PollDueAdmitsOrSkips
  rintro s n l cfg e p due next rfl hcfg hp hrun
  refine ⟨fun hdue hfirst hnext => ?_, fun hahead => exec_pollDue_of_none (Line.servedNext_of_ahead hp hrun hahead)⟩
  have hexec := exec_pollDue_of_due hcfg hp (Line.servedNext_of_first hp hrun hdue hfirst)
  have hnext1 : afterMs due ((s.line n).periodUsed cfg p) = next := hnext.symm
  refine ⟨fun hready hin hfree => ?_, fun hskip => ?_, fun hno => hexec.trans ?_⟩
  · obtain ⟨k, hck, hlk, hfall⟩ := Line.fallDue_of_admitted cfg e due s.timebase hready hin hfree
    have hadmit := Line.modEntry_eq (((s.line n).setPoll e (some { p with run := .enabled next, inFlight := some k })).joinWork k
      (pollCtx e p s.timebase)) p.station fun se => { se with lastUsed := s.timebase }
    rw [hnext1] at hfall
    have hline : ∀ {α : Type} (f : Line → α), f ((s.modLine n (·.fallDue cfg e p due s.timebase)).line n)
        = f ((s.line n).admitDue e p next k s.timebase) := fun f => congrArg f ((State.line_modLine_self ..).trans hfall)
    have field {α : Type} (f : Line → α) := (hline f).trans (congrArg f hadmit)
    refine ⟨_, k, hexec, hck, hlk, (field (Line.poll · e)).trans (Line.poll_setPoll_self _ _ _),
      fun e' he' => (field (Line.poll · e')).trans ((Line.poll_setPoll _ e e' _).trans (if_neg he')),
      (field (Line.ctx · k)).trans (Line.ctx_setCtx_self _ k _),
      fun j hj => (field (Line.ctx · j)).trans ((Line.ctx_setCtx _ k j _).trans (if_neg hj)),
      field (fun l => l.exch.work), fun se hse => (hline (Line.entry · p.station)).trans ?_, field Line.counters,
      ⟨field Line.tx, field Line.rx, field Line.state, field Line.config, field Line.stop, field Line.carrier,
        field Line.rdy, field Line.arbiter⟩, onlyLine_setLine s n _, rfl, rfl, rfl, rfl⟩
    exact Line.entry_modEntry_self (fun _ => rfl) hse
  · refine hexec.trans (congrArg (fun l => Host.Outcome.next (s.setLine n l)) ?_)
    exact (Line.fallDue_of_skipped cfg e due s.timebase hskip).trans (hnext1 ▸ Line.skipDue_eq _ e p _)
  · have hfall : (s.line n).fallDue cfg e p due s.timebase = s.line n := by
      unfold Line.fallDue
      rcases hno with h | h <;> rw [h]
    exact congrArg Host.Outcome.next ((congrArg (s.setLine n) hfall).trans (State.setLine_line s n))

end Sys2Proof.Machine
end

