-- ==== Sys2Proof/Proofs/Attempts.lean ====
section
/-! Attempts that fail, contentions, and the judgement of replies (R32, R33, R36, R57 to R64, R82). -/

namespace Sys2Proof.Machine

theorem Line.entry_of_stations {l m : Line} (h : m.stations = l.stations) (a : Byte) : m.entry a = l.entry a := by
  simp only [Line.entry, Line.entryIdx, h]

/-! ### What a happening tells the station table -/

theorem State.cq_handNotice_ne (s : State) (e : NoticeEvent) {k : CqId} (hk : k ≠ 0) : (s.handNotice e).cqs[k] = s.cqs[k] := by
  unfold State.handNotice
  split
  · dsimp only
    split
    · exact (State.cq_setCq _ 0 k _).trans (if_neg hk)
    · rfl
  · rfl

/-- R80: a happening changes the table of its line and hands at most a notice to the admin unit. -/
theorem State.tellStation_frame (s : State) (n : LineId) (a : Byte) (f : StationEntry → StationEntry) :
    (s.tellStation n a f).line n = (s.line n).modEntry a f ∧ SameOtherLines n s (s.tellStation n a f)
      ∧ (s.tellStation n a f).port = s.port ∧ (s.tellStation n a f).bqs = s.bqs
      ∧ ∀ k : CqId, k ≠ 0 → (s.tellStation n a f).cqs[k] = s.cqs[k] := by
  unfold State.tellStation
  split
  · dsimp only
    split
    · obtain ⟨-, hport, hbqs⟩ := State.handNotice_frame (s.modLine n (·.modEntry a f)) ‹_›
      exact ⟨(State.line_handNotice _ _ _).trans (State.line_modLine_self ..),
        fun m hm => (State.line_handNotice _ _ _).trans (State.line_modLine_ne _ _ hm), hport, hbqs,
        fun k hk => State.cq_handNotice_ne _ _ hk⟩
    · exact ⟨State.line_modLine_self .., fun m hm => State.line_modLine_ne _ _ hm, rfl, rfl, fun _ _ => rfl⟩
  · next he =>
    exact ⟨(Line.modEntry_of_none ((entry_none_iff _ a).1 he) f).symm, fun _ _ => rfl, rfl, rfl, fun _ _ => rfl⟩

theorem onlyLine_tellStation (s : State) (n : LineId) (a : Byte) (f : StationEntry → StationEntry) :
    OnlyLine n s (s.tellStation n a f) :=
  have hposts := posts_tellStation s n a f
  ⟨hposts.window, hposts.host, (s.tellStation_frame n a f).2.1, hposts.sqs, hposts.cqs⟩

theorem HostOn.tellStation {s : State} {c c1 : Ctx} {k : CqId} {q : Cq} (h : HostOn s c k q) (n : LineId) (a : Byte)
    (f : StationEntry → StationEntry) (ho : c1.origin = c.origin) : HostOn (s.tellStation n a f) c1 k q :=
  h.of_same ((s.tellStation_frame n a f).2.2.2.2 k h.1) (posts_tellStation s n a f).sqs ho

theorem PollOn.tellStation {s : State} {n : LineId} {i : CtxId} {c c1 : Ctx} {e : PollId} {p : PollEntry} {k : CqId}
    {q : Cq} (h : PollOn s n i c e p k q) (a : Byte) (f : StationEntry → StationEntry) (ho : c1.origin = c.origin) :
    PollOn (s.tellStation n a f) n i c1 e p k q := by
  obtain ⟨hline, -, -, -, hcqs⟩ := s.tellStation_frame n a f
  exact h.of_same (hcqs k h.1) (by rw [hline, Line.modEntry_eq]; rfl) (by rw [hline, Line.modEntry_eq]) ho

theorem State.setLine_setLine (s : State) (n : LineId) (l m : Line) : (s.setLine n l).setLine n m = s.setLine n m :=
  State.modLine_setLine s n l fun _ => m

/-! ### A failed attempt -/

section
variable {s : State} {n : LineId} {i : CtxId} {cfg : LineConfig} {c : Ctx} {why : Status}

/-- R190: the failure has been counted. -/
def State.failureCounted (s : State) (n : LineId) (why : Status) : State := s.modLine n (·.count fun k => k.failure why)

theorem State.line_failureCounted (s : State) (n : LineId) (why : Status) :
    (s.failureCounted n why).line n = (s.line n).count fun k => k.failure why := State.line_modLine_self ..

/-- The attempt is not retried, and its station's entry has taken the failure. -/
def State.failureTold (s : State) (n : LineId) (cfg : LineConfig) (c : Ctx) (why : Status) : State :=
  (s.failureCounted n why).tellStation n c.station (·.failed cfg.silentThreshold)

theorem State.failAttempt_eq (hc : (s.line n).ctx i = some c) (hcfg : (s.line n).config = some cfg) :
    s.failAttempt n i why =
      if c.abortRequested then (s.failureCounted n why).endExchange n i { status := .aborted, endTime := s.timebase }
      else if c.attempts - c.waits ≤ (s.line n).effectiveLimit c then
        s.setLine n ((((s.line n).count fun k => k.failure why).setCtx i (some { c with state := .retryWait })).giveOrder i
          (cfg.gap + cfg.retryDelay))
      else (s.failureTold n cfg c why).endExchange n i { status := why, endTime := s.timebase } := by
  have hc1 : ((s.failureCounted n why).line n).ctx i = some c := by rw [State.line_failureCounted]; exact hc
  have hcfg1 : ((s.failureCounted n why).line n).config = some cfg := by rw [State.line_failureCounted]; exact hcfg
  change (match ((s.failureCounted n why).line n).ctx i, ((s.failureCounted n why).line n).config with
    | some _, some _ => _
    | _, _ => _) = _
  rw [hc1, hcfg1]
  dsimp only
  rw [State.line_modLine_self]
  exact if_congr Iff.rfl rfl (if_congr Iff.rfl (State.setLine_setLine s n _ _) rfl)

theorem State.line_failureTold : (s.failureTold n cfg c why).line n =
    ((s.line n).count fun k => k.failure why).modEntry c.station (·.failed cfg.silentThreshold) :=
  ((s.failureCounted n why).tellStation_frame n _ _).1.trans
    (congrArg (·.modEntry c.station (·.failed cfg.silentThreshold)) (s.line_failureCounted n why))

/-- The told line differs from the one before in the counters and the station table. -/
theorem State.field_failureTold {α : Type} (f : Line → α) : f ((s.failureTold n cfg c why).line n) =
    f { (s.line n).count (fun k => k.failure why) with stations := ((s.failureTold n cfg c why).line n).stations } :=
  congrArg f (by rw [State.line_failureTold]; exact Line.modEntry_eq _ _ _)

theorem onlyLine_failureTold : OnlyLine n s (s.failureTold n cfg c why) :=
  (onlyLine_setLine s n _).trans (onlyLine_tellStation _ n _ _)

theorem HostOn.failureTold {k : CqId} {q : Cq} (h : HostOn s c k q) : HostOn (s.failureTold n cfg c why) c k q :=
  have h1 : HostOn (s.failureCounted n why) c k q := h
  h1.tellStation n c.station (·.failed cfg.silentThreshold) rfl

theorem PollOn.failureTold {e : PollId} {p : PollEntry} {k : CqId} {q : Cq} (h : PollOn s n i c e p k q) :
    PollOn (s.failureTold n cfg c why) n i c e p k q :=
  have field {α : Type} (f : Line → α) := congrArg f (s.line_failureCounted n why)
  have h1 : PollOn (s.failureCounted n why) n i c e p k q := h.of_same rfl (field (Line.poll · e)) (field Line.config) rfl
  h1.tellStation c.station (·.failed cfg.silentThreshold) rfl

theorem StationEntry.failed_eq (e : StationEntry) (threshold : Nat) : e.failed threshold =
    { e with failures := min threshold (e.failures + 1), exchangesFailed := min 65535 (e.exchangesFailed + 1)
             health := if e.failures + 1 < threshold then .suspect else .silent } := by
  have hlt : min threshold (e.failures + 1) < threshold ↔ e.failures + 1 < threshold := by omega
  simp only [StationEntry.failed, bump_eq_min, hlt]

/-- What a failed attempt leaves: the other contexts, the receiver, and everything beyond its line but waiter lists. -/
theorem State.failAttempt_frame (hc : (s.line n).ctx i = some c) (hcfg : (s.line n).config = some cfg) :
    OnlyLine n s (s.failAttempt n i why) ∧ (∀ j, j ≠ i → ((s.failAttempt n i why).line n).ctx j = (s.line n).ctx j)
      ∧ ((s.failAttempt n i why).line n).rx = (s.line n).rx := by
  have hend {s1 : State} (hs : OnlyLine n s s1) (hctx : ∀ j, (s1.line n).ctx j = (s.line n).ctx j)
      (hrx : (s1.line n).rx = (s.line n).rx) (x : Ending) : OnlyLine n s (s1.endExchange n i x)
        ∧ (∀ j, j ≠ i → ((s1.endExchange n i x).line n).ctx j = (s.line n).ctx j)
        ∧ ((s1.endExchange n i x).line n).rx = (s.line n).rx := by
    have hacts := actsOn_endExchange (n := n) (i := i) s1 x
    exact ⟨hs.trans hacts.onlyLine, fun j hj => (hacts.line.ctxs j hj).trans (hctx j),
      (hacts.posts.wires n).2.1.trans hrx⟩
  have hcounted := s.line_failureCounted n why
  rw [State.failAttempt_eq hc hcfg]
  split
  · exact hend (s1 := s.failureCounted n why) (onlyLine_setLine s n _) (fun j => by rw [hcounted]; rfl)
      (by rw [hcounted]; rfl) _
  · split
    · rw [State.line_setLine_self, Line.giveOrder_of_ctx (Line.ctx_setCtx_self ..)]
      exact ⟨onlyLine_setLine s n _, fun j hj => (Line.ctx_setCtx _ i j _).trans (if_neg hj), rfl⟩
    · exact hend onlyLine_failureTold (fun j => State.field_failureTold (Line.ctx · j)) (State.field_failureTold Line.rx) _

/-- R63, R82: a failed attempt does what the statements say. -/
theorem attemptFails_failAttempt (hc : (s.line n).ctx i = some c) (hcfg : (s.line n).config = some cfg)
    (hwhy : why ≠ .ok ∧ why ≠ .refused) : AttemptFails s (s.failAttempt n i why) n i cfg c why := by
  obtain ⟨honly, hothers, -⟩ := State.failAttempt_frame (why := why) hc hcfg
  have heq := State.failAttempt_eq (why := why) hc hcfg
  have hcounted := s.line_failureCounted n why
  refine ⟨honly, hothers, fun habort => ?_, fun limit hlimit => ⟨fun hno hle => ?_, fun hno hlt => ?_⟩⟩
  · rw [heq, if_pos habort]
    have hc1 : ((s.failureCounted n why).line n).ctx i = some c := by rw [hcounted]; exact hc
    have hst := (actsOn_endExchange (n := n) (i := i) (s.failureCounted n why)
      { status := .aborted, endTime := s.timebase }).line.stations
    refine ⟨fun k q hon => postedAs_ended hc1 (hon.of_same rfl rfl rfl) (by decide) _ hst, fun e p k q hon => ?_⟩
    have hset := pollSettled_ended hc1 (hon.of_same rfl (by rw [hcounted]; rfl) (by rw [hcounted]; rfl) rfl) .aborted
      s.timebase hst
    rw [hcounted] at hset
    exact hset.of_same rfl (by rw [hcounted]; rfl)
  · have hlim : c.attempts - c.waits ≤ (s.line n).effectiveLimit c := hle.trans (Nat.le_of_eq hlimit)
    rw [heq, if_neg (Bool.eq_false_iff.1 hno), if_pos hlim, State.line_setLine_self,
      Line.giveOrder_of_ctx (Line.ctx_setCtx_self ..)]
    exact ⟨Line.ctx_setCtx_self .., rfl, rfl⟩
  · have hlim : ¬c.attempts - c.waits ≤ (s.line n).effectiveLimit c :=
      Nat.not_le.2 (Nat.lt_of_le_of_lt (Nat.le_of_eq hlimit.symm) hlt)
    rw [heq, if_neg (Bool.eq_false_iff.1 hno), if_neg hlim]
    have hc1 : ((s.failureTold n cfg c why).line n).ctx i = some c := (State.field_failureTold (Line.ctx · i)).trans hc
    have hst := (actsOn_endExchange (n := n) (i := i) (s.failureTold n cfg c why)
      { status := why, endTime := s.timebase }).line.stations
    have hcounters : ((s.failureTold n cfg c why).line n).counters = (s.line n).counters.failure why :=
      State.field_failureTold Line.counters
    refine ⟨fun k q hon => ?_, fun e p k q hon => ?_, fun e he => ?_⟩
    · have hon1 : HostOn (s.failureTold n cfg c why) c k q := hon.failureTold
      refine ⟨postedAs_ended hc1 hon1 hwhy _ hst, ?_⟩
      obtain ⟨hframe, -⟩ := endExchange_host_frame { status := why, endTime := s.timebase } hc1 hon1 hwhy
      rw [hframe]
      exact hcounters
    · have hset := pollSettled_ended hc1 hon.failureTold why s.timebase hst
      rw [hcounters] at hset
      obtain ⟨-, -, -, hbqs, -⟩ := (s.failureCounted n why).tellStation_frame n c.station (·.failed cfg.silentThreshold)
      exact hset.of_same (congrArg (fun v => v[n]) hbqs) (State.field_failureTold Line.pollLost)
    · refine (Line.entry_of_stations hst c.station).trans ?_
      have htold : ((s.failureTold n cfg c why).line n).entry c.station = some (e.failed cfg.silentThreshold) := by
        rw [State.line_failureTold]
        exact Line.entry_modEntry_self (fun _ => rfl) he
      exact htold.trans (congrArg some (e.failed_eq _))

end

end Sys2Proof.Machine
end

