-- ==== Sys2Proof/Proofs/Contentions.lean ====
section
/-! Contentions (R36, R64). -/

namespace Sys2Proof.Machine

/-- R36: the line whose transmission a contention has stopped. -/
def Line.contended (l : Line) : Line :=
  ({ l with tx := .reset, rx := { l.rx with armed := false, window := none, gap := 0 } } : Line).count
    fun k => { k with contentions := tally k.contentions }

theorem State.setCtx_setLine (s : State) (n : LineId) (l : Line) (i : CtxId) (c : Ctx) :
    (s.setLine n l).setCtx n i c = s.setLine n (l.setCtx i (some c)) := State.modLine_setLine s n l _

/-- The counters an ending leaves as they were. -/
theorem Counters.contentions_of_core {k m : Counters} (h : k.core = m.core) : k.contentions = m.contentions :=
  have hfield := congrArg Counters.contentions h
  hfield

section
variable {s : State} {n : LineId} {cfg : LineConfig} {o : Order} {c : Ctx}

theorem State.contention_eq (hcfg : (s.line n).config = some cfg) (ho : (s.line n).tx.order = some o)
    (hc : (s.line n).ctx o.ctx = some c) : s.contention n =
      if c.abortRequested then
        (s.setLine n (s.line n).contended).endExchange n o.ctx { status := .aborted, endTime := s.timebase }
      else if cfg.contentionLimit ≤ c.contentions + 1 then
        (s.setLine n ((s.line n).contended.setCtx o.ctx (some { c with contentions := c.contentions + 1 }))).endExchange n o.ctx
          { status := .contentionLimit, endTime := s.timebase }
      else
        s.setLine n (((s.line n).contended.setCtx o.ctx
          (some { c with contentions := c.contentions + 1, state := .retryWait })).giveOrder o.ctx
            (cfg.gap + c.station.toNat % 8 * cfg.charTime)) := by
  have hord : (s.line n).ordered = some o.ctx := by rw [Line.ordered, ho]
  unfold State.contention
  dsimp only
  split
  · next i cfg1 hi hcfg1 =>
    obtain rfl := Option.some.inj (hord.symm.trans hi)
    obtain rfl := Option.some.inj (hcfg.symm.trans hcfg1)
    split
    · next c1 hc1 =>
      obtain rfl := Option.some.inj (hc.symm.trans hc1)
      rw [State.setCtx_setLine, State.setLine_setLine]
      rfl
    · next hno => exact absurd (hc.symm.trans hno) (Option.some_ne_none _)
  · next hno => exact (hno _ _ hord hcfg).elim

/-- What an ending of the ordered context after a contention leaves, whatever the context has become on the line. -/
theorem contended_ending {l1 : Line} (htx : l1.tx = .reset) (hrx : l1.rx = (s.line n).contended.rx)
    (hcounts : l1.counters = (s.line n).contended.counters) (hctx : ∀ j, j ≠ o.ctx → l1.ctx j = (s.line n).ctx j)
    (x : Ending) : OnlyLine n s ((s.setLine n l1).endExchange n o.ctx x)
      ∧ (((s.setLine n l1).endExchange n o.ctx x).line n).tx = .reset
      ∧ (((s.setLine n l1).endExchange n o.ctx x).line n).rx = (s.line n).contended.rx
      ∧ (((s.setLine n l1).endExchange n o.ctx x).line n).counters.contentions
        = min 4294967295 ((s.line n).counters.contentions + 1)
      ∧ ∀ j, j ≠ o.ctx → (((s.setLine n l1).endExchange n o.ctx x).line n).ctx j = (s.line n).ctx j := by
  have hacts := actsOn_endExchange (n := n) (i := o.ctx) (s.setLine n l1) x
  obtain ⟨hwtx, hwrx, -⟩ := hacts.posts.wires n
  have hothers := hacts.line.ctxs
  have hcore := hacts.line.counts
  rw [State.line_setLine_self] at hwtx hwrx hothers hcore
  refine ⟨(onlyLine_setLine s n l1).trans hacts.onlyLine, hwtx.trans htx, hwrx.trans hrx, ?_,
    fun j hj => (hothers j hj).trans (hctx j hj)⟩
  exact (Counters.contentions_of_core hcore).trans ((congrArg Counters.contentions hcounts).trans (tally_eq_min _))

/-- R36, R64: a contention does what the statements say, and where it is retried only the count of contentions changes. -/
theorem contends_contention (hcfg : (s.line n).config = some cfg) (ho : (s.line n).tx.order = some o)
    (hc : (s.line n).ctx o.ctx = some c) : Contends s (s.contention n) n cfg o c
      ∧ ((s.contention n).line n).rx = { (s.line n).rx with armed := false, window := none, gap := 0 }
      ∧ (c.abortRequested = false → c.contentions + 1 < cfg.contentionLimit → ((s.contention n).line n).counters =
          { (s.line n).counters with contentions := min 4294967295 ((s.line n).counters.contentions + 1) }) := by
  have heq := State.contention_eq hcfg ho hc
  by_cases habort : c.abortRequested = true
  · rw [if_pos habort] at heq
    obtain ⟨honly, htx, hrx, hcontentions, hothers⟩ := contended_ending (l1 := (s.line n).contended) (s := s) (n := n) (o := o)
      rfl rfl rfl (fun _ _ => rfl) { status := .aborted, endTime := s.timebase }
    rw [heq]
    refine ⟨⟨honly, by rw [htx]; rfl, by rw [hrx]; rfl, by rw [hrx]; rfl, by rw [hrx]; rfl, hcontentions, hothers, fun _ k q hon => ?_,
      fun hno => ?_, fun hno => ?_⟩, hrx, fun hno => ?_⟩
    · have hc1 : ((s.setLine n (s.line n).contended).line n).ctx o.ctx = some c :=
        (congrArg (Line.ctx · o.ctx) (State.line_setLine_self s n (s.line n).contended)).trans hc
      have hon1 : HostOn (s.setLine n (s.line n).contended) c k q := hon
      exact postedAs_endExchange (st := .aborted) (t := s.timebase) hc1 hon1 (by decide)
    all_goals exact Bool.noConfusion (habort.symm.trans hno)
  · rw [if_neg habort] at heq
    by_cases hlimit : cfg.contentionLimit ≤ c.contentions + 1
    · rw [if_pos hlimit] at heq
      obtain ⟨honly, htx, hrx, hcontentions, hothers⟩ := contended_ending (s := s) (n := n) (o := o)
        (l1 := (s.line n).contended.setCtx o.ctx (some { c with contentions := c.contentions + 1 })) rfl rfl rfl
        (fun j hj => (Line.ctx_setCtx _ o.ctx j _).trans (if_neg hj)) { status := .contentionLimit, endTime := s.timebase }
      rw [heq]
      refine ⟨⟨honly, by rw [htx]; rfl, by rw [hrx]; rfl, by rw [hrx]; rfl, by rw [hrx]; rfl, hcontentions, hothers,
        fun hyes => ?_, fun _ _ k q hon => ?_, fun _ hlt => absurd hlimit (Nat.not_le.2 hlt)⟩, hrx,
        fun _ hlt => absurd hlimit (Nat.not_le.2 hlt)⟩
      · exact absurd hyes habort
      · have hon1 : HostOn (s.setLine n ((s.line n).contended.setCtx o.ctx (some { c with contentions := c.contentions + 1 })))
            { c with contentions := c.contentions + 1 } k q := hon
        have hc1 := (congrArg (Line.ctx · o.ctx) (State.line_setLine_self s n ((s.line n).contended.setCtx o.ctx
          (some { c with contentions := c.contentions + 1 })))).trans (Line.ctx_setCtx_self _ o.ctx _)
        exact postedAs_endExchange (st := .contentionLimit) (t := s.timebase) hc1 hon1 (by decide)
    · rw [if_neg hlimit, Line.giveOrder_of_ctx (Line.ctx_setCtx_self ..)] at heq
      rw [heq]
      unfold Contends
      rw [State.line_setLine_self]
      refine ⟨⟨onlyLine_setLine s n _, rfl, rfl, rfl, rfl, tally_eq_min _,
        fun j hj => (Line.ctx_setCtx _ o.ctx j _).trans (if_neg hj), fun hyes => ?_, fun _ hle => absurd hle hlimit,
        fun _ _ => ⟨Line.ctx_setCtx_self _ o.ctx _, rfl⟩⟩, rfl, fun _ _ => ?_⟩
      · exact absurd hyes habort
      · exact congrArg (fun x => { (s.line n).counters with contentions := x }) (tally_eq_min _)

theorem State.contention_of_none (h : ∀ c, (s.line n).ordered.bind (s.line n).ctx ≠ some c) :
    s.contention n = s.setLine n (s.line n).contended := by
  unfold State.contention
  dsimp only
  split
  · next i cfg1 hi hcfg1 =>
    split
    · next c1 hc1 => exact absurd (by rw [hi]; exact hc1) (h c1)
    · rfl
  · rfl

/-- R36: a contention releases DE and leaves LEAD, whatever was ordered. -/
theorem State.contention_frame (hcfg : (s.line n).config = some cfg) : OnlyLine n s (s.contention n)
    ∧ ((s.contention n).line n).tx.de = false ∧ ((s.contention n).line n).tx.phase ≠ .lead
    ∧ ((s.contention n).line n).rx = (s.line n).contended.rx := by
  cases hctx : (s.line n).ordered.bind (s.line n).ctx with
  | none =>
    rw [State.contention_of_none fun c h => Option.some_ne_none c (h.symm.trans hctx), State.line_setLine_self]
    exact ⟨onlyLine_setLine s n _, rfl, nofun, rfl⟩
  | some c =>
    obtain ⟨i, hi, hc⟩ := Option.bind_eq_some_iff.1 hctx
    obtain ⟨o, ho, rfl⟩ : ∃ o, (s.line n).tx.order = some o ∧ o.ctx = i := by
      unfold Line.ordered at hi
      split at hi
      · next o ho => exact ⟨o, ho, Option.some.inj hi⟩
      · cases hi
    have hothers (j : CtxId) (hj : j ≠ o.ctx) (x : Option Ctx) :=
      (Line.ctx_setCtx (s.line n).contended o.ctx j x).trans (if_neg hj)
    rw [State.contention_eq hcfg ho hc]
    split
    · obtain ⟨honly, htx, hrx, -⟩ := contended_ending (s := s) (n := n) (o := o) (l1 := (s.line n).contended) rfl rfl rfl
        (fun _ _ => rfl) { status := .aborted, endTime := s.timebase }
      rw [htx]
      exact ⟨honly, rfl, nofun, hrx⟩
    · split
      · obtain ⟨honly, htx, hrx, -⟩ := contended_ending (s := s) (n := n) (o := o)
          (l1 := (s.line n).contended.setCtx o.ctx (some { c with contentions := c.contentions + 1 })) rfl rfl rfl
          (fun j hj => hothers j hj _) { status := .contentionLimit, endTime := s.timebase }
        rw [htx]
        exact ⟨honly, rfl, nofun, hrx⟩
      · rw [State.line_setLine_self, Line.giveOrder_of_ctx (Line.ctx_setCtx_self ..)]
        exact ⟨onlyLine_setLine s n _, rfl, nofun, rfl⟩

theorem Line.requestFor_of_stations {l m : Line} (h : m.stations = l.stations) (c : Ctx) : m.requestFor c = l.requestFor c := by
  simp only [Line.requestFor, Line.seqOf, Line.entry_of_stations h]

/-- A contention judged on a line whose receiver, transmitter or other counters have just changed. -/
theorem Contends.of_setLine {l1 : Line} {t : State} (h : Contends (s.setLine n l1) t n cfg o c)
    (hexch : l1.exch = (s.line n).exch) (hst : l1.stations = (s.line n).stations)
    (hcounts : l1.counters.contentions = (s.line n).counters.contentions) : Contends s t n cfg o c := by
  unfold Contends at h ⊢
  rw [State.line_setLine_self] at h
  obtain ⟨honly, hde, harmed, hwindow, hgap, hk, hothers, habort, hlimit, hretry⟩ := h
  refine ⟨(onlyLine_setLine s n l1).trans honly, hde, harmed, hwindow, hgap, hcounts ▸ hk,
    fun j hj => (hothers j hj).trans (congrArg (fun x => x.contexts[j]) hexch), habort, hlimit, fun hno hlt => ?_⟩
  rw [← Line.requestFor_of_stations hst]
  exact hretry hno hlt

end

/-! ### CONTENTION_STOP and ECHO_MISSING -/

section
variable {s : State} {n : LineId} {cfg : LineConfig} {o : Order}

theorem exec_contentionStop {x : Nat} (h : (s.line n).tx.stopAt = some x) : exec (.contentionStop n) s =
    .next (if (s.line n).tx.phase = .send ∧ x ≤ (s.line n).tx.age then s.contention n else s) := by
  change execContentionStop n s = _
  rw [execContentionStop, h]

theorem exec_echoMissing (hcfg : (s.line n).config = some cfg) : exec (.echoMissing n) s =
    .next (if (s.line n).echoMissed cfg then s.judgeContention n cfg else s) := by
  change execEchoMissing n s = _
  rw [execEchoMissing, hcfg]

theorem Line.echoMissed_iff {l : Line} (ho : l.tx.order = some o) : l.echoMissed cfg = true ↔
    cfg.echo = true ∧ l.tx.phase = .send ∧ l.tx.stopAt = none ∧ l.tx.echoStarts ≤ l.tx.age / (cfg.charTime * cfg.divider)
      ∧ l.tx.age < o.block.length * cfg.charTime * cfg.divider
      ∧ (l.tx.age / (cfg.charTime * cfg.divider) * cfg.charTime + 1) * cfg.divider ≤ l.tx.age := by
  simp only [Line.echoMissed, Line.echoIn, Line.blockBits_of_order ho, Bool.and_eq_true, decide_eq_true_eq,
    Option.isNone_iff_eq_none, and_assoc]

theorem Line.charEnd_of_order {l : Line} (ho : l.tx.order = some o) : l.charEnd cfg =
    min ((l.tx.age / (cfg.charTime * cfg.divider) + 1) * (cfg.charTime * cfg.divider))
      (o.block.length * cfg.charTime * cfg.divider) := by
  rw [Line.charEnd, Line.blockBits_of_order ho]

/-- R36: before the block's end the character being sent ends no later than the block. -/
theorem Line.charEnd_of_within {l : Line} (ho : l.tx.order = some o)
    (hage : l.tx.age < o.block.length * cfg.charTime * cfg.divider) :
    l.charEnd cfg = (l.tx.age / (cfg.charTime * cfg.divider) + 1) * (cfg.charTime * cfg.divider) := by
  rw [Line.charEnd_of_order ho, Nat.mul_assoc o.block.length]
  rw [Nat.mul_assoc] at hage
  exact Nat.min_eq_left (Nat.mul_le_mul_right _ (Nat.div_lt_of_lt_mul (Nat.mul_comm _ _ ▸ hage)))

theorem State.judgeContention_of_send (h : (s.line n).tx.phase = .send) : s.judgeContention n cfg =
    s.setLine n { s.line n with tx := { (s.line n).tx with stopAt := some ((s.line n).charEnd cfg) } } := if_pos h

end

/-- Settles O46. -/
theorem contentionBacksOff : Obligations.ContentionBacksOff := by
  unfold Obligations.ContentionBacksOff
  rintro s n l cfg o c rfl hcfg hphase ho hc
  refine ⟨?_, fun hecho => ?_, fun stop hstop => ⟨fun hearly => ?_, fun hlate => ?_⟩⟩
  · rintro k hecho hnone rfl hstarts hage hbit
    have hmissed := (Line.echoMissed_iff ho).2 ⟨hecho, hphase, hnone, hstarts, hage, hbit⟩
    refine (exec_echoMissing hcfg).trans (congrArg Host.Outcome.next ((if_pos hmissed).trans ?_))
    rw [State.judgeContention_of_send hphase, Line.charEnd_of_within ho hage]
  · refine (exec_echoMissing hcfg).trans (congrArg Host.Outcome.next (if_neg fun h => ?_))
    exact Bool.noConfusion (hecho.symm.trans ((Line.echoMissed_iff ho).1 h).1)
  · exact (exec_contentionStop hstop).trans (congrArg Host.Outcome.next (if_neg fun h => Nat.not_le.2 hearly h.2))
  · exact ⟨_, (exec_contentionStop hstop).trans (congrArg Host.Outcome.next (if_pos ⟨hphase, hlate⟩)),
      contends_contention hcfg ho hc⟩

end Sys2Proof.Machine
end

