-- ==== Sys2Proof/Proofs/HostPosting.lean ====
section
/-! A context of HOST origin in POSTING (R71 to R73). -/

namespace Sys2Proof.Machine

section
variable {s : State} {n : LineId} {i : CtxId} {c : Ctx} {r : Result} {k : CqId} {q : Cq}

theorem HostOn.origin (h : HostOn s c k q) : ∃ sq tag, c.origin = .host sq tag := by
  obtain ⟨-, -, -, sq, tag, -, -, ho, -⟩ := h
  exact ⟨sq, tag, ho⟩

/-- R73: its record joins its CQ's waiter list. -/
theorem postedAs_readyToComplete (hc : (s.line n).ctx i = some { c with state := .posting, result := some r })
    (h : HostOn s c k q) : PostedAs (s.readyToComplete n i) n i k q c r := by
  have hon : HostOn s { c with state := .posting, result := some r } k q := h
  obtain ⟨sq, tag, ho, heq⟩ := readyToComplete_host hc rfl hon
  rw [heq]
  refine ⟨(congrArg (Line.ctx · i) (State.line_setCq s k _ n)).trans hc, fun sq1 tag1 ho1 => ?_⟩
  obtain ⟨rfl, rfl⟩ := Origin.host.inj (ho.symm.trans ho1)
  exact (State.cq_setCq s k k _).trans (if_pos rfl)

theorem State.enterPosting_of_host (hc : (s.line n).ctx i = some { c with state := .posting, result := some r })
    {sq : SqId} {tag : Half} (ho : c.origin = .host sq tag) : s.enterPosting n i =
      if c.needsBuffer r then
        match s.requestBuffer n (.ctx i) with
        | some s1 => s1
        | none => s.noBuffer n i
      else s.writeReply n i := by
  unfold State.enterPosting
  rw [hc]
  dsimp only
  rw [ho]
  rfl

theorem State.setCtx_same {x : Ctx} (hc : (s.line n).ctx i = some x) : s.setCtx n i x = s := by
  have hset : (s.line n).exch.contexts.set i (some x) = (s.line n).exch.contexts := by
    rw [← hc]
    exact Vector.set_getElem_self _
  have hline : (s.line n).setCtx i (some x) = s.line n := by rw [Line.setCtx, hset]
  exact (congrArg (s.setLine n) hline).trans (s.setLine_line n)

/-- R71: no data to write. -/
theorem State.writeReply_of_empty (hc : (s.line n).ctx i = some { c with state := .posting, result := some r })
    (hlen : r.replyLength = 0) (htrunc : r.truncated = false) : s.writeReply n i = s.readyToComplete n i := by
  have hplain : ∀ d : Descriptor, { r with truncated := decide (d.capacity < r.replyLength) } = r := fun d => by
    have hfalse : decide (d.capacity < r.replyLength) = r.truncated := by rw [hlen, htrunc]; rfl
    rw [hfalse]
  unfold State.writeReply
  rw [hc]
  dsimp only
  split
  · next r1 d hr hd =>
    obtain rfl := Option.some.inj hr
    split
    · rw [hplain, State.setCtx_same hc, hlen, Nat.zero_min, List.take_zero]
      rfl
    · rfl
  · rfl

/-- R72: the data goes to the reply address, cut to its capacity. -/
theorem State.writeReply_of_data {addr : Word} {cap : Nat}
    (hc : (s.line n).ctx i = some { c with state := .posting, result := some r }) (hgood : r.status.good = true)
    (hdest : c.dest = .host addr cap) (hdata : c.store.take (min r.replyLength cap) ≠ []) : s.writeReply n i =
      (s.setCtx n i { c with state := .posting, result := some { r with truncated := decide (cap < r.replyLength) } }).issue
        (lineEngine n) { addr := addr, kind := .write (c.store.take (min r.replyLength cap)), use := .payload n i } := by
  have htarget : Ctx.target { c with state := .posting, result := some r } = some { addr := addr, capacity := cap } := by
    rw [Ctx.target, hdest]
  unfold State.writeReply
  rw [hc]
  dsimp only
  rw [htarget]
  dsimp only
  rw [if_pos hgood, if_neg (mt List.isEmpty_iff.1 hdata)]

theorem postedAs_noBuffer (hc : (s.line n).ctx i = some { c with state := .posting, result := some r })
    (h : HostOn s c k q) : PostedAs (s.noBuffer n i) n i k q c { r with status := .noBuffer } := by
  have heq : s.noBuffer n i = (s.setCtx n i
      { c with state := .posting, result := some { r with status := .noBuffer } }).readyToComplete n i := by
    rw [State.noBuffer, hc]
  have hon : HostOn (s.setCtx n i { c with state := .posting, result := some { r with status := .noBuffer } }) c k q := h
  have hc1 := (congrArg (Line.ctx · i) (State.line_modLine_self s n (·.setCtx i
    (some { c with state := .posting, result := some { r with status := .noBuffer } })))).trans (Line.ctx_setCtx_self _ i _)
  exact heq ▸ postedAs_readyToComplete hc1 hon

end

end Sys2Proof.Machine
end

