-- ==== Sys2Proof/Proofs/Replies.lean ====
section
/-! The judgement of replies (R58 to R61, R71, R72, R81). -/

namespace Sys2Proof.Machine

/-! ### A reply that tells the station table -/

section
variable {s : State} {n : LineId} {i : CtxId} {c c1 : Ctx} {f : StationEntry → StationEntry} {k : CqId} {q : Cq}

/-- R81: the context has become `c1`, and its station's entry has been told. -/
def State.replyTold (s : State) (n : LineId) (i : CtxId) (c1 : Ctx) (f : StationEntry → StationEntry) : State :=
  (s.setCtx n i c1).tellStation n c1.station f

theorem State.line_replyTold :
    (s.replyTold n i c1 f).line n = ((s.line n).setCtx i (some c1)).modEntry c1.station f :=
  ((s.setCtx n i c1).tellStation_frame n _ _).1.trans (congrArg (·.modEntry c1.station f) (State.line_modLine_self ..))

/-- The told line differs in the context and the station table. -/
theorem State.field_replyTold {α : Type} (g : Line → α) : g ((s.replyTold n i c1 f).line n) =
    g { (s.line n).setCtx i (some c1) with stations := ((s.replyTold n i c1 f).line n).stations } :=
  congrArg g (by rw [State.line_replyTold]; exact Line.modEntry_eq _ _ _)

theorem State.ctx_replyTold : ((s.replyTold n i c1 f).line n).ctx i = some c1 :=
  (State.field_replyTold (Line.ctx · i)).trans (Line.ctx_setCtx_self _ i _)

theorem State.entry_replyTold (hf : ∀ e, (f e).address = e.address) {e : StationEntry}
    (he : (s.line n).entry c1.station = some e) : ((s.replyTold n i c1 f).line n).entry c1.station = some (f e) := by
  rw [State.line_replyTold]
  exact Line.entry_modEntry_self hf he

theorem onlyLine_replyTold : OnlyLine n s (s.replyTold n i c1 f) :=
  (onlyLine_setLine s n _).trans (onlyLine_tellStation _ n _ _)

theorem State.replyTold_frame : (s.replyTold n i c1 f).port = s.port ∧ (s.replyTold n i c1 f).bqs = s.bqs := by
  obtain ⟨-, -, hport, hbqs, -⟩ := (s.setCtx n i c1).tellStation_frame n c1.station f
  exact ⟨hport, hbqs⟩

theorem HostOn.replyTold {d : Ctx} (h : HostOn s c k q) (ho : d.origin = c.origin) : HostOn (s.replyTold n i c1 f) d k q :=
  have h1 : HostOn (s.setCtx n i c1) c k q := h
  h1.tellStation n c1.station f ho

theorem PollOn.replyTold {e : PollId} {p : PollEntry} {d : Ctx} (h : PollOn s n i c e p k q) (ho : d.origin = c.origin) :
    PollOn (s.replyTold n i c1 f) n i d e p k q :=
  have field {α : Type} (g : Line → α) := congrArg g (State.line_modLine_self s n (·.setCtx i (some c1)))
  have h1 : PollOn (s.setCtx n i c1) n i c e p k q := h.of_same rfl (field (Line.poll · e)) (field Line.config) rfl
  h1.tellStation c1.station f ho

end

theorem State.line_setCtx (s : State) (n : LineId) (i : CtxId) (c : Ctx) :
    (s.setCtx n i c).line n = (s.line n).setCtx i (some c) := State.line_modLine_self ..

section
variable {s : State} {n : LineId} {i : CtxId} {cfg : LineConfig} {c : Ctx} {b : RxBlock} {ended : Word}

/-! ### A stale reply -/

theorem State.replyStale_eq (hc : (s.line n).ctx i = some c) (hcfg : (s.line n).config = some cfg) : s.replyStale n i ended =
    if c.staleSeen then s.failAttempt n i .stale
    else s.setLine n { (s.line n).setCtx i (some { c with staleSeen := true }) with
      rx := { (s.line n).rx with armed := true, window := some (after ended (100 * cfg.window)) } } := by
  unfold State.replyStale
  rw [hc, hcfg]
  exact if_congr Iff.rfl rfl (State.modLine_setLine s n _ _)

/-! ### A WAIT reply -/

theorem State.replyWait_eq (hc : (s.line n).ctx i = some c) (hcfg : (s.line n).config = some cfg) : s.replyWait n i ended =
    if c.abortRequested then
      (s.replyTold n i { c with waits := c.waits + 1 } StationEntry.waited).endExchange n i
        { status := .aborted, endTime := ended }
    else if cfg.waitLimit ≤ c.waits + 1 then
      (s.replyTold n i { c with waits := c.waits + 1 } StationEntry.waited).endExchange n i
        { status := .waitLimit, endTime := ended }
    else (s.replyTold n i { c with waits := c.waits + 1 } StationEntry.waited).setCtx n i
      { c with waits := c.waits + 1, state := .holding (afterMs ended cfg.holdOff) } := by
  unfold State.replyWait
  rw [hc, hcfg]
  rfl

/-- What the end of an exchange after a reply leaves. -/
theorem replyTold_ending {c1 : Ctx} {f : StationEntry → StationEntry} (harmed : (s.line n).rx.armed = false)
    (hf : ∀ e, (f e).address = e.address) (x : Ending) :
    (((s.replyTold n i c1 f).endExchange n i x).line n).rx.armed = false
      ∧ OnlyLine n s ((s.replyTold n i c1 f).endExchange n i x)
      ∧ ∀ e, (s.line n).entry c1.station = some e →
          (((s.replyTold n i c1 f).endExchange n i x).line n).entry c1.station = some (f e) := by
  have hacts := actsOn_endExchange (n := n) (i := i) (s.replyTold n i c1 f) x
  have hrx := (hacts.posts.wires n).2.1.trans (State.field_replyTold Line.rx)
  refine ⟨(congrArg Receiver.armed hrx).trans harmed, onlyLine_replyTold.trans hacts.onlyLine, fun e he => ?_⟩
  exact (Line.entry_of_stations hacts.line.stations _).trans (State.entry_replyTold hf he)

/-- R61: a WAIT reply does what the statements say. -/
theorem replyWait_judged (hc : (s.line n).ctx i = some c) (hcfg : (s.line n).config = some cfg)
    (harmed : (s.line n).rx.armed = false) :
    ((s.replyWait n i ended).line n).rx.armed = false ∧ OnlyLine n s (s.replyWait n i ended)
      ∧ (c.abortRequested = true → ∀ k q, HostOn s c k q →
          PostedAs (s.replyWait n i ended) n i k q { c with waits := c.waits + 1 }
            (c.ended ((s.replyWait n i ended).line n) .aborted ended))
      ∧ (c.abortRequested = false → cfg.waitLimit ≤ c.waits + 1 → ∀ k q, HostOn s c k q →
          PostedAs (s.replyWait n i ended) n i k q { c with waits := c.waits + 1 }
            (c.ended ((s.replyWait n i ended).line n) .waitLimit ended))
      ∧ (c.abortRequested = false → c.waits + 1 < cfg.waitLimit → ((s.replyWait n i ended).line n).ctx i = some
          { c with waits := c.waits + 1, state := .holding (ended + BitVec.ofNat 32 (1000 * cfg.holdOff)) })
      ∧ ∀ e, (s.line n).entry c.station = some e →
          ((s.replyWait n i ended).line n).entry c.station = some { e with failures := 0, health := .online } := by
  have hposted {k : CqId} {q : Cq} (hon : HostOn s c k q) {st : Status} (hg : st ≠ .ok ∧ st ≠ .refused) :=
    postedAs_endExchange (st := st) (t := ended)
      (State.ctx_replyTold (s := s) (n := n) (i := i) (c1 := { c with waits := c.waits + 1 }) (f := StationEntry.waited))
      (hon.replyTold (d := { c with waits := c.waits + 1 }) rfl) hg
  rw [State.replyWait_eq hc hcfg]
  by_cases habort : c.abortRequested = true
  · rw [if_pos habort]
    obtain ⟨ha, honly, hentry⟩ := replyTold_ending (i := i) (c1 := { c with waits := c.waits + 1 })
      (f := StationEntry.waited) harmed (fun _ => rfl) { status := .aborted, endTime := ended }
    refine ⟨ha, honly, fun _ k q hon => hposted hon (by decide), fun hno => ?_, fun hno => ?_, hentry⟩
    all_goals exact Bool.noConfusion (habort.symm.trans hno)
  · rw [if_neg habort]
    by_cases hlimit : cfg.waitLimit ≤ c.waits + 1
    · rw [if_pos hlimit]
      obtain ⟨ha, honly, hentry⟩ := replyTold_ending (i := i) (c1 := { c with waits := c.waits + 1 })
        (f := StationEntry.waited) harmed (fun _ => rfl) { status := .waitLimit, endTime := ended }
      exact ⟨ha, honly, fun hyes => absurd hyes habort, fun _ _ k q hon => hposted hon (by decide),
        fun _ hlt => absurd hlimit (Nat.not_le.2 hlt), hentry⟩
    · rw [if_neg hlimit]
      have hline := (s.replyTold n i { c with waits := c.waits + 1 } StationEntry.waited).line_setCtx n i
        { c with waits := c.waits + 1, state := .holding (afterMs ended cfg.holdOff) }
      refine ⟨?_, onlyLine_replyTold.trans (onlyLine_setLine _ n _), fun hyes => absurd hyes habort,
        fun _ hle => absurd hle hlimit, fun _ _ => ?_, fun e he => ?_⟩
      · rw [hline]
        exact (congrArg Receiver.armed (State.field_replyTold Line.rx)).trans harmed
      · rw [hline]
        exact Line.ctx_setCtx_self _ i _
      · have htold := State.entry_replyTold (i := i) (c1 := { c with waits := c.waits + 1 }) (f := StationEntry.waited)
          (fun _ => rfl) he
        rw [hline, Line.entry_of_stations (Line.setCtx_stations _ i _)]
        exact htold

/-! ### DATA and REFUSE -/

/-- R60: how a good reply ends its exchange. -/
def goodEnding (c : Ctx) (b : RxBlock) (ended : Word) (st : Status) : Ending :=
  { status := st, endTime := ended, replyFunction := some (controlFunction (byteAt b.chars 1))
    replyLength := b.payload.length, abortLate := c.abortRequested }

theorem State.replyGood_eq (hc : (s.line n).ctx i = some c) (st : Status) : s.replyGood n i b ended st =
    (s.replyTold n i { c with store := b.payload } (·.good ended)).endExchange n i (goodEnding c b ended st) := by
  unfold State.replyGood
  rw [hc]
  rfl

/-- The result of a good reply reads only the station table. -/
theorem resultOf_goodEnding {l m : Line} (hm : m.stations = l.stations) (st : Status) :
    l.resultOf { c with store := b.payload } (goodEnding c b ended st) = c.replied m st ended b := by
  have h := resultOf_eq_ended l m c st ended hm
  exact congrArg (fun r => { r with replyFunction := some ((byteAt b.chars 1).setWidth 5)
                                    replyLength := b.payload.length, abortLate := c.abortRequested }) h

theorem StationEntry.good_eq (e : StationEntry) (ended : Word) : e.good ended =
    { e with failures := 0, health := .online, seq := !e.seq, lastSuccess := some ended
             exchangesOk := min 65535 (e.exchangesOk + 1) } := by
  rw [StationEntry.good, bump_eq_min]

section
variable {c1 : Ctx} {r : Result} {x : Ending} {k : CqId} {q : Cq}

/-- The state in which a context has taken the result of a good reply. -/
def State.resulted (s : State) (n : LineId) (i : CtxId) (c1 : Ctx) (x : Ending) : State :=
  s.setLine n ((s.line n).resulted i c1 x)

theorem State.endExchange_eq_enterPosting (hc : (s.line n).ctx i = some c1) :
    s.endExchange n i x = (s.resulted n i c1 x).enterPosting n i := endExchange_eq hc x

theorem State.ctx_resulted (hr : (s.line n).resultOf c1 x = r) :
    ((s.resulted n i c1 x).line n).ctx i = some { c1 with state := .posting, result := some r } :=
  (congrArg (Line.ctx · i) (State.line_setLine_self s n _)).trans (hr ▸ Line.resulted_ctx _ i c1 x)

/-- R60, R71: a good reply without payload is posted at once. -/
theorem endExchange_of_empty (hc : (s.line n).ctx i = some c1) (h : HostOn s c1 k q) (hr : (s.line n).resultOf c1 x = r)
    (hlen : r.replyLength = 0) (htrunc : r.truncated = false) :
    PostedAs (s.endExchange n i x) n i k q c1 r := by
  have hc1 := State.ctx_resulted (s := s) (n := n) (i := i) hr
  have hon : HostOn (s.resulted n i c1 x) c1 k q := h
  obtain ⟨sq, tag, ho⟩ := h.origin
  have hneeds : ¬c1.needsBuffer r = true := fun hn => by
    obtain ⟨-, -, hlen1, -⟩ := (c1.needsBuffer_iff r).1 hn
    omega
  rw [State.endExchange_eq_enterPosting hc, State.enterPosting_of_host hc1 ho, if_neg hneeds,
    State.writeReply_of_empty hc1 hlen htrunc]
  exact postedAs_readyToComplete hc1 hon

/-- R72: the payload of a good reply goes to the reply address. -/
theorem endExchange_of_address {addr : Word} {cap : Nat} (hc : (s.line n).ctx i = some c1) (h : HostOn s c1 k q)
    (hr : (s.line n).resultOf c1 x = r) (hgood : r.status.good = true) (hdest : c1.dest = .host addr cap)
    (hdata : c1.store.take (min r.replyLength cap) ≠ []) :
    ((s.endExchange n i x).line n).ctx i = some
        { c1 with state := .posting, result := some { r with truncated := decide (cap < r.replyLength) } }
      ∧ (s.endExchange n i x).port = (s.issue (lineEngine n)
          { addr := addr, kind := .write (c1.store.take (min r.replyLength cap)), use := .payload n i }).port := by
  have hc1 := State.ctx_resulted (s := s) (n := n) (i := i) hr
  obtain ⟨sq, tag, ho⟩ := h.origin
  have hneeds : ¬c1.needsBuffer r = true := fun hn => by
    obtain ⟨hbq, -⟩ := (c1.needsBuffer_iff r).1 hn
    exact Dest.noConfusion (hdest.symm.trans hbq)
  rw [State.endExchange_eq_enterPosting hc, State.enterPosting_of_host hc1 ho, if_neg hneeds,
    State.writeReply_of_data hc1 hgood hdest hdata]
  refine ⟨?_, rfl⟩
  rw [State.line_issue, State.line_setCtx]
  exact Line.ctx_setCtx_self _ i _

/-- R71: the payload of a good reply waits for the buffer promised it. -/
theorem endExchange_of_promised {bq : Bq} (hc : (s.line n).ctx i = some c1) (h : HostOn s c1 k q)
    (hr : (s.line n).resultOf c1 x = r) (hneeds : c1.needsBuffer r = true) (hbq : s.bqs[n] = some bq)
    (hprom : bq.promisable = true) :
    ((s.endExchange n i x).line n).ctx i = some { c1 with state := .posting, result := some r }
      ∧ (s.endExchange n i x).bqs[n] = some { bq with promises := bq.promises ++ [.ctx i] } := by
  have hc1 := State.ctx_resulted (s := s) (n := n) (i := i) hr
  have hbq1 : (s.resulted n i c1 x).bqs[n] = some bq := hbq
  obtain ⟨sq, tag, ho⟩ := h.origin
  rw [State.endExchange_eq_enterPosting hc, State.enterPosting_of_host hc1 ho, if_pos hneeds,
    State.requestBuffer_of_promisable hbq1 hprom]
  exact ⟨hc1, (State.bq_setBq _ n n _).trans (if_pos rfl)⟩

/-- R71: a good reply whose payload finds no buffer is posted with NO_BUFFER. -/
theorem endExchange_of_noBuffer (hc : (s.line n).ctx i = some c1) (h : HostOn s c1 k q)
    (hr : (s.line n).resultOf c1 x = r) (hneeds : c1.needsBuffer r = true)
    (hno : ∀ bq, s.bqs[n] = some bq → bq.promisable = false) :
    PostedAs (s.endExchange n i x) n i k q c1 { r with status := .noBuffer } := by
  have hc1 := State.ctx_resulted (s := s) (n := n) (i := i) hr
  have hon : HostOn (s.resulted n i c1 x) c1 k q := h
  have hno1 : ∀ bq, (s.resulted n i c1 x).bqs[n] = some bq → bq.promisable = false := hno
  obtain ⟨sq, tag, ho⟩ := h.origin
  rw [State.endExchange_eq_enterPosting hc, State.enterPosting_of_host hc1 ho, if_pos hneeds,
    State.requestBuffer_of_none hno1]
  exact postedAs_noBuffer hc1 hon

end

/-- R60, R71, R72, R81: a good reply of kind DATA or REFUSE does what the statements say. -/
theorem replyGood_judged {st : Status} {c1 : Ctx} {r : Result} (hc : (s.line n).ctx i = some c)
    (harmed : (s.line n).rx.armed = false) (hgood : st = .ok ∨ st = .refused) (hc1 : c1 = { c with store := b.payload })
    (hr : r = c.replied ((s.replyGood n i b ended st).line n) st ended b) :
    ((s.replyGood n i b ended st).line n).rx.armed = false ∧ OnlyLine n s (s.replyGood n i b ended st)
      ∧ (∀ e, (s.line n).entry c.station = some e → ((s.replyGood n i b ended st).line n).entry c.station = some
          { e with failures := 0, health := .online, seq := !e.seq, lastSuccess := some ended
                   exchangesOk := min 65535 (e.exchangesOk + 1) })
      ∧ (∀ k q, HostOn s c k q →
          (b.payload = [] → PostedAs (s.replyGood n i b ended st) n i k q c1 r)
          ∧ (∀ addr cap, c.dest = .host addr cap → b.payload.take cap ≠ [] →
              ((s.replyGood n i b ended st).line n).ctx i = some
                { c1 with state := .posting, result := some { r with truncated := decide (cap < b.payload.length) } }
              ∧ (s.replyGood n i b ended st).port = (s.issue (lineEngine n)
                  { addr := addr, kind := .write (b.payload.take cap), use := .payload n i }).port)
          ∧ (b.payload ≠ [] → c.dest = .bufferQueue → c.buffer = none → ∀ bq, s.bqs[n] = some bq →
              (bq.state = .active → bq.promises.length < (bq.tail + bq.size - bq.head) % bq.size →
                ((s.replyGood n i b ended st).line n).ctx i = some { c1 with state := .posting, result := some r }
                ∧ (s.replyGood n i b ended st).bqs[n] = some { bq with promises := bq.promises ++ [.ctx i] })
              ∧ (bq.state = .faulted ∨ (bq.tail + bq.size - bq.head) % bq.size ≤ bq.promises.length →
                  PostedAs (s.replyGood n i b ended st) n i k q c1 { r with status := .noBuffer })))
      ∧ ∀ e p k q, PollOn s n i c e p k q →
          PollSettled s (s.replyGood n i b ended st) n i e p k q c1 r (s.line n).counters := by
  have heq : s.replyGood n i b ended st = (s.replyTold n i c1 (·.good ended)).endExchange n i (goodEnding c b ended st) :=
    hc1 ▸ State.replyGood_eq hc st
  have hstations : ((s.replyGood n i b ended st).line n).stations = ((s.replyTold n i c1 (·.good ended)).line n).stations :=
    heq ▸ (actsOn_endExchange _ _).line.stations
  have hresult : ((s.replyTold n i c1 (·.good ended)).line n).resultOf c1 (goodEnding c b ended st) = r := by
    rw [hr, hc1]
    rw [hc1] at hstations
    exact resultOf_goodEnding hstations st
  have hstatus : r.isGood := by rw [hr]; exact hgood
  have hlen : r.replyLength = b.payload.length := by rw [hr]; rfl
  have htrunc : r.truncated = false := by rw [hr]; rfl
  have horigin : c1.origin = c.origin := by rw [hc1]
  have hstation : c1.station = c.station := by rw [hc1]
  have hctx := State.ctx_replyTold (s := s) (n := n) (i := i) (c1 := c1) (f := (·.good ended))
  obtain ⟨hport, hbqs⟩ := State.replyTold_frame (s := s) (n := n) (i := i) (c1 := c1) (f := (·.good ended))
  obtain ⟨ha, honly, hentry⟩ := replyTold_ending (i := i) (c1 := c1) (f := (·.good ended)) harmed (fun _ => rfl)
    (goodEnding c b ended st)
  rw [heq]
  refine ⟨ha, honly, fun e he => ?_, fun k q hon => ⟨fun hempty => ?_, fun addr cap hdest hdata => ?_,
    fun hne hdest hbuf bq hbq => ?_⟩, fun e p k q hon => ?_⟩
  · rw [← hstation] at he ⊢
    exact (hentry e he).trans (congrArg some (e.good_eq ended))
  · exact endExchange_of_empty hctx (hon.replyTold horigin) hresult (by rw [hlen, hempty]; rfl) htrunc
  · have hcut : c1.store.take (min r.replyLength cap) = b.payload.take cap := by
      rw [hlen, hc1, Nat.min_comm, ← List.take_eq_take_min]
    obtain ⟨hctx1, hport1⟩ := endExchange_of_address hctx (hon.replyTold horigin) hresult ((good_result_iff r).2 hstatus)
      (by rw [hc1]; exact hdest) (hcut ▸ hdata)
    refine ⟨hlen ▸ hctx1, hport1.trans ?_⟩
    rw [hcut, State.issue, State.issue, State.modPort, State.modPort, hport]
  · have hneeds : c1.needsBuffer r = true :=
      (c1.needsBuffer_iff r).2 ⟨by rw [hc1]; exact hdest, hstatus, hlen ▸ List.length_pos_of_ne_nil hne, by rw [hc1]; exact hbuf⟩
    have hbq1 : (s.replyTold n i c1 (·.good ended)).bqs[n] = some bq := by rw [hbqs]; exact hbq
    refine ⟨fun hact hlt => ?_, fun hno => ?_⟩
    · exact endExchange_of_promised hctx (hon.replyTold horigin) hresult hneeds hbq1 (bq.promisable_iff.2 ⟨hact, hlt⟩)
    · refine endExchange_of_noBuffer hctx (hon.replyTold horigin) hresult hneeds fun bq1 h1 => ?_
      obtain rfl := Option.some.inj (hbq1.symm.trans h1)
      exact Bq.not_promisable hno
  · have hset := pollSettled_endExchange hctx (hon.replyTold horigin) (goodEnding c b ended st) hresult.symm
    rw [show ((s.replyTold n i c1 (·.good ended)).line n).counters = (s.line n).counters from
      State.field_replyTold Line.counters] at hset
    exact hset.of_same (congrArg (fun v => v[n]) hbqs) (State.field_replyTold Line.pollLost)

/-! ### The judgement -/

/-- R58: the checks that fail an attempt, and the kinds of good replies. -/
theorem judgeReply_fails {station : Byte} {seq : Bool} {why : Status} (h : judgeReply b station seq = .fails why) :
    why ≠ .ok ∧ why ≠ .refused := by
  unfold judgeReply at h
  dsimp only at h
  repeat' split at h
  all_goals first
    | (obtain rfl := Verdict.fails.inj h; exact ⟨nofun, nofun⟩)
    | cases h

/-- R57: what a verdict makes of the listening context. -/
def State.afterVerdict (s : State) (n : LineId) (i : CtxId) (b : RxBlock) (ended : Word) : Verdict → State
  | .fails why => s.failAttempt n i why
  | .stale => s.replyStale n i ended
  | .data => s.replyGood n i b ended .ok
  | .refuse => s.replyGood n i b ended .refused
  | .wait => s.replyWait n i ended

/-- R57 to R61: a block handed to the listening context is judged as the statements say. -/
theorem replyJudged_judgeBlock (hc : (s.line n).ctx i = some c) (hcfg : (s.line n).config = some cfg)
    (harmed : (s.line n).rx.armed = false) : ReplyJudged s (s.judgeBlock n i b ended) n i cfg c b ended := by
  have heq : s.judgeBlock n i b ended =
      s.afterVerdict n i b ended (judgeReply b c.station ((s.line n).seqOf c.station)) := by
    unfold State.judgeBlock
    rw [hc]
    dsimp only
    cases judgeReply b c.station ((s.line n).seqOf c.station) <;> rfl
  have hfail (why : Status) (hwhy : why ≠ .ok ∧ why ≠ .refused) :
      ((s.failAttempt n i why).line n).rx.armed = false ∧ AttemptFails s (s.failAttempt n i why) n i cfg c why :=
    ⟨(congrArg Receiver.armed (State.failAttempt_frame hc hcfg).2.2).trans harmed, attemptFails_failAttempt hc hcfg hwhy⟩
  refine ⟨fun why hj => ?_, fun hj => ?_, fun hj => ?_, fun st r c1 hst hc1 hr => ?_⟩
  · rw [hj] at heq
    rw [heq]
    exact hfail why (judgeReply_fails hj)
  · rw [hj] at heq
    rw [heq, State.afterVerdict, State.replyStale_eq hc hcfg]
    refine ⟨fun hseen => ?_, fun hseen => ?_⟩
    · rw [if_pos hseen]
      exact hfail .stale (by decide)
    · rw [if_neg (Bool.eq_false_iff.1 hseen), State.line_setLine_self]
      exact ⟨rfl, rfl, Line.ctx_setCtx_self _ i _, onlyLine_setLine s n _⟩
  · rw [hj] at heq
    rw [heq]
    exact replyWait_judged hc hcfg harmed
  · have hgood : s.judgeBlock n i b ended = s.replyGood n i b ended st := by
      rcases hst with ⟨hj, rfl⟩ | ⟨hj, rfl⟩ <;> rw [heq, hj, State.afterVerdict]
    rw [hgood] at hr ⊢
    exact replyGood_judged hc harmed (hst.imp And.right And.right) hc1 hr

/-! ### What was judged with the receiver changed just before -/

variable {t : State} {rx : Receiver}

theorem PollOn.of_rx {e : PollId} {p : PollEntry} {k : CqId} {q : Cq} (h : PollOn s n i c e p k q) :
    PollOn (s.setLine n { s.line n with rx := rx }) n i c e p k q :=
  have field {α : Type} (g : Line → α) := congrArg g (State.line_setLine_self s n { s.line n with rx := rx })
  h.of_same rfl (field (Line.poll · e)) (field Line.config) rfl

theorem PollSettled.of_rx {e : PollId} {p : PollEntry} {k : CqId} {q : Cq} {c1 : Ctx} {r : Result} {ks : Counters}
    (h : PollSettled (s.setLine n { s.line n with rx := rx }) t n i e p k q c1 r ks) : PollSettled s t n i e p k q c1 r ks :=
  have hlost := congrArg Line.pollLost (State.line_setLine_self s n { s.line n with rx := rx })
  h.of_same rfl hlost

theorem AttemptFails.of_rx {why : Status} (h : AttemptFails (s.setLine n { s.line n with rx := rx }) t n i cfg c why) :
    AttemptFails s t n i cfg c why := by
  unfold AttemptFails at h
  rw [State.line_setLine_self] at h
  obtain ⟨honly, hothers, habort, hlimits⟩ := h
  refine ⟨(onlyLine_setLine s n _).trans honly, hothers, fun hyes => ?_, fun limit hlimit => ?_⟩
  · obtain ⟨hhost, hpoll⟩ := habort hyes
    exact ⟨hhost, fun e p k q hon => (hpoll e p k q hon.of_rx).of_rx⟩
  · obtain ⟨hretry, hend⟩ := hlimits limit hlimit
    refine ⟨hretry, fun hno hlt => ?_⟩
    obtain ⟨hhost, hpoll, hentry⟩ := hend hno hlt
    exact ⟨hhost, fun e p k q hon => (hpoll e p k q hon.of_rx).of_rx, hentry⟩

theorem ReplyJudged.of_rx (h : ReplyJudged (s.setLine n { s.line n with rx := rx }) t n i cfg c b ended) :
    ReplyJudged s t n i cfg c b ended := by
  unfold ReplyJudged at h
  rw [State.line_setLine_self] at h
  obtain ⟨hfails, hstale, hwait, hgood⟩ := h
  refine ⟨fun why hj => ?_, fun hj => ?_, fun hj => ?_, fun st r c1 hst hc1 hr => ?_⟩
  · obtain ⟨ha, hfail⟩ := hfails why hj
    exact ⟨ha, hfail.of_rx⟩
  · obtain ⟨hsecond, hfirst⟩ := hstale hj
    refine ⟨fun hseen => ?_, fun hseen => ?_⟩
    · obtain ⟨ha, hfail⟩ := hsecond hseen
      exact ⟨ha, hfail.of_rx⟩
    · obtain ⟨ha, hw, hctx, honly⟩ := hfirst hseen
      exact ⟨ha, hw, hctx, (onlyLine_setLine s n _).trans honly⟩
  · obtain ⟨ha, honly, hrest⟩ := hwait hj
    exact ⟨ha, (onlyLine_setLine s n _).trans honly, hrest⟩
  · obtain ⟨ha, honly, hentry, hhost, hpoll⟩ := hgood st r c1 hst hc1 hr
    exact ⟨ha, (onlyLine_setLine s n _).trans honly, hentry, hhost, fun e p k q hon => (hpoll e p k q hon.of_rx).of_rx⟩

end

end Sys2Proof.Machine
end

