-- ==== Sys2Proof/Proofs/Reception.lean ====
section
/-! Start bits, characters, the reply window and the end of HOLD (R20 to R23, R31 to R36, R56, R57). -/

namespace Sys2Proof.Machine

/-! ### The end of the reply window -/

theorem Line.listening_eq_some {l : Line} {i : CtxId} {c : Ctx} (hc : l.ctx i = some c) (hst : c.state = .listening)
    (hmem : i ∈ l.exch.work) (honly : ∀ j d, l.ctx j = some d → d.state = .listening → j = i) : l.listening = some i :=
  find?_work_of_only hmem ((ctxTest_iff _ _).2 ⟨c, hc, hst⟩) fun j hj => by
    obtain ⟨d, hd, hs⟩ := (ctxTest_iff _ _).1 hj
    exact honly j d hd hs

theorem Line.listening_eq_none {l : Line} (h : ∀ j d, l.ctx j = some d → d.state ≠ .listening) : l.listening = none :=
  List.find?_eq_none.2 fun j _ hj => by
    obtain ⟨d, hd, hs⟩ := (ctxTest_iff _ _).1 hj
    exact h j d hd hs

section
variable {s : State} {n : LineId} {i : CtxId} {cfg : LineConfig} {c : Ctx}

/-- R33, R57: NO_START disarms the receiver and fails the attempt with NO_REPLY. -/
theorem reportNoStart_fails (hc : (s.line n).ctx i = some c) (hcfg : (s.line n).config = some cfg)
    (hlisten : (s.line n).listening = some i) : AttemptFails s (s.reportNoStart n) n i cfg c .noReply
      ∧ ((s.reportNoStart n).line n).rx = { (s.line n).rx with armed := false, window := none } := by
  have heq : s.reportNoStart n = (s.setLine n (s.line n).disarm).failAttempt n i .noReply := by
    unfold State.reportNoStart
    rw [hlisten]
    rfl
  have field {α : Type} (f : Line → α) := congrArg f (State.line_setLine_self s n (s.line n).disarm)
  have hc1 := (field (Line.ctx · i)).trans hc
  have hcfg1 := (field Line.config).trans hcfg
  have hfails := attemptFails_failAttempt hc1 hcfg1 (why := .noReply) (by decide)
  have hframe := (State.failAttempt_frame (why := .noReply) hc1 hcfg1).2.2
  rw [heq]
  exact ⟨hfails.of_rx, hframe.trans (field Line.rx)⟩

theorem edgeInWindow_some (edge w : Word) : edgeInWindow edge (some w) = true ↔ 2 ^ 31 ≤ (edge - w).toNat := by
  rw [edgeInWindow, Bool.not_eq_true', ← Bool.not_eq_true, reached_iff, Nat.not_lt]

theorem exec_noStart (s : State) (n : LineId) : exec (.noStart n) s = .next
    (if (s.line n).rx.armed && expired s.timebase (s.line n).rx.window
        && !(decide ((s.line n).rx.state = .qualifying) && edgeInWindow (s.line n).rx.edge (s.line n).rx.window) then
      s.reportNoStart n else s) := rfl

end

/-- Settles O48. -/
theorem noStartFailsTheAttempt : Obligations.NoStartFailsTheAttempt := by
  unfold Obligations.NoStartFailsTheAttempt
  rintro s n l cfg x i c rfl hcfg harmed hwindow hc hst hmem honly
  refine ⟨fun hearly => ?_, fun hlate hedge => ?_⟩
  · refine (exec_noStart s n).trans (congrArg Host.Outcome.next (if_neg ?_))
    rw [hwindow, Bool.eq_false_iff.2 (mt (expired_iff _ _).1 (Nat.not_lt.2 hearly)), Bool.and_false, Bool.false_and]
    exact Bool.false_ne_true
  · refine ⟨_, (exec_noStart s n).trans (congrArg Host.Outcome.next (if_pos ?_)), ?_⟩
    · have hno : (decide ((s.line n).rx.state = .qualifying) && edgeInWindow (s.line n).rx.edge (some x)) = false := by
        rw [Bool.and_eq_false_iff, decide_eq_false_iff_not]
        exact hedge.imp id fun h => Bool.eq_false_iff.2 (mt (edgeInWindow_some _ _).1 (Nat.not_le.2 h))
      rw [hwindow, harmed, (expired_iff _ _).2 hlate, hno]
      rfl
    · obtain ⟨hfails, hrx⟩ := reportNoStart_fails hc hcfg (Line.listening_eq_some hc hst hmem honly)
      exact ⟨hrx, hfails⟩

/-! ### Start bits -/

theorem Line.startSampled_of_qualifying {l : Line} {cfg : LineConfig} (hst : l.rx.state = .qualifying)
    (hage : ∀ a, l.rx.age = some a → 9 * cfg.divider ≤ 16 * a) : l.startSampled cfg = true := by
  rw [Line.startSampled, hst]
  cases ha : l.rx.age with
  | none => rfl
  | some a => simpa [sampled] using hage a ha

theorem Receiver.awaitsReply_iff (r : Receiver) : r.awaitsReply = true ↔ r.armed = true ∧ r.block = none := by
  rw [Receiver.awaitsReply, Bool.and_eq_true, Option.isNone_iff_eq_none]

theorem spaceWins_eq (x : BitSamples) : spaceWins x = !maj3 x.s7 x.s8 x.s9 := rfl

/-- R20: what a noise start leaves on the line. -/
theorem Line.noise_eq (l : Line) (x : BitSamples) : l.noise x =
    { l with
      rx := { l.rx with state := if x.s9 then .hunting else .awaitMark, age := none, gap := 0, mark := x.s9 }
      counters := { l.counters with noiseStarts := min 4294967295 (l.counters.noiseStarts + 1) } } := by
  rw [← tally_eq_min]
  rfl

section
variable {s : State} {n : LineId} {cfg : LineConfig} {x : BitSamples}

theorem exec_noiseStart (hcfg : (s.line n).config = some cfg) : exec (.noiseStart n x) s = .next
    (if (s.line n).startSampled cfg && !spaceWins x then
      if (s.line n).rx.awaitsReply && expired s.timebase (s.line n).rx.window then
        (s.setLine n ((s.line n).noise x)).reportNoStart n
      else s.setLine n ((s.line n).noise x)
    else s) := by
  change execNoiseStart n x s = _
  rw [execNoiseStart, hcfg]
  rfl

theorem exec_startSeen (hcfg : (s.line n).config = some cfg) : exec (.startSeen n x) s = .next
    (if (s.line n).startSampled cfg && spaceWins x && (s.line n).rx.awaitsReply
        && edgeInWindow (s.line n).rx.edge (s.line n).rx.window then s.modLine n Line.replyBegins else s) := by
  change execStartSeen n x s = _
  rw [execStartSeen, hcfg]

theorem exec_qualifiedStartBit (hcfg : (s.line n).config = some cfg) : exec (.qualifiedStartBit n x) s = .next
    (if (s.line n).startSampled cfg && spaceWins x && !(s.line n).rx.awaitsReply then s.startBit n cfg else s) := by
  change execQualifiedStartBit n x s = _
  rw [execQualifiedStartBit, hcfg]

/-- R23, R113: the line on which a block has begun. -/
def Line.opened (l : Line) (cfg : LineConfig) (reply : Bool) : Line :=
  { l with
    rx := { l.rx with
      state := .assembling, echo := false, idle := false
      window := if reply then none else l.rx.window
      block := some { chars := [], count := 0, framing := false, parity := false, brk := false
                      start := l.rx.edge, reply := reply } }
    mon := if cfg.mode = .monitor then { l.mon with blockFilter := some l.mon.filter } else l.mon }

theorem Line.beginBlock_eq_opened {l : Line} (hcfg : l.config = some cfg) :
    (l.assemble false).beginBlock false = l.opened cfg false := by
  unfold Line.beginBlock Line.opened Line.assemble
  dsimp only
  split
  · next cfg1 h =>
    obtain rfl := Option.some.inj (hcfg.symm.trans h)
    rfl
  · next h => exact absurd (hcfg.symm.trans h) (Option.some_ne_none _)

theorem Line.replyBegins_eq_opened {l : Line} (hcfg : l.config = some cfg) : l.replyBegins = l.opened cfg true := by
  unfold Line.replyBegins Line.beginBlock Line.opened Line.assemble
  dsimp only
  split
  · next cfg1 h =>
    obtain rfl := Option.some.inj (hcfg.symm.trans h)
    rfl
  · next h => exact absurd (hcfg.symm.trans h) (Option.some_ne_none _)

theorem State.startBit_of_stray (h : cfg.echo = false ∨ ((s.line n).tx.phase ≠ .lead ∧ (s.line n).tx.phase ≠ .send)) :
    s.startBit n cfg = s.modLine n Line.strayStart := by
  have hno (p : TxPhase) (hp : p = .lead ∨ p = .send) : ¬(s.line n).echoIn cfg p = true := fun he => by
    obtain ⟨hecho, hphase⟩ := Bool.and_eq_true_iff.1 he
    rcases h with h | ⟨h1, h2⟩
    · exact Bool.noConfusion (h.symm.trans hecho)
    · rcases hp with rfl | rfl
      · exact h1 (of_decide_eq_true hphase)
      · exact h2 (of_decide_eq_true hphase)
  rw [State.startBit, if_neg (hno .lead (.inl rfl)), if_neg (hno .send (.inr rfl))]

theorem Line.echoIn_of_phase {l : Line} {p : TxPhase} (hecho : cfg.echo = true) (h : l.tx.phase = p) :
    l.echoIn cfg p = true := by
  rw [Line.echoIn, hecho, h, Bool.true_and, decide_eq_true_eq]

theorem State.startBit_of_send (hecho : cfg.echo = true) (h : (s.line n).tx.phase = .send) :
    s.startBit n cfg = s.modLine n Line.echoStart := by
  have hno : ¬(s.line n).echoIn cfg .lead = true := fun he =>
    TxPhase.noConfusion (h.symm.trans (of_decide_eq_true (Bool.and_eq_true_iff.1 he).2))
  rw [State.startBit, if_neg hno, if_pos (Line.echoIn_of_phase hecho h)]

theorem State.startBit_of_lead (hecho : cfg.echo = true) (h : (s.line n).tx.phase = .lead)
    (hcfg : (s.line n).config = some cfg) :
    s.startBit n cfg = (s.setLine n ((s.line n).opened cfg false)).contention n := by
  rw [State.startBit, if_pos (Line.echoIn_of_phase hecho h), State.modLine, Line.beginBlock_eq_opened hcfg]

end

/-- Settles O47. -/
theorem startBitsBeginBlocks : Obligations.StartBitsBeginBlocks := by
  unfold Obligations.StartBitsBeginBlocks
  rintro s n l cfg x opened rfl hcfg hst hage hopened
  have hsampled := Line.startSampled_of_qualifying hst hage
  have hopened1 : ∀ reply, opened reply = (s.line n).opened cfg reply := hopened
  refine ⟨fun hmark hno => ?_, ?_, fun hspace => ?_⟩
  · have hwait : ¬((s.line n).rx.awaitsReply && expired s.timebase (s.line n).rx.window) = true := fun h => by
      obtain ⟨h1, h2⟩ := Bool.and_eq_true_iff.1 h
      obtain ⟨harmed, hblock⟩ := (Receiver.awaitsReply_iff _).1 h1
      exact hno ⟨harmed, hblock, h2⟩
    rw [exec_noiseStart hcfg, hsampled, spaceWins_eq, hmark, if_neg hwait, Line.noise_eq]
    rfl
  · rintro i c s1 hmark harmed hblock hwindow hc hlisten hmem honly rfl
    have hwait : (s.line n).rx.awaitsReply = true := (Receiver.awaitsReply_iff _).2 ⟨harmed, hblock⟩
    have hexec : exec (.noiseStart n x) s = .next ((s.setLine n ((s.line n).noise x)).reportNoStart n) := by
      rw [exec_noiseStart hcfg, hsampled, spaceWins_eq, hmark, hwait, hwindow]
      rfl
    have field {α : Type} (f : Line → α) := congrArg f (State.line_setLine_self s n ((s.line n).noise x))
    have hfails := reportNoStart_fails ((field (Line.ctx · i)).trans hc) ((field Line.config).trans hcfg)
      ((field Line.listening).trans (Line.listening_eq_some hc hlisten hmem honly))
    rw [← Line.noise_eq]
    exact ⟨_, hexec, hfails⟩
  · have hspace1 : spaceWins x = true := by rw [spaceWins_eq, hspace]; rfl
    refine ⟨?_, fun harmed hblock hedge => ?_, fun hno => ?_⟩
    · rw [exec_noiseStart hcfg, hsampled, hspace1]
      rfl
    · have hin : edgeInWindow (s.line n).rx.edge (s.line n).rx.window = true := by
        cases hw : (s.line n).rx.window with
        | none => rfl
        | some w => exact (edgeInWindow_some _ _).2 (hedge w hw)
      rw [exec_startSeen hcfg, hsampled, hspace1, (Receiver.awaitsReply_iff _).2 ⟨harmed, hblock⟩, hin, hopened1,
        ← Line.replyBegins_eq_opened hcfg]
      rfl
    · have hwait : (s.line n).rx.awaitsReply = false := Bool.eq_false_iff.2 fun h => by
        obtain ⟨harmed, hblock⟩ := (Receiver.awaitsReply_iff _).1 h
        exact hno.elim (fun h => Bool.noConfusion (h.symm.trans harmed)) (absurd hblock)
      have hexec : exec (.qualifiedStartBit n x) s = .next (s.startBit n cfg) := by
        rw [exec_qualifiedStartBit hcfg, hsampled, hspace1, hwait]
        rfl
      refine ⟨?_, fun hstray => ⟨fun hblock hidle => ?_, fun hbusy => ?_⟩, fun hecho hphase => ?_, fun hecho hphase => ?_⟩
      · rw [exec_startSeen hcfg, hwait, Bool.and_false, Bool.false_and]
        rfl
      · have hbegins : (s.line n).strayStart = opened false := by
          rw [Line.strayStart, hblock, hidle, hopened1, ← Line.beginBlock_eq_opened hcfg]
          rfl
        rw [hexec, State.startBit_of_stray hstray, State.modLine, hbegins]
      · have hnone : ¬((s.line n).rx.block.isNone && (s.line n).rx.idle) = true := fun h => by
          obtain ⟨h1, h2⟩ := Bool.and_eq_true_iff.1 h
          exact hbusy.elim (absurd (Option.isNone_iff_eq_none.1 h1)) fun h => Bool.noConfusion (h.symm.trans h2)
        rw [hexec, State.startBit_of_stray hstray, State.modLine, Line.strayStart, if_neg hnone]
        rfl
      · rw [hexec, State.startBit_of_send hecho hphase]
        rfl
      · rw [hexec, State.startBit_of_lead hecho hphase hcfg]
        have field {α : Type} (f : Line → α) := congrArg f (State.line_setLine_self s n ((s.line n).opened cfg false))
        obtain ⟨honly, hde, hlead, hrx⟩ := State.contention_frame ((field Line.config).trans hcfg)
        refine ⟨_, rfl, (onlyLine_setLine s n _).trans honly, hde, hlead, ?_, fun o c ho hc => ?_⟩
        · rw [hrx, field Line.contended]
          rfl
        · have hcont := (contends_contention ((field Line.config).trans hcfg) ((field (fun l => l.tx.order)).trans ho)
            ((field (Line.ctx · o.ctx)).trans hc)).1
          exact hcont.of_setLine rfl rfl rfl

end Sys2Proof.Machine
end

