-- ==== Sys2Proof/Proofs/Characters.lean ====
section
/-! Characters and the end of HOLD (R21, R22, R31 to R34, R56, R65). -/

namespace Sys2Proof.Machine

/-! ### Characters -/

section
variable {s : State} {n : LineId} {cfg : LineConfig} {x : CharSamples}

theorem exec_characterReceived (hcfg : (s.line n).config = some cfg) : exec (.characterReceived n x) s = .next
    (if (s.line n).rx.state = .assembling ∧ sampled cfg (s.line n).rx.age cfg.stopIndex = true then
      s.character n cfg x else s) := by
  change execCharacterReceived n x s = _
  rw [execCharacterReceived, hcfg]

theorem State.character_of_taken (h : (s.line n).comparesEcho = false) :
    s.character n cfg x = s.setLine n ((s.line n).characterTaken cfg x) :=
  if_neg (Bool.eq_false_iff.1 h)

theorem State.character_of_match (h : (s.line n).comparesEcho = true) (hm : (s.line n).echoMatches cfg x = true) :
    s.character n cfg x = s.setLine n { (s.line n).characterTaken cfg x with
      tx := { (s.line n).tx with echoMatched := (s.line n).tx.echoMatched + 1 } } :=
  (if_pos h).trans ((if_pos hm).trans (State.modLine_setLine s n _ _))

theorem State.character_of_mismatch (h : (s.line n).comparesEcho = true) (hm : (s.line n).echoMatches cfg x = false) :
    s.character n cfg x = (s.setLine n ((s.line n).characterTaken cfg x)).judgeContention n cfg :=
  (if_pos h).trans (if_neg (Bool.eq_false_iff.1 hm))

/-- A contention judged now, on a line where a character has just been taken. -/
theorem State.judgeContention_setLine_of_send {l : Line} (h : l.tx.phase = .send) :
    (s.setLine n l).judgeContention n cfg = s.setLine n { l with tx := { l.tx with stopAt := some (l.charEnd cfg) } } := by
  have hphase := (congrArg (fun l => l.tx.phase) (State.line_setLine_self s n l)).trans h
  rw [State.judgeContention_of_send hphase, State.line_setLine_self, State.setLine_setLine]

theorem State.judgeContention_of_hold (h : (s.line n).tx.phase = .hold) : s.judgeContention n cfg = s.contention n :=
  if_neg (by rw [h]; exact TxPhase.noConfusion)

theorem Line.echoMatches_iff {l : Line} {o : Order} {e : Byte} (ho : l.tx.order = some o)
    (he : o.block[l.tx.echoMatched]? = some e) : l.echoMatches cfg x = true ↔
      charValue x = e ∧ charStopMark x = true ∧ charParityError x cfg = false := by
  rw [Line.echoMatches, ho]
  dsimp only
  rw [he]
  simp only [Bool.and_eq_true, decide_eq_true_eq, Bool.not_eq_true', and_assoc, and_comm (a := charStopMark x = true)]

theorem Line.block_characterTaken_of_echo {l : Line} (h : l.rx.echo = true) :
    (l.characterTaken cfg x).rx.block = l.rx.block := by
  have : (l.characterTaken cfg x).rx.block = if l.rx.echo then l.rx.block
      else match l.rx.block with
        | some b => some (b.join x cfg)
        | none => none := rfl
  rw [this, if_pos h]

theorem Line.counters_characterTaken (l : Line) : (l.characterTaken cfg x).counters = { l.counters with
    breaks := if charStopMark x = false ∧ charValue x = 0#8 then min 4294967295 (l.counters.breaks + 1)
      else l.counters.breaks } := by
  have hbreak : charIsBreak x = true ↔ charStopMark x = false ∧ charValue x = 0#8 := by
    rw [charIsBreak, Bool.and_eq_true, Bool.not_eq_true', decide_eq_true_eq]
    rfl
  have hcount : (l.characterTaken cfg x).counters = { l.counters with
    breaks := if charIsBreak x then tally l.counters.breaks else l.counters.breaks } := rfl
  rw [hcount, tally_eq_min, if_congr hbreak rfl rfl]

end

/-- R21: each bit by majority of its three samples. -/
theorem charBits_getLsbD (c : CharSamples) (i : Nat) :
    (charBits c).getLsbD i = maj3 (c.s7.getLsbD i) (c.s8.getLsbD i) (c.s9.getLsbD i) := by
  rw [charBits, maj3, BitVec.getLsbD_or, BitVec.getLsbD_or, BitVec.getLsbD_and, BitVec.getLsbD_and, BitVec.getLsbD_and]

/-- R34: which echoes are compared. -/
theorem Line.comparesEcho_of_send {l : Line} (hecho : l.rx.echo = true) (h : l.tx.phase = .send)
    (hstop : l.tx.stopAt = none) : l.comparesEcho = true := by
  rw [Line.comparesEcho, hecho, h, hstop]
  rfl

theorem Line.comparesEcho_of_hold {l : Line} (hecho : l.rx.echo = true) (h : l.tx.phase = .hold) :
    l.comparesEcho = true := by
  rw [Line.comparesEcho, hecho, h]
  cases l.tx.stopAt <;> rfl

theorem onlyLine_character (s : State) (n : LineId) {cfg : LineConfig} (hcfg : (s.line n).config = some cfg)
    (x : CharSamples) : OnlyLine n s (s.character n cfg x) := by
  cases hcmp : (s.line n).comparesEcho with
  | false =>
    rw [State.character_of_taken hcmp]
    exact onlyLine_setLine s n _
  | true =>
    cases hm : (s.line n).echoMatches cfg x with
    | true =>
      rw [State.character_of_match hcmp hm]
      exact onlyLine_setLine s n _
    | false =>
      rw [State.character_of_mismatch hcmp hm, State.judgeContention]
      have hline := State.line_setLine_self s n ((s.line n).characterTaken cfg x)
      have hcfg1 := (congrArg Line.config hline).trans hcfg
      split
      · exact (onlyLine_setLine s n _).trans (onlyLine_setLine _ n _)
      · exact (onlyLine_setLine s n _).trans (State.contention_frame hcfg1).1

/-- Settles O45. -/
theorem charactersJoinTheBlock : Obligations.CharactersJoinTheBlock := by
  unfold Obligations.CharactersJoinTheBlock
  refine ⟨fun c i _ => charBits_getLsbD c i, ?_⟩
  rintro s n l cfg x v mark par rfl hcfg hst hage rfl rfl rfl
  have hsampled : sampled cfg (s.line n).rx.age cfg.stopIndex = true := by
    cases ha : (s.line n).rx.age with
    | none => rfl
    | some a => exact decide_eq_true (hage a ha)
  refine ⟨_, (exec_characterReceived hcfg).trans (congrArg Host.Outcome.next (if_pos ⟨hst, hsampled⟩)),
    onlyLine_character s n hcfg x, fun hecho => ?_, fun o e hecho hphase hstop ho he => ?_,
    fun o e c hecho hphase ho hc he => ?_⟩
  · have hcmp : (s.line n).comparesEcho = false := by rw [Line.comparesEcho, hecho, Bool.false_and]
    have hblock : ((s.line n).characterTaken cfg x).rx.block = if (s.line n).rx.echo then (s.line n).rx.block
      else match (s.line n).rx.block with
        | some b => some (b.join x cfg)
        | none => none := rfl
    rw [State.character_of_taken hcmp, State.line_setLine_self]
    refine ⟨rfl, rfl, rfl, rfl, rfl, rfl, Line.counters_characterTaken _, fun hnone => ?_, fun b hb => ?_⟩
    · rw [hblock, hecho, hnone]
      rfl
    · rw [hblock, hecho, hb]
      simp only [RxBlock.join, bump_eq_min]
      rfl
  · have hcmp := Line.comparesEcho_of_send hecho hphase hstop
    have hmatch := Line.echoMatches_iff (cfg := cfg) (x := x) ho he
    cases hm : (s.line n).echoMatches cfg x with
    | true =>
      rw [State.character_of_match hcmp hm, State.line_setLine_self]
      exact ⟨Line.block_characterTaken_of_echo hecho, fun _ => rfl, fun hno => absurd (hmatch.1 hm) hno⟩
    | false =>
      rw [State.character_of_mismatch hcmp hm, State.judgeContention_setLine_of_send (l := (s.line n).characterTaken cfg x) hphase,
        State.line_setLine_self]
      refine ⟨Line.block_characterTaken_of_echo hecho, fun hyes => ?_, fun _ => ?_⟩
      · exact Bool.noConfusion (hm.symm.trans (hmatch.2 hyes))
      · rw [Line.charEnd_of_order (l := (s.line n).characterTaken cfg x) ho]
        rfl
  · have hcmp := Line.comparesEcho_of_hold hecho hphase
    have hmatch := Line.echoMatches_iff (cfg := cfg) (x := x) ho he
    cases hm : (s.line n).echoMatches cfg x with
    | true =>
      rw [State.character_of_match hcmp hm, State.line_setLine_self]
      exact ⟨Line.block_characterTaken_of_echo hecho, fun _ => rfl, fun hno => absurd (hmatch.1 hm) hno⟩
    | false =>
      have field {α : Type} (f : Line → α) :=
        congrArg f (State.line_setLine_self s n ((s.line n).characterTaken cfg x))
      have hcont := contends_contention ((field Line.config).trans hcfg) ((field (fun l => l.tx.order)).trans ho)
        ((field (Line.ctx · o.ctx)).trans hc)
      obtain ⟨hcontends, hrx, -⟩ := hcont
      rw [State.character_of_mismatch hcmp hm, State.judgeContention_of_hold ((field (fun l => l.tx.phase)).trans hphase)]
      refine ⟨?_, fun hyes => Bool.noConfusion (hm.symm.trans (hmatch.2 hyes)), fun _ => hcontends.of_setLine rfl rfl rfl⟩
      exact (congrArg Receiver.block hrx).trans ((field (fun l => l.rx.block)).trans (Line.block_characterTaken_of_echo hecho))

/-! ### The end of HOLD -/

section
variable {s : State} {n : LineId} {i : CtxId} {cfg : LineConfig} {o : Order} {c : Ctx}

/-- The judgement of a reply arms or disarms the receiver, and leaves it otherwise as it was. -/
theorem State.judgeBlock_rx (hc : (s.line n).ctx i = some c) (hcfg : (s.line n).config = some cfg) (b : RxBlock)
    (ended : Word) : ∃ a w, ((s.judgeBlock n i b ended).line n).rx = { (s.line n).rx with armed := a, window := w } := by
  have hfail (why : Status) : ∃ a w, ((s.failAttempt n i why).line n).rx = { (s.line n).rx with armed := a, window := w } :=
    ⟨_, _, (State.failAttempt_frame hc hcfg).2.2⟩
  have hend (c1 : Ctx) (f : StationEntry → StationEntry) (x : Ending) : ∃ a w,
      (((s.replyTold n i c1 f).endExchange n i x).line n).rx = { (s.line n).rx with armed := a, window := w } :=
    ⟨_, _, ((actsOn_endExchange (n := n) (i := i) _ x).posts.wires n).2.1.trans (State.field_replyTold Line.rx)⟩
  unfold State.judgeBlock
  rw [hc]
  dsimp only
  split
  · exact hfail _
  · rw [State.replyStale_eq hc hcfg]
    split
    · exact hfail _
    · rw [State.line_setLine_self]
      exact ⟨_, _, rfl⟩
  · rw [State.replyGood_eq hc]
    exact hend _ _ _
  · rw [State.replyGood_eq hc]
    exact hend _ _ _
  · rw [State.replyWait_eq hc hcfg]
    split
    · exact hend _ _ _
    · split
      · exact hend _ _ _
      · rw [State.line_setCtx]
        exact ⟨_, _, State.field_replyTold Line.rx⟩

theorem exec_holdEnd (hcfg : (s.line n).config = some cfg) : exec (.holdEnd n) s = .next
    (if (s.line n).tx.phase = .hold ∧ cfg.hold * cfg.divider ≤ (s.line n).tx.age then s.holdEnded n cfg else s) := by
  change execHoldEnd n s = _
  rw [execHoldEnd, hcfg]

theorem State.holdEnded_of_order (ho : (s.line n).tx.order = some o) (hc : (s.line n).ctx o.ctx = some c) :
    s.holdEnded n cfg =
      if c.station ≠ 0 then (s.setLine n ((s.line n).sent cfg s.timebase o.ctx c)).handEarly n o.ctx
      else if cfg.settle = 0 then (s.setLine n ((s.line n).sent cfg s.timebase o.ctx c)).settleOver n o.ctx
      else s.setLine n ((s.line n).sent cfg s.timebase o.ctx c) := by
  have hord : (s.line n).ordered = some o.ctx := by rw [Line.ordered, ho]
  unfold State.holdEnded
  rw [hord]
  dsimp only
  rw [hc]
  rfl

/-- R31, R56: the line once its context has been sent, in this state, with this receiver and settle timer. -/
def Line.sentAs (l : Line) (i : CtxId) (c : Ctx) (st : CtxState) (rx : Receiver) (settle : Option Word) : Line :=
  { l with
    tx := Transmitter.reset
    exch := { l.exch with
      contexts := l.exch.contexts.set i (some { c with attempts := c.attempts + 1, state := st })
      settle := settle }
    counters := { l.counters with attempts := min 4294967295 (l.counters.attempts + 1) }
    rx := rx }

theorem Line.sent_of_broadcast {l : Line} (h : c.station = 0) (now : Word) : l.sent cfg now i c =
    l.sentAs i c .settling l.rx (some (now + BitVec.ofNat 32 (100 * cfg.settle))) := by
  unfold Line.sent Line.sentAs
  dsimp only
  rw [if_pos h, if_pos h, ← tally_eq_min]
  rfl

theorem Line.sent_of_station {l : Line} (h : c.station ≠ 0) (now : Word) : l.sent cfg now i c =
    l.sentAs i c .listening (if l.rx.awaitsReply && l.rx.early.isNone then
      { l.rx with window := some (now + BitVec.ofNat 32 (100 * cfg.window)) } else l.rx) l.exch.settle := by
  unfold Line.sent Line.sentAs
  dsimp only
  rw [if_neg h, if_neg h, ← tally_eq_min]
  split <;> rfl

theorem State.handEarly_of_none (h : (s.line n).rx.early = none) : s.handEarly n i = s := by
  rw [State.handEarly, h]

theorem State.handEarly_of_some {b : RxBlock} {ended : Word} (h : (s.line n).rx.early = some (b, ended)) :
    s.handEarly n i =
      (s.modLine n fun l => { l with rx := { l.rx with early := none } }).judgeBlock n i b ended := by
  rw [State.handEarly, h]

end

/-- Settles O44. -/
theorem holdEndReleasesTheLine : Obligations.HoldEndReleasesTheLine := by
  unfold Obligations.HoldEndReleasesTheLine
  rintro s n l cfg o c rfl hcfg hphase ho hc
  refine ⟨fun hearly => ?_, fun hlate => ?_⟩
  · exact (exec_holdEnd hcfg).trans (congrArg Host.Outcome.next (if_neg fun h => Nat.not_le.2 hearly h.2))
  have hexec := (exec_holdEnd hcfg).trans (congrArg Host.Outcome.next
    ((if_pos ⟨hphase, hlate⟩).trans (State.holdEnded_of_order (cfg := cfg) ho hc)))
  refine ⟨fun (hst : c.station ≠ 0) hno => ?_, ?_, fun (hst : c.station = 0) hsettle => ?_,
    fun (hst : c.station = 0) hsettle k q hon => ?_⟩
  · have hearly : ((s.setLine n ((s.line n).sent cfg s.timebase o.ctx c)).line n).rx.early = none := by
      rw [State.line_setLine_self, Line.sent_of_station hst]
      unfold Line.sentAs
      dsimp only
      split <;> exact hno
    have hawaits : (s.line n).rx.awaitsReply = true ∧ (s.line n).rx.early.isNone = true ↔
        (s.line n).rx.armed = true ∧ (s.line n).rx.block = none := by
      rw [Receiver.awaitsReply_iff, hno]
      exact and_iff_left rfl
    rw [hexec, if_pos hst, State.handEarly_of_none hearly, Line.sent_of_station hst,
      if_congr (Bool.and_eq_true_iff.trans hawaits) rfl rfl]
    rfl
  · rintro b ended c1 s1 hst hsome harmed rfl rfl
    have hst0 : c.station ≠ 0 := hst
    have hno : ¬((s.line n).rx.awaitsReply && (s.line n).rx.early.isNone) = true := by
      rw [hsome, Option.isNone_some, Bool.and_false]
      exact Bool.false_ne_true
    have hearly : ((s.setLine n ((s.line n).sent cfg s.timebase o.ctx c)).line n).rx.early = some (b, ended) := by
      rw [State.line_setLine_self, Line.sent_of_station hst0, if_neg hno]
      exact hsome
    have hjudge : exec (.holdEnd n) s = .next ((s.setLine n ((s.line n).sentAs o.ctx c .listening
        { (s.line n).rx with early := none } (s.line n).exch.settle)).judgeBlock n o.ctx b ended) := by
      rw [hexec, if_pos hst0, State.handEarly_of_some hearly, State.modLine_setLine, Line.sent_of_station hst0, if_neg hno]
      rfl
    have field {α : Type} (f : Line → α) := congrArg f (State.line_setLine_self s n ((s.line n).sentAs o.ctx c .listening
      { (s.line n).rx with early := none } (s.line n).exch.settle))
    have hc1 := (field (Line.ctx · o.ctx)).trans (Line.ctx_setCtx_self _ o.ctx _)
    have hcfg1 := (field Line.config).trans hcfg
    obtain ⟨a, w, hrx⟩ := State.judgeBlock_rx hc1 hcfg1 b ended
    refine ⟨_, hjudge, ?_, replyJudged_judgeBlock hc1 hcfg1 ((field (fun l => l.rx.armed)).trans harmed)⟩
    rw [hrx]
    exact field (fun l => l.rx.early)
  · rw [hexec, if_neg (not_not.2 hst), if_neg hsettle, Line.sent_of_broadcast hst]
    rfl
  · have hover : exec (.holdEnd n) s = .next ((s.setLine n ((s.line n).sentAs o.ctx c .settling (s.line n).rx
        (some (s.timebase + BitVec.ofNat 32 (100 * cfg.settle))))).settleOver n o.ctx) := by
      rw [hexec, if_neg (not_not.2 hst), if_pos hsettle, Line.sent_of_broadcast hst]
    have field {α : Type} (f : Line → α) := congrArg f (State.line_setLine_self s n ((s.line n).sentAs o.ctx c .settling
      (s.line n).rx (some (s.timebase + BitVec.ofNat 32 (100 * cfg.settle)))))
    have hc1 := (field (Line.ctx · o.ctx)).trans (Line.ctx_setCtx_self _ o.ctx _)
    have hon1 : HostOn (s.setLine n ((s.line n).sentAs o.ctx c .settling (s.line n).rx
      (some (s.timebase + BitVec.ofNat 32 (100 * cfg.settle))))) { c with attempts := c.attempts + 1, state := .settling } k q :=
      hon
    obtain ⟨hposted, hnone, hothers, hwire, honly, hcounts⟩ := settleOver_host hc1 hon1
    obtain ⟨htx, -⟩ := hwire
    refine ⟨_, hover, ?_, htx.trans (field Line.tx), hnone, hcounts.trans (field Line.counters), fun j hj => ?_,
      (onlyLine_setLine s n _).trans honly⟩
    · rw [Ctx.ended_of_stations (l := s.line n) (field Line.stations)] at hposted
      exact hposted
    · exact (hothers j hj).trans ((field (Line.ctx · j)).trans ((Line.ctx_setCtx _ o.ctx j _).trans (if_neg hj)))

end Sys2Proof.Machine
end

