-- ==== Sys2Proof/Proofs/MonitorFrame.lean ====
section
/-! What one line's monitor capture can touch (R117 to R122, R153, R156). -/

namespace Sys2Proof.Machine

section
variable {n : LineId} {s : State}

theorem OnlyLine.refl (s : State) : OnlyLine n s s :=
  ⟨(Posts.refl s).window, ⟨rfl, rfl⟩, fun _ _ => rfl, rfl, fun _ => SameCqIndices.refl _⟩

/-- An operation that posts and changes no other line. -/
theorem OnlyLine.of_posts {t : State} (h : Posts s t) (ho : SameOtherLines n s t) : OnlyLine n s t :=
  ⟨h.window, h.host, ho, h.sqs, h.cqs⟩

theorem onlyLine_modLine (s : State) (f : Line → Line) : OnlyLine n s (s.modLine n f) := onlyLine_setLine s n _

theorem onlyLine_of_lines {t : State} (h : Posts s t) (hl : t.lines = s.lines) : OnlyLine n s t :=
  .of_posts h fun m _ => congrArg (fun v => v[m]) hl

/-- The poster belongs to line `n`, or to no line. -/
def Poster.Of (p : Poster) (n : LineId) : Prop := p.line = some n ∨ p.line = none

theorem onlyLine_posterDone {p : Poster} (hp : p.Of n) : OnlyLine n s (s.posterDone p) := by
  unfold State.posterDone
  cases p with
  | exchange m i =>
    obtain rfl : m = n := hp.elim Option.some.inj nofun
    exact onlyLine_modLine s _
  | monitorBlock m =>
    obtain rfl : m = n := hp.elim Option.some.inj nofun
    exact onlyLine_modLine s _
  | bufferReturn m =>
    obtain rfl : m = n := hp.elim Option.some.inj nofun
    exact onlyLine_modLine s _
  | _ => exact onlyLine_of_lines (posts_modAdmin s _) rfl

theorem onlyLine_discard {p : Poster} (hp : p.Of n) (k : CqId) : OnlyLine n s (s.discard k p) := by
  unfold State.discard
  dsimp only
  refine OnlyLine.trans ?_ (onlyLine_posterDone hp)
  have hcount : OnlyLine n s (match s.cqs[k] with
      | some q => s.setCq k (some { q with discards := bump Config.counterMax q.discards })
      | none => s) := by
    split
    · next q hq => exact onlyLine_of_lines (posts_setCq s k _ (by rw [hq]; simp [SameCqIndices])) rfl
    · exact .refl s
  split
  · next m hm =>
    obtain rfl : m = n := hp.elim (fun h => Option.some.inj (hm.symm.trans h))
      fun h => absurd (hm.symm.trans h) (Option.some_ne_none m)
    exact hcount.trans (onlyLine_modLine _ _)
  · exact hcount

theorem onlyLine_joinCq {w : Waiter} (hp : w.poster.Of n) (k : CqId) : OnlyLine n s (s.joinCq k w) := by
  unfold State.joinCq
  split
  · next q hq =>
    split
    · exact onlyLine_of_lines (posts_join s k q w hq) rfl
    · exact onlyLine_discard hp k
  · exact onlyLine_posterDone hp

theorem onlyLine_requestStaged (s : State) : OnlyLine n s (s.requestStaged n) :=
  .of_posts (posts_requestStaged s n) fun m _ => State.line_requestStaged s n m

theorem onlyLine_headTakes (k : CqId) (head : MonBlock) (d : Descriptor) : OnlyLine n s (s.headTakes n k head d) := by
  unfold State.headTakes
  split
  · exact onlyLine_discard (.inl rfl) k
  · exact (onlyLine_modLine s _).trans (onlyLine_of_lines (posts_issue _ _ _) rfl)

theorem onlyLine_headAsks : OnlyLine n s (s.headAsks n) := by
  unfold State.headAsks
  split
  · next s1 h => exact (actsOn_requestBuffer (n := n) (i := 0) h).onlyLine.trans (onlyLine_modLine _ _)
  · exact onlyLine_modLine s _

theorem onlyLine_settleSlot (k : CqId) : OnlyLine n s (s.settleSlot n k) := by
  unfold State.settleSlot
  split
  · exact (onlyLine_modLine s _).trans (onlyLine_joinCq (.inl rfl) k)
  · exact onlyLine_modLine s _

theorem onlyLine_monitorStep {t : State} (h : s.MonitorStep n t) : OnlyLine n s t := by
  cases h with
  | asksSlot => exact (onlyLine_modLine s _).trans (onlyLine_requestStaged _)
  | takes k head d => exact onlyLine_headTakes k head d
  | asksHead => exact onlyLine_headAsks
  | waits => exact onlyLine_modLine s _
  | settles k => exact onlyLine_settleSlot k

/-- One line's monitor capture is a matter of its line. -/
theorem onlyLine_runMonitor (s : State) : OnlyLine n s (s.runMonitor n) :=
  State.runMonitor_induction (P := OnlyLine n s) (fun _ _ h hs => hs.trans (onlyLine_monitorStep h)) (.refl s)

end

/-- R118: a head block that waits for a buffer takes the one held. -/
theorem State.headMove_of_held {s : State} {n : LineId} {k : CqId} {head : MonBlock} {d : Descriptor}
    (hphase : (s.line n).mon.phase = .idle ∨ (s.line n).mon.phase = .bufferWait) (hslot : (s.line n).mon.slot = .held d) :
    s.headMove n k head = some (s.headTakes n k head d) := by
  unfold State.headMove
  rw [if_pos hphase, hslot]

/-- Monitor capture with a head block under way and its slot asked for or held stands still. -/
theorem State.runMonitor_of_underWay {s : State} {n : LineId} {cfg : LineConfig} (hcfg : (s.line n).config = some cfg)
    (hmode : cfg.mode = .monitor) (hlist : (s.line n).mon.list ≠ [])
    (hphase : (s.line n).mon.phase ≠ .idle ∧ (s.line n).mon.phase ≠ .bufferWait) (hslot : (s.line n).mon.slot ≠ .empty) :
    s.monitorMove n = none := by
  obtain ⟨head, rest, hcons⟩ := List.exists_cons_of_ne_nil hlist
  rw [State.monitorMove_of_cons hcfg hmode (fun h => hslot h.2) hcons, State.headMove]
  exact if_neg fun h => h.elim hphase.1 hphase.2

end Sys2Proof.Machine
end

