-- ==== Sys2Proof/Proofs/BlockEnds.lean ====
section
/-! The end of a block: replies, stray blocks and captures (R23, R32, R39, R57, R58, R113 to R118). -/

namespace Sys2Proof.Machine

/-! ### The seven checks -/

theorem controlKind_eq_request_iff (x : Byte) : controlKind x = .request ↔ x.toNat / 64 = 0 := by
  unfold controlKind
  repeat' split
  all_goals simp
  all_goals omega

theorem checkPasses_of_consistent {b : RxBlock} (h : b.consistent = true) : b.checkPasses = true ↔
    3 ≤ b.chars.length ∧ crc16 (b.chars.take (b.chars.length - 2)) = half b.chars (b.chars.length - 2) := by
  have hcount : b.count ≤ Config.stagingChars := by
    simp only [RxBlock.consistent, Bool.and_eq_true, decide_eq_true_eq] at h
    exact h.1.2
  simp only [RxBlock.checkPasses, Bool.and_eq_true, decide_eq_true_eq, hcount, and_true]

theorem consistent_iff (b : RxBlock) : b.consistent = true ↔
    5 ≤ b.count ∧ b.count ≤ 205 ∧ b.count = (byteAt b.chars 2).toNat + 5 := by
  simp only [RxBlock.consistent, Bool.and_eq_true, decide_eq_true_eq, and_assoc]

/-- The kind of a good reply. -/
theorem controlKind_of_not_request {x : Byte} (h : ¬x.toNat / 64 = 0) :
    controlKind x = if x.toNat / 64 = 1 then .data else if x.toNat / 64 = 2 then .wait else .refuse := by
  unfold controlKind
  rw [if_neg (by omega), if_congr (show x.toNat < 128 ↔ x.toNat / 64 = 1 by omega) rfl rfl]
  refine ite_congr rfl (fun _ => rfl) fun h1 => ?_
  rw [if_congr (show x.toNat < 192 ↔ x.toNat / 64 = 2 by omega) rfl rfl]

/-- R58: the judgement in the terms of the specification's fields. -/
theorem judgeReply_eq (b : RxBlock) (a : Byte) (seq : Bool) : judgeReply b a seq =
    if ¬(5 ≤ b.count ∧ b.count ≤ 205 ∧ b.count = (byteAt b.chars 2).toNat + 5) then .fails .badLength
    else if b.brk then .fails .lineBreak
    else if b.framing ∨ b.parity then .fails .charError
    else if ¬(3 ≤ b.chars.length ∧
        crc16 (b.chars.take (b.chars.length - 2)) = half b.chars (b.chars.length - 2)) then .fails .badCheck
    else if byteAt b.chars 0 ≠ a then .fails .wrongStation
    else if (byteAt b.chars 1).toNat / 64 = 0 then .fails .badKind
    else if (byteAt b.chars 1).getLsbD 5 ≠ seq then .stale
    else if (byteAt b.chars 1).toNat / 64 = 1 then .data
    else if (byteAt b.chars 1).toNat / 64 = 2 then .wait else .refuse := by
  unfold judgeReply
  dsimp only
  by_cases hcons : b.consistent = true
  · have hcheck : (!b.checkPasses) = true ↔ ¬(3 ≤ b.chars.length ∧
        crc16 (b.chars.take (b.chars.length - 2)) = half b.chars (b.chars.length - 2)) := by
      rw [Bool.not_eq_true', ← Bool.not_eq_true, checkPasses_of_consistent hcons]
    rw [if_neg (by rw [hcons]; exact Bool.false_ne_true), if_neg (not_not.2 ((consistent_iff b).1 hcons))]
    refine if_congr Iff.rfl rfl (if_congr Bool.or_eq_true_iff rfl (if_congr hcheck rfl (if_congr Iff.rfl rfl
      (ite_congr (propext (controlKind_eq_request_iff _)) (fun _ => rfl) fun hreq => if_congr Iff.rfl rfl ?_))))
    rw [controlKind_of_not_request hreq]
    by_cases h1 : (byteAt b.chars 1).toNat / 64 = 1
    · simp [h1]
    · by_cases h2 : (byteAt b.chars 1).toNat / 64 = 2 <;> simp [h1, h2]
  · rw [if_pos (by rw [Bool.eq_false_iff.2 hcons]; rfl), if_pos (mt (consistent_iff b).2 hcons)]

/-! ### Where a block goes -/

section
variable {s : State} {n : LineId} {cfg : LineConfig} {b : RxBlock}

theorem exec_blockEnd (hcfg : (s.line n).config = some cfg) (hb : (s.line n).rx.block = some b) :
    exec (.blockEnd n) s = .next
      (if (s.line n).rx.state = .hunting ∧ (s.line n).gapReached cfg cfg.gap = true then s.blockEnded n cfg b else s) := by
  change execBlockEnd n s = _
  rw [execBlockEnd, hcfg, hb]

theorem State.blockEnded_of_monitor (hmode : cfg.mode = .monitor) :
    s.blockEnded n cfg b = (s.setLine n ((s.line n).blockOver.monitorBlock b)).runMonitor n := by
  unfold State.blockEnded
  rw [hmode]
  exact congrArg (State.runMonitor · n) (State.modLine_setLine s n _ _)

theorem Line.stray_eq (l : Line) : l.stray =
    { l with counters := { l.counters with strayBlocks := min 4294967295 (l.counters.strayBlocks + 1) } } := by
  rw [← tally_eq_min]
  rfl

theorem State.blockEnded_of_stray (hmode : cfg.mode = .master) (h : (s.line n).rx.armed = false ∨ b.reply = false
      ∨ ((s.line n).tx.phase ≠ .hold ∧ ∀ j d, (s.line n).ctx j = some d → d.state ≠ .listening)) :
    s.blockEnded n cfg b = s.setLine n (s.line n).blockOver.stray := by
  have hstray := State.modLine_setLine s n (s.line n).blockOver Line.stray
  unfold State.blockEnded
  rw [hmode]
  dsimp only
  split
  · next hreply =>
    obtain ⟨harmed, hr⟩ := Bool.and_eq_true_iff.1 hreply
    obtain ⟨hphase, hnone⟩ : (s.line n).tx.phase ≠ .hold ∧ ∀ j d, (s.line n).ctx j = some d → d.state ≠ .listening := by
      rcases h with h | h | h
      · exact Bool.noConfusion (h.symm.trans harmed)
      · exact Bool.noConfusion (h.symm.trans hr)
      · exact h
    rw [Line.listening_eq_none hnone]
    exact (if_neg hphase).trans hstray
  · exact hstray

theorem State.blockEnded_of_hold (hmode : cfg.mode = .master) (harmed : (s.line n).rx.armed = true) (hr : b.reply = true)
    (hphase : (s.line n).tx.phase = .hold) (hnone : ∀ j d, (s.line n).ctx j = some d → d.state ≠ .listening) :
    s.blockEnded n cfg b = s.setLine n ((s.line n).blockOver.keepReply b s.timebase) := by
  unfold State.blockEnded
  rw [hmode]
  dsimp only
  rw [harmed, hr, Bool.true_and, if_pos rfl, Line.listening_eq_none hnone]
  exact (if_pos hphase).trans (State.modLine_setLine s n _ _)

theorem State.blockEnded_of_listening {i : CtxId} (hmode : cfg.mode = .master) (harmed : (s.line n).rx.armed = true)
    (hr : b.reply = true) (hlisten : (s.line n).listening = some i) : s.blockEnded n cfg b =
      (s.setLine n (s.line n).blockOver.disarm).judgeBlock n i b s.timebase := by
  unfold State.blockEnded
  rw [hmode]
  dsimp only
  rw [harmed, hr, Bool.true_and, if_pos rfl, hlisten]
  exact congrArg (State.judgeBlock · n i b s.timebase) (State.modLine_setLine s n _ _)

/-! ### Captures -/

/-- R113, R114: what a block leaves on a MONITOR line whose filter has been taken for it. -/
theorem Line.monitorBlock_of_filter {l : Line} {f : Filter} (hf : l.mon.blockFilter = some f)
    (hst : l.state = .ready ∨ l.state = .fault) : l.monitorBlock b =
      if f.accepts (byteAt b.chars 0) then Line.capture { l with mon := { l.mon with blockFilter := none } } b
      else { l with mon := { l.mon with blockFilter := none } } := by
  unfold Line.monitorBlock
  rw [hf]
  exact if_congr (and_iff_right hst) rfl rfl

/-- R115, R116. -/
theorem Line.capture_eq (l : Line) : l.capture b = if l.mon.list.length < 4 then
      { l with mon := { l.mon with list := l.mon.list ++ [{ monBlock b with lost := l.mon.lost }], lost := 0 }
               counters := { l.counters with monitorCaptured := min 4294967295 (l.counters.monitorCaptured + 1) } }
    else
      { l with mon := { l.mon with lost := min 255 (l.mon.lost + 1) }
               counters := { l.counters with monitorLost := min 4294967295 (l.counters.monitorLost + 1) } } := by
  rw [← tally_eq_min, ← tally_eq_min, ← bump_eq_min]
  rfl

/-- R118: the data of a block goes to lane of its line, beside the descriptor reads of the queue engine. -/
theorem State.promise_lineEngine (s : State) (n m : LineId) (q : Bq) (x : Taker) :
    (s.promise n q x).port.queues[lineEngine m] = s.port.queues[lineEngine m] := by
  have hne : (queueEngine : Nat) ≠ (lineEngine m : Nat) := by
    show (0 : Nat) ≠ m.val + 2
    omega
  simp [State.promise, hne]

theorem State.requestStaged_lineEngine (s : State) (n m : LineId) :
    (s.requestStaged n).port.queues[lineEngine m] = s.port.queues[lineEngine m] := by
  unfold State.requestStaged
  split
  · split
    · exact State.promise_lineEngine s n m _ _
    · rfl
  · rfl

/-- R117, R118: a block captured on an idle line with its buffer at hand is written at once, and the next buffer asked
for. -/
theorem State.runMonitor_of_captured {l : Line} {head : MonBlock} {d : Descriptor} {q : Cq} (hcfg : l.config = some cfg)
    (hmode : cfg.mode = .monitor) (hst : l.state = .ready ∨ l.state = .fault) (hlist : l.mon.list = [head])
    (hphase : l.mon.phase = .idle) (hslot : l.mon.slot = .held d) (hq : s.cqs[cfg.lineCq] = some q)
    (hact : q.state = .active) : (s.setLine n l).runMonitor n =
      ((s.setLine n { l with mon := { l.mon with list := [head.taking d], slot := .requested, phase := .writing } }).issue
        (lineEngine n) { addr := d.addr, kind := .write (head.chars.take (min head.chars.length d.capacity))
                         use := .monitorData n }).requestStaged n := by
  let l1 : Line := { l with mon := { l.mon with list := [head.taking d], slot := .empty, phase := .writing } }
  let l2 : Line := { l with mon := { l.mon with list := [head.taking d], slot := .requested, phase := .writing } }
  let x : Transfer := { addr := d.addr, kind := .write (head.chars.take (min head.chars.length d.capacity))
                        use := .monitorData n }
  have hline0 := State.line_setLine_self s n l
  have hline1 : ((s.setLine n l1).issue (lineEngine n) x).line n = l1 := State.line_setLine_self s n l1
  have hline2 : (((s.setLine n l2).issue (lineEngine n) x).requestStaged n).line n = l2 :=
    (State.line_requestStaged _ n n).trans (State.line_setLine_self s n l2)
  have hfaulted : ¬cqFaulted (s.setLine n l).cqs[cfg.lineCq] = true := by
    have hcq : (s.setLine n l).cqs[cfg.lineCq] = some q := hq
    rw [hcq, cqFaulted, hact]
    exact Bool.false_ne_true
  have htakes : (s.setLine n l).headTakes n cfg.lineCq head d = (s.setLine n l1).issue (lineEngine n) x := by
    rw [State.headTakes, if_neg hfaulted, State.modLine_setLine, Line.setMon, hlist]
    rfl
  have hmove1 : (s.setLine n l).monitorMove n = some ((s.setLine n l1).issue (lineEngine n) x) := by
    rw [State.monitorMove_of_cons (by rw [hline0]; exact hcfg) hmode (by rw [hline0, hslot]; exact nofun ∘ And.right)
      (by rw [hline0]; exact hlist), State.headMove_of_held (by rw [hline0]; exact .inl hphase) (by rw [hline0]; exact hslot),
      htakes]
  have hmove2 : ((s.setLine n l1).issue (lineEngine n) x).monitorMove n
      = some (((s.setLine n l2).issue (lineEngine n) x).requestStaged n) := by
    have hset : ((s.setLine n l1).issue (lineEngine n) x).modLine n (·.setMon fun m => { m with slot := .requested })
        = (s.setLine n l2).issue (lineEngine n) x :=
      congrArg (State.issue · (lineEngine n) x) (State.modLine_setLine s n l1 (·.setMon fun m => { m with slot := .requested }))
    rw [State.monitorMove_of_staging (by rw [hline1]; exact hcfg) hmode _ (by rw [hline1]), hset]
    rw [hline1]
    exact (LineState.staging_iff _).2 (.inr hst)
  have hstands : (((s.setLine n l2).issue (lineEngine n) x).requestStaged n).monitorMove n = none := by
    refine State.runMonitor_of_underWay (by rw [hline2]; exact hcfg) hmode ?_ ⟨?_, ?_⟩ ?_ <;> rw [hline2] <;> exact nofun
  exact State.runMonitor_of_two_moves hmove1 hmove2 hstands

end

/-- Settles O49. -/
theorem blockEndHandsTheBlockOn : Obligations.BlockEndHandsTheBlockOn := by
  unfold Obligations.BlockEndHandsTheBlockOn
  refine ⟨?_, ?_⟩
  · rintro b a seq ctl rfl
    exact judgeReply_eq b a seq
  rintro s n l cfg b rfl hcfg hb hst hgap
  have hexec : exec (.blockEnd n) s = .next (s.blockEnded n cfg b) :=
    (exec_blockEnd hcfg hb).trans (congrArg Host.Outcome.next (if_pos ⟨hst, (Line.gapReached_iff _ _ _).2 hgap⟩))
  refine ⟨fun hmode hstray => ?_, fun hmode harmed hr hphase hnone => ?_, ?_, ?_⟩
  · rw [hexec, State.blockEnded_of_stray hmode hstray, Line.stray_eq]
    rfl
  · rw [hexec, State.blockEnded_of_hold hmode harmed hr hphase hnone]
    rfl
  · rintro f m hmode hfilter hstate rfl
    have hblock := Line.monitorBlock_of_filter (l := (s.line n).blockOver) (b := b) hfilter hstate
    have hstands {l : Line} (hc : l.config = some cfg) (hlist : l.mon.list ≠ []) (hphase : l.mon.phase = .slotWait)
        (hslot : l.mon.slot ≠ .empty) : (s.setLine n l).runMonitor n = s.setLine n l := by
      have hline := State.line_setLine_self s n l
      refine State.runMonitor_of_stands (State.runMonitor_of_underWay (cfg := cfg) ?_ hmode ?_ ⟨?_, ?_⟩ ?_) <;> rw [hline]
      · exact hc
      · exact hlist
      · rw [hphase]; exact nofun
      · rw [hphase]; exact nofun
      · exact hslot
    refine ⟨fun hlist hphase hslot hno => ?_, fun hlist hphase hslot hyes => ?_, fun d q hlist hphase hslot hyes hq hact hbq => ?_⟩
    · rw [hno, if_neg Bool.false_ne_true] at hblock
      rw [hexec, State.blockEnded_of_monitor hmode, hblock]
      exact congrArg Host.Outcome.next (hstands (l := { (s.line n).blockOver with
        mon := { (s.line n).mon with blockFilter := none } }) hcfg hlist hphase hslot)
    · rw [hyes, if_pos rfl, Line.capture_eq] at hblock
      rw [hexec, State.blockEnded_of_monitor hmode, hblock, hstands]
      · exact congrArg (fun l => Host.Outcome.next (s.setLine n l)) (if_congr Iff.rfl rfl rfl)
      · split <;> exact hcfg
      · split
        · exact List.append_ne_nil_of_right_ne_nil _ (List.cons_ne_nil _ _)
        · exact hlist
      · split <;> exact hphase
      · split <;> exact hslot
    · have hshort : (s.line n).blockOver.mon.list.length < 4 := by
        rw [show (s.line n).blockOver.mon.list = [] from hlist]
        decide
      have hcut : b.chars.take (min b.chars.length d.capacity) = b.chars.take d.capacity := by
        rw [Nat.min_comm, ← List.take_eq_take_min]
      rw [hyes, if_pos rfl, Line.capture_eq, if_pos hshort] at hblock
      have hlist1 : (s.line n).blockOver.mon.list ++ [{ monBlock b with lost := (s.line n).mon.lost }]
          = [{ monBlock b with lost := (s.line n).mon.lost }] := by
        rw [show (s.line n).blockOver.mon.list = [] from hlist]
        rfl
      have hcaptured := State.runMonitor_of_captured (s := s) (n := n) (l := (s.line n).blockOver.monitorBlock b)
        (by rw [hblock]; exact hcfg) hmode (by rw [hblock]; exact hstate) (by rw [hblock]; exact hlist1)
        (by rw [hblock]; exact hphase) (by rw [hblock]; exact hslot) hq hact
      have honly := onlyLine_runMonitor (n := n) (s.setLine n ((s.line n).blockOver.monitorBlock b))
      rw [hexec, State.blockEnded_of_monitor hmode]
      refine ⟨_, rfl, (onlyLine_setLine s n _).trans honly, ?_⟩
      rw [hcaptured, State.line_requestStaged, State.line_issue, State.line_setLine_self, State.requestStaged_lineEngine]
      refine ⟨rfl, rfl, rfl, by rw [hblock]; rfl, ?_⟩
      rw [← hcut]
      simp
      rfl
  · rintro i c hmode harmed hr hc hlisten hmem honly
    have hjudged := State.blockEnded_of_listening (b := b) hmode harmed hr (Line.listening_eq_some hc hlisten hmem honly)
    have field {α : Type} (f : Line → α) := congrArg f (State.line_setLine_self s n (s.line n).blockOver.disarm)
    have hc1 := (field (Line.ctx · i)).trans hc
    have hcfg1 := (field Line.config).trans hcfg
    obtain ⟨a, w, hrx⟩ := State.judgeBlock_rx hc1 hcfg1 b s.timebase
    refine ⟨_, hexec.trans (congrArg Host.Outcome.next hjudged), ?_,
      (replyJudged_judgeBlock hc1 hcfg1 (field (fun l => l.rx.armed))).of_rx⟩
    rw [hrx]
    exact field (fun l => l.rx.block)

end Sys2Proof.Machine
end

