-- ==== Sys2Proof/Proofs/Admission.lean ====
section
/-! The admission of fetched records (R45 to R49, R76 to R78, R149, R161, R166). -/

namespace Sys2Proof.Machine

/-! ### Obtaining a station entry -/

/-- R75: the pin count is of the contexts and the poll table. -/
theorem Line.pins_of_same {l m : Line} {addr : Byte}
    (hc : m.exch.contexts.toList.countP (ctxPins addr) = l.exch.contexts.toList.countP (ctxPins addr))
    (hp : m.polls = l.polls) : m.pins addr = l.pins addr := by
  unfold Line.pins
  rw [hc, hp]

/-- R75: a context that pins nothing more than the one before leaves the pin counts. -/
theorem Line.pins_setCtx (l : Line) (i : CtxId) (x : Option Ctx) (addr : Byte) (h : ctxPins addr x = ctxPins addr (l.ctx i)) :
    (l.setCtx i x).pins addr = l.pins addr := by
  refine Line.pins_of_same ?_ rfl
  have hlt : i.val < l.exch.contexts.toList.length := by simp
  have hget : l.exch.contexts.toList[i.val] = l.ctx i := Vector.getElem_toList _
  change (l.exch.contexts.set i x).toList.countP (ctxPins addr) = _
  rw [Vector.toList_set, List.countP_set hlt, h, hget]
  by_cases hpin : ctxPins addr (l.ctx i) = true
  · have hpos : 0 < l.exch.contexts.toList.countP (ctxPins addr) :=
      List.countP_pos_iff.2 ⟨l.ctx i, hget ▸ List.getElem_mem hlt, hpin⟩
    rw [if_pos hpin]
    omega
  · rw [if_neg hpin]
    rfl

theorem Obtainable.of_same {l m : Line} {a : Byte} (h : Obtainable l a) (hs : m.stations = l.stations)
    (hp : ∀ b, m.pins b = l.pins b) : Obtainable m a := by
  obtain ⟨e, he⟩ | ⟨j, hj⟩ | ⟨j, e, he, hpin⟩ := h
  · exact .inl ⟨e, (Line.entry_of_stations hs a).trans he⟩
  · exact .inr (.inl ⟨j, hs ▸ hj⟩)
  · exact .inr (.inr ⟨j, e, hs ▸ he, (hp _).trans hpin⟩)

theorem Obtained.of_same {l m : Line} {a : Byte} {now : Word} {touch : Bool} {st : Vector (Option StationEntry) 64}
    (h : Obtained m a now touch st) (hs : m.stations = l.stations) (hp : l.entry a = none → ∀ b, m.pins b = l.pins b) :
    Obtained l a now touch st := by
  obtain ⟨hfound, hmade⟩ := h
  rw [Line.entry_of_stations hs, hs] at hfound
  refine ⟨hfound, fun hnone => ?_⟩
  have hpins := hp hnone
  have hnew := hmade ((Line.entry_of_stations hs a).trans hnone)
  simp only [hs, hpins] at hnew
  exact hnew

/-- R78: an entry that is found has its last-used time set. -/
theorem Line.obtain_of_entry {l : Line} {a : Byte} {e : StationEntry} (h : l.entry a = some e) (now : Word) :
    l.obtain a now true = some (l.modEntry a fun e => { e with lastUsed := now }) := by
  obtain ⟨i, hi, -⟩ := (entry_some_iff l a e).1 h
  rw [Line.obtain, hi]
  rfl

theorem Line.obtain_of_not_obtainable {l : Line} {a : Byte} (h : ¬Obtainable l a) (now : Word) (touch : Bool) :
    l.obtain a now touch = none :=
  Option.isSome_eq_false_iff.1 (Bool.eq_false_iff.2 (mt (obtain_spec l a now touch).2.1 h)) |> Option.isNone_iff_eq_none.1

/-- R76 to R78: an entry obtained on a line whose contexts pin as those of `l` do. -/
theorem Line.exists_obtain {l m : Line} {a : Byte} (now : Word) (h : Obtainable l a) (hs : m.stations = l.stations)
    (hp : l.entry a = none → ∀ b, m.pins b = l.pins b) :
    ∃ m1, m.obtain a now true = some m1 ∧ { m1 with stations := m.stations } = m
      ∧ Obtained l a now true m1.stations
      ∧ ∀ e, l.entry a = some e → m1.entry a = some { e with lastUsed := now } := by
  have hsome : (m.obtain a now true).isSome = true := by
    cases he : l.entry a with
    | some e =>
      rw [Line.obtain_of_entry ((Line.entry_of_stations hs a).trans he)]
      rfl
    | none => exact (obtain_spec m a now true).2.2 (h.of_same hs (hp he))
  obtain ⟨m1, hm1⟩ := Option.isSome_iff_exists.1 hsome
  obtain ⟨hrest, hobt⟩ := (obtain_spec m a now true).1 m1 hm1
  refine ⟨m1, hm1, hrest, hobt.of_same hs hp, fun e he => ?_⟩
  have hem := (Line.entry_of_stations hs a).trans he
  obtain rfl := Option.some.inj (hm1.symm.trans (Line.obtain_of_entry hem now))
  exact Line.entry_modEntry_self (fun _ => rfl) hem

/-! ### Leaving admission -/

section
variable {s : State} {n : LineId} {i : CtxId} {c : Ctx}

theorem State.enterQueued_of_no_stop (hstop : (s.line n).stop = none) (habort : c.abortAtAdmission = false) :
    s.enterQueued n i c = s.setCtx n i { c with state := .queued } := by
  unfold State.enterQueued
  dsimp only
  rw [hstop, habort]
  rw [if_neg (by decide), if_neg (by simp)]

theorem State.leaveAdmission_of_broadcast (hc : (s.line n).ctx i = some c) (hstation : c.station = 0)
    (hstop : (s.line n).stop = none) (habort : c.abortAtAdmission = false) :
    s.leaveAdmission n i = s.setCtx n i { c with state := .queued } := by
  rw [State.leaveAdmission, hc]
  exact (if_pos hstation).trans (State.enterQueued_of_no_stop hstop habort)

theorem State.leaveAdmission_of_obtained {m1 : Line} (hc : (s.line n).ctx i = some c) (hstation : c.station ≠ 0)
    (hm1 : (s.line n).obtain c.station s.timebase true = some m1) (hstop : m1.stop = none)
    (habort : c.abortAtAdmission = false) : s.leaveAdmission n i =
      s.setLine n (m1.setCtx i (some { c with state := .queued, hasEntry := true })) := by
  rw [State.leaveAdmission, hc]
  refine (if_neg hstation).trans ?_
  rw [hm1]
  refine (State.enterQueued_of_no_stop (c := { c with hasEntry := true }) ?_ habort).trans (State.setCtx_setLine ..)
  rw [State.line_setLine_self]
  exact hstop

theorem State.failAdmission_eq (hc : (s.line n).ctx i = some c) (why : Status) :
    s.failAdmission n i why = s.endExchange n i { status := why, endTime := c.admitted } := by
  rw [State.failAdmission, hc]

theorem State.leaveAdmission_of_full (hc : (s.line n).ctx i = some c) (hstation : c.station ≠ 0)
    (hfull : (s.line n).obtain c.station s.timebase true = none) :
    s.leaveAdmission n i = s.endExchange n i { status := .stationTableFull, endTime := c.admitted } := by
  rw [State.leaveAdmission, hc]
  refine (if_neg hstation).trans ?_
  rw [hfull]
  exact State.failAdmission_eq hc .stationTableFull

end

/-! ### Request data -/

section
variable {s : State} {n : LineId} {i : CtxId} {c : Ctx}

theorem exec_requestDataReadDone {data : Option (List Byte)} (h : s.Ended (.requestData n i) data) :
    exec .requestDataReadDone s = .next (s.portFree.requestDataEnded n i data) := exec_taker h

/-- R46, R48: with its data in the store the context is queued, its station's entry obtained. -/
theorem State.requestDataEnded_queued {b : List Byte} (hc : (s.line n).ctx i = some c) (hstop : (s.line n).stop = none)
    (habort : c.abortAtAdmission = false) (hstation : c.station = 0#8 ∨ Obtainable (s.line n) c.station) :
    ∃ m : Line, s.requestDataEnded n i (some b) = s.setLine n (m.setCtx i (some
        { c with store := b, state := .queued, hasEntry := if c.station = 0#8 then c.hasEntry else true })).reorder
      ∧ { m with stations := (s.line n).stations } = (s.line n).setCtx i (some { c with store := b })
      ∧ (c.station = 0#8 → m.stations = (s.line n).stations)
      ∧ (c.station ≠ 0#8 → Obtained (s.line n) c.station s.timebase true m.stations
          ∧ ∀ e, (s.line n).entry c.station = some e → m.entry c.station = some { e with lastUsed := s.timebase }) := by
  have hline := s.line_setCtx n i { c with store := b }
  have hc1 : ((s.setCtx n i { c with store := b }).line n).ctx i = some { c with store := b } :=
    (congrArg (Line.ctx · i) hline).trans (Line.ctx_setCtx_self _ i _)
  have hstop1 : ((s.setCtx n i { c with store := b }).line n).stop = none := (congrArg Line.stop hline).trans hstop
  have hended : s.requestDataEnded n i (some b) =
      ((s.setCtx n i { c with store := b }).leaveAdmission n i).modLine n Line.reorder := by
    unfold State.requestDataEnded
    rw [hc]
  rw [hended]
  by_cases h0 : c.station = 0#8
  · refine ⟨(s.line n).setCtx i (some { c with store := b }), ?_, rfl, fun _ => rfl, fun h => absurd h0 h⟩
    rw [State.leaveAdmission_of_broadcast hc1 h0 hstop1 habort, if_pos h0]
    exact (congrArg (State.modLine · n Line.reorder) (State.setCtx_setLine s n _ i _)).trans
      (State.modLine_setLine s n _ Line.reorder)
  · have hpins : (s.line n).entry c.station = none → ∀ a,
        ((s.line n).setCtx i (some { c with store := b })).pins a = (s.line n).pins a :=
      fun _ a => Line.pins_setCtx _ i _ a (by rw [hc]; rfl)
    obtain ⟨m, hm, hrest, hobt, htouched⟩ := Line.exists_obtain s.timebase (hstation.resolve_left h0)
      (m := (s.line n).setCtx i (some { c with store := b })) rfl hpins
    refine ⟨m, ?_, hrest, fun h => absurd h h0, fun _ => ⟨hobt, htouched⟩⟩
    have hm1 : ((s.setCtx n i { c with store := b }).line n).obtain c.station s.timebase true = some m := by
      rw [hline]
      exact hm
    have hstopm : m.stop = none := (congrArg Line.stop hrest).trans hstop
    rw [State.leaveAdmission_of_obtained (c := { c with store := b }) hc1 h0 hm1 hstopm habort, if_neg h0]
    refine (State.modLine_setLine _ n _ Line.reorder).trans ?_
    exact State.setLine_setLine s n _ _

/-- R47: a bus fault ends the context with BUFFER_FAULT. -/
theorem State.requestDataEnded_fault (hc : (s.line n).ctx i = some c) : s.requestDataEnded n i none =
    (s.endExchange n i { status := .bufferFault, endTime := c.admitted }).modLine n Line.reorder := by
  have hended : s.requestDataEnded n i none = (s.failAdmission n i .bufferFault).modLine n Line.reorder := by
    unfold State.requestDataEnded
    rw [hc]
  rw [hended, State.failAdmission_eq hc]

end

/-- Settles O35. -/
theorem requestDataReadQueuesTheContext : Obligations.RequestDataReadQueuesTheContext := by
  unfold Obligations.RequestDataReadQueuesTheContext
  rintro s n i l c rfl hc
  have hfree : OnlyLine n s s.portFree := onlyLine_of_lines (posts_portFree s) rfl
  refine ⟨fun b hend hstop habort hstation => ?_, fun hend k q hon => ?_⟩
  · obtain ⟨m, heq, hrest, hbroadcast, haddressed⟩ :=
      State.requestDataEnded_queued (s := s.portFree) (b := b) hc hstop habort hstation
    refine ⟨_, (exec_requestDataReadDone hend).trans (congrArg Host.Outcome.next heq), rfl, ?_⟩
    have field {α : Type} (f : Line → α) := congrArg f ((State.line_setLine_self s.portFree n _).trans (Line.reorder_eq
      (m.setCtx i (some { c with store := b, state := .queued, hasEntry := if c.station = 0#8 then c.hasEntry else true }))))
    have rest {α : Type} (f : Line → α) := congrArg f hrest
    refine ⟨(field (Line.ctx · i)).trans (Line.ctx_setCtx_self m i _), (field (·.exch.work)).trans (rest (·.exch.work)),
      fun j hj => (field (Line.ctx · j)).trans ?_, fun e h0 he => ?_, fun h0 => (field Line.stations).trans (hbroadcast h0),
      fun h0 => ?_, (field Line.rx).trans (rest Line.rx), (field Line.polls).trans (rest Line.polls),
      hfree.trans (onlyLine_setLine s.portFree n _), rfl, rfl⟩
    · refine (Line.ctx_setCtx m i j _).trans ((if_neg hj).trans ?_)
      exact (rest (Line.ctx · j)).trans ((Line.ctx_setCtx _ i j _).trans (if_neg hj))
    · exact (Line.entry_of_stations (field Line.stations) _).trans ((haddressed h0).2 e he)
    · rw [field Line.stations]
      exact (haddressed h0).1
  · have hon1 : HostOn s.portFree c k q := hon
    have heq := State.requestDataEnded_fault (s := s.portFree) hc
    have hposted := postedAs_endExchange (t := c.admitted) (s := s.portFree) hc hon1 (st := .bufferFault) (by decide)
    have hacts := actsOn_endExchange (n := n) (i := i) s.portFree { status := .bufferFault, endTime := c.admitted }
    obtain ⟨-, -, hport, -⟩ := endExchange_host_frame (s := s.portFree) { status := .bufferFault, endTime := c.admitted } hc hon1
      ⟨nofun, nofun⟩
    refine ⟨_, (exec_requestDataReadDone hend).trans (congrArg Host.Outcome.next heq), ?_, ?_, ?_, fun j hj => ?_⟩
    · exact (congrArg Port.current hport).trans rfl
    · obtain ⟨hctx, hcq⟩ := hposted
      rw [Ctx.ended_of_stations (l := s.line n) hacts.line.stations] at hctx hcq
      refine ⟨?_, hcq⟩
      rw [State.line_modLine_self]
      exact (congrArg (Line.ctx · i) (Line.reorder_eq _)).trans hctx
    · exact hfree.trans (hacts.onlyLine.trans (onlyLine_modLine _ _))
    · rw [State.line_modLine_self]
      exact (congrArg (Line.ctx · j) (Line.reorder_eq _)).trans (hacts.line.ctxs j hj)

/-! ### Fetched records -/

theorem Line.setCtx_setCtx (l : Line) (i : CtxId) (a b : Option Ctx) : (l.setCtx i a).setCtx i b = l.setCtx i b := by
  unfold Line.setCtx
  rw [Vector.set_set]

/-- R144, R149: an SQ moves on within its binding. -/
theorem HostOn.of_bindings {s t : State} {c : Ctx} {k : CqId} {q : Cq} (h : HostOn s c k q) (hcq : t.cqs[k] = s.cqs[k])
    (hsq : ∀ (j : SqId) (v : Sq), s.sqs[j] = some v → ∃ w, t.sqs[j] = some w ∧ w.binding = v.binding) : HostOn t c k q := by
  obtain ⟨hk, hq, hact, sq, tag, v, b, ho, hv, hb, hbk⟩ := h
  obtain ⟨w, hw, hbind⟩ := hsq sq v hv
  exact ⟨hk, hcq.trans hq, hact, sq, tag, w, b, ho, hw, hbind.trans hb, hbk⟩

/-- R45, R51, R149: the line with the fetch over and context `k`, filled from the record, at the end of the work list. -/
def Line.fetched (l : Line) (k : CtxId) (c : Ctx) : Line :=
  Line.setCtx
    { l with exch := { l.exch with lent := none, work := l.exch.work ++ [k] }
             arbiter := { l.arbiter with inFlight := none } } k (some c)

/-- R45, R149: the part with the record's context admitted and the SQ's head advanced. -/
def State.fetched (s : State) (i : SqId) (n : LineId) (k : CtxId) (q : Sq) (c : Ctx) : State :=
  ({ s with port := { s.port with current := none }, sqs := s.sqs.set i (some q.advance) } : State).setLine n
    ((s.line n).fetched k c)

section
variable {s : State} {i : SqId} {n : LineId} {k : CtxId} {q : Sq} {cfg : LineConfig} {r : List Byte}

theorem exec_fetchComplete_record (hend : s.Ended (.sqFetch i n k) (some r)) (hq : s.sqs[i] = some q)
    (hcfg : (s.line n).config = some cfg) : exec .fetchComplete s =
      .next ((s.fetched i n k q (hostCtx i r cfg s.timebase)).checkRecord n k r cfg) := by
  refine (exec_taker hend).trans (congrArg Host.Outcome.next ?_)
  have hq1 : s.portFree.sqs[i] = some q := hq
  have hcfg1 : (s.portFree.line n).config = some cfg := hcfg
  have hline : (s.portFree.modLine n Line.fetchOver).setSq i (some q.advance) =
      (s.portFree.setSq i (some q.advance)).setLine n (s.line n).fetchOver := rfl
  change s.portFree.fetchEnded i n k (some r) = _
  unfold State.fetchEnded
  dsimp only
  rw [hq1, hcfg1]
  dsimp only
  rw [hline, State.modLine_setLine]
  rfl

/-- R161. -/
theorem exec_fetchComplete_fault (hend : s.Ended (.sqFetch i n k) none) (hq : s.sqs[i] = some q) :
    exec .fetchComplete s = .next (((s.portFree.modLine n Line.fetchOver).setSq i (some q.fetchFaulted)).handNotice
      (.queueFault .sq i.val .readFault)) := by
  refine (exec_taker hend).trans (congrArg Host.Outcome.next ?_)
  have hq1 : s.portFree.sqs[i] = some q := hq
  change s.portFree.fetchEnded i n k none = _
  unfold State.fetchEnded
  dsimp only
  rw [hq1]

theorem State.line_fetched (c : Ctx) : (s.fetched i n k q c).line n = (s.line n).fetched k c := State.line_setLine_self ..

theorem State.ctx_fetched (c : Ctx) : ((s.fetched i n k q c).line n).ctx k = some c :=
  (congrArg (Line.ctx · k) (State.line_fetched c)).trans (Line.ctx_setCtx_self _ k _)

theorem State.setCtx_fetched (c d : Ctx) : (s.fetched i n k q c).setCtx n k d = s.fetched i n k q d :=
  (State.setCtx_setLine _ n _ k d).trans (congrArg (State.setLine _ n) (Line.setCtx_setCtx _ k _ _))

theorem HostOn.fetched {c d : Ctx} {m : CqId} {cq : Cq} (h : HostOn s c m cq) (hq : s.sqs[i] = some q) :
    HostOn (s.fetched i n k q d) c m cq := by
  refine h.of_bindings rfl fun j v hv => ?_
  have hget : (s.fetched i n k q d).sqs[j] = if j = i then some q.advance else s.sqs[j] := State.sq_setSq s i j _
  rw [hget]
  by_cases hj : j = i
  · obtain rfl := hj
    obtain rfl := Option.some.inj (hq.symm.trans hv)
    exact ⟨_, if_pos rfl, rfl⟩
  · exact ⟨v, (if_neg hj).trans hv, rfl⟩

/-- R46, R85: a record that fails a check ends its context at once. -/
theorem fetched_failing {c : Ctx} {m : CqId} {cq : Cq} {why : Status} (hq : s.sqs[i] = some q) (hon : HostOn s c m cq)
    (hwhy : why ≠ .ok ∧ why ≠ .refused) (hadmitted : c.admitted = s.timebase)
    (hexec : exec .fetchComplete s = .next ((s.fetched i n k q c).failAdmission n k why)) :
    ∃ t, exec .fetchComplete s = .next t ∧ t.sqs = s.sqs.set i (some q.advance)
      ∧ PostedAs t n k m cq c (c.ended (s.line n) why s.timebase) ∧ SameWindow s t ∧ SameHost s t
      ∧ SameOtherLines n s t := by
  rw [State.failAdmission_eq (State.ctx_fetched c), hadmitted] at hexec
  have hacts := actsOn_endExchange (n := n) (i := k) (s.fetched i n k q c) { status := why, endTime := s.timebase }
  have hstations := hacts.line.stations.trans (congrArg Line.stations (State.line_fetched c))
  have hposted := postedAs_endExchange (t := s.timebase) (State.ctx_fetched (s := s) (i := i) (n := n) (k := k) (q := q) c)
    (hon.fetched hq) hwhy
  rw [Ctx.ended_of_stations (l := s.line n) hstations] at hposted
  refine ⟨_, hexec, hacts.posts.sqs, hposted, hacts.posts.window, hacts.posts.host, fun m hm => ?_⟩
  exact (hacts.others m hm).trans (State.line_setLine_ne _ _ hm)

theorem subInline_iff_pos : ¬(subInline r = false ∧ 0 < subLength r) ↔ (byteAt r 1).getLsbD 0 = true ∨ byteAt r 6 = 0#8 := by
  have hlen : ¬0 < subLength r ↔ byteAt r 6 = 0#8 := by
    rw [byte_eq_ofNat _ 0 (by omega), Nat.not_lt, Nat.le_zero]
    rfl
  rw [not_and_or, hlen]
  exact or_congr_left (Bool.not_eq_false _ ▸ Iff.rfl)

/-- R46, R166: a record of another kind, or malformed. -/
theorem State.checkRecord_bad (h : byteAt r 0 ≠ 1#8 ∨ RecordMalformed r s.bqs[n]) :
    s.checkRecord n k r cfg = s.failAdmission n k .badRecord := by
  unfold State.checkRecord
  by_cases hkind : subKind r ≠ 1
  · exact if_pos hkind
  · exact (if_neg hkind).trans (if_pos ((subMalformed_iff r _).2 (h.resolve_left hkind)))

theorem State.checkRecord_well (hkind : byteAt r 0 = 1#8) (hwell : ¬RecordMalformed r s.bqs[n]) :
    s.checkRecord n k r cfg =
      if cfg.mode = .monitor then s.failAdmission n k .wrongMode
      else if subInline r = false ∧ 0 < subLength r then
        s.issue (lineEngine n) { addr := subPointer r, kind := .read (subLength r), use := .requestData n k }
      else s.leaveAdmission n k :=
  (if_neg (not_not.2 hkind)).trans (if_neg (mt (subMalformed_iff r _).1 hwell))

end

/-- Settles O34. -/
theorem fetchCompleteAdmitsTheRecord : Obligations.FetchCompleteAdmitsTheRecord := by
  unfold Obligations.FetchCompleteAdmitsTheRecord
  rintro s i n k q l hq rfl
  refine ⟨?_, fun hend => exec_fetchComplete_fault hend hq⟩
  rintro r cfg c s1 l1 hend hcfg hc rfl rfl
  have hexec := exec_fetchComplete_record hend hq hcfg
  rw [← hc] at hexec
  have hadmitted : c.admitted = s.timebase := hc ▸ rfl
  have hretry : (hostCtx i r cfg s.timebase).retryLimit =
      if byteAt r 7 = 8#8 then cfg.retryLimit else (byteAt r 7).toNat :=
    if_congr (byte_eq_ofNat _ 8 (by omega)).symm rfl rfl
  have hfresh : c.abortAtAdmission = false := hc ▸ rfl
  have hleave (hkind : byteAt r 0 = 1#8) (hwell : ¬RecordMalformed r s.bqs[n]) (hmode : cfg.mode = .master)
      (hdata : (byteAt r 1).getLsbD 0 = true ∨ byteAt r 6 = 0#8) :
      (s.fetched i n k q c).checkRecord n k r cfg = (s.fetched i n k q c).leaveAdmission n k :=
    (State.checkRecord_well (s := s.fetched i n k q c) hkind hwell).trans
      ((if_neg (by rw [hmode]; decide)).trans (if_neg (subInline_iff_pos.2 hdata)))
  have hstopped (hstop : (s.line n).stop = none) : ((s.fetched i n k q c).line n).stop = none :=
    (congrArg Line.stop (State.line_fetched c)).trans hstop
  have hpinned (hfree : (s.line n).ctx k = none) (a : Byte) : ((s.line n).fetched k c).pins a = (s.line n).pins a :=
    (Line.pins_setCtx _ k _ a ((hc ▸ rfl : ctxPins a (some c) = false).trans (congrArg (ctxPins a) hfree).symm)).trans
      (Line.pins_of_same rfl rfl)
  refine ⟨hc ▸ ⟨rfl, rfl, rfl, hretry, rfl, rfl, rfl, fun h => if_pos h, rfl, rfl, rfl, rfl⟩, fun m cq hon => ⟨fun hbad => ?_,
    fun hkind hwell hmode => ?_, fun hkind hwell hmode hdata h0 hnone hfree hfull => ?_⟩,
    fun hkind hwell hmode hstop => ⟨fun hinline hlen => ?_, fun hdata h0 => ?_, fun hdata h0 hobt => ?_⟩⟩
  · refine fetched_failing hq hon (why := .badRecord) (by decide) hadmitted (hexec.trans (congrArg Host.Outcome.next ?_))
    exact State.checkRecord_bad hbad
  · refine fetched_failing hq hon (why := .wrongMode) (by decide) hadmitted (hexec.trans (congrArg Host.Outcome.next ?_))
    exact (State.checkRecord_well (s := s.fetched i n k q c) hkind hwell).trans (if_pos hmode)
  · refine fetched_failing hq hon (why := .stationTableFull) (by decide) hadmitted (hexec.trans (congrArg Host.Outcome.next ?_))
    refine (hleave hkind hwell hmode hdata).trans ((State.leaveAdmission_of_full (State.ctx_fetched c) h0 ?_).trans
      (State.failAdmission_eq (State.ctx_fetched c) _).symm)
    rw [State.line_fetched]
    refine Line.obtain_of_not_obtainable (fun hcan => ?_) _ _
    obtain ⟨e, he⟩ | ⟨j, hj⟩ | ⟨j, e, he, hpin⟩ := hcan
    · exact Option.some_ne_none _ (he.symm.trans ((Line.entry_of_stations rfl _).trans hnone))
    · obtain ⟨se, hse, -⟩ := hfull j
      exact Option.some_ne_none _ (hse.symm.trans hj)
    · obtain ⟨se, hse, hpins⟩ := hfull j
      obtain rfl := Option.some.inj (hse.symm.trans he)
      exact hpins ((hpinned hfree _).symm.trans hpin)
  · refine hexec.trans (congrArg Host.Outcome.next
      ((State.checkRecord_well (s := s.fetched i n k q c) hkind hwell).trans ?_))
    have hdata : subInline r = false ∧ 0 < subLength r := by
      refine not_not.1 (mt subInline_iff_pos.1 (not_or.2 ⟨?_, hlen⟩))
      exact Bool.eq_false_iff.1 hinline
    exact (if_neg (by rw [hmode]; decide)).trans (if_pos hdata)
  · refine hexec.trans (congrArg Host.Outcome.next ((hleave hkind hwell hmode hdata).trans ?_))
    rw [State.leaveAdmission_of_broadcast (State.ctx_fetched c) h0 (hstopped hstop) hfresh, State.setCtx_fetched]
    rfl
  · have hpins : (s.line n).entry c.station = none → ∀ a, ((s.line n).fetched k c).pins a = (s.line n).pins a := by
      intro hnone
      obtain ⟨se, hse⟩ | ⟨hfree, -⟩ := hobt
      · exact absurd (hse.symm.trans hnone) (Option.some_ne_none _)
      · exact hpinned hfree
    have hcan : Obtainable (s.line n) c.station := hobt.elim .inl And.right
    obtain ⟨m, hm, hrest, hobtained, htouched⟩ := Line.exists_obtain (m := (s.line n).fetched k c) s.timebase hcan rfl hpins
    have hm1 : ((s.fetched i n k q c).line n).obtain c.station s.timebase true = some m :=
      (congrArg (Line.obtain · c.station s.timebase true) (State.line_fetched c)).trans hm
    have hqueued := State.leaveAdmission_of_obtained (State.ctx_fetched c) h0 hm1 ((congrArg Line.stop hrest).trans hstop) hfresh
    have hline : m.setCtx k (some { c with state := .queued, hasEntry := true }) =
        { (s.line n).fetched k { c with state := .queued, hasEntry := true } with stations := m.stations } := by
      have hm2 : m = { (s.line n).fetched k c with stations := m.stations } :=
        congrArg (fun x : Line => { x with stations := m.stations }) hrest
      exact (congrArg (Line.setCtx · k (some { c with state := .queued, hasEntry := true })) hm2).trans
        (congrArg (fun x : Line => { x with stations := m.stations }) (Line.setCtx_setCtx _ k _ _))
    refine ⟨{ (s.line n).fetchOver with
        exch := { (s.line n).exch with lent := none, work := (s.line n).exch.work ++ [k] }
        stations := m.stations }, ?_, rfl, hobtained, fun se hse => (Line.entry_of_stations rfl _).trans (htouched se hse)⟩
    refine hexec.trans (congrArg Host.Outcome.next ((hleave hkind hwell hmode hdata).trans ?_))
    rw [hqueued, hline]
    exact State.setLine_setLine _ n _ _

end Sys2Proof.Machine
end

