-- ==== Sys2Proof/Proofs/DataWrites.lean ====
section
/-! The end of a data write: a reply's payload or a captured block's characters (R72, R73, R110, R118). -/

namespace Sys2Proof.Machine

/-! ### Reply payloads -/

section
variable {s : State} {n : LineId} {i : CtxId} {c : Ctx} {r : Result} {k : CqId} {q : Cq}

theorem exec_payloadWriteDone {data : Option (List Byte)} (h : s.Ended (.payload n i) data) :
    exec .payloadWriteDone s = .next (s.portFree.payloadEnded n i data) := exec_taker h

/-- A context in POSTING with its result is as its ending left it. -/
theorem Ctx.eq_posting (hst : c.state = .posting) (hr : c.result = some r) :
    c = { c with state := .posting, result := some r } := by
  rw [← hst, ← hr]

theorem State.payloadEnded_done (hc : (s.line n).ctx i = some c) (b : List Byte) :
    s.payloadEnded n i (some b) = s.readyToComplete n i := by
  unfold State.payloadEnded
  rw [hc]

theorem State.payloadEnded_fault (hc : (s.line n).ctx i = some c) (hr : c.result = some r) : s.payloadEnded n i none =
    (s.setLine n (((s.line n).setCtx i (some { c with result := some { r with status := .bufferFault } })).payloadFaulted
      c)).readyToComplete n i := by
  unfold State.payloadEnded
  rw [hc]
  dsimp only
  rw [hr]
  exact congrArg (State.readyToComplete · n i) (State.modLine_setLine s n _ (·.payloadFaulted c))

theorem Line.payloadFaulted_of_host {sq : SqId} {tag : Half} (ho : c.origin = .host sq tag) (l : Line) :
    l.payloadFaulted c = l := by
  rw [Line.payloadFaulted, ho]

theorem Line.payloadFaulted_of_poll {l : Line} {e : PollId} {p : PollEntry} (ho : c.origin = .poll e)
    (hp : l.poll e = some p) : l.payloadFaulted c = l.setPoll e (some p.payloadFaulted) := by
  rw [Line.payloadFaulted, ho]
  dsimp only
  rw [hp]

/-- R72, R110: an entry in ON_CHANGE mode takes BUFFER_FAULT as its last status. -/
theorem PollEntry.payloadFaulted_eq (p : PollEntry) : p.payloadFaulted =
    if p.mode = .onChange then { p with digest := none, lastStatus := some .bufferFault } else p := by
  unfold PollEntry.payloadFaulted
  split
  · next h => exact (if_pos h).symm
  · next h => exact (if_neg (by rw [h]; decide)).symm

theorem PollEntry.tag_payloadFaulted (p : PollEntry) : p.payloadFaulted.tag = p.tag := by
  unfold PollEntry.payloadFaulted
  split <;> rfl

theorem PollEntry.inFlight_payloadFaulted (p : PollEntry) : p.payloadFaulted.inFlight = p.inFlight := by
  unfold PollEntry.payloadFaulted
  split <;> rfl

theorem actsOn_payloadEnded (s : State) (data : Option (List Byte)) : ActsOn n i s (s.payloadEnded n i data) := by
  unfold State.payloadEnded
  split
  · exact actsOn_readyToComplete s
  · split
    · refine ((actsOn_setCtx s _).trans (actsOn_setLine (sameWire_payloadFaulted _ _) ?_)).trans (actsOn_readyToComplete _)
      unfold Line.payloadFaulted
      repeat' split
      all_goals exact .of_exch rfl rfl rfl rfl
    · exact .refl s
  · exact .refl s

/-- R73: a host exchange whose payload write has ended. -/
theorem payloadEnded_host (hc : (s.line n).ctx i = some c) (hst : c.state = .posting) (hr : c.result = some r)
    (hon : HostOn s c k q) :
    (∀ b, PostedAs (s.payloadEnded n i (some b)) n i k q c r ∧ (s.payloadEnded n i (some b)).lines = s.lines
        ∧ (s.payloadEnded n i (some b)).port = s.port)
      ∧ PostedAs (s.payloadEnded n i none) n i k q c { r with status := .bufferFault }
      ∧ (s.payloadEnded n i none).port = s.port := by
  obtain ⟨sq, tag, ho⟩ := hon.origin
  refine ⟨fun b => ?_, ?_⟩
  · rw [State.payloadEnded_done hc]
    have hc1 := hc.trans (congrArg some (Ctx.eq_posting hst hr))
    obtain ⟨_, _, _, heq⟩ := readyToComplete_host hc hr hon
    exact ⟨postedAs_readyToComplete hc1 hon, heq ▸ rfl, heq ▸ rfl⟩
  · let s1 := s.setLine n ((s.line n).setCtx i (some { c with result := some { r with status := .bufferFault } }))
    have heq1 : s.payloadEnded n i none = s1.readyToComplete n i := by
      rw [State.payloadEnded_fault hc hr, Line.payloadFaulted_of_host ho]
    have hc1 : (s1.line n).ctx i = some { c with result := some { r with status := .bufferFault } } :=
      (congrArg (Line.ctx · i) (State.line_setLine_self s n _)).trans (Line.ctx_setCtx_self _ i _)
    have hc2 := hc1.trans (congrArg some (Ctx.eq_posting (r := { r with status := .bufferFault }) hst rfl))
    have hon1 : HostOn s1 c k q := hon
    obtain ⟨_, _, _, heq⟩ := readyToComplete_host (s := s1)
      (c := { c with result := some { r with status := .bufferFault } }) hc1 rfl hon1
    rw [heq1]
    exact ⟨postedAs_readyToComplete hc2 hon1, heq ▸ rfl⟩

/-- R110: a poll instance whose payload write has ended. -/
theorem payloadEnded_poll {e : PollId} {p : PollEntry} (hc : (s.line n).ctx i = some c) (hr : c.result = some r)
    (hon : PollOn s n i c e p k q) :
    (∀ b, PollPosted (s.payloadEnded n i (some b)) n i e p k q c r ∧ (s.payloadEnded n i (some b)).lines = s.lines
        ∧ (s.payloadEnded n i (some b)).port = s.port)
      ∧ PollPosted (s.payloadEnded n i none) n i e p k q c { r with status := .bufferFault }
      ∧ ((s.payloadEnded n i none).line n).ctx i = some { c with result := some { r with status := .bufferFault } }
      ∧ ((s.payloadEnded n i none).line n).poll e = some p.payloadFaulted
      ∧ (s.payloadEnded n i none).port = s.port := by
  have posted (t : State) (x : Option Cq) : (t.setCq k x).cqs[k] = x := (State.cq_setCq t k k x).trans (if_pos rfl)
  refine ⟨fun b => ?_, ?_⟩
  · rw [State.payloadEnded_done hc, readyToComplete_poll hc hr hon]
    exact ⟨posted s _, rfl, rfl⟩
  · obtain ⟨hk, hq, hact, ho, hp, hin, hcfg⟩ := hon
    let l1 := ((s.line n).setCtx i (some { c with result := some { r with status := .bufferFault } })).setPoll e
      (some p.payloadFaulted)
    have heq1 : s.payloadEnded n i none = (s.setLine n l1).readyToComplete n i := by
      rw [State.payloadEnded_fault hc hr, Line.payloadFaulted_of_poll (l := (s.line n).setCtx i _) ho hp]
    have field {α : Type} (f : Line → α) := congrArg f (State.line_setLine_self s n l1)
    have hc1 : ((s.setLine n l1).line n).ctx i = some { c with result := some { r with status := .bufferFault } } :=
      (field (Line.ctx · i)).trans (Line.ctx_setCtx_self _ i _)
    have hp1 : ((s.setLine n l1).line n).poll e = some p.payloadFaulted :=
      (field (Line.poll · e)).trans (Line.poll_setPoll_self _ e _)
    obtain ⟨cfg, hcfg, hline⟩ := hcfg
    have hon1 : PollOn (s.setLine n l1) n i { c with result := some { r with status := .bufferFault } } e p.payloadFaulted k q :=
      ⟨hk, hq, hact, ho, hp1, (p.inFlight_payloadFaulted).trans hin, cfg, (field Line.config).trans hcfg, hline⟩
    rw [heq1, readyToComplete_poll hc1 rfl hon1, p.tag_payloadFaulted]
    exact ⟨posted _ _, hc1, hp1, rfl⟩

end

/-! ### Captured blocks -/

section
variable {s : State} {n : LineId} {cfg : LineConfig} {head : MonBlock} {rest : List MonBlock}

theorem exec_monitorDataWriteDone {data : Option (List Byte)} (h : s.Ended (.monitorData n) data) :
    exec .monitorDataWriteDone s = .next (s.portFree.monitorDataEnded n data) := exec_taker h

theorem State.requestStaged_frame (s : State) (n : LineId) :
    (s.requestStaged n).cqs = s.cqs ∧ (s.requestStaged n).port.current = s.port.current := by
  unfold State.requestStaged
  split
  · split <;> exact ⟨rfl, rfl⟩
  · exact ⟨rfl, rfl⟩

/-- R117, R118: with its head block under way monitor capture asks at most for the next buffer. -/
theorem State.runMonitor_of_delivering (hcfg : (s.line n).config = some cfg) (hlist : (s.line n).mon.list = head :: rest)
    (hphase : (s.line n).mon.phase ≠ .idle ∧ (s.line n).mon.phase ≠ .bufferWait) : s.runMonitor n = s
      ∨ s.runMonitor n = (s.modLine n (·.setMon fun m => { m with slot := .requested })).requestStaged n := by
  by_cases hmode : cfg.mode = .monitor
  · by_cases hempty : (s.line n).state.staging = true ∧ (s.line n).mon.slot = .empty
    · have hline := (State.line_requestStaged (s.modLine n (·.setMon fun m => { m with slot := .requested })) n n).trans
        (State.line_modLine_self s n _)
      refine .inr (State.runMonitor_of_one_move (State.monitorMove_of_staging hcfg hmode hempty.1 hempty.2) ?_)
      refine State.runMonitor_of_underWay ((congrArg Line.config hline).trans hcfg) hmode ?_ ?_ ?_ <;> rw [hline]
      · exact fun h => List.cons_ne_nil head rest (hlist.symm.trans h)
      · exact hphase
      · exact nofun
    · refine .inl (State.runMonitor_of_stands ((State.monitorMove_of_cons hcfg hmode hempty hlist).trans ?_))
      exact if_neg fun h => h.elim hphase.1 hphase.2
  · refine .inl (State.runMonitor_of_stands (State.monitorMove_of_notMonitor fun cfg1 hcfg1 => ?_))
    obtain rfl := Option.some.inj (hcfg.symm.trans hcfg1)
    exact hmode

theorem State.runMonitor_of_delivering_frame (hcfg : (s.line n).config = some cfg)
    (hlist : (s.line n).mon.list = head :: rest)
    (hphase : (s.line n).mon.phase ≠ .idle ∧ (s.line n).mon.phase ≠ .bufferWait) :
    ((s.runMonitor n).line n).mon.list = (s.line n).mon.list ∧ ((s.runMonitor n).line n).mon.phase = (s.line n).mon.phase
      ∧ (s.runMonitor n).cqs = s.cqs ∧ (s.runMonitor n).port.current = s.port.current := by
  obtain h | h := State.runMonitor_of_delivering hcfg hlist hphase
  · rw [h]
    exact ⟨rfl, rfl, rfl, rfl⟩
  · have hline := (State.line_requestStaged (s.modLine n (·.setMon fun m => { m with slot := .requested })) n n).trans
      (State.line_modLine_self s n _)
    obtain ⟨hcqs, hcurrent⟩ := (s.modLine n (·.setMon fun m => { m with slot := .requested })).requestStaged_frame n
    rw [h, hline]
    exact ⟨rfl, rfl, hcqs, hcurrent⟩

/-- R118: the head block joins the line CQ's waiter list. -/
theorem State.monitorDataEnded_eq {q : Cq} {data : Option (List Byte)} (hcfg : (s.line n).config = some cfg)
    (hlist : (s.line n).mon.list = head :: rest) (hq : s.cqs[cfg.lineCq] = some q) (hact : q.state = .active) {h : MonBlock}
    (hh : h = if data = none then { head with status := .bufferFault } else head) : s.monitorDataEnded n data =
      ((s.modLine n (·.setMon fun m => { m with list := h :: rest, phase := .slotWait })).setCq cfg.lineCq
        (some { q with waiters := q.waiters ++ [{ poster := .monitorBlock n, record := .line (h.record n) }] })).runMonitor
        n := by
  unfold State.monitorDataEnded
  rw [hlist, hcfg]
  dsimp only
  have hsame : (if data.isSome = true then head else { head with status := .bufferFault }) = h := by
    rw [hh]
    cases data <;> rfl
  rw [hsame, joinCq_active (s := s.modLine n (·.setMon fun m => { m with list := h :: rest, phase := .slotWait })) hq hact]

theorem onlyLine_monitorDataEnded (s : State) (data : Option (List Byte)) : OnlyLine n s (s.monitorDataEnded n data) := by
  unfold State.monitorDataEnded
  split
  · exact ((onlyLine_modLine s _).trans (onlyLine_joinCq (.inl rfl) _)).trans (onlyLine_runMonitor _)
  · exact .refl s

end

/-- Settles O37. -/
theorem dataWritesLeadToTheWaiterList : Obligations.DataWritesLeadToTheWaiterList := by
  unfold Obligations.DataWritesLeadToTheWaiterList
  have hfree (s : State) (n : LineId) : OnlyLine n s s.portFree := onlyLine_of_lines (posts_portFree s) rfl
  refine ⟨fun s n i c r k q hc hst hr hon => ?_, fun s n i c r e p k q hc hst hr hon => ?_,
    fun s n cfg head rest q data hend hcfg hlist hq hact => ?_⟩
  · have hon1 : HostOn s.portFree c k q := hon
    have hc1 : (s.portFree.line n).ctx i = some c := hc
    obtain ⟨hdone, hfault, hport⟩ := payloadEnded_host hc1 hst hr hon1
    refine ⟨fun b hend => ?_, fun hend => ⟨_, exec_payloadWriteDone hend, congrArg Port.current hport, hfault,
      (actsOn_payloadEnded s.portFree none).line.ctxs, (hfree s n).trans (actsOn_payloadEnded s.portFree none).onlyLine⟩⟩
    obtain ⟨hposted, hlines, hport⟩ := hdone b
    exact ⟨_, exec_payloadWriteDone hend, congrArg Port.current hport, hposted, hlines,
      (hfree s n).trans (actsOn_payloadEnded (i := i) s.portFree (some b)).onlyLine⟩
  · have hon1 : PollOn s.portFree n i c e p k q := hon
    have hc1 : (s.portFree.line n).ctx i = some c := hc
    obtain ⟨hdone, hfault, hctx, hpoll, hport⟩ := payloadEnded_poll hc1 hr hon1
    rw [p.payloadFaulted_eq] at hpoll
    refine ⟨fun b hend => ?_, fun hend => ⟨_, exec_payloadWriteDone hend, congrArg Port.current hport, hfault, hctx, hpoll,
      (actsOn_payloadEnded s.portFree none).line.ctxs, (hfree s n).trans (actsOn_payloadEnded s.portFree none).onlyLine⟩⟩
    obtain ⟨hposted, hlines, hport⟩ := hdone b
    exact ⟨_, exec_payloadWriteDone hend, congrArg Port.current hport, hposted, hlines,
      (hfree s n).trans (actsOn_payloadEnded (i := i) s.portFree (some b)).onlyLine⟩
  · let h : MonBlock := if data = none then { head with status := .bufferFault } else head
    obtain ⟨hstart, hchars, hlost⟩ : h.start = head.start ∧ h.chars = head.chars ∧ h.lost = head.lost := by
      unfold h
      split <;> exact ⟨rfl, rfl, rfl⟩
    let s1 := (s.portFree.modLine n (·.setMon fun m => { m with list := h :: rest, phase := .slotWait })).setCq cfg.lineCq
      (some { q with waiters := q.waiters ++ [{ poster := .monitorBlock n, record := .line (h.record n) }] })
    have heq : s.portFree.monitorDataEnded n data = s1.runMonitor n :=
      State.monitorDataEnded_eq (s := s.portFree) hcfg hlist hq hact rfl
    have field {α : Type} (f : Line → α) := congrArg f (State.line_modLine_self s.portFree n
      (·.setMon fun m => { m with list := h :: rest, phase := .slotWait }))
    have hlist1 : (s1.line n).mon.list = h :: rest := field (·.mon.list)
    have hphase1 : (s1.line n).mon.phase = .slotWait := field (·.mon.phase)
    obtain ⟨hl, hp, hcqs, hcurrent⟩ := State.runMonitor_of_delivering_frame (s := s1) ((field Line.config).trans hcfg) hlist1
      (by rw [hphase1]; exact ⟨nofun, nofun⟩)
    refine ⟨s1.runMonitor n, h, h.record n, (exec_monitorDataWriteDone hend).trans (congrArg Host.Outcome.next heq), hcurrent,
      rfl, hl.trans hlist1, hp.trans hphase1, (congrArg (fun v => v[cfg.lineCq]) hcqs).trans ?_, rfl, rfl, rfl, hstart,
      congrArg List.length hchars, hlost, ?_⟩
    · exact (State.cq_setCq _ cfg.lineCq cfg.lineCq _).trans (if_pos rfl)
    · refine (hfree s n).trans ?_
      rw [← heq]
      exact onlyLine_monitorDataEnded _ _

end Sys2Proof.Machine
end

