-- ==== Sys2Proof/Proofs/NoticeFrame.lean ====
section
/-! A notice handed to the admin unit stays where it stands while contexts end and monitor capture moves (R153, R163). -/

namespace Sys2Proof.Machine

/-- The admin unit is as before, and no waiter list has lost a waiter. -/
structure Untold (s t : State) : Prop where
  admin : t.admin = s.admin
  waiters : ∀ (k : CqId) (q : Cq), s.cqs[k] = some q → ∃ r, t.cqs[k] = some r ∧ q.waiters <+: r.waiters

section
variable {s t u : State} {n : LineId} {i : CtxId}

theorem Untold.of_same (ha : t.admin = s.admin) (hc : t.cqs = s.cqs) : Untold s t :=
  ⟨ha, fun k q hq => ⟨q, (congrArg (fun v => v[k]) hc).trans hq, List.prefix_rfl⟩⟩

theorem Untold.refl (s : State) : Untold s s := .of_same rfl rfl

theorem Untold.trans (h : Untold s t) (k : Untold t u) : Untold s u := by
  refine ⟨k.admin.trans h.admin, fun j q hq => ?_⟩
  obtain ⟨r, hr, hqr⟩ := h.waiters j q hq
  obtain ⟨v, hv, hrv⟩ := k.waiters j r hr
  exact ⟨v, hv, hqr.trans hrv⟩

theorem Noticed.untold {e : NoticeEvent} (h : Noticed s t e) (k : Untold t u) : Noticed s u e := by
  unfold Noticed at h ⊢
  rw [k.admin]
  split at h
  · next hroom =>
    obtain ⟨hnotices, hlost, hjoined⟩ := h
    refine (if_pos hroom).symm ▸ ⟨hnotices, hlost, fun q hq => ?_⟩
    obtain ⟨r, hr, hqr⟩ := hjoined q hq
    obtain ⟨v, hv, hrv⟩ := k.waiters 0 r hr
    exact ⟨v, hv, hqr.trans hrv⟩
  · next hfull => exact (if_neg hfull).symm ▸ h

/-- What is noticed against a state is noticed against one with the same admin unit, admin CQ and timebase. -/
theorem Noticed.of_same {e : NoticeEvent} (h : Noticed s t e) (ha : u.admin = s.admin) (hc : u.cqs[(0 : CqId)] = s.cqs[(0 : CqId)])
    (ht : u.timebase = s.timebase) : Noticed u t e := by
  unfold Noticed at h ⊢
  rw [ha, hc, ht]
  exact h

theorem untold_modLine (s : State) (m : LineId) (f : Line → Line) : Untold s (s.modLine m f) := .of_same rfl rfl

theorem untold_setCq {k : CqId} {q r : Cq} (hq : s.cqs[k] = some q) (h : q.waiters <+: r.waiters) :
    Untold s (s.setCq k (some r)) := by
  refine ⟨rfl, fun j v hv => ?_⟩
  rw [State.cq_setCq]
  by_cases hj : j = k
  · obtain rfl := hj
    obtain rfl := Option.some.inj (hq.symm.trans hv)
    exact ⟨r, if_pos rfl, h⟩
  · exact ⟨v, (if_neg hj).trans hv, List.prefix_rfl⟩

/-- The posters of a line: what they leave when they are done is of the line. -/
theorem untold_posterDone {p : Poster} (hp : p.line ≠ none) : Untold s (s.posterDone p) := by
  unfold State.posterDone
  cases p with
  | exchange m j => exact untold_modLine s m _
  | monitorBlock m => exact untold_modLine s m _
  | bufferReturn m => exact untold_modLine s m _
  | _ => exact absurd rfl hp

theorem untold_discard {p : Poster} (hp : p.line ≠ none) (k : CqId) : Untold s (s.discard k p) := by
  unfold State.discard
  dsimp only
  refine Untold.trans ?_ (untold_posterDone hp)
  have hcount : Untold s (match s.cqs[k] with
      | some q => s.setCq k (some { q with discards := bump Config.counterMax q.discards })
      | none => s) := by
    split
    · next q hq => exact untold_setCq hq List.prefix_rfl
    · exact .refl s
  split
  · exact hcount.trans (untold_modLine _ _ _)
  · exact hcount

theorem untold_joinCq {w : Waiter} (hp : w.poster.line ≠ none) (k : CqId) : Untold s (s.joinCq k w) := by
  unfold State.joinCq
  split
  · next q hq =>
    split
    · exact untold_setCq hq (List.prefix_append _ _)
    · exact untold_discard hp k
  · exact untold_posterDone hp

theorem untold_promise (q : Bq) (x : Taker) : Untold s (s.promise n q x) := .of_same rfl rfl

theorem untold_requestBuffer {x : Taker} (h : s.requestBuffer n x = some t) : Untold s t := by
  unfold State.requestBuffer at h
  split at h
  · split at h
    · cases h
      exact untold_promise _ _
    · cases h
  · cases h

theorem untold_requestStaged (s : State) (n : LineId) : Untold s (s.requestStaged n) := by
  unfold State.requestStaged
  split
  · split
    · exact untold_promise _ _
    · exact .of_same rfl rfl
  · exact .refl s

/-! ### Contexts -/

theorem untold_readyToComplete (s : State) (n : LineId) (i : CtxId) : Untold s (s.readyToComplete n i) := by
  unfold State.readyToComplete
  split
  · split
    · exact untold_joinCq (by exact Option.some_ne_none n) _
    · exact untold_modLine s n _
  · exact .refl s

theorem untold_setCtx (s : State) (n : LineId) (i : CtxId) (c : Ctx) : Untold s (s.setCtx n i c) := untold_modLine s n _

theorem untold_writeReply (s : State) (n : LineId) (i : CtxId) : Untold s (s.writeReply n i) := by
  unfold State.writeReply
  split
  · split
    · split
      · dsimp only
        split
        · exact (untold_setCtx s n i _).trans (untold_readyToComplete _ n i)
        · exact .of_same rfl rfl
      · exact untold_readyToComplete s n i
    · exact untold_readyToComplete s n i
  · exact .refl s

theorem untold_noBuffer (s : State) (n : LineId) (i : CtxId) : Untold s (s.noBuffer n i) := by
  unfold State.noBuffer
  split
  · split
    · exact (untold_setCtx s n i _).trans (untold_readyToComplete _ n i)
    · exact .refl s
  · exact .refl s

theorem untold_bufferNone (s : State) (n : LineId) (i : CtxId) : Untold s (s.bufferNone n i) := by
  unfold State.bufferNone
  split
  · split
    · exact untold_noBuffer s n i
    · exact untold_modLine s n _
  · exact .refl s

theorem untold_settlePoll (s : State) (n : LineId) (i : CtxId) (e : PollId) (c : Ctx) (r : Result) :
    Untold s (s.settlePoll n i e c r) := by
  unfold State.settlePoll
  split
  · split
    · exact untold_modLine s n _
    · split
      · split
        · next h => exact untold_requestBuffer h
        · exact untold_modLine s n _
      · exact (untold_modLine s n _).trans (untold_readyToComplete _ n i)
  · exact untold_modLine s n _

theorem untold_enterPosting (s : State) (n : LineId) (i : CtxId) : Untold s (s.enterPosting n i) := by
  unfold State.enterPosting
  split
  · split
    · split
      · split
        · split
          · next h => exact untold_requestBuffer h
          · exact untold_noBuffer s n i
        · exact untold_writeReply s n i
      · exact untold_settlePoll s n i _ _ _
    · exact .refl s
  · exact .refl s

/-- The end of an exchange tells the admin unit nothing. -/
theorem untold_endExchange (s : State) (n : LineId) (i : CtxId) (e : Ending) : Untold s (s.endExchange n i e) := by
  unfold State.endExchange
  dsimp only
  split
  · exact (Untold.of_same rfl rfl : Untold s (s.setLine n _)).trans (untold_enterPosting _ n i)
  · exact .refl s

theorem untold_foldl {α : Type} {f : State → α → State} (xs : List α) (h : ∀ s, ∀ x ∈ xs, Untold s (f s x)) :
    ∀ s, Untold s (xs.foldl f s) := by
  induction xs with
  | nil => exact .refl
  | cons x xs ih =>
    exact fun s => (h s x List.mem_cons_self).trans (ih (fun s y hy => h s y (List.mem_cons_of_mem x hy)) _)

/-! ### Monitor capture -/

theorem untold_headTakes (k : CqId) (head : MonBlock) (d : Descriptor) : Untold s (s.headTakes n k head d) := by
  unfold State.headTakes
  split
  · exact untold_discard (by exact Option.some_ne_none n) k
  · exact .of_same rfl rfl

theorem untold_headAsks : Untold s (s.headAsks n) := by
  unfold State.headAsks
  split
  · next h => exact (untold_requestBuffer h).trans (untold_modLine _ n _)
  · exact untold_modLine s n _

theorem untold_settleSlot (k : CqId) : Untold s (s.settleSlot n k) := by
  unfold State.settleSlot
  split
  · exact (untold_modLine s n _).trans (untold_joinCq (by exact Option.some_ne_none n) k)
  · exact untold_modLine s n _

theorem untold_monitorStep (h : s.MonitorStep n t) : Untold s t := by
  cases h with
  | asksSlot => exact (untold_modLine s n _).trans (untold_requestStaged _ n)
  | takes k head d => exact untold_headTakes k head d
  | asksHead => exact untold_headAsks
  | waits => exact untold_modLine s n _
  | settles k => exact untold_settleSlot k

theorem untold_runMonitor (s : State) (n : LineId) : Untold s (s.runMonitor n) :=
  State.runMonitor_induction (P := Untold s) (fun _ _ h hs => hs.trans (untold_monitorStep h)) (.refl s)

theorem untold_runMonitors (s : State) : Untold s s.runMonitors := untold_foldl _ (fun s m _ => untold_runMonitor s m) s

end

end Sys2Proof.Machine
end

