-- ==== Sys2Proof/Proofs/Descriptors.lean ====
section
/-! Descriptors handed to their takers, and the faults of a buffer queue (R107, R108, R151, R152, R161, R171). -/

namespace Sys2Proof.Machine

/-! ### Hand-overs -/

section
variable {s : State} {n : LineId} {i : CtxId} {c : Ctx} {d : Descriptor} {r : Result} {q : Bq}

theorem exec_descriptorReadComplete {data : Option (List Byte)} (h : s.Ended (.descriptor n) data) :
    exec .descriptorReadComplete s = .next (s.portFree.descriptorEnded n data) := exec_taker h

/-- R151: a good descriptor goes to the taker promised it. -/
theorem State.descriptorEnded_good {b : List Byte} {x : Taker} {rest : List Taker} (hq : s.bqs[n] = some q)
    (hcap : 1 ≤ (descriptorOf b).capacity) (hprom : q.promises = x :: rest) : s.descriptorEnded n (some b) =
      (s.setBq n (some { q with head := ringNext q.size q.head, promises := rest })).handOver n x (descriptorOf b) := by
  unfold State.descriptorEnded
  rw [hq]
  dsimp only
  rw [if_neg (by omega), hprom]

/-- R171: a descriptor of capacity 0, or a bus fault on its read. -/
theorem State.descriptorEnded_bad {data : Option (List Byte)} {cause : FaultCause} (hq : s.bqs[n] = some q)
    (h : (data = none ∧ cause = .readFault) ∨ ∃ b, data = some b ∧ half b 4 = 0#16 ∧ cause = .badDescriptor) :
    s.descriptorEnded n data = s.faultBq n q cause := by
  unfold State.descriptorEnded
  rw [hq]
  obtain ⟨rfl, rfl⟩ | ⟨b, rfl, hb, rfl⟩ := h
  · rfl
  · have hcap : (descriptorOf b).capacity = 0 := congrArg BitVec.toNat hb
    exact if_pos hcap

/-- R117: a buffer held with nothing to deliver stays. -/
theorem State.runMonitor_of_held (hslot : (s.line n).mon.slot = .held d) (hlist : (s.line n).mon.list = [])
    (hst : (s.line n).state ≠ .draining) : s.runMonitor n = s := by
  refine State.runMonitor_of_stands ?_
  by_cases hmon : ∃ cfg, (s.line n).config = some cfg ∧ cfg.mode = .monitor
  · obtain ⟨cfg, hcfg, hmode⟩ := hmon
    rw [State.monitorMove_of_nil hcfg hmode (by rw [hslot]; exact nofun ∘ And.right) hlist]
    exact if_neg fun h => hst h.1
  · exact State.monitorMove_of_notMonitor fun cfg hcfg hmode => hmon ⟨cfg, hcfg, hmode⟩

/-- R72: the reply data goes to the buffer taken, cut to its capacity. -/
theorem State.writeReply_of_buffer (hc : (s.line n).ctx i = some c) (hr : c.result = some r) (hgood : r.status.good = true)
    (hdest : c.dest = .bufferQueue) (hbuf : c.buffer = some d)
    (hdata : c.store.take (min r.replyLength d.capacity) ≠ []) : s.writeReply n i =
      (s.setCtx n i { c with result := some { r with truncated := decide (d.capacity < r.replyLength) } }).issue
        (lineEngine n) { addr := d.addr, kind := .write (c.store.take (min r.replyLength d.capacity)), use := .payload n i } := by
  have htarget : c.target = some d := by
    rw [Ctx.target, hdest]
    exact hbuf
  unfold State.writeReply
  rw [hc]
  dsimp only
  rw [hr, htarget]
  dsimp only
  rw [if_pos hgood, if_neg (mt List.isEmpty_iff.1 hdata)]

theorem State.bufferArrives_of_host {sq : SqId} {tag : Half} (hc : (s.line n).ctx i = some c)
    (ho : c.origin = .host sq tag) : s.bufferArrives n i d = (s.setCtx n i { c with buffer := some d }).writeReply n i := by
  unfold State.bufferArrives
  rw [hc]
  dsimp only
  rw [ho]

theorem State.bufferArrives_of_poll {e : PollId} {p : PollEntry} (hc : (s.line n).ctx i = some c)
    (ho : c.origin = .poll e) (hr : c.result = some r) (hp : (s.line n).poll e = some p) : s.bufferArrives n i d =
      ((s.setCtx n i { c with buffer := some d }).modLine n (·.setPoll e (some (p.delivered c r)))).writeReply n i := by
  unfold State.bufferArrives
  rw [hc]
  dsimp only
  rw [ho, hr]
  dsimp only
  rw [hp]

theorem State.bufferNone_of_host {sq : SqId} {tag : Half} (hc : (s.line n).ctx i = some c)
    (ho : c.origin = .host sq tag) : s.bufferNone n i = s.noBuffer n i := by
  unfold State.bufferNone
  rw [hc]
  dsimp only
  rw [ho]

theorem State.bufferNone_of_poll {e : PollId} (hc : (s.line n).ctx i = some c) (ho : c.origin = .poll e) :
    s.bufferNone n i = s.modLine n (·.losePoll i) := by
  unfold State.bufferNone
  rw [hc]
  dsimp only
  rw [ho]

/-- R107: the delivery of a result leaves one entry. -/
theorem AfterReport.eq_delivered {p p' : PollEntry} (h : AfterReport p p' c r) : p' = p.delivered c r := by
  obtain ⟨hevery, hgood, hfailed⟩ := h
  obtain ⟨kevery, kgood, kfailed⟩ := afterReport_delivered p c r
  cases hmode : p.mode with
  | every => rw [hevery hmode, kevery hmode]
  | onChange =>
    by_cases hg : r.isGood
    · rw [hgood hmode hg, kgood hmode hg]
    · rw [hfailed hmode hg, kfailed hmode hg]

/-- R151: a host exchange takes its descriptor. -/
theorem handOver_host {sq : SqId} {tag : Half} (hc : (s.line n).ctx i = some c) (ho : c.origin = .host sq tag)
    (hdest : c.dest = .bufferQueue) (hr : c.result = some r) (hg : r.status.good = true)
    (hdata : c.store.take (min r.replyLength d.capacity) ≠ []) : s.handOver n (.ctx i) d =
      State.issue
        (s.setLine n ((s.line n).setCtx i (some
          { c with buffer := some d, result := some { r with truncated := decide (d.capacity < r.replyLength) } })))
        (lineEngine n)
        { addr := d.addr, kind := .write (c.store.take (min r.replyLength d.capacity)), use := .payload n i } := by
  have hc1 : ((s.setCtx n i { c with buffer := some d }).line n).ctx i = some { c with buffer := some d } :=
    (congrArg (Line.ctx · i) (s.line_setCtx n i _)).trans (Line.ctx_setCtx_self _ i _)
  refine (State.bufferArrives_of_host hc ho).trans
    ((State.writeReply_of_buffer (c := { c with buffer := some d }) hc1 hr hg hdest rfl hdata).trans ?_)
  exact congrArg (State.issue · (lineEngine n) _) ((State.setCtx_setLine s n _ i _).trans
    (congrArg (State.setLine s n) (Line.setCtx_setCtx _ i _ _)))

/-- R107, R151: a poll instance takes its descriptor, and its entry the delivery. -/
theorem handOver_poll {e : PollId} {p p' : PollEntry} (hc : (s.line n).ctx i = some c) (ho : c.origin = .poll e)
    (hp : (s.line n).poll e = some p) (hdest : c.dest = .bufferQueue) (hr : c.result = some r) (hg : r.status.good = true)
    (hdata : c.store.take (min r.replyLength d.capacity) ≠ []) (hp' : AfterReport p p' c r) : s.handOver n (.ctx i) d =
      State.issue
        (s.setLine n (((s.line n).setCtx i (some
          { c with buffer := some d, result := some { r with truncated := decide (d.capacity < r.replyLength) } })).setPoll e
            (some p')))
        (lineEngine n)
        { addr := d.addr, kind := .write (c.store.take (min r.replyLength d.capacity)), use := .payload n i } := by
  obtain rfl := hp'.eq_delivered
  let l1 := ((s.line n).setCtx i (some { c with buffer := some d })).setPoll e (some (p.delivered c r))
  have heq : (s.setCtx n i { c with buffer := some d }).modLine n (·.setPoll e (some (p.delivered c r))) = s.setLine n l1 :=
    State.modLine_setLine s n _ _
  have hc1 : ((s.setLine n l1).line n).ctx i = some { c with buffer := some d } :=
    (congrArg (Line.ctx · i) (State.line_setLine_self s n l1)).trans (Line.ctx_setCtx_self _ i _)
  refine (State.bufferArrives_of_poll hc ho hr hp).trans ((congrArg (State.writeReply · n i) heq).trans
    ((State.writeReply_of_buffer (c := { c with buffer := some d }) hc1 hr hg hdest rfl hdata).trans ?_))
  refine congrArg (State.issue · (lineEngine n) _) ((State.setCtx_setLine s n l1 i _).trans
    (congrArg (State.setLine s n) ?_))
  exact congrArg (fun l : Line => l.setPoll e (some (p.delivered c r))) (Line.setCtx_setCtx (s.line n) i _ _)

end

/-! ### Promises -/

theorem exec_bufferPromise {s : State} {n : LineId} {q : Bq} {x : Taker} {rest : List Taker} (hq : s.bqs[n] = some q)
    (hreq : q.requests = x :: rest) : exec (.bufferPromise n) s =
      .next (if q.promisable then s.promise n { q with requests := rest } x else s) := by
  change Host.Outcome.next (s.promiseWaiting n) = _
  unfold State.promiseWaiting
  rw [hq]
  dsimp only
  rw [hreq]

/-! ### Faults of a buffer queue -/

section
variable {s t : State} {n : LineId} {q : Bq}

/-- Completing and discarding are no matter of the buffer queues. -/
theorem State.bqs_posterDone (s : State) (p : Poster) : (s.posterDone p).bqs = s.bqs := by
  unfold State.posterDone
  split <;> rfl

theorem State.bqs_discard (s : State) (k : CqId) (p : Poster) : (s.discard k p).bqs = s.bqs := by
  unfold State.discard
  dsimp only
  rw [State.bqs_posterDone]
  repeat' split
  all_goals rfl

theorem State.bqs_joinCq (s : State) (k : CqId) (w : Waiter) : (s.joinCq k w).bqs = s.bqs := by
  unfold State.joinCq
  split
  · split
    · rfl
    · exact State.bqs_discard s k _
  · exact State.bqs_posterDone s _

theorem State.bqs_readyToComplete (s : State) (n : LineId) (i : CtxId) : (s.readyToComplete n i).bqs = s.bqs := by
  unfold State.readyToComplete
  split
  · split
    · exact State.bqs_joinCq s _ _
    · rfl
  · rfl

theorem State.bqs_answerNone (n : LineId) (s : State) (x : Taker) : (State.answerNone n s x).bqs = s.bqs := by
  unfold State.answerNone
  split
  · unfold State.bufferNone
    split
    · split
      · unfold State.noBuffer
        split
        · split
          · exact State.bqs_readyToComplete _ n _
          · rfl
        · rfl
      · rfl
    · rfl
  · split <;> rfl

theorem State.bqs_foldl_answerNone (xs : List Taker) : ∀ s, (xs.foldl (State.answerNone n) s).bqs = s.bqs := by
  induction xs with
  | nil => exact fun _ => rfl
  | cons x xs ih => exact fun s => (ih _).trans (State.bqs_answerNone n s x)

/-- The BQ is the FAULTED one that `q` has become: nothing is promised, and its ring is where it was. -/
def Bq.FaultedAs (q : Bq) (o : Option Bq) : Prop :=
  ∃ r, o = some r ∧ r.state = .faulted ∧ r.promises = [] ∧ r.base = q.base ∧ r.size = q.size ∧ r.head = q.head ∧ r.tail = q.tail

theorem Bq.FaultedAs.not_promisable (h : q.FaultedAs s.bqs[n]) : ∀ r, s.bqs[n] = some r → r.promisable = false := by
  obtain ⟨v, hv, hst, -⟩ := h
  intro r hr
  obtain rfl := Option.some.inj (hv.symm.trans hr)
  exact Bq.not_promisable (.inl hst)

/-- R152: a FAULTED BQ takes requests and promises nothing. -/
theorem faultedAs_requestStaged (h : q.FaultedAs s.bqs[n]) : q.FaultedAs (s.requestStaged n).bqs[n] := by
  have hno := h.not_promisable
  obtain ⟨r, hr, hst, hrest⟩ := h
  unfold State.requestStaged
  rw [hr]
  dsimp only
  rw [hno r hr]
  exact ⟨_, (State.bq_setBq s n n _).trans (if_pos rfl), hst, hrest⟩

theorem faultedAs_monitorStep (h : s.MonitorStep n t) (hq : q.FaultedAs s.bqs[n]) : q.FaultedAs t.bqs[n] := by
  have of_bqs {u : State} (hu : u.bqs = s.bqs) : q.FaultedAs u.bqs[n] := hu ▸ hq
  cases h with
  | asksSlot => exact faultedAs_requestStaged (s := s.modLine n _) hq
  | takes k head d =>
    refine of_bqs ?_
    unfold State.headTakes
    split
    · exact State.bqs_discard s k _
    · rfl
  | asksHead =>
    refine of_bqs ?_
    rw [State.headAsks, State.requestBuffer_of_none hq.not_promisable]
    rfl
  | waits => exact hq
  | settles k =>
    refine of_bqs ?_
    unfold State.settleSlot
    split
    · exact State.bqs_joinCq _ k _
    · rfl

theorem faultedAs_runMonitor (s : State) (hq : q.FaultedAs s.bqs[n]) : q.FaultedAs (s.runMonitor n).bqs[n] :=
  State.runMonitor_induction (P := fun s => q.FaultedAs s.bqs[n]) (fun _ _ => faultedAs_monitorStep) hq

theorem untold_answerNone (s : State) (x : Taker) : Untold s (State.answerNone n s x) := by
  unfold State.answerNone
  split
  · exact untold_bufferNone s n _
  · split
    · exact untold_modLine s n _
    · exact .refl s

theorem onlyLine_answerNone (s : State) (x : Taker) : OnlyLine n s (State.answerNone n s x) := by
  unfold State.answerNone
  split
  · unfold State.bufferNone
    split
    · split
      · exact (actsOn_noBuffer s).onlyLine
      · exact onlyLine_modLine s _
    · exact .refl s
  · split
    · exact onlyLine_modLine s _
    · exact .refl s

theorem onlyLine_foldl {α : Type} {f : State → α → State} (xs : List α) (h : ∀ s x, OnlyLine n s (f s x)) :
    ∀ s, OnlyLine n s (xs.foldl f s) := by
  induction xs with
  | nil => exact .refl
  | cons x xs ih => exact fun s => (h s x).trans (ih _)

/-- R152: the part with the BQ FAULTED and its descriptor reads stale. -/
def State.bqStopped (s : State) (n : LineId) (q : Bq) : State :=
  (s.setBq n (some { q with state := .faulted, promises := []
                            requests := q.promises.filter (takerWaits (s.line n)) ++ q.requests })).modPort fun p =>
    { p with queues := p.queues.set queueEngine ((p.queues[queueEngine]).map (Transfer.stale n)) }

/-- R152, R161: the notice is handed on, before the promised takers are answered. -/
def State.bqFaulted (s : State) (n : LineId) (q : Bq) (cause : FaultCause) : State :=
  (s.bqStopped n q).handNotice (.queueFault .bq n.val cause)

theorem State.faultBq_eq (s : State) (n : LineId) (q : Bq) (cause : FaultCause) :
    s.faultBq n q cause = (q.promises.foldl (State.answerNone n) (s.bqFaulted n q cause)).runMonitor n := rfl

theorem State.bqFaulted_frame (s : State) (n : LineId) (q : Bq) (cause : FaultCause) :
    q.FaultedAs (s.bqFaulted n q cause).bqs[n] ∧ Noticed s (s.bqFaulted n q cause) (.queueFault .bq n.val cause)
      ∧ OnlyLine n s (s.bqFaulted n q cause) ∧ (∀ m, (s.bqFaulted n q cause).line m = s.line m)
      ∧ ∀ k : CqId, k ≠ 0 → (s.bqFaulted n q cause).cqs[k] = s.cqs[k] := by
  have hposts : Posts s (s.bqStopped n q) := (posts_setBq s n _).trans (posts_modPort _ _)
  have hbq : q.FaultedAs (s.bqStopped n q).bqs[n] :=
    ⟨_, (State.bq_setBq s n n _).trans (if_pos rfl), rfl, rfl, rfl, rfl, rfl, rfl⟩
  obtain ⟨hl, -, hb⟩ := (s.bqStopped n q).handNotice_frame (.queueFault .bq n.val cause)
  refine ⟨hb.symm ▸ hbq, (noticed_handNotice (s.bqStopped n q) _).of_same rfl rfl rfl, ?_,
    fun m => congrArg (fun v => v[m]) hl, fun k hk => (s.bqStopped n q).cq_handNotice_ne _ hk⟩
  exact (onlyLine_of_lines hposts rfl).trans (onlyLine_of_lines (posts_handNotice (s.bqStopped n q) _) hl)

/-- R152, R161: what the fault of a BQ does whatever it has promised. -/
theorem faultBq_spec (s : State) (n : LineId) (q : Bq) (cause : FaultCause) :
    q.FaultedAs (s.faultBq n q cause).bqs[n] ∧ Noticed s (s.faultBq n q cause) (.queueFault .bq n.val cause)
      ∧ OnlyLine n s (s.faultBq n q cause) := by
  obtain ⟨hbq, hnoticed, honly, -, -⟩ := s.bqFaulted_frame n q cause
  rw [State.faultBq_eq]
  refine ⟨faultedAs_runMonitor _ ((State.bqs_foldl_answerNone _ _).symm ▸ hbq), ?_, ?_⟩
  · exact hnoticed.untold ((untold_foldl _ (fun s x _ => untold_answerNone s x) _).trans (untold_runMonitor _ n))
  · exact honly.trans ((onlyLine_foldl _ onlyLine_answerNone _).trans (onlyLine_runMonitor _))

/-- R152: a context promised a descriptor of a FAULTED BQ is answered "none". -/
theorem faultBq_answers {cause : FaultCause} {i : CtxId} {c : Ctx} {x : Result} (hprom : q.promises = [.ctx i])
    (hc : (s.line n).ctx i = some c) (hst : c.state = .posting) (hr : c.result = some x)
    (hmode : ∀ cfg, (s.line n).config = some cfg → cfg.mode = .master) :
    (∀ k cq, HostOn s c k cq → PostedAs (s.faultBq n q cause) n i k cq c { x with status := .noBuffer })
      ∧ ∀ e p k cq, PollOn s n i c e p k cq →
          PollLost s (s.faultBq n q cause) n i e p ∧ (s.faultBq n q cause).cqs[k] = some cq := by
  obtain ⟨-, -, honly, hlines, hcqs⟩ := s.bqFaulted_frame n q cause
  have hc1 : ((s.bqFaulted n q cause).line n).ctx i = some c := (congrArg (Line.ctx · i) (hlines n)).trans hc
  have heq : s.faultBq n q cause = (s.bqFaulted n q cause).bufferNone n i := by
    rw [State.faultBq_eq, hprom]
    refine State.runMonitor_of_stands (State.monitorMove_of_notMonitor fun cfg hcfg hmon => ?_)
    obtain ⟨-, -, -, hconfig, -⟩ := (posts_bufferNone (s.bqFaulted n q cause) n i).wires n
    have hcfg1 := (hconfig.trans (congrArg Line.config (hlines n))).symm.trans hcfg
    exact Mode.noConfusion ((hmode cfg hcfg1).symm.trans hmon)
  rw [heq]
  refine ⟨fun k cq hon => ?_, fun e p k cq hon => ?_⟩
  · obtain ⟨sq, tag, ho⟩ := hon.origin
    have hon1 : HostOn (s.bqFaulted n q cause) c k cq := hon.of_same (hcqs k hon.1) honly.2.2.2.1 rfl
    rw [State.bufferNone_of_host hc1 ho]
    exact postedAs_noBuffer (hc1.trans (congrArg some (Ctx.eq_posting hst hr))) hon1
  · obtain ⟨hk, hq, -, ho, hp, hin, -⟩ := hon
    rw [State.bufferNone_of_poll hc1 ho]
    have hlost := pollLost_losePoll hc1 ho ((congrArg (Line.poll · e) (hlines n)).trans hp) hin
    unfold PollLost at hlost ⊢
    rw [hlines n] at hlost
    exact ⟨hlost, (hcqs k hk).trans hq⟩

end

/-- Settles O36. -/
theorem descriptorsGoToTheirTakers : Obligations.DescriptorsGoToTheirTakers := by
  unfold Obligations.DescriptorsGoToTheirTakers
  refine ⟨fun s n q b d rest s1 hend hq hd hcap hs1 => ⟨fun hprom hlist hst => ?_,
      fun i c r sq tag hprom hc ho hdest hr hgood hdata => ?_, fun i c r e p p' hprom hc ho hp hdest hr hgood hdata hp' => ?_⟩,
    fun s n q data cause hend hq hbad => ?_, fun s data hend => exec_taker hend,
    fun s n q x rest hq hreq => ⟨fun hact hlt => ?_, fun hno => ?_⟩⟩
  · subst hs1 hd
    refine (exec_descriptorReadComplete hend).trans (congrArg Host.Outcome.next
      ((State.descriptorEnded_good (s := s.portFree) hq hcap hprom).trans ?_))
    have hheld (s2 : State) (l : Line) (h1 : l.mon.slot = .held (descriptorOf b)) (h2 : l.mon.list = [])
        (h3 : l.state ≠ .draining) : (s2.setLine n l).runMonitor n = s2.setLine n l :=
      State.runMonitor_of_held (by rw [State.line_setLine_self]; exact h1) (by rw [State.line_setLine_self]; exact h2)
        (by rw [State.line_setLine_self]; exact h3)
    exact hheld _ { s.line n with mon := { (s.line n).mon with slot := .held (descriptorOf b) } } rfl hlist hst
  · subst hs1 hd
    exact (exec_descriptorReadComplete hend).trans (congrArg Host.Outcome.next
      ((State.descriptorEnded_good (s := s.portFree) hq hcap hprom).trans
        (handOver_host hc ho hdest hr ((good_result_iff r).2 hgood) hdata)))
  · subst hs1 hd
    exact (exec_descriptorReadComplete hend).trans (congrArg Host.Outcome.next
      ((State.descriptorEnded_good (s := s.portFree) hq hcap hprom).trans
        (handOver_poll hc ho hp hdest hr ((good_result_iff r).2 hgood) hdata hp')))
  · obtain ⟨⟨r, hr, hst, hpromises, hbase, hsize, hhead, htail⟩, hnoticed, honly⟩ := faultBq_spec s.portFree n q cause
    have hfree : OnlyLine n s s.portFree := onlyLine_of_lines (posts_portFree s) rfl
    refine ⟨s.portFree.faultBq n q cause, r, (exec_descriptorReadComplete hend).trans (congrArg Host.Outcome.next
      (State.descriptorEnded_bad (s := s.portFree) hq hbad)), hr, hst, hpromises, hbase, hsize, hhead, htail, hnoticed,
      hfree.trans honly, fun i c x hprom hc hst hx hmode => ?_⟩
    exact faultBq_answers (s := s.portFree) hprom hc hst hx hmode
  · exact (exec_bufferPromise hq hreq).trans (congrArg Host.Outcome.next (if_pos (q.promisable_iff.2 ⟨hact, hlt⟩)))
  · refine (exec_bufferPromise hq hreq).trans (congrArg Host.Outcome.next (if_neg ?_))
    rw [Bq.not_promisable hno]
    exact Bool.false_ne_true

end Sys2Proof.Machine
end

