-- ==== Sys2Proof/Proofs/SlotGrants.lean ====
section
/-! Slot grants and the layout of the completion records (R109, R119, R153, R154, R164, R168). -/

namespace Sys2Proof.Machine

/-! ### Layouts -/

theorem half_eq_of_bytes (v : Half) : v.extractLsb' 8 8 ++ v.extractLsb' 0 8 = v := half_append_halfBytes [] v

/-- R168: a 32-bit value written low byte first reads back. -/
theorem word_eq_of_bytes (v : Word) :
    (v.extractLsb' 24 8 ++ v.extractLsb' 16 8) ++ (v.extractLsb' 8 8 ++ v.extractLsb' 0 8) = v := by
  refine BitVec.eq_of_getLsbD_eq fun i hi => ?_
  simp only [BitVec.getLsbD_append, BitVec.getLsbD_extractLsb']
  by_cases h1 : i < 8
  · simp [h1, show i < 16 by omega]
  · by_cases h2 : i < 16
    · simp [h1, h2, show i - 8 < 8 by omega, show 8 + (i - 8) = i by omega]
    · by_cases h3 : i - 16 < 8
      · simp [h2, h3, show 16 + (i - 16) = i by omega]
      · simp [h2, h3, show i - 16 - 8 < 8 by omega, show 24 + (i - 16 - 8) = i by omega]

theorem half_zero : (0#8 ++ 0#8 : Half) = 0#16 := by decide

theorem word_zero : ((0#8 ++ 0#8 : Half) ++ (0#8 ++ 0#8 : Half) : Word) = 0#32 := by decide

/-- R168: the flag byte, bit by bit. -/
theorem flagBits : ∀ a b c d e f g : Bool,
    let x := BitVec.ofNat 8 (a.toNat + 2 * b.toNat + 4 * c.toNat + 8 * d.toNat + 16 * e.toNat + 32 * f.toNat + 64 * g.toNat)
    x.getLsbD 0 = a ∧ x.getLsbD 1 = b ∧ x.getLsbD 2 = c ∧ x.getLsbD 3 = d ∧ x.getLsbD 4 = e ∧ x.getLsbD 5 = f
      ∧ x.getLsbD 6 = g ∧ x.getLsbD 7 = false := by decide

/-- R169: the reply function byte of a line record. -/
def LineRecord.functionByte (r : LineRecord) : Byte :=
  match r.replyFunction with
  | some f => f.setWidth 8
  | none => 0xFF#8

/-- R169: the health byte of a line record. -/
def LineRecord.healthByte (r : LineRecord) : Byte :=
  match r.health with
  | some h => h.code
  | none => 0#8

/-- R168: a line record byte by byte. -/
theorem LineRecord.bytes_eq (r : LineRecord) (lost : Byte) (head : Half) (phase : Bool) : r.bytes lost head phase =
    [r.kind.code, r.status.code, r.tag.extractLsb' 0 8, r.tag.extractLsb' 8 8, r.source, BitVec.ofNat 8 r.line.val, r.station,
      r.functionByte, (BitVec.ofNat 16 r.replyLength).extractLsb' 0 8, (BitVec.ofNat 16 r.replyLength).extractLsb' 8 8,
      BitVec.ofNat 8 r.attempts, BitVec.ofNat 8 r.waits, r.healthByte, r.flags.byte r.buffer.isSome, lost, 0#8,
      (r.buffer.getD 0).extractLsb' 0 8, (r.buffer.getD 0).extractLsb' 8 8, (r.buffer.getD 0).extractLsb' 16 8,
      (r.buffer.getD 0).extractLsb' 24 8, r.timestamp.extractLsb' 0 8, r.timestamp.extractLsb' 8 8,
      r.timestamp.extractLsb' 16 8, r.timestamp.extractLsb' 24 8, 0#8, 0#8, 0#8, 0#8,
      head.extractLsb' 0 8, head.extractLsb' 8 8, 0#8, if phase then 1#8 else 0#8] := rfl

/-- R168, R169: where a line record holds its fields. -/
theorem lineRecord_layout (r : LineRecord) (lost : Byte) (head : Half) (phase : Bool) (b : List Byte)
    (hb : b = r.bytes lost head phase) :
    b.length = 32 ∧ byteAt b 30 = 0#8 ∧ byteAt b 31 = (if phase then 1#8 else 0#8)
      ∧ byteAt b 0 = r.kind.code ∧ byteAt b 1 = r.status.code ∧ half b 2 = r.tag
      ∧ byteAt b 4 = r.source ∧ byteAt b 5 = BitVec.ofNat 8 r.line.val ∧ byteAt b 6 = r.station
      ∧ (r.replyFunction = none → byteAt b 7 = 0xFF#8)
      ∧ (∀ f, r.replyFunction = some f → byteAt b 7 = f.setWidth 8)
      ∧ half b 8 = BitVec.ofNat 16 r.replyLength ∧ byteAt b 10 = BitVec.ofNat 8 r.attempts
      ∧ byteAt b 11 = BitVec.ofNat 8 r.waits ∧ (r.health = none → byteAt b 12 = 0#8)
      ∧ (∀ x, r.health = some x → byteAt b 12 = x.code)
      ∧ ((byteAt b 13).getLsbD 0 = r.flags.abortLate ∧ (byteAt b 13).getLsbD 1 = r.flags.truncated
        ∧ (byteAt b 13).getLsbD 2 = r.flags.healthChanged ∧ (byteAt b 13).getLsbD 3 = r.flags.crcBad
        ∧ (byteAt b 13).getLsbD 4 = r.flags.charErr ∧ (byteAt b 13).getLsbD 5 = r.flags.overlong
        ∧ (byteAt b 13).getLsbD 6 = r.buffer.isSome ∧ (byteAt b 13).getLsbD 7 = false)
      ∧ byteAt b 14 = lost ∧ byteAt b 15 = 0#8 ∧ word b 16 = r.buffer.getD 0 ∧ word b 20 = r.timestamp
      ∧ word b 24 = 0#32 ∧ half b 28 = head := by
  rw [r.bytes_eq] at hb
  subst hb
  refine ⟨rfl, rfl, rfl, rfl, rfl, half_eq_of_bytes _, rfl, rfl, rfl, fun h => ?_, fun f h => ?_, half_eq_of_bytes _, rfl,
    rfl, fun h => ?_, fun x h => ?_, flagBits _ _ _ _ _ _ _, rfl, rfl, word_eq_of_bytes _, word_eq_of_bytes _, word_zero,
    half_eq_of_bytes _⟩
  · change r.functionByte = _
    rw [LineRecord.functionByte, h]
  · change r.functionByte = _
    rw [LineRecord.functionByte, h]
  · change r.healthByte = _
    rw [LineRecord.healthByte, h]
  · change r.healthByte = _
    rw [LineRecord.healthByte, h]

/-- R168: an ADMIN record byte by byte. -/
theorem AdminRecord.bytes_eq (r : AdminRecord) (now : Word) (head : Half) (phase : Bool) : r.bytes now head phase =
    [5#8, r.status.code, r.tag.extractLsb' 0 8, r.tag.extractLsb' 8 8, r.opcode, r.lineByte, 0#8, 0#8,
      (BitVec.ofNat 32 r.resultA).extractLsb' 0 8, (BitVec.ofNat 32 r.resultA).extractLsb' 8 8,
      (BitVec.ofNat 32 r.resultA).extractLsb' 16 8, (BitVec.ofNat 32 r.resultA).extractLsb' 24 8,
      (BitVec.ofNat 16 r.resultB).extractLsb' 0 8, (BitVec.ofNat 16 r.resultB).extractLsb' 8 8,
      (BitVec.ofNat 16 r.resultC).extractLsb' 0 8, (BitVec.ofNat 16 r.resultC).extractLsb' 8 8, 0#8, 0#8, 0#8, 0#8,
      now.extractLsb' 0 8, now.extractLsb' 8 8, now.extractLsb' 16 8, now.extractLsb' 24 8, 0#8, 0#8, 0#8, 0#8,
      head.extractLsb' 0 8, head.extractLsb' 8 8, 0#8, if phase then 1#8 else 0#8] := rfl

/-- R168: where an ADMIN record holds its fields. -/
theorem adminRecord_layout (r : AdminRecord) (now : Word) (head : Half) (phase : Bool) (b : List Byte)
    (hb : b = r.bytes now head phase) :
    b.length = 32 ∧ byteAt b 30 = 0#8 ∧ byteAt b 31 = (if phase then 1#8 else 0#8)
      ∧ byteAt b 0 = 5#8 ∧ byteAt b 1 = r.status.code ∧ half b 2 = r.tag ∧ byteAt b 4 = r.opcode
      ∧ byteAt b 5 = r.lineByte ∧ half b 6 = 0#16 ∧ word b 8 = BitVec.ofNat 32 r.resultA
      ∧ half b 12 = BitVec.ofNat 16 r.resultB ∧ half b 14 = BitVec.ofNat 16 r.resultC
      ∧ word b 16 = 0#32 ∧ word b 20 = now ∧ word b 24 = 0#32 ∧ half b 28 = head := by
  rw [r.bytes_eq] at hb
  subst hb
  exact ⟨rfl, rfl, rfl, rfl, rfl, half_eq_of_bytes _, rfl, rfl, half_zero, word_eq_of_bytes _, half_eq_of_bytes _,
    half_eq_of_bytes _, word_zero, word_eq_of_bytes _, word_zero, half_eq_of_bytes _⟩

theorem NoticeEvent.exists_fields (e : NoticeEvent) : ∃ a b c d x y, e.fields = [a, b, c, d, x, y] := by
  cases e <;> exact ⟨_, _, _, _, _, _, rfl⟩

/-- R168: a NOTICE record byte by byte. -/
theorem NoticeRecord.bytes_eq (r : NoticeRecord) (lost : Byte) (phase : Bool) {a b c d x y : Byte}
    (hf : r.event.fields = [a, b, c, d, x, y]) : r.bytes lost phase =
    [6#8, r.event.code, 0#8, 0#8, 0#8, a, b, c, d, x, y, 0#8, 0#8, 0#8, lost, 0#8, 0#8, 0#8, 0#8, 0#8,
      r.time.extractLsb' 0 8, r.time.extractLsb' 8 8, r.time.extractLsb' 16 8, r.time.extractLsb' 24 8, 0#8,
      0#8, 0#8, 0#8, (0xFFFF#16).extractLsb' 0 8, (0xFFFF#16).extractLsb' 8 8, 0#8, if phase then 1#8 else 0#8] := by
  rw [NoticeRecord.bytes, hf]
  rfl

/-- R164, R168: where a NOTICE record holds its fields. -/
theorem noticeRecord_layout (r : NoticeRecord) (lost : Byte) (phase : Bool) (b : List Byte) (hb : b = r.bytes lost phase) :
    b.length = 32 ∧ byteAt b 30 = 0#8 ∧ byteAt b 31 = (if phase then 1#8 else 0#8)
      ∧ byteAt b 0 = 6#8 ∧ byteAt b 1 = r.event.code ∧ half b 2 = 0#16 ∧ byteAt b 4 = 0#8
      ∧ (b.drop 5).take 6 = r.event.fields ∧ half b 11 = 0#16 ∧ byteAt b 13 = 0#8
      ∧ word b 15 = 0#32 ∧ byteAt b 19 = 0#8 ∧ word b 20 = r.time ∧ word b 24 = 0#32
      ∧ half b 28 = 0xFFFF#16 ∧ byteAt b 14 = lost := by
  obtain ⟨a1, a2, a3, a4, a5, a6, hf⟩ := r.event.exists_fields
  rw [r.bytes_eq lost phase hf] at hb
  rw [hf]
  subst hb
  exact ⟨rfl, rfl, rfl, rfl, rfl, half_zero, rfl, rfl, half_zero, rfl, word_zero, rfl, word_eq_of_bytes _, word_zero,
    half_eq_of_bytes _, rfl⟩

/-! ### Grants -/

theorem Cq.grantable_iff (q : Cq) : q.grantable = true ↔ q.state = .active ∧ q.unacked < q.size ∧ q.waiters ≠ [] := by
  simp only [Cq.grantable, Bool.and_eq_true, decide_eq_true_eq, Bool.not_eq_true', List.isEmpty_eq_false_iff, and_assoc]

section
variable {s : State} {i : CqId} {q : Cq}

theorem exec_slotGrant {w : Waiter} {rest : List Waiter} (hq : s.cqs[i] = some q) (hw : q.waiters = w :: rest)
    (hact : q.state = .active) (hroom : q.unacked < q.size) : exec (.slotGrant i) s =
      .next (((s.takeCounts w).setCq i (some q.granted)).issue w.poster.requester
        (q.slotWrite i w (s.recordBytes w q.phase))) := by
  have hgrant : q.grantable = true := q.grantable_iff.2 ⟨hact, hroom, hw ▸ List.cons_ne_nil w rest⟩
  change Host.Outcome.next (s.grantSlot i) = _
  unfold State.grantSlot
  rw [hq]
  dsimp only
  rw [hw]
  exact congrArg Host.Outcome.next (if_pos hgrant)

theorem exec_slotGrant_none (hq : s.cqs[i] = some q) (h : q.waiters = [] ∨ q.state = .faulted ∨ q.size ≤ q.unacked) :
    exec (.slotGrant i) s = .next s := by
  have hno : ¬q.grantable = true := by
    rw [q.grantable_iff]
    rintro ⟨hact, hroom, hne⟩
    rcases h with h | h | h
    · exact hne h
    · exact QueueState.noConfusion (hact.symm.trans h)
    · omega
  change Host.Outcome.next (s.grantSlot i) = _
  unfold State.grantSlot
  rw [hq]
  dsimp only
  split
  · exact congrArg Host.Outcome.next (if_neg hno)
  · rfl

theorem Cq.granted_eq {w : Waiter} {rest : List Waiter} (hw : q.waiters = w :: rest) : q.granted =
    { q with tail := if q.tail + 1 < q.size then q.tail + 1 else 0, unacked := q.unacked + 1, waiters := rest
             phase := if q.tail + 1 < q.size then q.phase else !q.phase } := by
  rw [Cq.granted, hw]
  rfl

/-! ### The counts a record takes -/

/-- What a grant leaves of the lines besides the counts its record takes. -/
def Line.SameButCounts (l m : Line) : Prop :=
  SameWire l m ∧ m.exch = l.exch ∧ m.stations = l.stations ∧ m.polls = l.polls

theorem Line.sameButCounts_setLine {n : LineId} {l : Line} (h : (s.line n).SameButCounts l) (m : LineId) :
    (s.line m).SameButCounts ((s.setLine n l).line m) := by
  rw [State.line_setLine]
  split
  · next hm => exact hm ▸ h
  · exact ⟨SameWire.refl _, rfl, rfl, rfl⟩

theorem State.takeCounts_frame (s : State) (w : Waiter) :
    (s.takeCounts w).cqs = s.cqs ∧ (s.takeCounts w).port = s.port ∧ (s.takeCounts w).sqs = s.sqs
      ∧ (s.takeCounts w).bqs = s.bqs ∧ SameWindow s (s.takeCounts w) ∧ SameHost s (s.takeCounts w)
      ∧ ∀ m, (s.line m).SameButCounts ((s.takeCounts w).line m) := by
  have hsame : ∀ m, (s.line m).SameButCounts (s.line m) := fun m => ⟨SameWire.refl _, rfl, rfl, rfl⟩
  have hmod (n : LineId) (f : Line → Line) (h : (s.line n).SameButCounts (f (s.line n))) (m : LineId) :
      (s.line m).SameButCounts ((s.modLine n f).line m) := Line.sameButCounts_setLine h m
  have hwindow := (Posts.refl s).window
  unfold State.takeCounts
  repeat' split
  all_goals refine ⟨rfl, rfl, rfl, rfl, hwindow, ⟨rfl, rfl⟩, ?_⟩
  · exact hmod _ _ ⟨⟨rfl, rfl, rfl, rfl, rfl, rfl, rfl, rfl⟩, rfl, rfl, rfl⟩
  · exact hmod _ _ ⟨sameWire_setMon _ _, rfl, rfl, rfl⟩
  all_goals exact hsame

/-- R109: the poll lost count goes with the POLL record. -/
theorem State.takeCounts_of_poll {w : Waiter} {r : LineRecord} (hw : w.record = .line r) (hk : r.kind = .poll) :
    ((s.takeCounts w).line r.line).pollLost = 0 := by
  rw [State.takeCounts, hw]
  dsimp only
  rw [hk]
  exact congrArg Line.pollLost (State.line_modLine_self ..)

/-- R119: a block whose record is written is in RECORDING. -/
theorem State.takeCounts_of_monitor {w : Waiter} {r : LineRecord} (hw : w.record = .line r) (hk : r.kind = .monitor) :
    ((s.takeCounts w).line r.line).mon.phase = .recording := by
  rw [State.takeCounts, hw]
  dsimp only
  rw [hk]
  exact congrArg (·.mon.phase) (State.line_modLine_self ..)

/-- R164: the notice lost count goes with the NOTICE record. -/
theorem State.takeCounts_of_notice {w : Waiter} {r : NoticeRecord} (hw : w.record = .notice r) :
    (s.takeCounts w).admin.noticeLost = 0 := by
  rw [State.takeCounts, hw]
  rfl

end

theorem State.sqHead_of_some {s : State} {i : SqId} {v : Sq} (h : s.sqs[i] = some v) : s.sqHead i = BitVec.ofNat 16 v.head := by
  rw [State.sqHead, h]

/-! ### The bytes of a record at its grant -/

section
variable {s : State} {w : Waiter} {phase : Bool}

/-- R109, R149, R168: the lost byte and the SQ head of a line record are those of its grant. -/
theorem State.recordBytes_of_line {r : LineRecord} (hw : w.record = .line r) :
    ∃ lost head, s.recordBytes w phase = r.bytes lost head phase
      ∧ (r.kind = .poll → lost = BitVec.ofNat 8 (s.line r.line).pollLost) ∧ (r.kind ≠ .poll → lost = BitVec.ofNat 8 r.lost)
      ∧ (r.sq = none → head = 0xFFFF#16) ∧ ∀ j v, r.sq = some j → s.sqs[j] = some v → head = BitVec.ofNat 16 v.head := by
  unfold State.recordBytes
  rw [hw]
  refine ⟨_, _, rfl, fun h => ?_, fun h => ?_, fun h => ?_, fun j v h hv => ?_⟩
  · rw [h]
  · split
    · next hk => exact absurd hk h
    · rfl
  · rw [h]
    rfl
  · rw [h]
    exact State.sqHead_of_some hv

theorem State.recordBytes_of_admin {r : AdminRecord} (hw : w.record = .admin r) :
    s.recordBytes w phase = r.bytes s.timebase (s.sqHead 0) phase := by
  rw [State.recordBytes, hw]

theorem State.recordBytes_of_notice {r : NoticeRecord} (hw : w.record = .notice r) :
    s.recordBytes w phase = r.bytes (BitVec.ofNat 8 s.admin.noticeLost) phase := by
  rw [State.recordBytes, hw]

/-- R154: every record is 32 bytes and ends with its phase. -/
theorem State.recordBytes_tail : (s.recordBytes w phase).length = 32 ∧ byteAt (s.recordBytes w phase) 30 = 0#8
    ∧ byteAt (s.recordBytes w phase) 31 = (if phase then 1#8 else 0#8) := by
  cases hw : w.record with
  | line r =>
    obtain ⟨lost, head, hb, -⟩ := State.recordBytes_of_line (s := s) (phase := phase) hw
    obtain ⟨hlen, hpad, hphase, -⟩ := lineRecord_layout r lost head phase _ hb
    exact ⟨hlen, hpad, hphase⟩
  | admin r =>
    obtain ⟨hlen, hpad, hphase, -⟩ := adminRecord_layout r s.timebase (s.sqHead 0) phase _ (State.recordBytes_of_admin hw)
    exact ⟨hlen, hpad, hphase⟩
  | notice r =>
    obtain ⟨hlen, hpad, hphase, -⟩ := noticeRecord_layout r _ phase _ (State.recordBytes_of_notice (s := s) hw)
    exact ⟨hlen, hpad, hphase⟩

end

/-- Settles O38. -/
theorem slotGrantTakesTheTail : Obligations.SlotGrantTakesTheTail := by
  unfold Obligations.SlotGrantTakesTheTail
  refine fun s i q hq => ⟨fun w rest hw hact hroom => ?_, exec_slotGrant_none hq⟩
  obtain ⟨hcqs, hport, hsqs, hbqs, hwindow, hhost, hlines⟩ := s.takeCounts_frame w
  obtain ⟨hlen, hpad, hphase⟩ := State.recordBytes_tail (s := s) (w := w) (phase := q.phase)
  have hissue (r : ReqId) (t : Transfer) : ((s.takeCounts w).issue r t).port = (s.issue r t).port :=
    congrArg (fun p : Port => { p with queues := p.queues.set r (p.queues[r] ++ [t]) }) hport
  refine ⟨_, s.recordBytes w q.phase, exec_slotGrant hq hw hact hroom, rfl, ?_, hlen, hpad, hphase, fun r hr => ?_,
    fun r v hr hv => ?_, fun r hr => ?_, hissue _ _, fun r hr hk => ?_, fun r hr => ?_,
    fun r hr hk => State.takeCounts_of_monitor hr hk, hlines, hwindow, hhost, hsqs, hbqs⟩
  · rw [← Cq.granted_eq hw]
    exact congrArg (fun v : Vector (Option Cq) 9 => v.set i (some q.granted)) hcqs
  · obtain ⟨lost, head, hb, -, hlost, hnone, hsome⟩ := State.recordBytes_of_line (s := s) (phase := q.phase) hr
    obtain ⟨-, -, -, hkind, hstatus, htag, hsource, hline, hstation, hnofn, hfn, hrlen, hattempts, hwaits, hnohealth, hhealth,
      hflags, hlostbyte, hzero, hbuffer, htime, hpad2, hhead⟩ := lineRecord_layout r lost head q.phase _ hb
    exact ⟨hkind, hstatus, htag, hsource, hline, hstation, hnofn, hfn, hrlen, hattempts, hwaits, hnohealth, hhealth, hflags,
      fun h => hlostbyte.trans (hlost h), hzero, hbuffer, htime, hpad2, fun h => hhead.trans (hnone h),
      fun j v hj hv => hhead.trans (hsome j v hj hv)⟩
  · obtain ⟨-, -, -, hkind, hstatus, htag, hop, hline, hpad1, ha, hb, hc, hpad2, htime, hpad3, hhead⟩ :=
      adminRecord_layout r s.timebase (s.sqHead 0) q.phase _ (State.recordBytes_of_admin hr)
    exact ⟨hkind, hstatus, htag, hop, hline, hpad1, ha, hb, hc, hpad2, htime, hpad3,
      hhead.trans (State.sqHead_of_some hv)⟩
  · obtain ⟨-, -, -, hkind, hcode, hpad1, hpad2, hfields, hpad3, hpad4, hpad5, hpad6, htime, hpad7, hhead, -⟩ :=
      noticeRecord_layout r _ q.phase _ (State.recordBytes_of_notice (s := s) hr)
    exact ⟨hkind, hcode, hpad1, hpad2, hfields, hpad3, hpad4, hpad5, hpad6, htime, hpad7, hhead⟩
  · obtain ⟨lost, head, hb, hlost, -⟩ := State.recordBytes_of_line (s := s) (phase := q.phase) hr
    obtain ⟨-, -, -, -, -, -, -, -, -, -, -, -, -, -, -, -, -, hlostbyte, -⟩ := lineRecord_layout r lost head q.phase _ hb
    exact ⟨hlostbyte.trans (hlost hk), State.takeCounts_of_poll hr hk⟩
  · obtain ⟨-, -, -, -, -, -, -, -, -, -, -, -, -, -, -, hlostbyte⟩ :=
      noticeRecord_layout r _ q.phase _ (State.recordBytes_of_notice (s := s) hr)
    exact ⟨hlostbyte, State.takeCounts_of_notice hr⟩

end Sys2Proof.Machine
end

