-- ==== Sys2Proof/Proofs/Discards.lean ====
section
/-! What monitor capture and discarded completions keep (R117 to R122, R156). -/

namespace Sys2Proof.Machine

/-! ### An induction principle for monitor capture -/

/-- A line that differs in monitor capture and the counters only. -/
def Line.MonitorOnly (l m : Line) : Prop := m = { l with mon := m.mon, counters := m.counters }

/-- What the operations monitor capture is made of keep. -/
structure KeptByMonitor (n : LineId) (P : State → Prop) : Prop where
  line : ∀ s l, (s.line n).MonitorOnly l → P s → P (s.setLine n l)
  bq : ∀ s q, P s → P (s.setBq n q)
  port : ∀ s r t, P s → P (s.issue r t)
  discard : ∀ s k, P s → P (s.discard k (.monitorBlock n))
  join : ∀ s k r, P s → P (s.joinCq k { poster := .bufferReturn n, record := r })

section
variable {n : LineId} {P : State → Prop} {s t : State}

theorem KeptByMonitor.setMon (h : KeptByMonitor n P) (hs : P s) (f : Monitor → Monitor) :
    P (s.modLine n (·.setMon f)) := h.line s _ rfl hs

theorem KeptByMonitor.promise (h : KeptByMonitor n P) (hs : P s) (q : Bq) (x : Taker) : P (s.promise n q x) :=
  h.port _ _ _ (h.bq s _ hs)

theorem KeptByMonitor.requestStaged (h : KeptByMonitor n P) (hs : P s) : P (s.requestStaged n) := by
  unfold State.requestStaged
  split
  · split
    · exact h.promise hs _ _
    · exact h.bq s _ hs
  · exact hs

theorem KeptByMonitor.headTakes (h : KeptByMonitor n P) (hs : P s) (k : CqId) (head : MonBlock) (d : Descriptor) :
    P (s.headTakes n k head d) := by
  unfold State.headTakes
  split
  · exact h.discard s k hs
  · exact h.port _ _ _ (h.setMon hs _)

theorem KeptByMonitor.headAsks (h : KeptByMonitor n P) (hs : P s) : P (s.headAsks n) := by
  unfold State.headAsks State.requestBuffer
  split
  · next s1 hs1 =>
    split at hs1
    · split at hs1
      · obtain rfl := Option.some.inj hs1
        exact h.setMon (h.promise hs _ _) _
      · cases hs1
    · cases hs1
  · exact h.line s _ rfl hs

theorem KeptByMonitor.settleSlot (h : KeptByMonitor n P) (hs : P s) (k : CqId) : P (s.settleSlot n k) := by
  unfold State.settleSlot
  split
  · exact h.join _ k _ (h.setMon hs _)
  · exact h.setMon hs _

theorem KeptByMonitor.monitorStep (h : KeptByMonitor n P) (hm : s.MonitorStep n t) (hs : P s) : P t := by
  cases hm with
  | asksSlot => exact h.requestStaged (h.setMon hs _)
  | takes k head d => exact h.headTakes hs k head d
  | asksHead => exact h.headAsks hs
  | waits => exact h.setMon hs _
  | settles k => exact h.settleSlot hs k

theorem KeptByMonitor.runMonitor (h : KeptByMonitor n P) (hs : P s) : P (s.runMonitor n) :=
  State.runMonitor_induction (fun _ _ => h.monitorStep) hs

theorem runMonitors_keeps (h : ∀ n, KeptByMonitor n P) (hs : P s) : P s.runMonitors := by
  unfold State.runMonitors
  generalize List.finRange 8 = ns
  induction ns generalizing s with
  | nil => exact hs
  | cons n ns ih => exact ih ((h n).runMonitor hs)

/-- Lines that capture nothing stand still. -/
theorem State.runMonitors_of_masters (h : ∀ n cfg, (s.line n).config = some cfg → cfg.mode = .master) : s.runMonitors = s := by
  have hstands (n : LineId) : s.runMonitor n = s := by
    refine State.runMonitor_of_stands (State.monitorMove_of_notMonitor fun cfg hcfg hmon => ?_)
    exact Mode.noConfusion ((h n cfg hcfg).symm.trans hmon)
  unfold State.runMonitors
  generalize List.finRange 8 = ns
  induction ns with
  | nil => rfl
  | cons n ns ih => exact (congrArg (fun t => ns.foldl State.runMonitor t) (hstands n)).trans ih

end

/-! ### One discarded completion -/

section
variable {s : State} {i k : CqId} {n : LineId} {p : Poster}

/-- R156: what a poster done with its completion makes of its own line. -/
def Poster.doneLine (p : Poster) (l : Line) : Line :=
  match p with
  | .exchange _ k => l.freeCtx k
  | .monitorBlock _ => l.leaveHead
  | .bufferReturn _ => l.bufferReturned
  | _ => l

theorem State.posterDone_of_line (hp : p.line = some n) : s.posterDone p = s.modLine n p.doneLine := by
  cases p with
  | exchange m k => cases hp; rfl
  | monitorBlock m => cases hp; rfl
  | bufferReturn m => cases hp; rfl
  | _ => cases hp

/-- R156: the discard is counted by the CQ. -/
def Cq.discarded (q : Cq) : Cq := { q with discards := bump 4294967295 q.discards }

/-- R156: the discard is counted by the line, and its poster is done. -/
def Line.discardedFor (l : Line) (p : Poster) : Line := p.doneLine (l.count fun c => { c with discarded := tally c.discarded })

theorem State.discard_eq (hp : p.line = some n) : s.discard i p =
    (s.setCq i (s.cqs[i].map Cq.discarded)).setLine n ((s.line n).discardedFor p) := by
  have hdone (u : State) : (u.modLine n (·.count fun c => { c with discarded := tally c.discarded })).posterDone p =
      u.setLine n ((u.line n).discardedFor p) :=
    (State.posterDone_of_line hp).trans (State.modLine_setLine u n _ _)
  unfold State.discard
  dsimp only
  rw [hp]
  cases hq : s.cqs[i] with
  | some q => exact hdone _
  | none =>
    have hset : s.cqs.set i none = s.cqs := by
      rw [← hq]
      exact Vector.set_getElem_self _
    exact (hdone s).trans (congrArg (fun v => ({ s with cqs := v } : State).setLine n ((s.line n).discardedFor p)) hset.symm)

theorem Line.discardedFor_counters (l : Line) (p : Poster) :
    (l.discardedFor p).counters.discarded = tally l.counters.discarded := by
  unfold Line.discardedFor Poster.doneLine
  split
  · rw [Line.freeCtx_eq]
    rfl
  all_goals rfl

/-- A context that is FREE and off the work list. -/
def Line.Free (l : Line) (k : CtxId) : Prop := l.ctx k = none ∧ k ∉ l.exch.work

theorem Line.free_freeCtx (l : Line) (k : CtxId) : (l.freeCtx k).Free k :=
  ⟨(l.ctx_freeCtx k k).trans (if_pos rfl), l.not_mem_work_freeCtx k⟩

theorem Line.Free.freeCtx {l : Line} {k : CtxId} (h : l.Free k) (j : CtxId) : (l.freeCtx j).Free k := by
  refine ⟨(l.ctx_freeCtx j k).trans ?_, ?_⟩
  · split
    · rfl
    · exact h.1
  · rw [l.freeCtx_eq j]
    exact fun hmem => h.2 (List.mem_of_mem_filter hmem)

theorem Line.Free.of_exch {l m : Line} {k : CtxId} (h : l.Free k) (he : m.exch = l.exch) : m.Free k :=
  ⟨(congrArg (fun x : ExchangeUnit => x.contexts[k]) he).trans h.1, he ▸ h.2⟩

theorem Line.Free.doneLine {l : Line} {k : CtxId} (h : l.Free k) (p : Poster) : (p.doneLine l).Free k := by
  unfold Poster.doneLine
  split
  · exact h.freeCtx _
  all_goals exact h.of_exch rfl

theorem Line.Free.discardedFor {l : Line} {k : CtxId} (h : l.Free k) (p : Poster) : (l.discardedFor p).Free k :=
  Line.Free.doneLine (h.of_exch rfl : (l.count _).Free k) p

end

/-! ### What lasts -/

/-- Context `k` of line `m` is FREE. -/
def State.FreeAt (s : State) (m : LineId) (k : CtxId) : Prop := (s.line m).Free k

/-- CQ `i` is FAULTED and nobody waits on it. -/
def State.DeadCq (s : State) (i : CqId) : Prop := ∃ r, s.cqs[i] = some r ∧ r.state = .faulted ∧ r.waiters = []

section
variable {s : State} {n m : LineId} {k : CtxId} {i j : CqId} {p : Poster}

theorem State.FreeAt.setLine {l : Line} (h : s.FreeAt m k) (hl : m = n → l.Free k) : (s.setLine n l).FreeAt m k := by
  unfold State.FreeAt
  rw [State.line_setLine]
  split
  · next hm => exact hl hm
  · exact h

theorem State.FreeAt.discard (h : s.FreeAt m k) (hp : p.line ≠ none) : (s.discard j p).FreeAt m k := by
  obtain ⟨n, hn⟩ := Option.ne_none_iff_exists'.1 hp
  rw [State.discard_eq hn]
  refine State.FreeAt.setLine (s := s.setCq j _) h fun hm => ?_
  exact Line.Free.discardedFor (hm ▸ h) p

theorem State.FreeAt.posterDone (h : s.FreeAt m k) (hp : p.line ≠ none) : (s.posterDone p).FreeAt m k := by
  obtain ⟨n, hn⟩ := Option.ne_none_iff_exists'.1 hp
  rw [State.posterDone_of_line hn]
  exact h.setLine fun hm => Line.Free.doneLine (hm ▸ h) p

theorem State.FreeAt.joinCq {w : Waiter} (h : s.FreeAt m k) (hp : w.poster.line ≠ none) : (s.joinCq j w).FreeAt m k := by
  unfold State.joinCq
  split
  · split
    · exact h
    · exact h.discard hp
  · exact h.posterDone hp

theorem freeAt_keptByMonitor : KeptByMonitor n (State.FreeAt · m k) where
  line _ _ hl h := h.setLine fun hm => Line.Free.of_exch (hm ▸ h) (congrArg Line.exch hl)
  bq _ _ h := h
  port _ _ _ h := h
  discard _ _ h := h.discard (Option.some_ne_none n)
  join _ _ _ h := h.joinCq (Option.some_ne_none n)

theorem State.DeadCq.discard (h : s.DeadCq i) (hp : p.line ≠ none) : (s.discard j p).DeadCq i := by
  obtain ⟨n, hn⟩ := Option.ne_none_iff_exists'.1 hp
  obtain ⟨r, hr, hst, hw⟩ := h
  rw [State.discard_eq hn]
  have hget : ((s.setCq j (s.cqs[j].map Cq.discarded)).setLine n ((s.line n).discardedFor p)).cqs[i]
      = if i = j then s.cqs[j].map Cq.discarded else s.cqs[i] := State.cq_setCq s j i _
  unfold State.DeadCq
  rw [hget]
  split
  · next hij =>
    refine ⟨r.discarded, ?_, hst, hw⟩
    rw [← hij, hr]
    rfl
  · exact ⟨r, hr, hst, hw⟩

theorem State.DeadCq.posterDone (h : s.DeadCq i) (hp : p.line ≠ none) : (s.posterDone p).DeadCq i := by
  obtain ⟨n, hn⟩ := Option.ne_none_iff_exists'.1 hp
  rw [State.posterDone_of_line hn]
  exact h

/-- R156: a record that would join a FAULTED CQ is discarded. -/
theorem State.DeadCq.joinCq {w : Waiter} (h : s.DeadCq i) (hp : w.poster.line ≠ none) : (s.joinCq j w).DeadCq i := by
  unfold State.joinCq
  split
  · next q hq =>
    split
    · next hact =>
      obtain ⟨r, hr, hst, hw⟩ := h
      refine ⟨r, (State.cq_setCq s j i _).trans ((if_neg ?_).trans hr), hst, hw⟩
      rintro rfl
      obtain rfl := Option.some.inj (hr.symm.trans hq)
      exact QueueState.noConfusion (hst.symm.trans hact)
    · exact h.discard hp
  · exact h.posterDone hp

theorem deadCq_keptByMonitor : KeptByMonitor n (State.DeadCq · i) where
  line _ _ _ h := h
  bq _ _ h := h
  port _ _ _ h := h
  discard _ _ h := h.discard (Option.some_ne_none n)
  join _ _ _ h := h.joinCq (Option.some_ne_none n)

/-- No transfer is on the host bus. -/
def State.PortIdle (s : State) : Prop := s.port.current = none

theorem State.port_posterDone (s : State) (p : Poster) : (s.posterDone p).port = s.port := by
  unfold State.posterDone
  split <;> rfl

theorem portIdle_keptByMonitor : KeptByMonitor n State.PortIdle where
  line _ _ _ h := h
  bq _ _ h := h
  port _ _ _ h := h
  discard s k h := by
    rw [State.discard_eq rfl]
    exact h
  join s k r h := by
    unfold State.joinCq
    split
    · split
      · exact h
      · rw [State.discard_eq rfl]
        exact h
    · exact h

end

end Sys2Proof.Machine
end

