-- ==== Sys2Proof/Proofs/Postings.lean ====
section
/-! Posted completions, the delay timer and the faults of a completion queue (R119, R122, R154, R156, R157, R161). -/

namespace Sys2Proof.Machine

/-! ### Saturating counts, taken several times -/

theorem bump_iterate (M d k : Nat) : (bump M)^[k + 1] d = min M (d + (k + 1)) := by
  induction k with
  | zero => exact bump_eq_min M d
  | succ k ih =>
    rw [Function.iterate_succ_apply', ih, bump_eq_min]
    omega

/-! ### Every completion of a CQ discarded -/

/-- R156: the completions of these waiters are discarded, one after the other. -/
def State.discardAll (s : State) (i : CqId) (ws : List Waiter) : State := ws.foldl (fun s w => s.discard i w.poster) s

/-- How many of the waiters belong to a line. -/
def waitersOf (n : LineId) (ws : List Waiter) : Nat := ws.countP fun x => decide (x.poster.line = some n)

section
variable {i : CqId} {ws : List Waiter}

theorem posts_discardAll (s : State) (i : CqId) (ws : List Waiter) : Posts s (s.discardAll i ws) :=
  posts_foldl (fun s (w : Waiter) => s.discard i w.poster) (fun s w => posts_discard s i w.poster) ws s

theorem untold_discardAll (hws : ∀ w ∈ ws, w.poster.line ≠ none) (s : State) : Untold s (s.discardAll i ws) :=
  untold_foldl ws (fun _ w hw => untold_discard (hws w hw) i) s

theorem deadCq_discardAll (hws : ∀ w ∈ ws, w.poster.line ≠ none) {s : State} (h : s.DeadCq i) :
    (s.discardAll i ws).DeadCq i := by
  induction ws generalizing s with
  | nil => exact h
  | cons w ws ih =>
    exact ih (fun x hx => hws x (List.mem_cons_of_mem w hx)) (h.discard (hws w List.mem_cons_self))

theorem freeAt_discardAll (hws : ∀ w ∈ ws, w.poster.line ≠ none) {s : State} {m : LineId} {k : CtxId}
    (h : s.FreeAt m k ∨ ∃ w ∈ ws, w.poster = .exchange m k) : (s.discardAll i ws).FreeAt m k := by
  induction ws generalizing s with
  | nil =>
    obtain h | ⟨w, hw, -⟩ := h
    · exact h
    · exact absurd hw List.not_mem_nil
  | cons w ws ih =>
    refine ih (s := s.discard i w.poster) (fun x hx => hws x (List.mem_cons_of_mem w hx)) ?_
    have hthis (hp : w.poster = .exchange m k) : (s.discard i w.poster).FreeAt m k := by
      rw [hp, State.discard_eq rfl]
      unfold State.FreeAt
      rw [State.line_setLine_self]
      exact Line.free_freeCtx _ k
    obtain h | ⟨x, hx, hp⟩ := h
    · exact .inl (h.discard (hws w List.mem_cons_self))
    · obtain rfl | hx := List.mem_cons.1 hx
      · exact .inl (hthis hp)
      · exact .inr ⟨x, hx, hp⟩

/-- R156: the CQ counts every one of them. -/
theorem cq_discardAll (hws : ∀ w ∈ ws, w.poster.line ≠ none) {s : State} {q : Cq} (hq : s.cqs[i] = some q) :
    (s.discardAll i ws).cqs[i] = some { q with discards := (bump 4294967295)^[ws.length] q.discards } := by
  induction ws generalizing s q with
  | nil => exact hq
  | cons w ws ih =>
    obtain ⟨n, hn⟩ := Option.ne_none_iff_exists'.1 (hws w List.mem_cons_self)
    refine ih (s := s.discard i w.poster) (q := q.discarded) (fun x hx => hws x (List.mem_cons_of_mem w hx)) ?_
    rw [State.discard_eq hn, hq]
    exact (State.cq_setCq s i i _).trans (if_pos rfl)

/-- R156: each line counts its own, and a line without one is left alone. -/
theorem line_discardAll (hws : ∀ w ∈ ws, w.poster.line ≠ none) (s : State) (n : LineId) :
    (waitersOf n ws = 0 → (s.discardAll i ws).line n = s.line n)
      ∧ ((s.discardAll i ws).line n).counters.discarded = tally^[waitersOf n ws] (s.line n).counters.discarded := by
  induction ws generalizing s with
  | nil => exact ⟨fun _ => rfl, rfl⟩
  | cons w ws ih =>
    obtain ⟨hsame, hcount⟩ := ih (fun x hx => hws x (List.mem_cons_of_mem w hx)) (s.discard i w.poster)
    obtain ⟨m, hm⟩ := Option.ne_none_iff_exists'.1 (hws w List.mem_cons_self)
    have hline : (s.discard i w.poster).line n = if n = m then (s.line m).discardedFor w.poster else s.line n := by
      rw [State.discard_eq hm]
      exact State.line_setLine _ m n _
    by_cases hn : n = m
    · obtain rfl := hn
      have hsucc : waitersOf n (w :: ws) = waitersOf n ws + 1 := List.countP_cons_of_pos (decide_eq_true hm)
      rw [if_pos rfl] at hline
      refine ⟨fun h0 => absurd (hsucc.symm.trans h0) (Nat.succ_ne_zero _), hcount.trans ?_⟩
      rw [hsucc, hline, Line.discardedFor_counters]
      rfl
    · have hskip : waitersOf n (w :: ws) = waitersOf n ws := by
        refine List.countP_cons_of_neg fun h => hn ?_
        exact Option.some.inj ((of_decide_eq_true h).symm.trans hm)
      rw [if_neg hn] at hline
      rw [hskip]
      exact ⟨fun h0 => (hsame h0).trans hline, hcount.trans (congrArg (fun l : Line => tally^[_] l.counters.discarded) hline)⟩

end

/-! ### The fault of a CQ -/

section
variable {s : State} {i : CqId} {q : Cq} {w : Waiter}

/-- R156, R161: the part with the CQ FAULTED and the notice handed on, before its waiters are discarded. -/
def State.cqFaulted (s : State) (i : CqId) (q : Cq) : State :=
  (s.setCq i (some { q with state := .faulted, waiters := [] })).handNotice (.queueFault .cq i.val .writeFault)

theorem State.faultCq_eq : s.faultCq i q w.poster = ((s.cqFaulted i q).discardAll i (w :: q.waiters)).runMonitors := rfl

theorem State.cq_cqFaulted (hi : i ≠ 0) :
    (s.cqFaulted i q).cqs[i] = some { q with state := .faulted, waiters := [] } :=
  (State.cq_handNotice_ne _ _ hi).trans ((State.cq_setCq s i i _).trans (if_pos rfl))

theorem State.line_cqFaulted (m : LineId) : (s.cqFaulted i q).line m = s.line m := State.line_handNotice _ _ m

theorem State.noticed_cqFaulted (hi : i ≠ 0) : Noticed s (s.cqFaulted i q) (.queueFault .cq i.val .writeFault) :=
  (noticed_handNotice (s.setCq i (some { q with state := .faulted, waiters := [] })) _).of_same rfl
    ((State.cq_setCq s i 0 _).trans (if_neg hi.symm)).symm rfl

/-- A notice handed on leaves the window, the host, the SQs and the lines. -/
theorem State.cqFaulted_frame : SameWindow s (s.cqFaulted i q) ∧ SameHost s (s.cqFaulted i q)
    ∧ (s.cqFaulted i q).sqs = s.sqs := by
  have h := posts_handNotice (s.setCq i (some { q with state := .faulted, waiters := [] })) (.queueFault .cq i.val .writeFault)
  exact ⟨h.window, h.host, h.sqs⟩

/-- R156, R161: the fault of a CQ that only posters of the lines wait on. -/
theorem faultCq_spec (hi : i ≠ 0) (hws : ∀ x ∈ w :: q.waiters, x.poster.line ≠ none) :
    (s.faultCq i q w.poster).DeadCq i ∧ Noticed s (s.faultCq i q w.poster) (.queueFault .cq i.val .writeFault)
      ∧ SameWindow s (s.faultCq i q w.poster) ∧ SameHost s (s.faultCq i q w.poster) ∧ (s.faultCq i q w.poster).sqs = s.sqs
      ∧ (∀ m, SameWire (s.line m) ((s.faultCq i q w.poster).line m))
      ∧ ∀ x ∈ w :: q.waiters, ∀ n k, x.poster = .exchange n k → (s.faultCq i q w.poster).FreeAt n k := by
  obtain ⟨hwindow, hhost, hsqs⟩ := State.cqFaulted_frame (s := s) (i := i) (q := q)
  have hposts := (posts_discardAll (s.cqFaulted i q) i (w :: q.waiters)).trans (posts_runMonitors _)
  have huntold := (untold_discardAll (i := i) hws (s.cqFaulted i q)).trans (untold_runMonitors _)
  have hdead : (s.cqFaulted i q).DeadCq i := ⟨_, State.cq_cqFaulted hi, rfl, rfl⟩
  rw [State.faultCq_eq]
  refine ⟨?_, ?_, hwindow.trans hposts.window, ⟨hposts.host.1.trans hhost.1, hposts.host.2.trans hhost.2⟩,
    hposts.sqs.trans hsqs, fun m => ?_, fun x hx n k hp => ?_⟩
  · exact runMonitors_keeps (P := (State.DeadCq · i)) (fun _ => deadCq_keptByMonitor) (deadCq_discardAll hws hdead)
  · exact (State.noticed_cqFaulted hi).untold huntold
  · have hwire := hposts.wires m
    rw [State.line_cqFaulted] at hwire
    exact hwire
  · exact runMonitors_keeps (P := (State.FreeAt · n k)) (fun _ => freeAt_keptByMonitor)
      (freeAt_discardAll hws (.inr ⟨x, hx, hp⟩))

/-- R156: the discards counted where no line captures. -/
theorem faultCq_counts (hi : i ≠ 0) (hws : ∀ x ∈ w :: q.waiters, x.poster.line ≠ none)
    (hmasters : ∀ n cfg, (s.line n).config = some cfg → cfg.mode = .master) :
    (s.faultCq i q w.poster).cqs[i] = some
        { q with state := .faulted, waiters := [], discards := min 4294967295 (q.discards + q.waiters.length + 1) }
      ∧ ∀ n, (waitersOf n (w :: q.waiters) = 0 → (s.faultCq i q w.poster).line n = s.line n)
          ∧ (1 ≤ waitersOf n (w :: q.waiters) → ((s.faultCq i q w.poster).line n).counters.discarded =
              min 4294967295 ((s.line n).counters.discarded + waitersOf n (w :: q.waiters))) := by
  have heq : s.faultCq i q w.poster = (s.cqFaulted i q).discardAll i (w :: q.waiters) := by
    refine State.faultCq_eq.trans (State.runMonitors_of_masters fun n cfg hcfg => ?_)
    obtain ⟨-, -, -, hconfig, -⟩ := (posts_discardAll (s.cqFaulted i q) i (w :: q.waiters)).wires n
    exact hmasters n cfg ((hconfig.trans (congrArg Line.config (State.line_cqFaulted n))).symm.trans hcfg)
  rw [heq]
  refine ⟨(cq_discardAll hws (State.cq_cqFaulted hi)).trans ?_, fun n => ?_⟩
  · rw [List.length_cons, bump_iterate, Nat.add_assoc]
  · obtain ⟨hsame, hcount⟩ := line_discardAll (i := i) hws (s.cqFaulted i q) n
    rw [State.line_cqFaulted] at hsame hcount
    refine ⟨hsame, fun h1 => hcount.trans ?_⟩
    obtain ⟨k, hk⟩ := Nat.exists_eq_succ_of_ne_zero (Nat.one_le_iff_ne_zero.1 h1)
    rw [hk]
    exact bump_iterate 4294967295 _ k

end

/-! ### Posted completions -/

section
variable {s : State} {i : CqId} {q : Cq} {w : Waiter} {n : LineId}

theorem exec_completionWriteDone {data : Option (List Byte)} (h : s.Ended (.completion i w) data) :
    exec .completionWriteDone s = .next (s.portFree.completionEnded i w data) := exec_taker h

/-- R154: the slot is posted, the poster done, and its monitor capture moves on. -/
def State.slotPosted (s : State) (i : CqId) (q : Cq) (p : Poster) : State :=
  ((s.setCq i (some (q.posted s.timebase))).posterDone p).runPosterMonitor p

theorem State.completionEnded_done (hq : s.cqs[i] = some q) (b : List Byte) :
    s.completionEnded i w (some b) = s.slotPosted i q w.poster := by
  unfold State.completionEnded
  rw [hq]
  rfl

theorem State.completionEnded_fault (hq : s.cqs[i] = some q) (hi : i ≠ 0) (hact : q.state = .active) :
    s.completionEnded i w none = s.faultCq i q w.poster := by
  unfold State.completionEnded
  rw [hq]
  dsimp only
  rw [if_neg hi, hact]

/-- R157. -/
theorem Cq.posted_eq (q : Cq) (now : Word) : q.posted now =
    { q with pending := decide (q.threshold ≤ q.unacked) || q.pending
             timer := if q.threshold ≤ q.unacked then none
               else if q.timer = none ∧ q.pending = false ∧ q.delay ≠ 0 then some (now + BitVec.ofNat 32 q.delay)
               else q.timer } := by
  unfold Cq.posted
  split
  · next h => rw [decide_eq_true h, Bool.true_or]
  · next h =>
    rw [decide_eq_false h, Bool.false_or]
    split <;> rfl

theorem State.slotPosted_frame (p : Poster) :
    SameCqIndices (some (q.posted s.timebase)) (s.slotPosted i q p).cqs[i] ∧ SameWindow s (s.slotPosted i q p)
      ∧ SameHost s (s.slotPosted i q p) ∧ (s.slotPosted i q p).sqs = s.sqs := by
  have hposts := (posts_posterDone (s.setCq i (some (q.posted s.timebase))) p).trans (posts_runPosterMonitor _ p)
  have hcq := hposts.cqs i
  rw [State.cq_setCq, if_pos rfl] at hcq
  exact ⟨hcq, hposts.window, hposts.host, hposts.sqs⟩

theorem State.slotPosted_portIdle (h : s.PortIdle) (p : Poster) : (s.slotPosted i q p).PortIdle := by
  have hdone : ((s.setCq i (some (q.posted s.timebase))).posterDone p).PortIdle :=
    (congrArg Port.current (State.port_posterDone _ p)).trans h
  unfold State.slotPosted State.runPosterMonitor
  split
  · exact portIdle_keptByMonitor.runMonitor hdone
  · exact portIdle_keptByMonitor.runMonitor hdone
  · exact hdone

/-- R122: a buffer handed back settles the line. -/
theorem State.slotPosted_bufferReturn (hst : (s.line n).state = .draining) (hlist : (s.line n).mon.list = []) :
    s.slotPosted i q (.bufferReturn n) =
      (s.setCq i (some (q.posted s.timebase))).modLine n Line.bufferReturned := by
  have hline := State.line_modLine_self (s.setCq i (some (q.posted s.timebase))) n Line.bufferReturned
  refine State.runMonitor_of_stands ?_
  change State.monitorMove ((s.setCq i (some (q.posted s.timebase))).modLine n Line.bufferReturned) n = none
  by_cases hmon : ∃ cfg, (s.line n).config = some cfg ∧ cfg.mode = .monitor
  · obtain ⟨cfg, hcfg, hmode⟩ := hmon
    rw [State.monitorMove_of_nil (cfg := cfg) (by rw [hline]; exact hcfg) hmode
      (by rw [hline]; exact fun h => LineState.not_staging_of_draining hst h.1) (by rw [hline]; exact hlist), hline]
    exact if_neg fun h => nomatch h.2.1
  · refine State.monitorMove_of_notMonitor fun cfg hcfg hmode => hmon ⟨cfg, ?_, hmode⟩
    rw [hline] at hcfg
    exact hcfg

/-- R119: a captured block leaves the pending list, and the next one waits for the buffer asked for. -/
theorem State.slotPosted_monitorBlock {cfg : LineConfig} {head : MonBlock} {rest : List MonBlock}
    (hcfg : (s.line n).config = some cfg) (hmode : cfg.mode = .monitor) (hst : (s.line n).state ≠ .draining)
    (hslot : (s.line n).mon.slot = .requested) (hlist : (s.line n).mon.list = head :: rest) :
    s.slotPosted i q (.monitorBlock n) = (s.setCq i (some (q.posted s.timebase))).setLine n
      { s.line n with mon := { (s.line n).mon with
        list := rest, phase := if rest = [] then .idle else .bufferWait } } := by
  let s1 := s.setCq i (some (q.posted s.timebase))
  let l1 : Line := { s.line n with mon := { (s.line n).mon with list := rest, phase := .idle } }
  have hdone : s1.posterDone (.monitorBlock n) = s1.setLine n l1 :=
    congrArg (fun xs : List MonBlock => s1.setLine n
      { s.line n with mon := { (s.line n).mon with list := xs.tail, phase := .idle } }) hlist
  have hline (l : Line) : (s1.setLine n l).line n = l := State.line_setLine_self s1 n l
  have hmove (l : Line) (hc : l.config = some cfg) (hs : l.mon.slot = .requested) {h2 : MonBlock} {r2 : List MonBlock}
      (hl : l.mon.list = h2 :: r2) : (s1.setLine n l).monitorMove n = (s1.setLine n l).headMove n cfg.lineCq h2 :=
    State.monitorMove_of_cons (by rw [hline]; exact hc) hmode (by rw [hline, hs]; exact nofun ∘ And.right)
      (by rw [hline]; exact hl)
  change (s1.posterDone (.monitorBlock n)).runMonitor n = _
  rw [hdone]
  cases hrest : rest with
  | nil =>
    refine (State.runMonitor_of_stands ?_).trans (by rw [if_pos rfl]; exact congrArg (fun xs => s1.setLine n
      { s.line n with mon := { (s.line n).mon with list := xs, phase := .idle } }) hrest)
    rw [State.monitorMove_of_nil (cfg := cfg) (by rw [hline]; exact hcfg) hmode
      (by rw [hline]; exact fun h => StagedSlot.noConfusion (hslot.symm.trans h.2)) (by rw [hline]; exact hrest), hline]
    exact if_neg fun h => hst h.1
  | cons h2 r2 =>
    let l2 : Line := { s.line n with mon := { (s.line n).mon with list := h2 :: r2, phase := .bufferWait } }
    have hmove1 : (s1.setLine n l1).monitorMove n = some (s1.setLine n l2) := by
      rw [hmove l1 hcfg hslot (show l1.mon.list = _ from hrest), State.headMove, hline]
      rw [if_pos (show l1.mon.phase = .idle ∨ l1.mon.phase = .bufferWait from .inl rfl),
        show l1.mon.slot = .requested from hslot]
      refine (if_pos rfl).trans (congrArg some ((State.modLine_setLine s1 n l1 _).trans ?_))
      exact congrArg (fun xs : List MonBlock => s1.setLine n
        { s.line n with mon := { (s.line n).mon with list := xs, phase := .bufferWait } }) hrest
    have hmove2 : (s1.setLine n l2).monitorMove n = none := by
      rw [hmove l2 hcfg hslot rfl, State.headMove, hline,
        if_pos (show l2.mon.phase = .idle ∨ l2.mon.phase = .bufferWait from .inr rfl),
        show l2.mon.slot = .requested from hslot]
      exact if_neg nofun
    rw [if_neg (List.cons_ne_nil h2 r2)]
    exact State.runMonitor_of_one_move hmove1 hmove2

theorem exec_delayTimerExpiry (hq : s.cqs[i] = some q) : exec (.delayTimerExpiry i) s =
    .next (if expired s.timebase q.timer then s.setCq i (some q.timerExpired) else s) := by
  change execDelayTimerExpiry i s = _
  rw [execDelayTimerExpiry, hq]

end

/-- R182: the pending entry a completion was for leaves the pending list. -/
theorem eraseP_pendingEntry {work : PendingWork} {before later : List PendingEntry} {e : PendingEntry} (hwork : e.work = work)
    (hfin : e.finished = true) (hbefore : ∀ x ∈ before, x.work ≠ work ∨ x.finished = false) :
    (before ++ e :: later).eraseP (fun e => decide (e.work = work) && e.finished) = before ++ later := by
  rw [List.eraseP_append_right _ fun x hx => ?_, List.eraseP_cons_of_pos]
  · rw [hwork, hfin, decide_eq_true rfl]
    rfl
  · rw [Bool.and_eq_true, decide_eq_true_eq]
    rintro ⟨h1, h2⟩
    exact (hbefore x hx).elim (absurd h1) fun h => Bool.noConfusion (h.symm.trans h2)

/-- Settles O39. -/
theorem postingFreesThePoster : Obligations.PostingFreesThePoster := by
  unfold Obligations.PostingFreesThePoster
  refine ⟨fun s i q w b hend hq => ?_, fun s i q hq => ⟨fun t ht hpast => ?_, fun hahead => ?_⟩,
    fun s i q w hend hq hi hact hws => ?_⟩
  · obtain ⟨hcq, hwindow, hhost, hsqs⟩ := State.slotPosted_frame (s := s.portFree) (i := i) (q := q) w.poster
    have hidle : (s.portFree.slotPosted i q w.poster).PortIdle := State.slotPosted_portIdle (s := s.portFree) rfl _
    rw [Cq.posted_eq] at hcq
    refine ⟨s.portFree.slotPosted i q w.poster, (exec_completionWriteDone hend).trans (congrArg Host.Outcome.next
      (State.completionEnded_done (s := s.portFree) hq b)), hidle, hcq, fun n k hp => ?_, fun hp => ?_, fun hp => ?_,
      fun work hp before later e hlist hwork hfin hbefore => ?_, fun n l cfg head rest hp hl hcfg hmode hst hslot hlist => ?_,
      fun n l hp hl hst hlist => ?_, hwindow, hhost, hsqs⟩
    all_goals rw [hp]
    · have hline := State.line_modLine_self (s.portFree.setCq i (some (q.posted s.timebase))) n (·.freeCtx k)
      obtain ⟨hfree, hwork⟩ := Line.free_freeCtx (s.line n) k
      exact ⟨(congrArg (Line.ctx · k) hline).trans hfree, fun h => hwork (congrArg (·.exch.work) hline ▸ h),
        fun m hm => State.line_modLine_ne _ _ hm⟩
    · exact ⟨rfl, rfl, rfl⟩
    · exact ⟨rfl, rfl⟩
    · refine ⟨?_, rfl⟩
      exact (congrArg (List.eraseP _) hlist).trans (eraseP_pendingEntry hwork hfin hbefore)
    · subst hl
      rw [State.slotPosted_monitorBlock (s := s.portFree) hcfg hmode hst hslot hlist]
      exact ⟨State.line_setLine_self .., fun m hm => State.line_setLine_ne _ _ hm⟩
    · subst hl
      rw [State.slotPosted_bufferReturn (s := s.portFree) hst hlist]
      exact ⟨State.line_modLine_self .., fun m hm => State.line_modLine_ne _ _ hm⟩
  · refine (exec_delayTimerExpiry hq).trans (congrArg Host.Outcome.next (if_pos ?_))
    rw [ht]
    exact (expired_iff _ _).2 hpast
  · refine (exec_delayTimerExpiry hq).trans (congrArg Host.Outcome.next (if_neg ?_))
    cases ht : q.timer with
    | none => exact Bool.false_ne_true
    | some t => exact mt (expired_iff _ _).1 (Nat.not_lt.2 (hahead t ht))
  · obtain ⟨⟨r, hr, hst, hw⟩, hnoticed, hwindow, hhost, hsqs, hwires, hfree⟩ :=
      faultCq_spec (s := s.portFree) (q := q) (w := w) hi hws
    refine ⟨s.portFree.faultCq i q w.poster, r, (exec_completionWriteDone hend).trans (congrArg Host.Outcome.next
      (State.completionEnded_fault (s := s.portFree) hq hi hact)), hr, hst, hw, hnoticed, hwindow, hhost, hsqs, hwires, hfree,
      fun hmasters => ?_⟩
    obtain ⟨hcq, hlines⟩ := faultCq_counts (s := s.portFree) (q := q) (w := w) hi hws hmasters
    obtain rfl := Option.some.inj (hr.symm.trans hcq)
    refine ⟨rfl, ?_⟩
    rintro n count rfl
    exact hlines n

end Sys2Proof.Machine
end

