-- ==== Sys2Proof/Proofs/ContextFolds.lean ====
section
/-! Operations on every context of a work list that passes a test (R66 to R69, R132, R135; log entry 41). -/

namespace Sys2Proof.Machine

/-- What an operation on context `i` of line `n` leaves as it was: everything outside the line but what posting may touch,
the admin unit, the line's other contexts, and what its wires, state and configuration say. -/
structure OnContext (n : LineId) (i : CtxId) (s t : State) : Prop where
  only : OnlyLine n s t
  untold : Untold s t
  others : ∀ j, j ≠ i → (t.line n).ctx j = (s.line n).ctx j
  rx : (t.line n).rx = (s.line n).rx
  state : (t.line n).state = (s.line n).state
  config : (t.line n).config = (s.line n).config
  stop : (t.line n).stop = (s.line n).stop
  carrier : (t.line n).carrier = (s.line n).carrier
  settle : (t.line n).exch.settle = (s.line n).exch.settle

/-- What the operations on the contexts of a line leave together. -/
structure OnContexts (n : LineId) (s t : State) : Prop where
  only : OnlyLine n s t
  untold : Untold s t
  rx : (t.line n).rx = (s.line n).rx
  state : (t.line n).state = (s.line n).state
  config : (t.line n).config = (s.line n).config
  stop : (t.line n).stop = (s.line n).stop
  carrier : (t.line n).carrier = (s.line n).carrier
  settle : (t.line n).exch.settle = (s.line n).exch.settle

section
variable {s t u : State} {n : LineId} {i : CtxId}

theorem OnContext.refl (s : State) : OnContext n i s s :=
  ⟨.refl s, .refl s, fun _ _ => rfl, rfl, rfl, rfl, rfl, rfl, rfl⟩

theorem OnContext.trans (h : OnContext n i s t) (k : OnContext n i t u) : OnContext n i s u :=
  ⟨h.only.trans k.only, h.untold.trans k.untold, fun j hj => (k.others j hj).trans (h.others j hj), k.rx.trans h.rx,
    k.state.trans h.state, k.config.trans h.config, k.stop.trans h.stop, k.carrier.trans h.carrier, k.settle.trans h.settle⟩

theorem OnContext.all (h : OnContext n i s t) : OnContexts n s t :=
  ⟨h.only, h.untold, h.rx, h.state, h.config, h.stop, h.carrier, h.settle⟩

theorem OnContexts.refl (s : State) : OnContexts n s s := (OnContext.refl (i := 0) s).all

theorem OnContexts.trans (h : OnContexts n s t) (k : OnContexts n t u) : OnContexts n s u :=
  ⟨h.only.trans k.only, h.untold.trans k.untold, k.rx.trans h.rx, k.state.trans h.state, k.config.trans h.config,
    k.stop.trans h.stop, k.carrier.trans h.carrier, k.settle.trans h.settle⟩

theorem ActsOn.onContext (h : ActsOn n i s t) (hu : Untold s t) : OnContext n i s t := by
  obtain ⟨-, hrx, hstate, hconfig, hstop, hcarrier, -⟩ := h.posts.wires n
  exact ⟨h.onlyLine, hu, h.line.ctxs, hrx, hstate, hconfig, hstop, hcarrier, h.line.settle⟩

theorem onContext_setCtx (s : State) (c : Ctx) : OnContext n i s (s.setCtx n i c) :=
  (actsOn_setCtx s c).onContext (untold_setCtx s n i c)

theorem onContext_endExchange (s : State) (e : Ending) : OnContext n i s (s.endExchange n i e) :=
  (actsOn_endExchange s e).onContext (untold_endExchange s n i e)

/-- R25: a withdrawal touches the transmitter only. -/
theorem Line.withdraw_eq (l : Line) (i : CtxId) : l.withdraw i = { l with tx := (l.withdraw i).tx } := by
  unfold Line.withdraw
  split <;> rfl

theorem onContext_withdraw (s : State) (j : CtxId) : OnContext n i s (s.modLine n (·.withdraw j)) := by
  have field {α : Type} (f : Line → α) := congrArg f ((State.line_modLine_self s n (·.withdraw j)).trans (Line.withdraw_eq _ j))
  exact ⟨onlyLine_modLine s _, untold_modLine s n _, fun k _ => field (Line.ctx · k), field Line.rx, field Line.state,
    field Line.config, field Line.stop, field Line.carrier, field (·.exch.settle)⟩

theorem onContext_endAborted (s : State) : OnContext n i s (s.endAborted n i) :=
  (onContext_withdraw s i).trans (onContext_endExchange _ _)

theorem onContext_endByCarrier (s : State) : OnContext n i s (s.endByCarrier n i) := by
  unfold State.endByCarrier
  split
  · exact onContext_endExchange s _
  · exact .refl s

theorem onContext_abortOne (s : State) : OnContext n i s (State.abortOne n s i) := by
  unfold State.abortOne
  split
  · split
    · exact onContext_endAborted s
    · exact onContext_endAborted s
    · exact onContext_endAborted s
    · exact onContext_setCtx s _
    · exact onContext_setCtx s _
    · exact onContext_setCtx s _
    · exact onContext_setCtx s _
    · exact .refl s
  · exact .refl s

end

/-! ### Folds -/

section
variable {n : LineId} {f : State → CtxId → State}

theorem onContexts_foldl (hf : ∀ s i, OnContext n i s (f s i)) (xs : List CtxId) : ∀ s, OnContexts n s (xs.foldl f s) := by
  induction xs with
  | nil => exact .refl
  | cons x xs ih => exact fun s => (hf s x).all.trans (ih _)

theorem onContexts_forContexts (hf : ∀ s i, OnContext n i s (f s i)) (s : State) (sel : Ctx → Bool) :
    OnContexts n s (s.forContexts n sel f) := onContexts_foldl hf _ s

/-- A context the operations pass by. -/
theorem ctx_foldl_of_not_mem (hf : ∀ s i, OnContext n i s (f s i)) {i : CtxId} {xs : List CtxId} (hi : i ∉ xs) :
    ∀ s, ((xs.foldl f s).line n).ctx i = (s.line n).ctx i := by
  induction xs with
  | nil => exact fun _ => rfl
  | cons x xs ih =>
    intro s
    exact (ih (fun h => hi (List.mem_cons_of_mem x h)) (f s x)).trans
      ((hf s x).others i fun h => hi (h ▸ List.mem_cons_self))

/-- A context the operation meets, once or again: what one operation does of it, where doing it again changes nothing of
what is said. -/
theorem ctx_foldl_of_mem (hf : ∀ s i, OnContext n i s (f s i)) {Inv : State → Prop} {i : CtxId}
    {R : Option Ctx → Option Ctx → Prop} (hinv : ∀ s j, Inv s → Inv (f s j))
    (hstep : ∀ s, Inv s → R ((s.line n).ctx i) (((f s i).line n).ctx i)) (htrans : ∀ a b c, R a b → R b c → R a c)
    {xs : List CtxId} (hi : i ∈ xs) : ∀ s, Inv s → R ((s.line n).ctx i) (((xs.foldl f s).line n).ctx i) := by
  induction xs with
  | nil => exact absurd hi List.not_mem_nil
  | cons x xs ih =>
    intro s hs
    by_cases hx : i = x
    · obtain rfl := hx
      by_cases hmem : i ∈ xs
      · exact htrans _ _ _ (hstep s hs) (ih hmem (f s i) (hinv s i hs))
      · exact (ctx_foldl_of_not_mem hf hmem (f s i)).symm ▸ hstep s hs
    · have hmem : i ∈ xs := (List.mem_cons.1 hi).resolve_left hx
      exact (hf s x).others i hx ▸ ih hmem (f s x) (hinv s x hs)

/-- The contexts of the work list a test names. -/
def State.chosen (s : State) (n : LineId) (sel : Ctx → Bool) : List CtxId :=
  (s.line n).exch.work.filter fun i => match (s.line n).ctx i with
    | some c => sel c
    | none => false

theorem State.forContexts_eq (s : State) (sel : Ctx → Bool) : s.forContexts n sel f = (s.chosen n sel).foldl f s := rfl

theorem mem_chosen {s : State} {sel : Ctx → Bool} {i : CtxId} {c : Ctx} (hc : (s.line n).ctx i = some c) :
    i ∈ s.chosen n sel ↔ i ∈ (s.line n).exch.work ∧ sel c = true := by
  rw [State.chosen, List.mem_filter, hc]

/-- A context the test passes by is left alone. -/
theorem ctx_forContexts_of_not (hf : ∀ s i, OnContext n i s (f s i)) {s : State} {sel : Ctx → Bool} {i : CtxId} {c : Ctx}
    (hc : (s.line n).ctx i = some c) (hsel : sel c = false) : ((s.forContexts n sel f).line n).ctx i = some c := by
  refine (ctx_foldl_of_not_mem hf (fun h => ?_) s).trans hc
  exact Bool.noConfusion (hsel.symm.trans ((mem_chosen hc).1 h).2)

/-- A context of the work list the test names is acted on. -/
theorem ctx_forContexts_of_mem (hf : ∀ s i, OnContext n i s (f s i)) {Inv : State → Prop} {i : CtxId}
    {R : Option Ctx → Option Ctx → Prop} (hinv : ∀ s j, Inv s → Inv (f s j))
    (hstep : ∀ s, Inv s → R ((s.line n).ctx i) (((f s i).line n).ctx i)) (htrans : ∀ a b c, R a b → R b c → R a c)
    {s : State} {sel : Ctx → Bool} {c : Ctx} (hs : Inv s) (hi : i ∈ (s.line n).exch.work) (hc : (s.line n).ctx i = some c)
    (hsel : sel c = true) : R (some c) (((s.forContexts n sel f).line n).ctx i) :=
  hc ▸ ctx_foldl_of_mem hf hinv hstep htrans ((mem_chosen hc).2 ⟨hi, hsel⟩) s hs

end

/-! ### Endings without a reply -/

section
variable {s : State} {n : LineId} {i : CtxId} {c : Ctx}

/-- R60 to R69: a context that ends without a good reply is in POSTING with the status of its ending, unless it has been
freed at once. -/
def EndedWith (st : Status) (o : Option Ctx) : Prop :=
  ∀ d, o = some d → d.state = .posting ∧ ∃ r, d.result = some r ∧ r.status = st

theorem endedWith_none (st : Status) : EndedWith st none := fun d h => absurd h.symm (Option.some_ne_none d)

theorem State.ctx_readyToComplete (hc : (s.line n).ctx i = some c) :
    ((s.readyToComplete n i).line n).ctx i = none ∨ ((s.readyToComplete n i).line n).ctx i = some c := by
  have hfreed (u : State) : ((u.modLine n (·.freeCtx i)).line n).ctx i = none := by
    rw [State.line_modLine_self]
    exact (Line.ctx_freeCtx _ i i).trans (if_pos rfl)
  unfold State.readyToComplete
  rw [hc]
  dsimp only
  split
  · unfold State.joinCq
    split
    · split
      · exact .inr hc
      · left
        rw [State.discard_eq rfl, State.line_setLine_self]
        exact (Line.ctx_freeCtx _ i i).trans (if_pos rfl)
    · exact .inl (hfreed s)
  · exact .inl (hfreed s)

theorem endedWith_endExchange {e : Ending} (hg : e.status.good = false) :
    EndedWith e.status (((s.endExchange n i e).line n).ctx i) := by
  cases hc : (s.line n).ctx i with
  | none =>
    have heq : s.endExchange n i e = s := by
      unfold State.endExchange
      dsimp only
      rw [hc]
    rw [heq, hc]
    exact endedWith_none _
  | some c =>
    rw [endExchange_eq hc]
    generalize hs1 : s.setLine n ((s.line n).resulted i c e) = s1
    have hc1 : (s1.line n).ctx i = some { c with state := .posting, result := some ((s.line n).resultOf c e) } := by
      rw [← hs1, State.line_setLine_self]
      exact Line.resulted_ctx _ i c e
    have hgood : ((s.line n).resultOf c e).status.good = false := hg
    have hneeds : Ctx.needsBuffer { c with state := .posting, result := some ((s.line n).resultOf c e) }
        ((s.line n).resultOf c e) = false := by
      simp [Ctx.needsBuffer, hgood]
    have hready (u : State) (hu : (u.line n).ctx i
        = some { c with state := .posting, result := some ((s.line n).resultOf c e) }) :
        EndedWith e.status (((u.readyToComplete n i).line n).ctx i) := by
      intro d hd
      obtain h | h := State.ctx_readyToComplete hu
      · exact absurd (hd.symm.trans h) (Option.some_ne_none d)
      · obtain rfl := Option.some.inj (hd.symm.trans h)
        exact ⟨rfl, _, rfl, rfl⟩
    cases ho : c.origin with
    | host sq tag =>
      rw [State.enterPosting_of_host hc1 ho, if_neg (by rw [show c.needsBuffer _ = false from hneeds]; exact Bool.false_ne_true),
        writeReply_plain hc1 rfl hgood]
      exact hready s1 hc1
    | poll e1 =>
      rw [State.enterPosting_of_poll hc1 ho, State.settlePoll]
      have hfreed (f : Line → Line) (hf : ∀ l, (f l).ctx i = none) :
          EndedWith e.status (((s1.modLine n f).line n).ctx i) := by
        rw [State.line_modLine_self, hf]
        exact endedWith_none _
      split
      · split
        · exact hfreed _ fun l => (Line.ctx_freeCtx _ i i).trans (if_pos rfl)
        · rw [hneeds, if_neg Bool.false_ne_true]
          refine hready _ ?_
          rw [State.line_modLine_self]
          exact hc1
      · exact hfreed _ fun l => (Line.ctx_freeCtx _ i i).trans (if_pos rfl)

theorem endedWith_endAborted (s : State) : EndedWith .aborted (((s.endAborted n i).line n).ctx i) :=
  endedWith_endExchange (e := { status := .aborted, endTime := s.timebase }) rfl

end

end Sys2Proof.Machine
end

