-- ==== Sys2Proof/Proofs/Aborts.lean ====
section
/-! ABORT (R53, R66, R67, R188). -/

namespace Sys2Proof.Machine

/-! ### One context -/

/-- R67: what an abort of a context makes of it. -/
def AbortStep (a b : Option Ctx) : Prop :=
  (a = none → b = none) ∧ ∀ c, a = some c →
    (c.state = .queued ∨ c.state = .retryWait ∨ (∃ x, c.state = .holding x) → EndedWith .aborted b)
    ∧ (c.state = .talking ∨ c.state = .listening → b = some { c with abortRequested := true })
    ∧ (c.state = .admission → b = some { c with abortAtAdmission := true })
    ∧ (c.state = .settling → b = some { c with abortLate := true })
    ∧ (c.state = .posting → b = some c)

section
variable {s : State} {n : LineId} {i : CtxId} {c : Ctx}

theorem State.abortOne_of_none (hc : (s.line n).ctx i = none) : State.abortOne n s i = s := by
  unfold State.abortOne
  rw [hc]

theorem State.abortOne_of_waiting (hc : (s.line n).ctx i = some c)
    (hst : c.state = .queued ∨ c.state = .retryWait ∨ ∃ x, c.state = .holding x) :
    State.abortOne n s i = s.endAborted n i := by
  unfold State.abortOne
  rw [hc]
  dsimp only
  obtain hst | hst | ⟨x, hst⟩ := hst <;> rw [hst]

theorem State.abortOne_of_sent (hc : (s.line n).ctx i = some c) (hst : c.state = .talking ∨ c.state = .listening) :
    State.abortOne n s i = s.setCtx n i { c with abortRequested := true } := by
  unfold State.abortOne
  rw [hc]
  dsimp only
  obtain hst | hst := hst <;> rw [hst]

theorem State.abortOne_of_admission (hc : (s.line n).ctx i = some c) (hst : c.state = .admission) :
    State.abortOne n s i = s.setCtx n i { c with abortAtAdmission := true } := by
  unfold State.abortOne
  rw [hc]
  dsimp only
  rw [hst]

theorem State.abortOne_of_settling (hc : (s.line n).ctx i = some c) (hst : c.state = .settling) :
    State.abortOne n s i = s.setCtx n i { c with abortLate := true } := by
  unfold State.abortOne
  rw [hc]
  dsimp only
  rw [hst]

theorem State.abortOne_of_posting (hc : (s.line n).ctx i = some c) (hst : c.state = .posting) :
    State.abortOne n s i = s := by
  unfold State.abortOne
  rw [hc]
  dsimp only
  rw [hst]

theorem State.ctx_setCtx_self (s : State) (n : LineId) (i : CtxId) (c : Ctx) :
    ((s.setCtx n i c).line n).ctx i = some c :=
  (congrArg (Line.ctx · i) (s.line_setCtx n i c)).trans (Line.ctx_setCtx_self _ i _)

theorem abortStep_abortOne (s : State) (n : LineId) (i : CtxId) :
    AbortStep ((s.line n).ctx i) (((State.abortOne n s i).line n).ctx i) := by
  refine ⟨fun hnone => ?_, fun c hc => ⟨fun hst => ?_, fun hst => ?_, fun hst => ?_, fun hst => ?_, fun hst => ?_⟩⟩
  · rw [State.abortOne_of_none hnone, hnone]
  · rw [State.abortOne_of_waiting hc hst]
    exact endedWith_endAborted s
  · rw [State.abortOne_of_sent hc hst]
    exact s.ctx_setCtx_self n i _
  · rw [State.abortOne_of_admission hc hst]
    exact s.ctx_setCtx_self n i _
  · rw [State.abortOne_of_settling hc hst]
    exact s.ctx_setCtx_self n i _
  · rw [State.abortOne_of_posting hc hst, hc]

/-- An abort of an aborted context changes nothing more. -/
theorem AbortStep.trans {x y z : Option Ctx} (h : AbortStep x y) (k : AbortStep y z) : AbortStep x z := by
  obtain ⟨hnone, hsome⟩ := h
  obtain ⟨knone, ksome⟩ := k
  refine ⟨fun hx => knone (hnone hx), fun c hc => ?_⟩
  obtain ⟨hwaiting, hsent, hadmission, hsettling, hposting⟩ := hsome c hc
  refine ⟨fun hst => ?_, fun hst => ?_, fun hst => ?_, fun hst => ?_, fun hst => ?_⟩
  · cases hy : y with
    | none => exact (knone hy).symm ▸ endedWith_none _
    | some d =>
      obtain ⟨hposted, hresult⟩ := hwaiting hst d hy
      obtain ⟨-, -, -, -, kposting⟩ := ksome d hy
      intro e he
      obtain rfl := Option.some.inj ((kposting hposted).symm.trans he)
      exact ⟨hposted, hresult⟩
  · obtain ⟨-, ksent, -⟩ := ksome _ (hsent hst)
    exact ksent hst
  · obtain ⟨-, -, kadmission, -⟩ := ksome _ (hadmission hst)
    exact kadmission hst
  · obtain ⟨-, -, -, ksettling, -⟩ := ksome _ (hsettling hst)
    exact ksettling hst
  · obtain ⟨-, -, -, -, kposting⟩ := ksome _ (hposting hst)
    exact kposting hst

end

/-! ### The contexts named, and the two counts -/

section
variable {s : State} {n : LineId} {h : Hand} {q0 : Cq} {sel : Ctx → Bool}

/-- R67: what an abort leaves of the contexts of the work list, named and not named. -/
theorem abortStep_forContexts {i : CtxId} {c : Ctx} (hi : i ∈ (s.line n).exch.work) (hc : (s.line n).ctx i = some c)
    (hsel : sel c = true) : AbortStep (some c) (((s.forContexts n sel (State.abortOne n)).line n).ctx i) :=
  ctx_forContexts_of_mem (fun s _ => onContext_abortOne s) (Inv := fun _ => True) (R := AbortStep) (fun _ _ _ => trivial)
    (fun s _ => abortStep_abortOne s n i) (fun _ _ _ => AbortStep.trans) trivial hi hc hsel

theorem Line.toList_contexts (l : Line) : l.exch.contexts.toList = (List.finRange 16).map l.ctx := by
  refine List.ext_getElem (by simp) fun k h1 h2 => ?_
  simp [Line.ctx]

/-- R67: the contexts counted as aborted are those in a state that can be, and the others are too late. -/
theorem Line.abortCounts_eq (l : Line) (sel : Ctx → Bool) : l.abortCounts sel =
    ((List.finRange 16).countP fun i => match l.ctx i with
      | some c => sel c && !decide (c.state = .settling) && !decide (c.state = .posting)
      | none => false,
     (List.finRange 16).countP fun i => match l.ctx i with
      | some c => sel c && (decide (c.state = .settling) || decide (c.state = .posting))
      | none => false) := by
  unfold Line.abortCounts
  rw [Line.toList_contexts, List.countP_map, List.countP_map]
  refine congrArg₂ Prod.mk (congrArg (fun p => List.countP p _) (funext fun i => ?_))
    (congrArg (fun p => List.countP p _) (funext fun i => ?_))
  all_goals
    rw [Function.comp_apply]
    cases hc : l.ctx i with
    | none => rfl
    | some c =>
      dsimp only [countCtx]
      cases c.state <;> simp [CtxState.abortable]

/-- R188: the command stays in hand while contexts end. -/
theorem State.Executing.untold {t : State} {op : Nat} (hx : s.Executing op h q0) (hu : Untold s t)
    (hcqs : ∀ i : CqId, SameCqIndices s.cqs[i] t.cqs[i]) : ∃ q, t.Executing op h q := by
  obtain ⟨hhand, hphase, hop, hcq, hact⟩ := hx
  obtain ⟨r, hr, -⟩ := hu.waiters 0 q0 hcq
  have hsame := hcqs 0
  rw [hcq, hr] at hsame
  obtain ⟨-, -, -, -, hstate, -⟩ := hsame
  exact ⟨r, hu.admin ▸ hhand, hu.admin ▸ hphase, hop, hr, hstate.trans hact⟩

/-- R66, R67, R188: an abort does what the statements say. -/
theorem abortDone_abortLine (hx : s.Executing 12 h q0) : AbortDone s (s.abortLine n sel) h n sel := by
  have hall : OnContexts n s (s.forContexts n sel (State.abortOne n)) :=
    onContexts_forContexts (fun s _ => onContext_abortOne s) s sel
  obtain ⟨-, -, -, -, hcqs⟩ := hall.only
  obtain ⟨q, hx1⟩ := hx.untold hall.untold hcqs
  have heq : s.abortLine n sel = ((s.forContexts n sel (State.abortOne n)).answered h q .ok ((s.line n).abortCounts sel).1
      ((s.line n).abortCounts sel).2 0).modLine n Line.reorder :=
    congrArg (State.modLine · n Line.reorder) (hx1.completes .ok _ _ 0)
  have hctx (i : CtxId) : ((s.abortLine n sel).line n).ctx i = ((s.forContexts n sel (State.abortOne n)).line n).ctx i := by
    rw [heq, State.line_modLine_self]
    exact (congrArg (Line.ctx · i) (Line.reorder_eq _)).trans rfl
  have hcq : (s.abortLine n sel).cqs[(0 : CqId)] = some { q with waiters := q.waiters ++
      [commandAnswer h .ok ((s.line n).abortCounts sel).1 ((s.line n).abortCounts sel).2 0] } :=
    heq ▸ (State.cq_setCq (s.forContexts n sel (State.abortOne n)) 0 0 _).trans (if_pos rfl)
  rw [Line.abortCounts_eq] at hcq
  refine ⟨⟨_, hcq, List.getLast?_concat ..⟩, heq ▸ rfl, ?_, fun i _ c hc hsel => ?_, fun i hi c hc hsel => ?_⟩
  · have hanswer := posts_completeCommand (s.forContexts n sel (State.abortOne n)) .ok ((s.line n).abortCounts sel).1
      ((s.line n).abortCounts sel).2 0
    rw [hx1.completes] at hanswer
    rw [heq]
    exact (hall.only.trans (onlyLine_of_lines hanswer rfl)).trans (onlyLine_modLine _ _)
  · exact (hctx i).trans (ctx_forContexts_of_not (fun s _ => onContext_abortOne s) hc hsel)
  · obtain ⟨-, hstep⟩ := abortStep_forContexts hi hc hsel
    rw [hctx i]
    exact hstep c rfl

end

/-! ### The three modes -/

theorem fromSq_tag (i : SqId) (tag : Half) : fromSq i (some tag) = fun c => decide (c.origin = .host i tag) := by
  funext c
  cases ho : c.origin with
  | host j k => simp [fromSq, ho]
  | poll e => simp [fromSq, ho]

theorem fromSq_whole (i : SqId) : fromSq i none = fun c => match c.origin with
    | .host j _ => decide (j = i)
    | .poll _ => false := by
  funext c
  cases ho : c.origin with
  | host j k => simp [fromSq, ho]
  | poll e => simp [fromSq, ho]

theorem exec_abortSqAndTag {s : State} {h : Hand} {q0 : Cq} (hx : s.Executing 12 h q0) (hb : admB h.record = 0) :
    exec .abortSqAndTag s = .next (s.abortSq h.record (some (admD h.record))) := by
  change execAbortSqAndTag s = _
  rw [execAbortSqAndTag, State.inHand_operation_of_executing hx hb]

theorem exec_abortWholeSq {s : State} {h : Hand} {q0 : Cq} (hx : s.Executing 12 h q0) (hb : admB h.record = 2) :
    exec .abortWholeSq s = .next (s.abortSq h.record none) := by
  change execAbortWholeSq s = _
  rw [execAbortWholeSq, State.inHand_operation_of_executing hx hb]

theorem exec_abortLineAndStation {s : State} {h : Hand} {q0 : Cq} (hx : s.Executing 12 h q0) (hb : admB h.record = 1) :
    exec .abortLineAndStation s = .next (s.abortStation (admLineId h.record) h.record) := by
  change execAbortLineAndStation s = _
  rw [execAbortLineAndStation, State.inHand_operation_of_executing hx hb]

theorem State.abortSq_of_exists {s : State} {r : List Byte} {tag : Option Half} {i : SqId} {q : Sq} {b : SqBinding}
    (hi : i.val = admA r) (h0 : i ≠ 0) (hq : s.sqs[i] = some q) (hb : q.binding = some b) :
    s.abortSq r tag = s.abortLine b.line (fromSq i tag) := by
  rw [State.abortSq, State.ioSq_of_exists hi h0 hq hb]

theorem State.abortSq_of_absent {s : State} {r : List Byte} {tag : Option Half}
    (h : admA r = 0 ∨ ∀ i : SqId, i.val = admA r → s.sqs[i] = none) : s.abortSq r tag = s.answerCommand .badQueueId := by
  rw [State.abortSq, State.ioSq_of_absent h]

/-- Settles O32. -/
theorem abortActsOnTheContextsNamed : Obligations.AbortActsOnTheContextsNamed := by
  unfold Obligations.AbortActsOnTheContextsNamed
  refine ⟨fun s h q0 i q b hx hi h0 hq hb => ⟨fun hmode => ⟨_, exec_abortSqAndTag hx hmode, ?_⟩,
      fun hmode => ⟨_, exec_abortWholeSq hx hmode, ?_⟩⟩,
    fun s h q0 hx habsent => ⟨fun hmode => ?_, fun hmode => ?_⟩,
    fun s h q0 n hx hmode hn => ⟨fun hc => ?_, fun hc => ⟨_, exec_abortLineAndStation hx hmode, ?_⟩⟩⟩
  · rw [State.abortSq_of_exists hi h0 hq hb, fromSq_tag]
    exact abortDone_abortLine hx
  · rw [State.abortSq_of_exists hi h0 hq hb, fromSq_whole]
    exact abortDone_abortLine hx
  · rw [exec_abortSqAndTag hx hmode, State.abortSq_of_absent habsent, hx.answers]
  · rw [exec_abortWholeSq hx hmode, State.abortSq_of_absent habsent, hx.answers]
  · rw [exec_abortLineAndStation hx hmode, State.abortStation, if_pos hc, hx.answers]
  · have hsel : (fun c : Ctx => decide (c.station.toNat = admC h.record)) = fun c => decide (c.station = byteAt h.record 6) :=
      funext fun c => decide_eq_decide.2 BitVec.toNat_inj
    rw [State.abortStation, if_neg (Nat.not_le.2 hc), ← hn, hsel]
    exact abortDone_abortLine hx

end Sys2Proof.Machine
end

