-- ==== Sys2Proof/Proofs/CarrierLoss.lean ====
section
/-! The loss of the carrier (R37, R65, R68, R69, R130, R132). -/

namespace Sys2Proof.Machine

/-! ### Ending contexts for want of the carrier -/

/-- An operation that ends a context: it leaves it in POSTING, unless freed, and a transmitter at rest stays at rest. -/
structure EndsContexts (n : LineId) (f : State → CtxId → State) : Prop where
  on : ∀ s i, OnContext n i s (f s i)
  posting : ∀ s i d, ((f s i).line n).ctx i = some d → d.state = .posting
  tx : ∀ s i, (s.line n).tx = .reset → ((f s i).line n).tx = .reset

section
variable {n : LineId} {f : State → CtxId → State}

theorem posting_endByCarrier (s : State) (i : CtxId) (d : Ctx) (hd : ((s.endByCarrier n i).line n).ctx i = some d) :
    d.state = .posting := by
  unfold State.endByCarrier at hd
  split at hd
  · next c _ =>
    obtain ⟨hposting, -⟩ := endedWith_endExchange (e := { status := if c.abortRequested then .aborted else .lineLost
                                                          endTime := s.timebase, byCarrier := true })
      (by dsimp only; split <;> rfl) d hd
    exact hposting
  · next hnone => exact absurd (hd.symm.trans hnone) (Option.some_ne_none d)

theorem State.tx_endByCarrier (s : State) (n : LineId) (i : CtxId) : ((s.endByCarrier n i).line n).tx = (s.line n).tx := by
  unfold State.endByCarrier
  split
  · exact ((actsOn_endExchange (n := n) (i := i) s _).posts.wires n).1
  · rfl

theorem endsContexts_endByCarrier : EndsContexts n fun s i => s.endByCarrier n i where
  on s _ := onContext_endByCarrier s
  posting s i d hd := posting_endByCarrier s i d hd
  tx s i h := (s.tx_endByCarrier n i).trans h

theorem endsContexts_withdrawn : EndsContexts n fun s i => (s.modLine n (·.withdraw i)).endByCarrier n i where
  on s i := (onContext_withdraw s i).trans (onContext_endByCarrier _)
  posting s i d hd := posting_endByCarrier (s.modLine n (·.withdraw i)) i d hd
  tx s i h := by
    refine (State.tx_endByCarrier _ n i).trans ?_
    rw [State.line_modLine_self]
    unfold Line.withdraw
    split
    · rfl
    · exact h

/-- R68, R69: the contexts in the states named end, and the others wait on. -/
theorem EndsContexts.spec (hf : EndsContexts n f) (s : State) (sel : CtxState → Bool) :
    OnContexts n s (s.forContexts n (fun c => sel c.state) f)
      ∧ ((s.line n).tx = .reset → ((s.forContexts n (fun c => sel c.state) f).line n).tx = .reset)
      ∧ (∀ i ∈ (s.line n).exch.work, ∀ d, ((s.forContexts n (fun c => sel c.state) f).line n).ctx i = some d →
          d.state = .posting ∨ sel d.state = false)
      ∧ ∀ i c, (s.line n).ctx i = some c → sel c.state = false →
          ((s.forContexts n (fun c => sel c.state) f).line n).ctx i = some c := by
  refine ⟨onContexts_forContexts hf.on s _, fun htx => ?_, fun i hi d hd => ?_,
    fun i c hc hsel => ctx_forContexts_of_not hf.on hc hsel⟩
  · rw [State.forContexts_eq]
    generalize s.chosen n (fun c => sel c.state) = xs
    induction xs generalizing s with
    | nil => exact htx
    | cons x xs ih => exact ih (f s x) (hf.tx s x htx)
  · cases hc : (s.line n).ctx i with
    | none =>
      have hnot : i ∉ s.chosen n fun c => sel c.state := by
        rw [State.chosen, List.mem_filter, hc]
        exact fun h => Bool.false_ne_true h.2
      have hsame := ctx_foldl_of_not_mem hf.on hnot s
      exact absurd (hd.symm.trans (hsame.trans hc)) (Option.some_ne_none d)
    | some c =>
      cases hsel : sel c.state with
      | false =>
        obtain rfl := Option.some.inj (hd.symm.trans (ctx_forContexts_of_not hf.on (sel := fun c => sel c.state) hc hsel))
        exact .inr hsel
      | true =>
        exact .inl (ctx_forContexts_of_mem hf.on (Inv := fun _ => True)
          (R := fun _ b => ∀ d, b = some d → d.state = .posting) (fun _ _ _ => trivial) (fun s _ => hf.posting s i)
          (fun _ _ _ _ h => h) trivial hi hc hsel d hd)

end

/-! ### The outcome of a host exchange -/

/-- A context stays on an ACTIVE CQ while other contexts of a line end. -/
theorem HostOn.of_onlyLine {s t : State} {n : LineId} {c : Ctx} {k : CqId} {q : Cq} (h : HostOn s c k q)
    (ht : OnlyLine n s t) : ∃ r, HostOn t c k r := by
  obtain ⟨hk, hq, hact, sq, tag, v, b, ho, hv, hb, hbk⟩ := h
  obtain ⟨-, -, -, hsqs, hcqs⟩ := ht
  have hsame := hcqs k
  rw [hq] at hsame
  cases hr : t.cqs[k] with
  | none => rw [hr] at hsame; exact hsame.elim
  | some r =>
    rw [hr] at hsame
    obtain ⟨-, -, -, -, hstate, -⟩ := hsame
    exact ⟨r, hk, hr, hstate.trans hact, sq, tag, v, b, ho, hsqs ▸ hv, hb, hbk⟩

/-- R68, R69: the context, whose origin and abort request are those of `c`, has ended at `now` for want of the carrier. -/
def LostAs (c : Ctx) (now : Word) (o : Option Ctx) : Prop :=
  ∃ d r, o = some d ∧ d.origin = c.origin ∧ d.abortRequested = c.abortRequested ∧ d.state = .posting ∧ d.result = some r
    ∧ r.status = (if c.abortRequested then .aborted else .lineLost) ∧ r.endTime = now

theorem lostAs_endByCarrier {s : State} {n : LineId} {i : CtxId} {c d : Ctx} {k : CqId} {q : Cq}
    (hd : (s.line n).ctx i = some d) (ho : d.origin = c.origin) (ha : d.abortRequested = c.abortRequested)
    (hon : HostOn s c k q) : LostAs c s.timebase (((s.endByCarrier n i).line n).ctx i) := by
  have hon1 : HostOn s d k q := hon.of_same rfl rfl ho
  have heq : s.endByCarrier n i = s.endExchange n i
      { status := if c.abortRequested then .aborted else .lineLost, endTime := s.timebase, byCarrier := true } := by
    rw [State.endByCarrier, hd]
    dsimp only
    rw [ha]
  obtain ⟨hctx, -⟩ := postedAs_ending
    { status := if c.abortRequested then .aborted else .lineLost, endTime := s.timebase, byCarrier := true } hd hon1
    (by cases c.abortRequested <;> exact ⟨nofun, nofun⟩)
  rw [heq]
  exact ⟨_, _, hctx, ho, ha, rfl, rfl, rfl, rfl⟩

/-- R69: a LISTENING host exchange ends where the carrier is lost in READY. -/
theorem lostAs_endActive {s : State} {n : LineId} {i : CtxId} {c : Ctx} {k : CqId} {q : Cq}
    (hi : i ∈ (s.line n).exch.work) (hc : (s.line n).ctx i = some c) (hst : c.state = .listening) (hon : HostOn s c k q) :
    LostAs c s.timebase (((s.endActive n).line n).ctx i) := by
  have hon2 : ∃ r, HostOn s c k r := ⟨q, hon⟩
  refine ctx_forContexts_of_mem (fun s _ => onContext_endByCarrier s)
    (Inv := fun u => (∃ r, HostOn u c k r) ∧ u.timebase = s.timebase)
    (R := fun a b => ∀ d, a = some d → d.origin = c.origin → d.abortRequested = c.abortRequested → LostAs c s.timebase b)
    (fun u j hu => ?_) (fun u hu d hd ho ha => ?_) (fun x y z hxy hyz d hd ho ha => ?_) ⟨hon2, rfl⟩ hi hc
    (sel := fun c => c.state.active) (congrArg CtxState.active hst) c rfl rfl rfl
  · obtain ⟨⟨r, hr⟩, htime⟩ := hu
    have honly := (onContext_endByCarrier (n := n) (i := j) u).only
    have hwindow := honly.1
    obtain ⟨-, -, -, -, -, -, -, -, -, hbase, -⟩ := hwindow
    exact ⟨hr.of_onlyLine honly, hbase.trans htime⟩
  · obtain ⟨⟨r, hr⟩, htime⟩ := hu
    exact htime ▸ lostAs_endByCarrier hd ho ha hr
  · obtain ⟨e, r, hy, ho1, ha1, -⟩ := hxy d hd ho ha
    exact hyz e hy ho1 ha1

/-! ### The loss -/

section
variable {s : State} {n : LineId}

theorem exec_carDeasserted (s : State) (n : LineId) : exec (.carDeasserted n) s = .next
    (if (s.line n).carrier = false then s
     else if (s.line n).state = .off then s.modLine n fun l => { l with carrier := false } else s.carrierLost n) := rfl

/-- R37, R130: the line right after the loss. -/
def Line.downed (l : Line) : Line :=
  { l.loseCarrier with state := if l.state = .draining then .draining else .fault }

/-- R37, R130: the part with the line down and the notice handed on. -/
def State.lineDowned (s : State) (n : LineId) : State :=
  (s.setLine n (s.line n).downed).handNotice (.lineDown n (s.line n).state)

theorem State.line_lineDowned : (s.lineDowned n).line n = (s.line n).downed :=
  (State.line_handNotice _ _ n).trans (State.line_setLine_self ..)

theorem State.noticed_lineDowned : Noticed s (s.lineDowned n) (.lineDown n (s.line n).state) :=
  (noticed_handNotice (s.setLine n (s.line n).downed) _).of_same rfl rfl rfl

theorem onlyLine_lineDowned : OnlyLine n s (s.lineDowned n) :=
  (onlyLine_setLine s n _).trans
    (onlyLine_of_lines (posts_handNotice _ _) (State.handNotice_frame (s.setLine n (s.line n).downed) _).1)

/-- R69, R132: which contexts a loss ends, by the state it meets. -/
theorem State.carrierLost_eq (s : State) (n : LineId) : s.carrierLost n = match (s.line n).state with
    | .starting => s.lineDowned n
    | .ready => (s.lineDowned n).endActive n
    | .draining =>
      if (s.line n).stop = some .drain then (s.lineDowned n).endWaiting n (fun x => x.active || x.endsInDrain)
      else (s.lineDowned n).endActive n
    | _ => s.setLine n (s.line n).downed := rfl

/-- R69, R132: the contexts a loss ends are those in states the test names; the operation ends them. -/
structure LossEnds (s t : State) (n : LineId) (sel : CtxState → Bool) : Prop where
  on : OnContexts n (s.lineDowned n) t
  tx : (t.line n).tx = .reset
  ended : ∀ i ∈ (s.line n).exch.work, ∀ d, (t.line n).ctx i = some d → d.state = .posting ∨ sel d.state = false
  kept : ∀ i c, (s.line n).ctx i = some c → sel c.state = false → (t.line n).ctx i = some c

theorem State.lost_of_ends {f : State → CtxId → State} (hf : EndsContexts n f) (sel : CtxState → Bool) :
    LossEnds s ((s.lineDowned n).forContexts n (fun c => sel c.state) f) n sel := by
  obtain ⟨hon, htx, hended, hkept⟩ := hf.spec (s.lineDowned n) sel
  rw [State.line_lineDowned] at htx hended hkept
  exact ⟨hon, htx rfl, hended, hkept⟩

theorem State.lost_of_starting : LossEnds s (s.lineDowned n) n fun _ => false :=
  ⟨.refl _, congrArg Line.tx State.line_lineDowned, fun _ _ _ _ => .inr rfl,
    fun i _ hc _ => (congrArg (Line.ctx · i) State.line_lineDowned).trans hc⟩

/-- R37, R130: what a loss does to the line whatever contexts it ends. -/
theorem LossEnds.line {t : State} {sel : CtxState → Bool} (h : LossEnds s t n sel) :
    (t.line n).rx = (s.line n).rx.stop ∧ (t.line n).carrier = false ∧ (t.line n).exch.settle = none
      ∧ (t.line n).state = (if (s.line n).state = .draining then .draining else .fault)
      ∧ (t.line n).stop = (s.line n).stop ∧ (t.line n).config = (s.line n).config
      ∧ Noticed s t (.lineDown n (s.line n).state) ∧ OnlyLine n s t := by
  have field {α : Type} (f : Line → α) := congrArg f (State.line_lineDowned (s := s) (n := n))
  exact ⟨h.on.rx.trans (field Line.rx), h.on.carrier.trans (field Line.carrier), h.on.settle.trans (field (·.exch.settle)),
    h.on.state.trans (field Line.state), h.on.stop.trans (field Line.stop), h.on.config.trans (field Line.config),
    State.noticed_lineDowned.untold h.on.untold, onlyLine_lineDowned.trans h.on.only⟩

/-- R132: the states ended where a drain loses its carrier. -/
def CtxState.endsAtLoss (x : CtxState) : Bool := x.active || x.endsInDrain

/-- R69, R132: the states a loss ends, by the line's state and stop. -/
def Line.endsAtLoss (l : Line) (x : CtxState) : Bool :=
  match l.state with
  | .starting => false
  | .draining => if l.stop = some .drain then x.endsAtLoss else x.active
  | _ => x.active

theorem Line.inactive_of_endsAtLoss {l : Line} {x : CtxState} (hst : l.state ≠ .starting) (h : l.endsAtLoss x = false) :
    x.active = false := by
  unfold Line.endsAtLoss at h
  split at h
  · next hs => exact absurd hs hst
  · split at h
    · exact (Bool.or_eq_false_iff.1 h).1
    · exact h
  · exact h

theorem Line.endsAtLoss_of_inactive {l : Line} {x : CtxState} (hst : l.state = .ready ∨ l.stop = some .immediate)
    (h : x.active = false) : l.endsAtLoss x = false := by
  unfold Line.endsAtLoss
  split
  · rfl
  · next hs =>
    obtain hready | hstop := hst
    · exact LineState.noConfusion (hs.symm.trans hready)
    · rw [hstop, if_neg nofun]
      exact h
  · exact h

theorem State.carrierLost_spec (hst : (s.line n).state = .starting ∨ (s.line n).state = .ready
    ∨ (s.line n).state = .draining) : LossEnds s (s.carrierLost n) n (s.line n).endsAtLoss := by
  obtain h | h | h := hst
  · have hsel : (s.line n).endsAtLoss = fun _ => false := by
      funext x
      rw [Line.endsAtLoss, h]
    rw [State.carrierLost_eq, h, hsel]
    exact State.lost_of_starting
  · have hsel : (s.line n).endsAtLoss = CtxState.active := by
      funext x
      rw [Line.endsAtLoss, h]
    rw [State.carrierLost_eq, h, hsel]
    exact State.lost_of_ends endsContexts_endByCarrier CtxState.active
  · rw [State.carrierLost_eq, h]
    by_cases hstop : (s.line n).stop = some .drain
    · have hsel : (s.line n).endsAtLoss = CtxState.endsAtLoss := by
        funext x
        rw [Line.endsAtLoss, h]
        exact if_pos hstop
      rw [hsel]
      dsimp only
      rw [if_pos hstop]
      exact State.lost_of_ends endsContexts_withdrawn CtxState.endsAtLoss
    · have hsel : (s.line n).endsAtLoss = CtxState.active := by
        funext x
        rw [Line.endsAtLoss, h]
        exact if_neg hstop
      rw [hsel]
      dsimp only
      rw [if_neg hstop]
      exact State.lost_of_ends endsContexts_endByCarrier CtxState.active

end

/-- Settles O52. -/
theorem carrierLossStopsTheLine : Obligations.CarrierLossStopsTheLine := by
  unfold Obligations.CarrierLossStopsTheLine
  rintro s n l rfl
  have hexec := exec_carDeasserted s n
  refine ⟨fun hno => hexec.trans (congrArg Host.Outcome.next (if_pos hno)), fun hcar hoff => ?_, fun hcar hst => ?_⟩
  · refine hexec.trans (congrArg Host.Outcome.next ((if_neg ?_).trans (if_pos hoff)))
    exact fun h => Bool.noConfusion (h.symm.trans hcar)
  · have hlost := State.carrierLost_spec hst
    obtain ⟨hrx, hcarrier, hsettle, hstate, hstop, hconfig, hnoticed, honly⟩ := hlost.line
    have hnotoff : (s.line n).state ≠ .off := fun h => by rw [h] at hst; exact hst.elim nofun (·.elim nofun nofun)
    refine ⟨s.carrierLost n, hexec.trans (congrArg Host.Outcome.next ((if_neg ?_).trans (if_neg hnotoff))), hlost.tx, hrx,
      hcarrier, hsettle, hstate, hstop, hconfig, hnoticed, honly, fun hns i hi d hd => ?_, fun hkeep i hi c hc hact => ?_,
      fun hdrain hkind i hi d hd => ?_, fun i hi c k q hc hlisten hon hready => ?_⟩
    · exact fun h => Bool.noConfusion (h.symm.trans hcar)
    · obtain hposting | hno := hlost.ended i hi d hd
      · rw [hposting]
        rfl
      · exact Line.inactive_of_endsAtLoss hns hno
    · exact hlost.kept i c hc (Line.endsAtLoss_of_inactive hkeep hact)
    · obtain hposting | hno := hlost.ended i hi d hd
      · rw [hposting]
        exact ⟨nofun, nofun⟩
      · rw [Line.endsAtLoss, hdrain] at hno
        have hends : d.state.endsAtLoss = false := (if_pos hkind).symm.trans hno
        refine ⟨fun h => ?_, fun x h => ?_⟩ <;> rw [h] at hends <;> exact Bool.noConfusion hends
    · have hline := State.line_lineDowned (s := s) (n := n)
      obtain ⟨r, hon1⟩ := hon.of_onlyLine onlyLine_lineDowned
      obtain ⟨d, x, hd, -, -, hposting, hresult, hstatus, htime⟩ := lostAs_endActive (s := s.lineDowned n)
        (by rw [hline]; exact hi) (by rw [hline]; exact hc) hlisten hon1
      have hwindow := (onlyLine_lineDowned (s := s) (n := n)).1
      obtain ⟨-, -, -, -, -, -, -, -, -, hbase, -⟩ := hwindow
      have heq : s.carrierLost n = (s.lineDowned n).endActive n := by rw [State.carrierLost_eq, hready]
      exact ⟨d, x, heq ▸ hd, hposting, hresult, hstatus, htime.trans hbase⟩

end Sys2Proof.Machine
end

