-- ==== Sys2Proof/Proofs/Stops.lean ====
section
/-! STOP_LINE and the completion of a stop (R121, R122, R132 to R139). -/

namespace Sys2Proof.Machine

/-! ### The contexts an immediate stop meets -/

/-- R135: no context is left to be sent, and one on the wire has its abort asked for. -/
def StoppedAs (o : Option Ctx) : Prop :=
  ∀ c, o = some c → c.state ≠ .queued ∧ c.state ≠ .retryWait ∧ (∀ x, c.state ≠ .holding x)
    ∧ (c.state = .talking ∨ c.state = .listening → c.abortRequested = true)

section
variable {s : State} {n : LineId} {i : CtxId} {c : Ctx}

/-- R135: a context in admission, settling or posting is no matter of the stop. -/
def CtxState.Passed (x : CtxState) : Prop := x = .admission ∨ x = .settling ∨ x = .posting

theorem stoppedAs_none : StoppedAs none := fun c hc => absurd hc.symm (Option.some_ne_none c)

theorem stoppedAs_of_passed {o : Option Ctx} (h : ∀ c, o = some c → c.state.Passed) : StoppedAs o := by
  intro c hc
  have hpassed := h c hc
  refine ⟨fun k => ?_, fun k => ?_, fun x k => ?_, fun k => ?_⟩
  · rw [k] at hpassed
    exact hpassed.elim nofun (·.elim nofun nofun)
  · rw [k] at hpassed
    exact hpassed.elim nofun (·.elim nofun nofun)
  · rw [k] at hpassed
    exact hpassed.elim nofun (·.elim nofun nofun)
  · obtain k | k := k <;> rw [k] at hpassed <;> exact hpassed.elim nofun (·.elim nofun nofun)

theorem stoppedAs_some (h : c.state.Passed) : StoppedAs (some c) :=
  stoppedAs_of_passed fun _ hd => Option.some.inj hd ▸ h

theorem AbortStep.stopped {a b : Option Ctx} (h : AbortStep a b) : StoppedAs b := by
  obtain ⟨hnone, hsome⟩ := h
  cases a with
  | none =>
    rw [hnone rfl]
    exact stoppedAs_none
  | some c =>
    obtain ⟨hwaiting, hsent, hadmission, hsettling, hposting⟩ := hsome c rfl
    have hended (hst : c.state = .queued ∨ c.state = .retryWait ∨ ∃ x, c.state = .holding x) : StoppedAs b :=
      stoppedAs_of_passed fun d hd => .inr (.inr (hwaiting hst d hd).1)
    have hmarked (hst : c.state = .talking ∨ c.state = .listening) : StoppedAs b := by
      rw [hsent hst]
      intro d hd
      obtain rfl := Option.some.inj hd
      refine ⟨fun h => ?_, fun h => ?_, fun x h => ?_, fun _ => rfl⟩
      all_goals
        rw [show c.state = _ from h] at hst
        exact hst.elim nofun nofun
    cases hst : c.state with
    | queued => exact hended (.inl hst)
    | retryWait => exact hended (.inr (.inl hst))
    | holding x => exact hended (.inr (.inr ⟨x, hst⟩))
    | talking => exact hmarked (.inl hst)
    | listening => exact hmarked (.inr hst)
    | admission =>
      rw [hadmission hst]
      exact stoppedAs_some (.inl hst)
    | settling =>
      rw [hsettling hst]
      exact stoppedAs_some (.inr (.inl hst))
    | posting =>
      rw [hposting hst]
      exact stoppedAs_some (.inr (.inr hst))

theorem onContext_stopOne (s : State) : OnContext n i s (State.stopOne n s i) := by
  unfold State.stopOne
  split
  · split
    · exact onContext_setCtx s _
    · exact onContext_abortOne s
  · exact .refl s

theorem stoppedAs_stopOne (s : State) (n : LineId) (i : CtxId) : StoppedAs (((State.stopOne n s i).line n).ctx i) := by
  unfold State.stopOne
  split
  · split
    · next hst =>
      rw [s.ctx_setCtx_self]
      exact stoppedAs_some (.inr (.inl hst))
    · exact (abortStep_abortOne s n i).stopped
  · next hnone =>
    rw [hnone]
    exact stoppedAs_none

/-- R135: what an immediate stop leaves of the contexts of the work list. -/
theorem stoppedAs_stopContexts (hi : i ∈ (s.line n).exch.work) : StoppedAs (((s.stopContexts n).line n).ctx i) := by
  have hon : ∀ s i, OnContext n i s (State.stopOne n s i) := fun s _ => onContext_stopOne s
  cases hc : (s.line n).ctx i with
  | none =>
    have hnot : i ∉ s.chosen n fun c => decide (c.state ≠ .admission) := by
      rw [State.chosen, List.mem_filter, hc]
      exact fun h => Bool.false_ne_true h.2
    rw [State.stopContexts, State.forContexts_eq, ctx_foldl_of_not_mem hon hnot s, hc]
    exact stoppedAs_none
  | some c =>
    by_cases hst : c.state = .admission
    · rw [State.stopContexts, ctx_forContexts_of_not hon hc (decide_eq_false (not_not.2 hst))]
      exact stoppedAs_some (.inl hst)
    · exact ctx_forContexts_of_mem hon (Inv := fun _ => True) (R := fun _ b => StoppedAs b) (fun _ _ _ => trivial)
        (fun s _ => stoppedAs_stopOne s n i) (fun _ _ _ _ h => h) trivial hi hc (decide_eq_true hst)

end

/-! ### Settlement -/

section
variable {s : State} {n : LineId} {cfg : LineConfig}

theorem exch_keptByMonitor (e : ExchangeUnit) : KeptByMonitor n fun s => (s.line n).exch = e where
  line s l hl h := by
    rw [State.line_setLine_self]
    exact (congrArg Line.exch hl).trans h
  bq _ _ h := h
  port _ _ _ h := h
  discard s k h := by
    rw [State.discard_eq rfl, State.line_setLine_self]
    exact h
  join s k r h := by
    unfold State.joinCq
    split
    · split
      · exact h
      · rw [State.discard_eq rfl, State.line_setLine_self]
        exact h
    · rw [State.posterDone_of_line rfl, State.line_modLine_self]
      exact h

/-- R121: the staged request is withdrawn from the request list. -/
def State.unstaged (s : State) (n : LineId) : State :=
  match s.bqs[n] with
  | some q =>
    if q.requests.contains .staged then
      (s.setBq n (some { q with requests := [] })).modLine n (·.setMon fun m => { m with slot := .empty })
    else s
  | none => s

theorem State.beginSettlement_of_monitor (hmode : cfg.mode = .monitor) : s.beginSettlement n cfg =
    ((s.unstaged n).modLine n (·.setMon fun m => { m with settlement := .settling })).runMonitor n := if_pos hmode

theorem State.beginSettlement_of_master (hmode : cfg.mode = .master) : s.beginSettlement n cfg =
    s.modLine n (·.setMon fun m => { m with settlement := .settled }) :=
  if_neg fun h => Mode.noConfusion (hmode.symm.trans h)

theorem State.unstaged_frame : OnlyLine n s (s.unstaged n) ∧ Untold s (s.unstaged n)
    ∧ ((s.unstaged n).line n).exch = (s.line n).exch ∧ SameWire (s.line n) ((s.unstaged n).line n) := by
  unfold State.unstaged
  split
  · next q _ =>
    split
    · have hline := State.line_modLine_self (s.setBq n (some { q with requests := [] })) n
        (·.setMon fun m => { m with slot := .empty })
      refine ⟨(onlyLine_of_lines (posts_setBq s n _) rfl).trans (onlyLine_modLine _ _), .of_same rfl rfl,
        (congrArg Line.exch hline).trans rfl, ?_⟩
      rw [hline]
      exact sameWire_setMon _ _
    · exact ⟨.refl s, .refl s, rfl, SameWire.refl _⟩
  · exact ⟨.refl s, .refl s, rfl, SameWire.refl _⟩

/-- R121: the settlement is a matter of monitor capture. -/
theorem State.beginSettlement_frame : OnlyLine n s (s.beginSettlement n cfg) ∧ Untold s (s.beginSettlement n cfg)
    ∧ ((s.beginSettlement n cfg).line n).exch = (s.line n).exch
    ∧ SameWire (s.line n) ((s.beginSettlement n cfg).line n) := by
  have hset (u : State) (f : Monitor → Monitor) : OnlyLine n u (u.modLine n (·.setMon f))
      ∧ Untold u (u.modLine n (·.setMon f))
      ∧ ((u.modLine n (·.setMon f)).line n).exch = (u.line n).exch
      ∧ SameWire (u.line n) ((u.modLine n (·.setMon f)).line n) := by
    rw [State.line_modLine_self]
    exact ⟨onlyLine_modLine u _, untold_modLine u n _, rfl, sameWire_setMon _ f⟩
  unfold State.beginSettlement
  split
  · change OnlyLine n s (((s.unstaged n).modLine n (·.setMon fun m => { m with settlement := .settling })).runMonitor n) ∧ _
    obtain ⟨h1, h2, h3, h4⟩ := State.unstaged_frame (s := s) (n := n)
    obtain ⟨k1, k2, k3, k4⟩ := hset (s.unstaged n) fun m => { m with settlement := .settling }
    exact ⟨h1.trans (k1.trans (onlyLine_runMonitor _)), h2.trans (k2.trans (untold_runMonitor _ n)),
      (exch_keptByMonitor _).runMonitor (k3.trans h3), h4.trans (k4.trans ((posts_runMonitor _ n).wires n))⟩
  · exact hset s _

/-! ### Accepting a stop -/

/-- R133: the line right after a stop of this kind is accepted. -/
def Line.stopping (l : Line) (k : StopKind) : Line := { l with state := .draining, stop := some k, stopEnded := 0 }

/-- R132, R135: the part with the stop's contexts ended or marked, before monitor capture settles. -/
def State.stopAccepted (s : State) (n : LineId) : StopKind → State
  | .drain => if (s.line n).carrier then s.setLine n ((s.line n).stopping .drain)
    else (s.setLine n ((s.line n).stopping .drain)).endDrained n
  | .immediate => (s.setLine n ((s.line n).stopping .immediate)).stopContexts n

theorem State.acceptStop_eq (s : State) (n : LineId) (cfg : LineConfig) (k : StopKind) :
    s.acceptStop n cfg k = (s.stopAccepted n k).beginSettlement n cfg := by
  cases k <;> rfl

/-- R132: a drain leaves the contexts to run on while the carrier is present. -/
theorem State.stopAccepted_of_carrier (h : (s.line n).carrier = true) :
    s.stopAccepted n .drain = s.setLine n ((s.line n).stopping .drain) := if_pos h

theorem State.stopAccepted_of_no_carrier (h : ¬(s.line n).carrier = true) :
    s.stopAccepted n .drain = (s.setLine n ((s.line n).stopping .drain)).endDrained n := if_neg h

theorem State.stopAccepted_onContexts (s : State) (n : LineId) (k : StopKind) :
    OnContexts n (s.setLine n ((s.line n).stopping k)) (s.stopAccepted n k) := by
  cases k with
  | drain =>
    by_cases hcar : (s.line n).carrier = true
    · rw [State.stopAccepted_of_carrier hcar]
      exact .refl _
    · rw [State.stopAccepted_of_no_carrier hcar]
      exact onContexts_forContexts endsContexts_withdrawn.on _ _
  | immediate => exact onContexts_forContexts (fun s _ => onContext_stopOne s) _ _

/-- With no context at work a stop only changes the line's state. -/
theorem State.stopAccepted_of_idle {k : StopKind} (hwork : (s.line n).exch.work = []) :
    s.stopAccepted n k = s.setLine n ((s.line n).stopping k) := by
  have hnone (sel : Ctx → Bool) (f : State → CtxId → State) :
      (s.setLine n ((s.line n).stopping k)).forContexts n sel f = s.setLine n ((s.line n).stopping k) := by
    have hchosen : (s.setLine n ((s.line n).stopping k)).chosen n sel = [] := by
      rw [State.chosen, State.line_setLine_self, Line.stopping, hwork]
      rfl
    rw [State.forContexts_eq, hchosen]
    rfl
  cases k with
  | drain =>
    by_cases hcar : (s.line n).carrier = true
    · exact State.stopAccepted_of_carrier hcar
    · exact (State.stopAccepted_of_no_carrier hcar).trans (hnone _ _)
  | immediate => exact hnone _ _

/-- What the acceptance of a stop leaves, and what it does to the line. -/
theorem State.acceptStop_frame (s : State) (n : LineId) (cfg : LineConfig) (k : StopKind) :
    OnlyLine n s (s.acceptStop n cfg k) ∧ Untold s (s.acceptStop n cfg k)
      ∧ ((s.acceptStop n cfg k).line n).state = .draining ∧ ((s.acceptStop n cfg k).line n).stop = some k
      ∧ ((s.acceptStop n cfg k).line n).exch = ((s.stopAccepted n k).line n).exch := by
  rw [State.acceptStop_eq]
  have hon := s.stopAccepted_onContexts n k
  have hline := State.line_setLine_self s n ((s.line n).stopping k)
  obtain ⟨honly, huntold, hexch, -, -, hstate, -, hstop, -⟩ :=
    State.beginSettlement_frame (s := s.stopAccepted n k) (n := n) (cfg := cfg)
  have hset : Untold s (s.setLine n ((s.line n).stopping k)) := .of_same rfl rfl
  exact ⟨(onlyLine_setLine s n _).trans (hon.only.trans honly), hset.trans (hon.untold.trans huntold),
    hstate.trans (hon.state.trans (congrArg Line.state hline)), hstop.trans (hon.stop.trans (congrArg Line.stop hline)), hexch⟩

end

/-! ### STOP_LINE -/

/-- The kind of stop the command asks for. -/
def Hand.stopKind (h : Hand) : StopKind := if admB h.record = 0 then .drain else .immediate

section
variable {s : State} {n : LineId} {h : Hand} {q0 : Cq} {cfg : LineConfig}

theorem exec_stopLine (hx : s.Executing 7 h q0) (hn : n = admLineId h.record) :
    exec .stopLine s = .next (s.stopLine n h.stopKind) := by
  change execStopLine s = _
  rw [execStopLine, State.inHand_of_executing hx, hn]
  rfl

theorem State.stopLine_of_off (hst : (s.line n).state = .off) (k : StopKind) : s.stopLine n k = s.answerCommand .ok := by
  rw [State.stopLine, hst]

theorem State.stopLine_of_draining (hst : (s.line n).state = .draining) (k : StopKind) :
    s.stopLine n k = s.answerCommand .lineBusy := by
  rw [State.stopLine, hst]

theorem onlyLine_pended (w : PendingWork) : OnlyLine n s (s.pended h w) :=
  onlyLine_of_lines (posts_modAdmin s fun _ => (s.pended h w).admin) rfl

/-- R133: a stop of a line that is up is accepted and waits in the pending list. -/
theorem State.stopLine_of_up (hx : s.Executing 7 h q0) (hoff : (s.line n).state ≠ .off)
    (hdrain : (s.line n).state ≠ .draining) (hcfg : (s.line n).config = some cfg) (k : StopKind) :
    s.stopLine n k = (s.acceptStop n cfg k).pended h (.stopLine n) := by
  have heq : s.stopLine n k = (s.acceptStop n cfg k).pendCommand (.stopLine n) := by
    unfold State.stopLine
    rw [hcfg]
    cases hst : (s.line n).state with
    | off => exact absurd hst hoff
    | draining => exact absurd hst hdrain
    | _ => rfl
  obtain ⟨-, huntold, -⟩ := s.acceptStop_frame n cfg k
  rw [heq]
  exact State.pendCommand_eq_pended (huntold.admin ▸ hx.1) _

end

/-! ### The settlement of a line with no exchange at work -/

section
variable {s : State} {n : LineId} {cfg : LineConfig} {l : Line} {b : Bq}

theorem State.unstaged_of_staged (hb : s.bqs[n] = some b) (h : .staged ∈ b.requests) : (s.setLine n l).unstaged n =
    (s.setBq n (some { b with requests := [] })).setLine n { l with mon := { l.mon with slot := .empty } } := by
  have hb1 : (s.setLine n l).bqs[n] = some b := hb
  unfold State.unstaged
  rw [hb1]
  exact (if_pos (List.contains_iff_mem.2 h)).trans (State.modLine_setLine (s.setBq n _) n l _)

theorem State.unstaged_of_not_staged (hb : s.bqs[n] = some b) (h : .staged ∉ b.requests) :
    (s.setLine n l).unstaged n = s.setLine n l := by
  have hb1 : (s.setLine n l).bqs[n] = some b := hb
  unfold State.unstaged
  rw [hb1]
  exact if_neg (mt List.contains_iff_mem.1 h)

section
variable (hcfg : l.config = some cfg) (hmode : cfg.mode = .monitor) (hst : l.state = .draining)
include hcfg hmode hst

/-- R122: in DRAINING with nothing to deliver monitor capture settles, unless it waits for a promised buffer. -/
theorem State.monitorMove_of_drained (hlist : l.mon.list = []) : (s.setLine n l).monitorMove n =
    if l.mon.settlement = .settling ∧ l.mon.slot ≠ .requested then some ((s.setLine n l).settleSlot n cfg.lineCq)
    else none := by
  have hline := State.line_setLine_self s n l
  rw [State.monitorMove_of_nil (cfg := cfg) (by rw [hline]; exact hcfg) hmode
    (by rw [hline]; exact fun h => LineState.not_staging_of_draining hst h.1) (by rw [hline]; exact hlist), hline]
  exact if_congr (and_iff_right hst) rfl rfl

theorem State.monitorMove_of_settles (hlist : l.mon.list = []) (hslot : l.mon.slot = .empty)
    (hset : l.mon.settlement = .settling) : (s.setLine n l).monitorMove n =
      some (s.setLine n { l with mon := { l.mon with settlement := .settled } }) := by
  have hsettle : (s.setLine n l).settleSlot n cfg.lineCq =
      s.setLine n { l with mon := { l.mon with settlement := .settled } } := by
    rw [State.settleSlot, State.line_setLine_self, hslot]
    exact State.modLine_setLine s n l _
  rw [State.monitorMove_of_drained hcfg hmode hst hlist, if_pos ⟨hset, by rw [hslot]; exact nofun⟩, hsettle]

theorem State.monitorMove_of_settled (hlist : l.mon.list = []) (hset : l.mon.settlement ≠ .settling) :
    (s.setLine n l).monitorMove n = none :=
  (State.monitorMove_of_drained hcfg hmode hst hlist).trans (if_neg fun h => hset h.1)

/-- R122: with no buffer held the line is settled. -/
theorem State.runMonitor_of_settles (hlist : l.mon.list = []) (hslot : l.mon.slot = .empty)
    (hset : l.mon.settlement = .settling) :
    (s.setLine n l).runMonitor n = s.setLine n { l with mon := { l.mon with settlement := .settled } } :=
  State.runMonitor_of_one_move (State.monitorMove_of_settles hcfg hmode hst hlist hslot hset)
    (State.monitorMove_of_settled (l := { l with mon := { l.mon with settlement := .settled } }) hcfg hmode hst hlist nofun)

/-- R122: a promised buffer is awaited. -/
theorem State.runMonitor_of_awaits (hlist : l.mon.list = []) (hslot : l.mon.slot = .requested) :
    (s.setLine n l).runMonitor n = s.setLine n l := by
  refine State.runMonitor_of_stands ?_
  rw [State.monitorMove_of_drained hcfg hmode hst hlist]
  exact if_neg fun h => h.2 hslot

/-- R122: a buffer held is handed back. -/
theorem State.runMonitor_of_returns {d : Descriptor} {c : Cq} (hlist : l.mon.list = []) (hslot : l.mon.slot = .held d)
    (hset : l.mon.settlement = .settling) (hc : s.cqs[cfg.lineCq] = some c) (hact : c.state = .active) :
    (s.setLine n l).runMonitor n = (s.setLine n { l with mon := { l.mon with settlement := .returning } }).setCq cfg.lineCq
      (some { c with waiters := c.waiters ++
        [{ poster := .bufferReturn n, record := .line (returnRecord n d s.timebase) }] }) := by
  let l1 : Line := { l with mon := { l.mon with settlement := .returning } }
  have hsettle : (s.setLine n l).settleSlot n cfg.lineCq = (s.setLine n l1).setCq cfg.lineCq
      (some { c with waiters := c.waiters ++
        [{ poster := .bufferReturn n, record := .line (returnRecord n d s.timebase) }] }) := by
    have hc1 : (s.setLine n l1).cqs[cfg.lineCq] = some c := hc
    rw [State.settleSlot, State.line_setLine_self, hslot]
    dsimp only
    rw [State.modLine_setLine]
    exact joinCq_active hc1 hact _
  refine State.runMonitor_of_one_move (t := (s.setLine n l1).setCq cfg.lineCq
    (some { c with waiters := c.waiters ++
      [{ poster := .bufferReturn n, record := .line (returnRecord n d s.timebase) }] })) ?_ ?_
  · rw [State.monitorMove_of_drained hcfg hmode hst hlist, if_pos ⟨hset, by rw [hslot]; exact nofun⟩, hsettle]
  · have hmove := State.monitorMove_of_drained (s := s.setCq cfg.lineCq (some { c with waiters := c.waiters ++
      [{ poster := .bufferReturn n, record := .line (returnRecord n d s.timebase) }] })) (n := n) (l := l1) hcfg hmode hst hlist
    exact hmove.trans (if_neg fun h => nomatch h.1)

/-- R121: a head block that finds no buffer is dropped and counted, and the line is settled. -/
theorem State.runMonitor_of_drops {head : MonBlock} (hlist : l.mon.list = [head]) (hslot : l.mon.slot = .empty)
    (hphase : l.mon.phase = .idle ∨ l.mon.phase = .bufferWait) (hset : l.mon.settlement = .settling)
    (hno : ∀ q, s.bqs[n] = some q → q.promisable = false) : (s.setLine n l).runMonitor n = s.setLine n
      { l with
        mon := { l.mon with list := [], phase := .idle, settlement := .settled, lost := min 255 (l.mon.lost + 1) }
        counters := { l.counters with monitorLost := min 4294967295 (l.counters.monitorLost + 1) } } := by
  have hline := State.line_setLine_self s n l
  have hdrop : l.dropHead =
      { l with
        mon := { l.mon with list := [], phase := .idle, lost := min 255 (l.mon.lost + 1) }
        counters := { l.counters with monitorLost := min 4294967295 (l.counters.monitorLost + 1) } } := by
    rw [← bump_eq_min, ← tally_eq_min, Line.dropHead, Line.leaveHead, hlist]
    rfl
  have hmove : (s.setLine n l).monitorMove n = some (s.setLine n l.dropHead) := by
    rw [State.monitorMove_of_cons (cfg := cfg) (by rw [hline]; exact hcfg) hmode
      (by rw [hline]; exact fun h => LineState.not_staging_of_draining hst h.1) (by rw [hline]; exact hlist), State.headMove,
      hline, if_pos hphase, hslot]
    refine (if_pos hst).trans (congrArg some ?_)
    have hno1 : ∀ q, (s.setLine n l).bqs[n] = some q → q.promisable = false := hno
    rw [State.headAsks, State.requestBuffer_of_none hno1]
    exact State.modLine_setLine s n l _
  rw [hdrop] at hmove
  exact State.runMonitor_of_two_moves hmove
    (State.monitorMove_of_settles (l := { l with
      mon := { l.mon with list := [], phase := .idle, lost := min 255 (l.mon.lost + 1) }
      counters := { l.counters with monitorLost := min 4294967295 (l.counters.monitorLost + 1) } })
      hcfg hmode hst rfl hslot hset)
    (State.monitorMove_of_settled (l := { l with
      mon := { l.mon with list := [], phase := .idle, settlement := .settled, lost := min 255 (l.mon.lost + 1) }
      counters := { l.counters with monitorLost := min 4294967295 (l.counters.monitorLost + 1) } })
      hcfg hmode hst rfl nofun)

end

end

/-! ### A MONITOR line with no exchange at work -/

section
variable {s : State} {n : LineId} {h : Hand} {q0 : Cq} {cfg : LineConfig} {b : Bq}

/-- R121: the line as its settlement begins. -/
def Line.asked (l : Line) : Line := { l with mon := { l.mon with settlement := .settling } }

/-- R121: the line as its settlement begins with its waiting request withdrawn. -/
def Line.unasked (l : Line) : Line := { l with mon := { l.mon with slot := .empty, settlement := .settling } }

/-- R121, R133: a stop of an idle MONITOR line is the settlement of its draining line. -/
theorem exec_stopLine_of_monitor (hx : s.Executing 7 h q0) (hn : n = admLineId h.record) (hcfg : (s.line n).config = some cfg)
    (hmode : cfg.mode = .monitor) (hoff : (s.line n).state ≠ .off) (hdrain : (s.line n).state ≠ .draining)
    (hwork : (s.line n).exch.work = []) : exec .stopLine s = .next (State.pended
      ((((s.setLine n ((s.line n).stopping h.stopKind)).unstaged n).modLine n
        (·.setMon fun m => { m with settlement := .settling })).runMonitor n) h (.stopLine n)) := by
  rw [exec_stopLine hx hn, State.stopLine_of_up hx hoff hdrain hcfg, State.acceptStop_eq, State.stopAccepted_of_idle hwork,
    State.beginSettlement_of_monitor hmode]

theorem State.settling_of_staged {l : Line} (hb : s.bqs[n] = some b) (h : .staged ∈ b.requests) :
    ((s.setLine n l).unstaged n).modLine n (·.setMon fun m => { m with settlement := .settling }) =
      (s.setBq n (some { b with requests := [] })).setLine n l.unasked := by
  rw [State.unstaged_of_staged hb h]
  exact State.modLine_setLine (s.setBq n (some { b with requests := [] })) n _ _

theorem State.settling_of_not_staged {l : Line} (hb : s.bqs[n] = some b) (h : .staged ∉ b.requests) :
    ((s.setLine n l).unstaged n).modLine n (·.setMon fun m => { m with settlement := .settling }) =
      s.setLine n l.asked := by
  rw [State.unstaged_of_not_staged hb h]
  exact State.modLine_setLine s n l _

end

/-! ### Completion of the stop -/

section
variable {s : State} {n : LineId}

theorem exec_stopComplete : exec (.stopComplete n) s = .next
    (if (s.line n).stopDone then (s.modLine n Line.off).finishPending (.stopLine n) (s.line n).stopEnded else s) := rfl

/-- R138: when a stop is done. -/
theorem Line.stopDone_iff (l : Line) : l.stopDone = true ↔
    l.state = .draining ∧ (∀ i, l.ctx i = none) ∧ l.exch.lent = none ∧ l.mon.settlement = .settled := by
  have hall : l.exch.contexts.toList.all (·.isNone) = true ↔ ∀ i, l.ctx i = none := by
    rw [Line.toList_contexts, List.all_map, List.all_eq_true]
    exact ⟨fun h i => Option.isNone_iff_eq_none.1 (h i (List.mem_finRange i)),
      fun h i _ => Option.isNone_iff_eq_none.2 (h i)⟩
  rw [Line.stopDone, Bool.and_eq_true, Bool.and_eq_true, Bool.and_eq_true, hall, decide_eq_true_iff, decide_eq_true_iff,
    decide_eq_true_iff, and_assoc, and_assoc]

end

/-- Settles O26. -/
theorem stopLineDrainsToOff : Obligations.StopLineDrainsToOff := by
  unfold Obligations.StopLineDrainsToOff
  refine ⟨fun s h q0 n cfg hx hn => ⟨?_, ?_, ?_, ?_, ?_⟩, fun s n l hl => ⟨?_, ?_⟩⟩
  · rintro l m b c rfl hcfg hmode hoff hdrain hwork hb hc hact - rfl
    have hexec := exec_stopLine_of_monitor hx hn hcfg hmode hoff hdrain hwork
    refine ⟨fun d hlist hslot hin => ?_, fun hlist hslot hin => ?_, fun hlist hslot hin => ?_,
      fun head hlist hslot hin hphase hno => ?_⟩
    · rw [hexec, State.settling_of_not_staged hb hin,
        State.runMonitor_of_returns (l := ((s.line n).stopping h.stopKind).asked)
          hcfg hmode rfl hlist hslot rfl hc hact]
      rfl
    · rw [hexec, State.settling_of_staged hb hin,
        State.runMonitor_of_settles (l := ((s.line n).stopping h.stopKind).unasked)
          hcfg hmode rfl hlist rfl rfl]
      rfl
    · rw [hexec, State.settling_of_not_staged hb hin,
        State.runMonitor_of_awaits (l := ((s.line n).stopping h.stopKind).asked)
          hcfg hmode rfl hlist hslot]
      rfl
    · have hnone : ∀ q, (s.setBq n (some { b with requests := [] })).bqs[n] = some q → q.promisable = false := by
        intro q hq
        rw [State.bq_setBq, if_pos rfl] at hq
        obtain rfl := Option.some.inj hq
        exact Bq.not_promisable hno
      rw [hexec, State.settling_of_staged hb hin,
        State.runMonitor_of_drops (l := ((s.line n).stopping h.stopKind).unasked)
          hcfg hmode rfl hlist rfl hphase rfl hnone]
      rfl
  · intro hst
    rw [exec_stopLine hx hn, State.stopLine_of_off hst, hx.answers]
  · intro hst
    rw [exec_stopLine hx hn, State.stopLine_of_draining hst, hx.answers]
  · intro hcfg hmode hb hcar hoff hdrain
    have hkind : h.stopKind = .drain := if_pos hb
    rw [exec_stopLine hx hn, State.stopLine_of_up hx hoff hdrain hcfg, hkind, State.acceptStop_eq,
      State.stopAccepted_of_carrier hcar, State.beginSettlement_of_master hmode, State.modLine_setLine]
    rfl
  · intro hcfg hoff hdrain
    obtain ⟨honly, huntold, hstate, hstop, hexch⟩ := s.acceptStop_frame n cfg h.stopKind
    refine ⟨(s.acceptStop n cfg h.stopKind).pended h (.stopLine n), ?_, hstate, rfl, rfl, ?_, hstop,
      honly.trans (onlyLine_pended _), fun hb i hi c hc => ?_⟩
    · rw [exec_stopLine hx hn, State.stopLine_of_up hx hoff hdrain hcfg]
    · rw [State.pended, huntold.admin]
    · have hkind : h.stopKind = .immediate := if_neg hb
      rw [hkind] at hexch hc
      have hctx : ((s.acceptStop n cfg .immediate).line n).ctx i =
          (((s.setLine n ((s.line n).stopping .immediate)).stopContexts n).line n).ctx i :=
        congrArg (fun e : ExchangeUnit => e.contexts[i]) hexch
      have hwork : i ∈ ((s.setLine n ((s.line n).stopping .immediate)).line n).exch.work := by
        rw [State.line_setLine_self]
        exact hi
      exact stoppedAs_stopContexts hwork c (hctx.symm.trans hc)
  · intro q0 before later e hst hfree hlent hset hcq hact hlist hw hf hbefore
    subst hl
    rw [exec_stopComplete, if_pos ((Line.stopDone_iff _).2 ⟨hst, hfree, hlent, hset⟩)]
    exact congrArg Host.Outcome.next
      (State.finishPending_eq_pendingOver (s := s.setLine n (s.line n).off) hcq hact hlist hw hf hbefore _)
  · intro hnot
    subst hl
    have hnotDone : ¬(s.line n).stopDone = true := by
      intro hdone
      obtain ⟨hst, hfree, hlent, hset⟩ := (Line.stopDone_iff _).1 hdone
      obtain hne | ⟨i, c, hc⟩ | hne | hne := hnot
      · exact hne hst
      · exact Option.some_ne_none c (hc.symm.trans (hfree i))
      · exact hne hlent
      · exact hne hset
    rw [exec_stopComplete, if_neg hnotDone]

end Sys2Proof.Machine
end
